-- ==== Sys2Proof/Word.lean ====
section
/-! DEFINITION. The word types of the hub: bytes, frame tags, cell time, and the indices of ports and slots. -/

namespace Sys2Proof

/-- One byte on the uplink, on a camera cable or in the frame store. -/
abbrev Byte := BitVec 8

/-- A 16-bit frame tag (R103). -/
abbrev FrameTag := BitVec 16

/-- Cell time in µs, 48 bits, wrapping (R97). -/
abbrev CellTime := BitVec 48

/-- A camera port, 0 to 5 (00_scope, Conventions). -/
abbrev Port := Fin 6

/-- A shot slot index, 0 to 15 (R74). -/
abbrev SlotIx := Fin 16

/-- A pose zone, 0 to 31 (R134). -/
abbrev Zone := Fin 32

end Sys2Proof
end

