-- ==== Sys2Proof/Syntax.lean ====
section
/-! DEFINITION. The commands the hub takes: one constructor of `Instr` for each row of spec/opcode_table.json, with the
operands the manual gives it, and the shapes of the records and camera words the operands carry. -/

namespace Sys2Proof

/-- One value for each lens axis, in the order the layouts use (R193). -/
structure PerAxis (α : Type) where
  focus : α
  iris  : α
  zoom  : α
deriving DecidableEq, Repr

/-- What a host command record carries beside its kind: header port and tag, and the payload bytes (R192).
The record has passed the length and CRC checks of R171 (DEDUCED, log 4). -/
structure Cmd where
  port    : Byte
  tag     : BitVec 16
  payload : List Byte
deriving DecidableEq, Repr

/-- Travel limits of one axis as a HELLO word carries them (R5, R196). -/
structure TravelField where
  lo : BitVec 16
  hi : BitVec 16
deriving DecidableEq, Repr

/-- A HELLO word (R5, R196). -/
structure HelloWord where
  model   : BitVec 16
  maxLine : BitVec 16
  axisSet : Byte
  travel  : PerAxis TravelField
deriving DecidableEq, Repr

/-- A LINE word (R5, R196); its payload length is that of `payload`. -/
structure LineWord where
  tag     : FrameTag
  line    : BitVec 16
  payload : List Byte
  crc     : BitVec 16
deriving DecidableEq, Repr

/-- An EOF word (R5, R196). -/
structure EofWord where
  tag   : FrameTag
  lines : BitVec 16
deriving DecidableEq, Repr

/-- One axis's entry of a LENS_STATUS word (R5, R196). -/
structure LensEntry where
  actual : BitVec 16
  moving : Byte
  lo     : BitVec 16
  hi     : BitVec 16
deriving DecidableEq, Repr

/-- A LENS_STATUS word from a camera (R5, R196). -/
structure LensStatusWord where
  axisSet : Byte
  axes    : PerAxis LensEntry
deriving DecidableEq, Repr

/-- The commands: one constructor per row of spec/opcode_table.json, in the table's order. -/
inductive Instr where
  | linkRetrain (c : Cmd)
  | linkSetup (c : Cmd)
  | portInfo (c : Cmd)
  | portReset (c : Cmd)
  | powerOn (c : Cmd)
  | powerOff (c : Cmd)
  | powerSetup (c : Cmd)
  | budgetSet (c : Cmd)
  | powerStatus (c : Cmd)
  | presetWrite (c : Cmd)
  | presetRead (c : Cmd)
  | presetGo (c : Cmd)
  | lensPush (c : Cmd)
  | lensPop (c : Cmd)
  | lensMove (c : Cmd)
  | lensSetup (c : Cmd)
  | lensStatus (c : Cmd)
  | slotWrite (c : Cmd)
  | tableHeader (c : Cmd)
  | tableCommit (c : Cmd)
  | tableRead (c : Cmd)
  | cycleRun (c : Cmd)
  | cycleFire (c : Cmd)
  | cycleStop (c : Cmd)
  | cycleStatus (c : Cmd)
  | timeSet (c : Cmd)
  | timeRead (c : Cmd)
  | storeSetup (c : Cmd)
  | storeStatus (c : Cmd)
  | imageHold (c : Cmd)
  | imageResume (c : Cmd)
  | deliveryStatus (c : Cmd)
  | pose (c : Cmd)
  | zoneSetup (c : Cmd)
  | zoneRead (c : Cmd)
  | zoneClear (c : Cmd)
  | echoSetup (c : Cmd)
  | cableMapWrite (c : Cmd)
  | cableMapRead (c : Cmd)
  | baselineLearn (c : Cmd)
  | baselineWrite (c : Cmd)
  | baselineRead (c : Cmd)
  | echoResult (c : Cmd)
  | hunt (c : Cmd)
  | hubReset (c : Cmd)
  | identify (c : Cmd)
  | uplinkStatus (c : Cmd)
  | routeSet (c : Cmd)
  | routeRead (c : Cmd)
  | eventAck (c : Cmd)
  /-- A record that passed R171 and whose kind byte is not a command kind (R172). -/
  | badKindRecord (kind : Byte) (c : Cmd)
  /-- The bytes of a whole record as the link delivered them (R171). -/
  | recordDiscard (raw : List Byte)
  | pinReset
  | uplinkUp
  | uplinkDown
  | controlRecordSent
  | imageRecordSent
  /-- The levels of encoder phases A and B after the change (R82). -/
  | encoderEdge (a b : Bool)
  | triggerLineEdge
  /-- The 12-bit converter code of one port's sample (R24). -/
  | currentSample (p : Port) (code : BitVec 12)
  | inrushExpire (p : Port)
  | cooldownExpire (p : Port)
  | onTimerExpire (p : Port)
  | dischargeExpire (p : Port)
  | lockGained (p : Port)
  | lockLost (p : Port)
  | acquireTimeout (p : Port)
  | relockExpire (p : Port)
  | helloWord (p : Port) (w : HelloWord)
  | lineWord (p : Port) (w : LineWord)
  | eofWord (p : Port) (w : EofWord)
  | lensStatusWord (p : Port) (w : LensStatusWord)
  /-- The bytes of an upstream word, type byte first (R196). -/
  | undecodableWord (p : Port) (raw : List Byte)
  | downstreamWordEnd (p : Port)
  | moveTimeout (p : Port)
  | spanExpire
  | slotOpen (i : SlotIx)
  | guardExpire (i : SlotIx)
  | exposureEnd (i : SlotIx)
  /-- The window of the port's FILLING frame expires (R115). -/
  | frameWindowExpire (p : Port)
  /-- The 256 signed samples of one shot (R149). -/
  | echoShot (samples : Vector (BitVec 12) 256)
  | echoJobComplete
deriving DecidableEq, Repr

end Sys2Proof
end

