-- ==== Sys2Proof/Config.lean ====
section
/-! DEFINITION. What the part fixes (counts and lengths the manual states as numbers) and the model's free values. -/

namespace Sys2Proof.Config

/-- Bytes of one page of the frame store (R100). -/
abbrev pageBytes : Nat := 65536

/-- Pages of the frame store (R100). -/
abbrev pageCount : Nat := 4096

/-- Frame descriptors (R101). -/
abbrev descriptorCount : Nat := 24

/-- Places of the control queue (R176). -/
abbrev queuePlaces : Nat := 32

/-- The most credits outstanding at once (R177). -/
abbrev maxCredits : Nat := 4

/-- The greatest payload length of an uplink record (R171, R192). -/
abbrev maxPayload : Nat := 16448

/-- The greatest value of a 16-bit saturating count. -/
abbrev max16 : Nat := 65535

/-- The greatest value of a bin's line count (R136). -/
abbrev max32 : Nat := 4294967295

/-- FREE VALUE (DESIGN CHOICE, log 6). When a pending report and a credit both want a place of the control queue and the free places do
not suffice for all that want one, this says whether the credit is taken first. R176: "Either may be taken first." -/
opaque creditFirst : Nat → Bool

/-- FREE VALUE (DESIGN CHOICE, log 7). The bytes of reply fields that the manual calls not meaningful (R69, R80, R96). -/
opaque openByte : Nat → Byte

end Sys2Proof.Config
end

