-- ==== Sys2Proof/Machine/State.lean ====
section
/-! DEFINITION. Everything the manual gives the hub as state, as plain data, and the state right after a pin reset. -/

namespace Sys2Proof.Machine

/-- One value for each camera port. -/
structure PerPort (α : Type) where
  p0 : α
  p1 : α
  p2 : α
  p3 : α
  p4 : α
  p5 : α
deriving DecidableEq, Repr

/-- The value of one port. -/
def PerPort.get {α : Type} (v : PerPort α) (p : Port) : α :=
  match p.val with
  | 0 => v.p0
  | 1 => v.p1
  | 2 => v.p2
  | 3 => v.p3
  | 4 => v.p4
  | _ => v.p5

/-- Replace the value of one port. -/
def PerPort.set {α : Type} (v : PerPort α) (p : Port) (a : α) : PerPort α :=
  match p.val with
  | 0 => { v with p0 := a }
  | 1 => { v with p1 := a }
  | 2 => { v with p2 := a }
  | 3 => { v with p3 := a }
  | 4 => { v with p4 := a }
  | _ => { v with p5 := a }

/-- The same value at every port. -/
def PerPort.all {α : Type} (a : α) : PerPort α := ⟨a, a, a, a, a, a⟩

/-- A timer: stopped, or running with so many µs left. -/
abbrev Timer := Option Nat

/-! ## Camera ports and cable links (01) -/

/-- R8. -/
inductive LinkState where
  | down | acquire | up | relock | failed
deriving DecidableEq, Repr

/-- FULL 3.0 Gb/s, HALF 1.5 Gb/s. -/
inductive Rate where
  | full | half
deriving DecidableEq, Repr

/-- Causes of LINK_CHANGE (R17). -/
inductive LinkCause where
  | powerOn | acquired | timeout | fallback | relockExpired | cameraRestart | powerOff | retrain | reset
deriving DecidableEq, Repr

/-- Travel limits of one lens axis. -/
structure Limits where
  lo : Nat
  hi : Nat
deriving DecidableEq, Repr

/-- The camera record (R7); an axis is present when it has limits. -/
structure CameraRecord where
  model      : BitVec 16
  maxLine    : BitVec 16
  travel     : PerAxis (Option Limits)
  receivedAt : CellTime
deriving DecidableEq, Repr

/-- A downstream word (R2). A LENS_MOVE names the axes that carry a target. -/
inductive DownWord where
  | trigger (tag : FrameTag) (exposure : Nat)
  | lensMove (targets : PerAxis (Option Nat))
  | retrain (rate : Rate)
deriving DecidableEq, Repr

/-- The word on the cable (R2, R3): the time it has left, and whether its TRIGGER was already reported not sent (R4). -/
structure OnCable where
  word     : DownWord
  left     : Nat
  reported : Bool
deriving DecidableEq, Repr

/-- The record of one port link unit (01, the table before R8). -/
structure Link where
  state        : LinkState := .down
  rate         : Rate := .full
  threshold    : Nat := 4
  sinceUp      : Nat := 0
  total        : Nat := 0
  wordErrors   : Nat := 0
  lastChange   : CellTime := 0
  camera       : Option CameraRecord := none
  locked       : Bool := false
  acquireTimer : Timer := none
  relockWindow : Timer := none
  words        : List DownWord := []
  cable        : Option OnCable := none
deriving DecidableEq, Repr

/-! ## Camera power and the cell budget (02) -/

/-- R22. -/
inductive PowerState where
  | off | precharge | on | cooldown | lockedOut | hunt
deriving DecidableEq, Repr

/-- Last trip cause (02, the power record). -/
inductive TripCause where
  | none | overcurrent | short | inrush | shortLocated
deriving DecidableEq, Repr

/-- The seven fields that POWER_SETUP writes (R39). -/
structure PowerSetup where
  limit       : Nat := 500
  inrush      : Nat := 20
  tripSamples : Nat := 5
  retries     : Nat := 3
  cooldown    : Nat := 500
  surge       : Nat := 0
  autoHunt    : Bool := false
deriving DecidableEq, Repr

/-- The power record of one port (02). -/
structure Power where
  state          : PowerState := .off
  setup          : PowerSetup := {}
  retriesUsed    : Nat := 0
  heldSurge      : Nat := 0
  overCount      : Nat := 0
  last           : Nat := 0
  peak           : Nat := 0
  cause          : TripCause := .none
  trips          : Nat := 0
  discharged     : Bool := false
  restore        : Bool := false
  inrushTimer    : Timer := none
  cooldownTimer  : Timer := none
  onTimer        : Timer := none
  dischargeTimer : Timer := none
deriving DecidableEq, Repr

/-! ## Lens settings (03) -/

/-- R50. -/
inductive MoveState where
  | idle | deferred | moving | settled | stalled
deriving DecidableEq, Repr

/-- Last done cause (R47). -/
inductive DoneCause where
  | none | settled | stall
deriving DecidableEq, Repr

/-- One present axis of a lens record (R47). -/
structure AxisRecord where
  limits : Limits
  target : Option Nat
  actual : Option Nat
  moving : Bool
deriving DecidableEq, Repr

/-- A valid lens record (R47), with the move timeout of R58. -/
structure LensRecord where
  axes      : PerAxis (Option AxisRecord)
  moveState : MoveState
  moved     : PerAxis Bool
  progress  : Nat
  doneCause : DoneCause
  doneTime  : CellTime
  timeout   : Timer
deriving DecidableEq, Repr

/-- A preset or a stack entry: a target for some of the axes (R62, R65). -/
abbrev Targets := PerAxis (Option Nat)

/-- The lens setup (R68). -/
structure LensSetup where
  tolerance   : Nat := 4
  settleCount : Nat := 3
  moveTimeout : Nat := 1000
deriving DecidableEq, Repr

/-- No axis has a target: an empty preset (R62). -/
def Targets.empty : Targets := ⟨none, none, none⟩

/-- What the lens controller keeps for one port; the head of the stack is its top. -/
structure Lens where
  record   : Option LensRecord := none
  presets  : Vector Targets 16 := Vector.replicate 16 Targets.empty
  stack    : List Targets := []
  overflow : Bool := false
  setup    : LensSetup := {}
deriving DecidableEq, Repr

/-! ## The shot cycle (04) -/

/-- R75. -/
inductive StartSource where
  | encoder | line | command
deriving DecidableEq, Repr

/-- A slot record (R74). -/
structure SlotRecord where
  enabled   : Bool := false
  port      : Port := 0
  offset    : Nat := 0
  exposure  : Nat := 1000
  guardTime : Nat := 0
  window    : Nat := 100
  preset    : Option (Fin 16) := none
  lines     : Nat := 1024
  lineBytes : Nat := 2048
deriving DecidableEq, Repr

/-- The header of a shot table (R75). -/
structure TableHeader where
  source : StartSource := .command
  pitch  : Nat := 1000
  span   : Nat := 100000
deriving DecidableEq, Repr

/-- A shot table (R74, R75). -/
structure ShotTable where
  header : TableHeader := {}
  slots  : Vector SlotRecord 16 := Vector.replicate 16 {}
deriving DecidableEq, Repr

/-- 04, the scheduler's own record. -/
inductive CycleState where
  | stopped | armed | running
deriving DecidableEq, Repr

/-- R90, R94. -/
inductive SkipReason where
  | power | hunt | link | portBusy | store | stopped
deriving DecidableEq, Repr

/-- The outcome of a slot (R89). -/
inductive SlotOutcome where
  | fired
  | late
  | skipped (r : SkipReason)
deriving DecidableEq, Repr

/-- The counters of one slot index (R95). -/
structure SlotStats where
  fired   : Nat := 0
  late    : Nat := 0
  skipped : Nat := 0
  last    : Option (SlotOutcome × BitVec 32) := none
deriving DecidableEq, Repr

/-- Where an opened slot stands: in GUARD with so many µs left, or OFFERED (R89). -/
inductive FlightStage where
  | waiting (left : Nat)
  | offered
deriving DecidableEq, Repr

/-- A slot in GUARD or OFFERED (R89), with what it needs until it is DONE (DEDUCED, log 21). -/
structure Flight where
  slot     : SlotIx
  port     : Port
  tag      : FrameTag
  cycle    : BitVec 32
  exposure : Nat
  late     : Bool
  stage    : FlightStage
deriving DecidableEq, Repr

/-- The shot scheduler's state (R75, R81 to R95). -/
structure Shot where
  staged       : ShotTable := {}
  active       : Option ShotTable := none
  pending      : Option ShotTable := none
  cycle        : CycleState := .stopped
  stopAfter    : Bool := false
  number       : BitVec 32 := 0
  startTime    : CellTime := 0
  span         : Timer := none
  nextStart    : BitVec 32 := 0
  missed       : Nat := 0
  opening      : Vector Timer 16 := Vector.replicate 16 none
  exposureEnds : Vector Timer 16 := Vector.replicate 16 none
  flights      : List Flight := []
  stats        : Vector SlotStats 16 := Vector.replicate 16 {}
deriving DecidableEq, Repr

/-- The cell timebase (R82, R97). -/
structure Timebase where
  cellTime : CellTime := 0
  position : BitVec 32 := 0
  illegal  : Nat := 0
  phaseA   : Bool := false
  phaseB   : Bool := false
deriving DecidableEq, Repr

/-! ## The frame store (05) -/

/-- R101. -/
inductive FrameState where
  | filling | queued | sending
deriving DecidableEq, Repr

/-- R107. -/
inductive CloseStatus where
  | complete | eofShort | timeout | linkLost | powerLost
deriving DecidableEq, Repr

/-- The lens at the TRIGGER (R61, R105). -/
structure LensSnapshot where
  actuals   : PerAxis (Option Nat)
  moveState : MoveState
deriving DecidableEq, Repr

/-- A frame descriptor in use (R102). `received` is the received-line set with its bad marks, by line number ascending. -/
structure Frame where
  tag         : FrameTag
  port        : Port
  slot        : SlotIx
  cycle       : BitVec 32
  lines       : Nat
  lineBytes   : Nat
  pages       : List Nat
  exposedAt   : Option CellTime := none
  zone        : Option Zone := none
  lens        : Option LensSnapshot := none
  received    : List (Nat × Bool) := []
  badList     : List Nat := []
  lensLate    : Bool := false
  badLines    : Bool := false
  overlong    : Bool := false
  eofCount    : Option Nat := none
  state       : FrameState := .filling
  closeStatus : Option CloseStatus := none
  closeTime   : Option CellTime := none
  windowMs    : Nat
  window      : Timer := none
deriving DecidableEq, Repr

/-- Bytes of the frame-store DRAM in canonical form: addresses rising, no byte 0 listed (DESIGN CHOICE, log 14). -/
abbrev Memory := List Host.Cell

/-- The frame store controller's state (R100 to R103, R110, R118). -/
structure Store where
  frames     : List Frame := []
  tagCounter : FrameTag := 0
  lowMark    : Nat := 512
  strays     : PerPort Nat := PerPort.all 0
  duplicates : PerPort Nat := PerPort.all 0
  dram       : Memory := []
deriving DecidableEq, Repr

/-! ## Frame delivery (06) -/

/-- The kind of a SENDING frame's next record (R125). -/
inductive NextRecord where
  | frameOpen | line | close
deriving DecidableEq, Repr

/-- The status of a FRAME_CLOSE (R128). -/
inductive DeliveryStatus where
  | delivered | aborted
deriving DecidableEq, Repr

/-- The sending progress record (R125). -/
structure Progress where
  next      : NextRecord := .frameOpen
  nextLine  : Option Nat := none
  linesSent : Nat := 0
  abort     : Bool := false
  inTx      : Bool := false
deriving DecidableEq, Repr

/-- The delivery arbiter's state for one port (R123, R125, R129, R130); frames are named by their tags. -/
structure Delivery where
  fifo      : List FrameTag := []
  progress  : Option Progress := none
  hold      : Bool := false
  delivered : Nat := 0
  aborted   : Nat := 0
  lost      : Nat := 0
deriving DecidableEq, Repr

/-! ## Error zones (07) -/

/-- R136. -/
inductive SuspectCause where
  | rate | drops
deriving DecidableEq, Repr

/-- A zone bin (R136); it is suspect when `suspect` holds a cause and a time. -/
structure Bin where
  lines   : Nat := 0
  bad     : Nat := 0
  drops   : Nat := 0
  suspect : Option (SuspectCause × CellTime) := none
deriving DecidableEq, Repr

/-- The zone setup of a port (R136, R143). -/
structure ZoneSetup where
  minLines      : Nat := 100000
  rateThreshold : Nat := 50
  dropThreshold : Nat := 3
deriving DecidableEq, Repr

/-- The error zone map of one port (R134, R136). -/
structure ZoneMap where
  current : Zone := 0
  bins    : Vector Bin 32 := Vector.replicate 32 {}
  setup   : ZoneSetup := {}
deriving DecidableEq, Repr

/-! ## Echo location and break hunts (08) -/

/-- R147. -/
inductive EchoKind where
  | learn | hunt | auto
deriving DecidableEq, Repr

/-- R162. -/
inductive EchoOutcome where
  | noFault | openFault | shortFault | aborted
deriving DecidableEq, Repr

/-- R161. -/
inductive Place where
  | segment (k offset : Nat)
  | joint (k : Nat)
  | beyondMap
  | unmapped
deriving DecidableEq, Repr

/-- 256 values, one for each ns after the launch (R149, R153). -/
abbrev Trace := Vector Int 256

/-- The fields of a result that only OPEN and SHORT carry (R162). -/
structure Finding where
  crossing  : Nat
  delay     : Nat
  distance  : Nat
  place     : Place
  magnitude : Nat
  clipped   : Bool
deriving DecidableEq, Repr

/-- A result record (R162). -/
structure EchoResult where
  kind        : EchoKind
  outcome     : EchoOutcome
  finding     : Option Finding
  averaging   : Nat
  differences : Option Trace
  time        : CellTime
deriving DecidableEq, Repr

/-- The echo settings of a port (R151). -/
structure EchoSettings where
  averaging   : Nat := 4
  blanking    : Nat := 8
  threshold   : Nat := 96
  velocity    : Nat := 198
  jointWindow : Nat := 100
deriving DecidableEq, Repr

/-- A segment of a cable map (R152). -/
structure Segment where
  length : Nat
  label  : Byte
deriving DecidableEq, Repr

/-- What the echo locator keeps for one port (R151 to R153, R162). -/
structure EchoPort where
  settings : EchoSettings := {}
  map      : List Segment := []
  baseline : Option Trace := none
  last     : Option EchoResult := none
deriving DecidableEq, Repr

/-- The job the sampler runs, with what it read at the take (R149); `due` is the time to the next shot or to the end. -/
structure EchoJob where
  port     : Port
  kind     : EchoKind
  settings : EchoSettings
  map      : List Segment
  baseline : Option Trace
  shots    : Nat
  sums     : Trace
  due      : Nat
deriving DecidableEq, Repr

/-- The echo locator's state (R147, R148); the oldest queued job stands first. -/
structure Echo where
  ports   : PerPort EchoPort := PerPort.all {}
  queue   : List (Port × EchoKind) := []
  sampler : Option EchoJob := none
deriving DecidableEq, Repr

/-! ## Event routing (10) -/

/-- The five sources each port has (10, the routing table). -/
inductive PortSource where
  | powerFault | linkChange | lensDone | huntDone | zoneSuspect
deriving DecidableEq, Repr

/-- The four global sources. -/
inductive GlobalSource where
  | cycleOverrun | slotSkipped | storeLow | uplinkError
deriving DecidableEq, Repr

/-- One of the 34 event sources. -/
inductive Source where
  | ofPort (p : Port) (k : PortSource)
  | ofHub (g : GlobalSource)
deriving DecidableEq, Repr

/-- A routing entry (10); its pending flag is its place in `Router.order`. -/
structure Entry where
  masked   : Bool := true
  tag      : Byte := 0
  awaiting : Bool := false
  count    : Nat := 0
  detail   : Option (List Byte) := none
deriving DecidableEq, Repr

/-- The routing entries of one port. -/
structure PortEntries where
  powerFault  : Entry := {}
  linkChange  : Entry := {}
  lensDone    : Entry := {}
  huntDone    : Entry := {}
  zoneSuspect : Entry := {}
deriving DecidableEq, Repr

/-- The event router's state: 34 entries and the pending order. -/
structure Router where
  ports        : PerPort PortEntries := PerPort.all {}
  cycleOverrun : Entry := {}
  slotSkipped  : Entry := {}
  storeLow     : Entry := {}
  uplinkError  : Entry := {}
  order        : List Source := []
deriving DecidableEq, Repr

/-! ## The uplink (09) -/

/-- An uplink record less its CRC (R192). -/
structure Rec where
  kind    : Byte
  port    : Byte
  tag     : BitVec 16
  payload : List Byte
deriving DecidableEq, Repr

/-- A control record (R176): a reply, or a report with its source and the count of firings it carries. -/
inductive CtrlRec where
  | reply (r : Rec)
  | report (src : Source) (count : Nat) (r : Rec)
deriving DecidableEq, Repr

/-- What the transmitter is sending (R178): the control queue's head, or an image record of the frame named (none once a
HUB_RESET has discarded that frame), with the status when it is a FRAME_CLOSE. -/
inductive Tx where
  | control
  | image (frame : Option FrameTag) (closing : Option DeliveryStatus) (r : Rec)
deriving DecidableEq, Repr

/-- R171. -/
inductive DiscardCause where
  | noCredit | length | crc
deriving DecidableEq, Repr

/-- The uplink controller's state (R170, R171, R176 to R178). -/
structure Uplink where
  up        : Bool := false
  linkUps   : Nat := 0
  noCredit  : Nat := 0
  badLength : Nat := 0
  badCrc    : Nat := 0
  queue     : List CtrlRec := []
  credits   : Nat := 0
  tx        : Option Tx := none
deriving DecidableEq, Repr

/-! ## The whole hub -/

/-- All the state the manual gives the hub, and `draws`, the model's counter of free values drawn (DESIGN CHOICE, log 6, log 7). -/
structure Hub where
  time     : Timebase := {}
  links    : PerPort Link := PerPort.all {}
  power    : PerPort Power := PerPort.all {}
  budget   : Nat := 0
  lenses   : PerPort Lens := PerPort.all {}
  deferred : List Port := []
  shot     : Shot := {}
  store    : Store := {}
  delivery : PerPort Delivery := PerPort.all {}
  rotation : List Port := [0, 1, 2, 3, 4, 5]
  zones    : PerPort ZoneMap := PerPort.all {}
  echo     : Echo := {}
  router   : Router := {}
  uplink   : Uplink := {}
  draws    : Nat := 0
deriving DecidableEq, Repr

/-- The length of the discharge timer in µs (R30). -/
abbrev dischargeTime : Nat := 20000

/-- The hub right after a pin reset: every block as its chapter says (R181), each discharge timer just started (R23). -/
def Hub.reset : Hub := { power := PerPort.all { dischargeTimer := some dischargeTime } }

/-- The hub and the queue of commands that wait to be taken, first in, first out. -/
structure State extends Hub where
  pending : List Instr := []
deriving DecidableEq, Repr

/-- The state right after reset: no command waits. -/
def State.reset : State := { toHub := Hub.reset, pending := [] }

/-- The same queue with another hub. -/
def State.withHub (s : State) (h : Hub) : State := { s with toHub := h }

/-- Reasons to stop with a fault. The manual gives the hub none: it answers every command with a status and ignores an event
that cannot occur (DESIGN CHOICE, log 28), so no meaning raises one. -/
inductive Fault where
deriving DecidableEq, Repr

/-- Reasons to refuse a command. -/
inductive Refusal where
  /-- Raised by an arm of `exec` whose command has no meaning yet; safe. No arm of this model raises it. -/
  | notModelled (mnemonic : String)
deriving DecidableEq, Repr

/-- The outcome of a command or a step. -/
abbrev Result := Host.Outcome State Fault Refusal

/-- Answer the next state with the hub changed and the queue kept: every meaning is of this form. -/
def State.next (s : State) (h : Hub) : Result := .next (s.withHub h)

end Sys2Proof.Machine
end

