-- ==== Sys2Proof/Machine/Ops.lean ====
section
/-! DEFINITION. Named operations over the state: saturating counts, ranges, axes and ports, the frame-store DRAM, one named
update per field of the hub, and the passing of time. -/

namespace Sys2Proof.Machine

/-! ## Numbers -/

/-- One more, saturating at `top`. -/
def satInc (top n : Nat) : Nat := min top (n + 1)

/-- Bring a quantity into a range (R175). -/
def clampTo (lo hi v : Nat) : Nat := min hi (max lo v)

/-- Bring a quantity into a stepped range (R175): a value between steps becomes the step below. -/
def clampStep (lo hi step v : Nat) : Nat := clampTo lo hi v / step * step

/-- `n` smallest-first numbers from `k`. -/
def countFrom (k : Nat) : Nat → List Nat
  | 0 => []
  | n + 1 => k :: countFrom (k + 1) n

/-! ## Tables of fixed length, over lists, so that the kernel evaluates them -/

/-- Apply a function to each value of a table. -/
def vmap {α β : Type} {n : Nat} (f : α → β) (v : Vector α n) : Vector β n :=
  ⟨⟨v.toList.map f⟩, by simp⟩

/-- Combine two tables value by value. -/
def vzip {α β γ : Type} {n : Nat} (f : α → β → γ) (v : Vector α n) (w : Vector β n) : Vector γ n :=
  ⟨⟨List.zipWith f v.toList w.toList⟩, by simp⟩

/-- A table from its values by index. -/
def vtab {α : Type} {n : Nat} (f : Fin n → α) : Vector α n := ⟨⟨(List.finRange n).map f⟩, by simp⟩

/-- Change one value of a table. -/
def vmod {α : Type} {n : Nat} (v : Vector α n) (i : Fin n) (f : α → α) : Vector α n := v.set i (f (v.get i))

/-! ## Ports and axes -/

/-- The six ports in order. -/
def allPorts : List Port := [0, 1, 2, 3, 4, 5]

/-- The sixteen slot indices in order. -/
def allSlots : List SlotIx := [0, 1, 2, 3, 4, 5, 6, 7, 8, 9, 10, 11, 12, 13, 14, 15]

/-- Change the value of one port. -/
def PerPort.mod {α : Type} (v : PerPort α) (p : Port) (f : α → α) : PerPort α := v.set p (f (v.get p))

/-- Change the value of every port. -/
def PerPort.map {α β : Type} (f : α → β) (v : PerPort α) : PerPort β :=
  ⟨f v.p0, f v.p1, f v.p2, f v.p3, f v.p4, f v.p5⟩

/-- The six values in port order. -/
def PerPort.toList {α : Type} (v : PerPort α) : List α := [v.p0, v.p1, v.p2, v.p3, v.p4, v.p5]

end Sys2Proof.Machine

namespace Sys2Proof

/-- Apply a function to each axis. -/
def PerAxis.map {α β : Type} (f : α → β) (v : PerAxis α) : PerAxis β := ⟨f v.focus, f v.iris, f v.zoom⟩

/-- Combine two values axis by axis. -/
def PerAxis.zip {α β γ : Type} (f : α → β → γ) (v : PerAxis α) (w : PerAxis β) : PerAxis γ :=
  ⟨f v.focus w.focus, f v.iris w.iris, f v.zoom w.zoom⟩

/-- The three values in the order FOCUS, IRIS, ZOOM (R193). -/
def PerAxis.toList {α : Type} (v : PerAxis α) : List α := [v.focus, v.iris, v.zoom]

/-- Whether some axis of a set is in it. -/
def PerAxis.any (v : PerAxis Bool) : Bool := v.focus || v.iris || v.zoom

/-- Whether every axis passes. -/
def PerAxis.every (v : PerAxis Bool) : Bool := v.focus && v.iris && v.zoom

end Sys2Proof

namespace Sys2Proof.Machine

/-! ## Frame-store DRAM (R100, R111; DESIGN CHOICE, log 14) -/

/-- The byte at an address; a byte never written reads 0. -/
def Memory.read : Memory → Nat → Byte
  | [], _ => 0
  | (a, b) :: m, k => if a = k then b else Memory.read m k

/-- Write one byte, keeping the canonical form. -/
def Memory.write : Memory → Nat → Byte → Memory
  | [], k, v => if v = 0 then [] else [(k, v)]
  | (a, b) :: m, k, v =>
    if k < a then (if v = 0 then (a, b) :: m else (k, v) :: (a, b) :: m)
    else if k = a then (if v = 0 then m else (k, v) :: m)
    else (a, b) :: Memory.write m k v

/-- The canonical form: addresses strictly rising, and no byte equal to what an unlisted address reads as. -/
abbrev Memory.wf (m : Memory) : Prop := m.Pairwise (fun x y => x.1 < y.1) ∧ ∀ c ∈ m, c.2 ≠ 0

/-- The address of byte `k` of a frame's run of pages (R100, R111). -/
def pageAddress (pages : List Nat) (k : Nat) : Option Nat :=
  (pages[k / Config.pageBytes]?).map fun pg => pg * Config.pageBytes + k % Config.pageBytes

/-- Write bytes from place `k` of a run of pages on. -/
def Memory.writeRun (pages : List Nat) : Memory → Nat → List Byte → Memory
  | m, _, [] => m
  | m, k, b :: bs =>
    match pageAddress pages k with
    | some a => Memory.writeRun pages (Memory.write m a b) (k + 1) bs
    | none => Memory.writeRun pages m (k + 1) bs

/-- The byte at place `k` of a run of pages. -/
def Memory.readRun (pages : List Nat) (m : Memory) (k : Nat) : Byte :=
  match pageAddress pages k with
  | some a => Memory.read m a
  | none => 0

/-! ## One named update per field of the hub -/

/-- Change the timebase. -/
def Hub.modTime (f : Timebase → Timebase) (h : Hub) : Hub := { h with time := f h.time }

/-- Change one port's link record. -/
def Hub.modLink (p : Port) (f : Link → Link) (h : Hub) : Hub := { h with links := h.links.mod p f }

/-- Change one port's power record. -/
def Hub.modPower (p : Port) (f : Power → Power) (h : Hub) : Hub := { h with power := h.power.mod p f }

/-- Write the cell budget. -/
def Hub.setBudget (n : Nat) (h : Hub) : Hub := { h with budget := n }

/-- Change what the lens controller keeps for one port. -/
def Hub.modLens (p : Port) (f : Lens → Lens) (h : Hub) : Hub := { h with lenses := h.lenses.mod p f }

/-- Write the deferred move list. -/
def Hub.setDeferred (l : List Port) (h : Hub) : Hub := { h with deferred := l }

/-- Change the scheduler's state. -/
def Hub.modShot (f : Shot → Shot) (h : Hub) : Hub := { h with shot := f h.shot }

/-- Change the frame store's state. -/
def Hub.modStore (f : Store → Store) (h : Hub) : Hub := { h with store := f h.store }

/-- Change one port's delivery state. -/
def Hub.modDelivery (p : Port) (f : Delivery → Delivery) (h : Hub) : Hub := { h with delivery := h.delivery.mod p f }

/-- Write the rotation order. -/
def Hub.setRotation (l : List Port) (h : Hub) : Hub := { h with rotation := l }

/-- Change one port's zone map. -/
def Hub.modZone (p : Port) (f : ZoneMap → ZoneMap) (h : Hub) : Hub := { h with zones := h.zones.mod p f }

/-- Change the echo locator's state. -/
def Hub.modEcho (f : Echo → Echo) (h : Hub) : Hub := { h with echo := f h.echo }

/-- Change what the echo locator keeps for one port. -/
def Hub.modEchoPort (p : Port) (f : EchoPort → EchoPort) (h : Hub) : Hub :=
  h.modEcho fun e => { e with ports := e.ports.mod p f }

/-- Change the event router's state. -/
def Hub.modRouter (f : Router → Router) (h : Hub) : Hub := { h with router := f h.router }

/-- Change the uplink controller's state. -/
def Hub.modUplink (f : Uplink → Uplink) (h : Hub) : Hub := { h with uplink := f h.uplink }

/-- `n` bytes to which the manual gives no value (DESIGN CHOICE, log 7). -/
def Hub.openBytes (n : Nat) (h : Hub) : List Byte := (countFrom h.draws n).map Config.openByte

/-- Draw `n` free values: later draws take others. -/
def Hub.draw (n : Nat) (h : Hub) : Hub := { h with draws := h.draws + n }

/-- The cell time now (R97). -/
def Hub.now (h : Hub) : CellTime := h.time.cellTime

/-! ## Frames by tag -/

/-- The descriptor in use that holds a tag. Tags of descriptors in use are unique (R103). -/
def Store.frame? (st : Store) (t : FrameTag) : Option Frame := st.frames.find? (fun f => f.tag == t)

/-- The FILLING frame of a port (R101). -/
def Store.filling? (st : Store) (p : Port) : Option Frame :=
  st.frames.find? (fun f => f.port == p && f.state == .filling)

/-- Change the descriptor that holds a tag. -/
def Hub.modFrame (t : FrameTag) (f : Frame → Frame) (h : Hub) : Hub :=
  h.modStore fun st => { st with frames := st.frames.map fun fr => if fr.tag == t then f fr else fr }

/-! ## Time (R97; DESIGN CHOICE, log 1, log 2) -/

/-- A timer after `n` µs; one that has run out stays at 0 until its expiry is taken. -/
def Timer.pass (n : Nat) (t : Timer) : Timer := t.map (· - n)

/-- The timers of a link unit after `n` µs. -/
def Link.pass (n : Nat) (l : Link) : Link :=
  { l with
    acquireTimer := Timer.pass n l.acquireTimer
    relockWindow := Timer.pass n l.relockWindow
    cable := l.cable.map fun c => { c with left := c.left - n } }

/-- The timers of a power record after `n` µs. -/
def Power.pass (n : Nat) (w : Power) : Power :=
  { w with
    inrushTimer := Timer.pass n w.inrushTimer
    cooldownTimer := Timer.pass n w.cooldownTimer
    onTimer := Timer.pass n w.onTimer
    dischargeTimer := Timer.pass n w.dischargeTimer }

/-- The move timeout of a lens after `n` µs. -/
def Lens.pass (n : Nat) (l : Lens) : Lens :=
  { l with record := l.record.map fun r => { r with timeout := Timer.pass n r.timeout } }

/-- A slot's guard timer after `n` µs. -/
def Flight.pass (n : Nat) (f : Flight) : Flight :=
  match f.stage with
  | .waiting left => { f with stage := .waiting (left - n) }
  | .offered => f

/-- The scheduler's timers after `n` µs. -/
def Shot.pass (n : Nat) (s : Shot) : Shot :=
  { s with
    span := Timer.pass n s.span
    opening := vmap (Timer.pass n) s.opening
    exposureEnds := vmap (Timer.pass n) s.exposureEnds
    flights := s.flights.map (Flight.pass n) }

/-- The frame windows after `n` µs. -/
def Store.pass (n : Nat) (st : Store) : Store :=
  { st with frames := st.frames.map fun f => { f with window := Timer.pass n f.window } }

/-- The sampler's job after `n` µs. -/
def Echo.pass (n : Nat) (e : Echo) : Echo :=
  { e with sampler := e.sampler.map fun j => { j with due := j.due - n } }

/-- Let `n` µs pass: cell time advances, wrapping at 2^48 (R97), and every running timer has `n` µs less to run. -/
def Hub.elapse (n : Nat) (h : Hub) : Hub :=
  { h with
    time := { h.time with cellTime := h.time.cellTime + BitVec.ofNat 48 n }
    links := h.links.map (Link.pass n)
    power := h.power.map (Power.pass n)
    lenses := h.lenses.map (Lens.pass n)
    shot := h.shot.pass n
    store := h.store.pass n
    echo := h.echo.pass n }

end Sys2Proof.Machine
end

