-- ==== Sys2Proof/Machine/Operands.lean ====
section
/-! DEFINITION. Reading operands: the fields of a command payload (R191, R193) and the words cameras send (R5 to R7, R196). -/

namespace Sys2Proof

/-- The command kinds of R192: the codes a record may carry as a command. -/
def isCommandKind (k : Nat) : Bool :=
  (0x10 ≤ k && k ≤ 0x13) || (0x20 ≤ k && k ≤ 0x24) || (0x30 ≤ k && k ≤ 0x37) || (0x40 ≤ k && k ≤ 0x49) ||
    (0x50 ≤ k && k ≤ 0x54) || (0x60 ≤ k && k ≤ 0x63) || (0x70 ≤ k && k ≤ 0x77) || (0x80 ≤ k && k ≤ 0x85)

/-- The byte at an offset of a list, 0 past its end. -/
def byteAt (bs : List Byte) (i : Nat) : Nat := (bs.getD i 0).toNat

/-- A 2-byte field, least significant byte first (R191). -/
def u16At (bs : List Byte) (i : Nat) : Nat := byteAt bs i + 256 * byteAt bs (i + 1)

/-- A 4-byte field (R191). -/
def u32At (bs : List Byte) (i : Nat) : Nat := u16At bs i + 65536 * u16At bs (i + 2)

/-- A 6-byte field (R191). -/
def u48At (bs : List Byte) (i : Nat) : Nat := u32At bs i + 4294967296 * u16At bs (i + 4)

/-- A signed 2-byte field, two's complement (R191). -/
def i16At (bs : List Byte) (i : Nat) : Int := (BitVec.ofNat 16 (u16At bs i)).toInt

/-- Whether an option, presence or on/off byte is one of the two it may be (R193). -/
def flagOk (bs : List Byte) (i : Nat) : Bool := byteAt bs i ≤ 1

/-- An option, presence or on/off byte. -/
def flagAt (bs : List Byte) (i : Nat) : Bool := byteAt bs i == 1

/-- An optional 2-byte field: a presence byte and the value (R193). -/
def optU16At (bs : List Byte) (i : Nat) : Option Nat := if flagAt bs i then some (u16At bs (i + 1)) else none

/-- Three optional 2-byte fields in axis order (R193). -/
def targetsAt (bs : List Byte) (i : Nat) : PerAxis (Option Nat) :=
  ⟨optU16At bs i, optU16At bs (i + 3), optU16At bs (i + 6)⟩

/-- Whether three presence bytes are 0 or 1. -/
def targetFlagsOk (bs : List Byte) (i : Nat) : Bool := flagOk bs i && flagOk bs (i + 3) && flagOk bs (i + 6)

/-- Axes of an axis set: bit 0 FOCUS, bit 1 IRIS, bit 2 ZOOM (R193); the other bits name no axis (DESIGN CHOICE, log 27). -/
def axisSetOf (b : Byte) : PerAxis Bool := ⟨b.getLsbD 0, b.getLsbD 1, b.getLsbD 2⟩

/-- A word a camera sends, read from its bytes (R5, R196). -/
inductive UpWord where
  | hello (w : HelloWord)
  | line (w : LineWord)
  | eof (w : EofWord)
  | lensStatus (w : LensStatusWord)
deriving DecidableEq, Repr

/-- A 2-byte field as bits. -/
def bv16At (bs : List Byte) (i : Nat) : BitVec 16 := BitVec.ofNat 16 (u16At bs i)

/-- One axis's entry of a LENS_STATUS word. -/
def lensEntryAt (bs : List Byte) (i : Nat) : LensEntry :=
  ⟨bv16At bs i, bs.getD (i + 2) 0, bv16At bs (i + 3), bv16At bs (i + 5)⟩

/-- R196: a word is read by its type byte and its length; any other is undecodable. -/
def decodeUpWord (bs : List Byte) : Option UpWord :=
  let t := byteAt bs 0
  if t = 0x81 ∧ bs.length = 18 then
    some (.hello ⟨bv16At bs 1, bv16At bs 3, bs.getD 5 0,
      ⟨⟨bv16At bs 6, bv16At bs 8⟩, ⟨bv16At bs 10, bv16At bs 12⟩, ⟨bv16At bs 14, bv16At bs 16⟩⟩⟩)
  else if t = 0x82 ∧ bs.length = 9 + u16At bs 5 then
    some (.line ⟨bv16At bs 1, bv16At bs 3, (bs.drop 7).take (u16At bs 5), bv16At bs (7 + u16At bs 5)⟩)
  else if t = 0x83 ∧ bs.length = 5 then
    some (.eof ⟨bv16At bs 1, bv16At bs 3⟩)
  else if t = 0x84 ∧ bs.length = 23 then
    some (.lensStatus ⟨bs.getD 1 0, ⟨lensEntryAt bs 2, lensEntryAt bs 9, lensEntryAt bs 16⟩⟩)
  else none

/-- R7: travel limits are good when the minimum is not above the maximum and the maximum is not above 4095. -/
def limitsOk (lo hi : Nat) : Bool := lo ≤ hi && hi ≤ 4095

/-- R7: a HELLO is well formed. -/
def HelloWord.ok (w : HelloWord) : Bool :=
  let good (present : Bool) (t : TravelField) : Bool := !present || limitsOk t.lo.toNat t.hi.toNat
  64 ≤ w.maxLine.toNat && w.maxLine.toNat ≤ 16384 && ((axisSetOf w.axisSet).zip good w.travel).every

end Sys2Proof

namespace Sys2Proof.Machine

/-- The camera record a well-formed HELLO yields (R7). -/
def CameraRecord.ofHello (w : HelloWord) (now : CellTime) : CameraRecord where
  model := w.model
  maxLine := w.maxLine
  travel := (axisSetOf w.axisSet).zip
    (fun present t => if present then some ⟨t.lo.toNat, t.hi.toNat⟩ else none) w.travel
  receivedAt := now

end Sys2Proof.Machine
end

