-- ==== Sys2Proof/Machine/Flags.lean ====
section
/-! DEFINITION. What the manual names and the held state determines (DESIGN CHOICE, log 24): claims and the reserved sum, level activity,
free pages and descriptors, frame counts, echo states, queue places, slot states. -/

namespace Sys2Proof.Machine

/-! ## Power -/

/-- R35: whether a port holds a claim. -/
def Power.holdsClaim (w : Power) : Bool :=
  match w.state with
  | .precharge | .on | .cooldown => true
  | .hunt => w.restore
  | .off | .lockedOut => false

/-- R35: the claim a port holds, equal to its limit. -/
def Power.claim (w : Power) : Nat := if w.holdsClaim then w.setup.limit else 0

/-- R22: the switch is closed in PRECHARGE and ON. -/
def Power.switchClosed (w : Power) : Bool := w.state == .precharge || w.state == .on

/-- R35: the reserved sum is the total of all claims and all held surges. -/
def Hub.reservedSum (h : Hub) : Nat := (h.power.toList.map fun w => w.claim + w.heldSurge).sum

/-- R35: a claim or surge is admitted when the reserved sum plus the amount is at most the cell budget. -/
def Hub.admits (h : Hub) (amount : Nat) : Bool := h.reservedSum + amount ≤ h.budget

/-- R44: POWER_FAULT is active in COOLDOWN and LOCKED_OUT. -/
def Power.faultActive (w : Power) : Bool := w.state == .cooldown || w.state == .lockedOut

/-- R26: the trip threshold in ON; R27: in PRECHARGE. -/
def Power.threshold (w : Power) : Nat :=
  if w.state == .precharge then min (2 * w.setup.limit) 3000 else w.setup.limit + w.heldSurge

/-! ## Frame store -/

/-- R100: pages reserved by descriptors. -/
def Store.usedPages (st : Store) : List Nat := st.frames.flatMap (·.pages)

/-- R100: free pages and reserved pages together are 4096. -/
def Store.freePages (st : Store) : Nat := Config.pageCount - st.usedPages.length

/-- R101: descriptors not in use. -/
def Store.freeDescriptors (st : Store) : Nat := Config.descriptorCount - st.frames.length

/-- R118: STORE_LOW is active while the free pages are fewer than the low mark. -/
def Store.low (st : Store) : Bool := st.freePages < st.lowMark

/-- R102: the size of the received-line set. -/
def Frame.receivedCount (f : Frame) : Nat := f.received.length

/-- R102: the bad lines of the received-line set. -/
def Frame.badCount (f : Frame) : Nat := f.received.countP (·.2)

/-- R102: a frame is triggered once its exposure timestamp is present. -/
def Frame.triggered (f : Frame) : Bool := f.exposedAt.isSome

/-- R104: the pages a frame needs, rounded up. -/
def pagesNeeded (lines lineBytes : Nat) : Nat := (lines * lineBytes + Config.pageBytes - 1) / Config.pageBytes

/-- How many descriptors are in one state. -/
def Store.countIn (st : Store) (x : FrameState) : Nat := st.frames.countP (·.state == x)

/-- How many frames of a port are in one state. -/
def Store.portCountIn (st : Store) (p : Port) (x : FrameState) : Nat :=
  st.frames.countP fun f => f.port == p && f.state == x

/-- The SENDING frame of a port (R101). -/
def Store.sending? (st : Store) (p : Port) : Option Frame :=
  st.frames.find? (fun f => f.port == p && f.state == .sending)

/-! ## Echo -/

/-- R147: the job of a port on the queue. -/
def Echo.queuedKind (e : Echo) (p : Port) : Option EchoKind := (e.queue.find? (·.1 == p)).map (·.2)

/-- R147: the job of a port in the sampler. -/
def Echo.samplingKind (e : Echo) (p : Port) : Option EchoKind :=
  match e.sampler with
  | some j => if j.port == p then some j.kind else none
  | none => none

/-- R147: a port has a job queued or sampling. -/
def Echo.busy (e : Echo) (p : Port) : Bool := (e.queuedKind p).isSome || (e.samplingKind p).isSome

/-- R31: an AUTO job of the port is queued or sampling. -/
def Echo.autoBusy (e : Echo) (p : Port) : Bool := e.queuedKind p == some .auto || e.samplingKind p == some .auto

/-- R147, R154, R163: a port's place in the queue, 1 from the head. -/
def Echo.place (e : Echo) (p : Port) : Option Nat := (e.queue.findIdx? (·.1 == p)).map (· + 1)

/-! ## Uplink -/

/-- R176, R177: places neither held nor reserved for a credit. -/
def Uplink.free (u : Uplink) : Nat := Config.queuePlaces - u.queue.length - u.credits

/-! ## Lens -/

/-- R47: while the lens record is invalid the move state counts as IDLE. -/
def Lens.moveState (l : Lens) : MoveState :=
  match l.record with
  | some r => r.moveState
  | none => .idle

/-- R51: the link states in which a move can be issued. -/
def Link.carriesMoves (l : Link) : Bool := l.state == .up || l.state == .relock

/-- A value clamped to travel limits (R49). -/
def Limits.clamp (l : Limits) (v : Nat) : Nat := clampTo l.lo l.hi v

/-! ## The shot table -/

/-- R74: the occupancy of a slot in µs. -/
def SlotRecord.occupancy (r : SlotRecord) : Nat := r.guardTime + r.exposure + r.window * 1000

/-- Insert a slot into a list in run order. -/
def insertSlot (t : ShotTable) (i : SlotIx) : List SlotIx → List SlotIx
  | [] => [i]
  | j :: js =>
    if (t.slots.get i).offset < (t.slots.get j).offset then i :: j :: js
    else j :: insertSlot t i js

/-- R78: the enabled slots in run order, by offset and then by index. -/
def ShotTable.runOrder (t : ShotTable) : List SlotIx :=
  (allSlots.filter fun i => (t.slots.get i).enabled).foldl (fun acc i => insertSlot t i acc) []

/-- The first slot of a list on a port. -/
def ShotTable.firstOn (t : ShotTable) (p : Port) (l : List SlotIx) : Option SlotIx :=
  l.find? fun i => (t.slots.get i).port == p

/-- R91: the next enabled slot on the same port after slot `i` in run order. -/
def ShotTable.nextOn (t : ShotTable) (i : SlotIx) : Option SlotIx :=
  t.firstOn (t.slots.get i).port ((t.runOrder.dropWhile (· != i)).drop 1)

/-- R89: the state of a slot in the current cycle. -/
inductive SlotState where
  | notOpen | waiting | offered | done
deriving DecidableEq, Repr

/-- R89: an enabled slot's state while a cycle runs: NOT_OPEN while its opening timer runs, GUARD or OFFERED while it has an open
flight of this cycle, else DONE. -/
def Shot.slotState (s : Shot) (i : SlotIx) : Option SlotState :=
  match s.cycle, s.active with
  | .running, some t =>
    if !(t.slots.get i).enabled then none
    else if (s.opening.get i).isSome then some .notOpen
    else match s.flights.find? (fun f => f.slot == i && f.cycle == s.number) with
      | some f => some (match f.stage with | .waiting _ => .waiting | .offered => .offered)
      | none => some .done
  | _, _ => none

end Sys2Proof.Machine
end

