-- ==== Sys2Proof/Machine/Wire.lean ====
section
/-! DEFINITION. Layouts (11): field writers, the CRC-16, the code tables of R192 to R196, downstream words and records as bytes. -/

namespace Sys2Proof.Machine

/-! ## Fields (R191, R193) -/

/-- A 1-byte field. -/
def w1 (n : Nat) : List Byte := [BitVec.ofNat 8 n]

/-- A 2-byte field, least significant byte first. -/
def w2 (n : Nat) : List Byte := [BitVec.ofNat 8 n, BitVec.ofNat 8 (n / 256)]

/-- A 4-byte field. -/
def w4 (n : Nat) : List Byte := w2 n ++ w2 (n / 65536)

/-- A 6-byte field. -/
def w6 (n : Nat) : List Byte := w4 n ++ w2 (n / 4294967296)

/-- A signed 2-byte field, two's complement. -/
def wInt (i : Int) : List Byte := w2 (BitVec.ofInt 16 i).toNat

/-- A presence, option or on/off byte. -/
def wFlag (b : Bool) : List Byte := w1 (if b then 1 else 0)

/-- A cell time. -/
def wTime (t : CellTime) : List Byte := w6 t.toNat

/-- An optional field: a presence byte, then the value at full width, 0 when absent (R193). -/
def wOpt {α : Type} (zero : α) (w : α → List Byte) : Option α → List Byte
  | some a => wFlag true ++ w a
  | none => wFlag false ++ w zero

/-- An optional 2-byte field. -/
def wOpt2 (o : Option Nat) : List Byte := wOpt 0 w2 o

/-- An axis set (R193). -/
def wAxes (s : PerAxis Bool) : List Byte :=
  w1 ((if s.focus then 1 else 0) + (if s.iris then 2 else 0) + (if s.zoom then 4 else 0))

/-- A field per lens axis, in axis order. -/
def wPerAxis {α : Type} (w : α → List Byte) (v : PerAxis α) : List Byte := v.toList.flatMap w

/-! ## CRC-16 (R191) -/

/-- One bit into the CRC register. -/
def crcBit (r : BitVec 16) (d : Bool) : BitVec 16 := if r.msb == d then r <<< 1 else (r <<< 1) ^^^ 0x1021#16

/-- One byte into the CRC register, most significant bit first. -/
def crcByte (r : BitVec 16) (b : Byte) : BitVec 16 :=
  [7, 6, 5, 4, 3, 2, 1, 0].foldl (fun acc i => crcBit acc (b.getLsbD i)) r

/-- The CRC-16 of a run of bytes. -/
def crc16 (bs : List Byte) : BitVec 16 := bs.foldl crcByte 0xFFFF#16

/-! ## Records (R192) -/

/-- The header of a record and its payload, as bytes. -/
def Rec.bytes (r : Rec) : List Byte :=
  [r.kind, r.port] ++ w2 r.tag.toNat ++ w2 r.payload.length ++ r.payload

/-- A record as it stands on the uplink, CRC included. -/
def Rec.wire (r : Rec) : List Byte := r.bytes ++ w2 (crc16 r.bytes).toNat

/-- The record of a control record. -/
def CtrlRec.record : CtrlRec → Rec
  | .reply r => r
  | .report _ _ r => r

/-- A port byte of a header; none is 0xFF. -/
def portByte (p : Port) : Byte := BitVec.ofNat 8 p.val

/-! ## Codes (R193, R194) -/

/-- Power state. -/
def PowerState.code : PowerState → Nat
  | .off => 0 | .precharge => 1 | .on => 2 | .cooldown => 3 | .lockedOut => 4 | .hunt => 5

/-- Trip cause. -/
def TripCause.code : TripCause → Nat
  | .none => 0 | .overcurrent => 1 | .short => 2 | .inrush => 3 | .shortLocated => 4

/-- Link state. -/
def LinkState.code : LinkState → Nat
  | .down => 0 | .acquire => 1 | .up => 2 | .relock => 3 | .failed => 4

/-- Rate. -/
def Rate.code : Rate → Nat
  | .full => 0 | .half => 1

/-- LINK_CHANGE cause. -/
def LinkCause.code : LinkCause → Nat
  | .powerOn => 0 | .acquired => 1 | .timeout => 2 | .fallback => 3 | .relockExpired => 4 | .cameraRestart => 5
  | .powerOff => 6 | .retrain => 7 | .reset => 8

/-- Move state. -/
def MoveState.code : MoveState → Nat
  | .idle => 0 | .deferred => 1 | .moving => 2 | .settled => 3 | .stalled => 4

/-- Done cause. -/
def DoneCause.code : DoneCause → Nat
  | .none => 0 | .settled => 1 | .stall => 2

/-- Start source. -/
def StartSource.code : StartSource → Nat
  | .encoder => 0 | .line => 1 | .command => 2

/-- A start source byte, when it is one of the three. -/
def StartSource.ofCode : Nat → Option StartSource
  | 0 => some .encoder
  | 1 => some .line
  | 2 => some .command
  | _ => none

/-- Skip reason. -/
def SkipReason.code : SkipReason → Nat
  | .power => 0 | .hunt => 1 | .link => 2 | .portBusy => 3 | .store => 4 | .stopped => 5

/-- Slot outcome with its second byte; none is 0, 0. -/
def wOutcome : Option SlotOutcome → List Byte
  | none => w1 0 ++ w1 0
  | some .fired => w1 1 ++ w1 0
  | some .late => w1 2 ++ w1 0
  | some (.skipped r) => w1 3 ++ w1 r.code

/-- Slot state. -/
def SlotState.code : SlotState → Nat
  | .notOpen => 0 | .waiting => 1 | .offered => 2 | .done => 3

/-- Close status. -/
def CloseStatus.code : CloseStatus → Nat
  | .complete => 0 | .eofShort => 1 | .timeout => 2 | .linkLost => 3 | .powerLost => 4

/-- Suspect cause. -/
def SuspectCause.code : SuspectCause → Nat
  | .rate => 0 | .drops => 1

/-- Echo kind. -/
def EchoKind.code : EchoKind → Nat
  | .learn => 0 | .hunt => 1 | .auto => 2

/-- Echo outcome. -/
def EchoOutcome.code : EchoOutcome → Nat
  | .noFault => 0 | .openFault => 1 | .shortFault => 2 | .aborted => 3

/-- A place: its kind, a segment or joint number, and an offset that is 0 unless the place is SEGMENT. -/
def wPlace : Place → List Byte
  | .segment k off => w1 0 ++ w1 k ++ w2 off
  | .joint k => w1 1 ++ w1 k ++ w2 0
  | .beyondMap => w1 2 ++ w1 0 ++ w2 0
  | .unmapped => w1 3 ++ w1 0 ++ w2 0

/-- Uplink error cause. -/
def DiscardCause.code : DiscardCause → Nat
  | .noCredit => 0 | .length => 1 | .crc => 2

/-- Delivery status of a FRAME_CLOSE (R195). -/
def DeliveryStatus.code : DeliveryStatus → Nat
  | .delivered => 0 | .aborted => 1

/-- Echo state as ECHO_RESULT sends it: 0 IDLE, 1 QUEUED, 2 SAMPLING (DESIGN CHOICE, log 11). -/
def Echo.stateCode (e : Echo) (p : Port) : Nat :=
  if (e.samplingKind p).isSome then 2 else if (e.queuedKind p).isSome then 1 else 0

/-- Source codes of R194. -/
def Source.code : Source → Nat
  | .ofPort _ .powerFault => 0
  | .ofPort _ .linkChange => 1
  | .ofPort _ .lensDone => 2
  | .ofPort _ .huntDone => 3
  | .ofPort _ .zoneSuspect => 4
  | .ofHub .cycleOverrun => 5
  | .ofHub .slotSkipped => 6
  | .ofHub .storeLow => 7
  | .ofHub .uplinkError => 8

/-- The header port of a source: its port, or 0xFF for a global source (R192). -/
def Source.portByte : Source → Byte
  | .ofPort p _ => Machine.portByte p
  | .ofHub _ => 0xFF

/-- Reply statuses (R174). -/
inductive Status where
  | ok | clamped | badKind | badLength | badPort | badArg | badState | busy | budget | stackEmpty | noBaseline | badTable
deriving DecidableEq, Repr

/-- Status codes (R174). -/
def Status.code : Status → Nat
  | .ok => 0 | .clamped => 1 | .badKind => 2 | .badLength => 3 | .badPort => 4 | .badArg => 5 | .badState => 6
  | .busy => 7 | .budget => 8 | .stackEmpty => 9 | .noBaseline => 10 | .badTable => 11

/-! ## Downstream words (R196) -/

/-- The bytes of a word the part sends down a cable. -/
def DownWord.bytes : DownWord → List Byte
  | .trigger tag exposure => w1 0x01 ++ w2 tag.toNat ++ w4 exposure
  | .lensMove t =>
    w1 0x02 ++ wAxes (t.map Option.isSome) ++ wPerAxis (fun o => w2 (o.getD 0)) t
  | .retrain rate => w1 0x03 ++ w1 rate.code

/-! ## Image record payloads (R195) -/

/-- FRAME_OPEN: 44 + 2n bytes. -/
def Frame.openPayload (f : Frame) : List Byte :=
  w2 f.tag.toNat ++ w1 f.slot.val ++ w1 ((f.zone.map Fin.val).getD 0) ++ w4 f.cycle.toNat ++ w2 f.lines ++ w2 f.lineBytes
    ++ wTime (f.exposedAt.getD 0) ++ wTime (f.closeTime.getD 0) ++ w1 ((f.closeStatus.map CloseStatus.code).getD 0)
    ++ w1 ((if f.lensLate then 1 else 0) + (if f.badLines then 2 else 0) + (if f.overlong then 4 else 0))
    ++ w1 ((f.lens.map fun l => l.moveState.code).getD 0)
    ++ wPerAxis wOpt2 ((f.lens.map (·.actuals)).getD ⟨none, none, none⟩)
    ++ w2 f.receivedCount ++ w2 f.badCount ++ wOpt2 f.eofCount ++ w1 f.badList.length ++ f.badList.flatMap w2

/-- IMAGE_LINE: 5 + line bytes. -/
def Frame.linePayload (f : Frame) (n : Nat) (bad : Bool) (bytes : List Byte) : List Byte :=
  w2 f.tag.toNat ++ w2 n ++ wFlag bad ++ bytes

/-- FRAME_CLOSE: 5 bytes. -/
def closePayload (t : FrameTag) (linesSent : Nat) (st : DeliveryStatus) : List Byte :=
  w2 t.toNat ++ w2 linesSent ++ w1 st.code

end Sys2Proof.Machine
end

