-- ==== Sys2Proof/Machine/RouterOps.lean ====
section
/-! DEFINITION. The event router's operations (R186, R187, R190): building and offering reports, edge firings, activations of
level sources, and what a link loss and a link up do to the entries. -/

namespace Sys2Proof.Machine

/-! ## Entries by source -/

/-- One port's entry for a source. -/
def PortEntries.get (e : PortEntries) : PortSource → Entry
  | .powerFault => e.powerFault
  | .linkChange => e.linkChange
  | .lensDone => e.lensDone
  | .huntDone => e.huntDone
  | .zoneSuspect => e.zoneSuspect

/-- Change one port's entry for a source. -/
def PortEntries.mod (e : PortEntries) (k : PortSource) (f : Entry → Entry) : PortEntries :=
  match k with
  | .powerFault => { e with powerFault := f e.powerFault }
  | .linkChange => { e with linkChange := f e.linkChange }
  | .lensDone => { e with lensDone := f e.lensDone }
  | .huntDone => { e with huntDone := f e.huntDone }
  | .zoneSuspect => { e with zoneSuspect := f e.zoneSuspect }

/-- The routing entry of a source. -/
def Router.entry (r : Router) : Source → Entry
  | .ofPort p k => (r.ports.get p).get k
  | .ofHub .cycleOverrun => r.cycleOverrun
  | .ofHub .slotSkipped => r.slotSkipped
  | .ofHub .storeLow => r.storeLow
  | .ofHub .uplinkError => r.uplinkError

/-- Change the routing entry of a source. -/
def Router.modEntry (r : Router) (src : Source) (f : Entry → Entry) : Router :=
  match src with
  | .ofPort p k => { r with ports := r.ports.mod p fun e => e.mod k f }
  | .ofHub .cycleOverrun => { r with cycleOverrun := f r.cycleOverrun }
  | .ofHub .slotSkipped => { r with slotSkipped := f r.slotSkipped }
  | .ofHub .storeLow => { r with storeLow := f r.storeLow }
  | .ofHub .uplinkError => { r with uplinkError := f r.uplinkError }

/-- Change the routing entry of a source. -/
def Hub.modEntry (src : Source) (f : Entry → Entry) (h : Hub) : Hub := h.modRouter fun r => r.modEntry src f

/-- The pending flag of an entry: whether it stands in the pending order. -/
def Router.pending (r : Router) (src : Source) : Bool := r.order.contains src

/-- Set an entry pending at the tail of the order; one that is pending keeps its place (R186). -/
def Router.enqueue (r : Router) (src : Source) : Router :=
  if r.pending src then r else { r with order := r.order ++ [src] }

/-- Clear an entry's pending flag and take it out of the order. -/
def Router.dequeue (r : Router) (src : Source) : Router := { r with order := r.order.filter (· != src) }

/-- The level sources (10, the routing table). -/
def Source.isLevel : Source → Bool
  | .ofPort _ .powerFault => true
  | .ofHub .storeLow => true
  | _ => false

/-- Whether a level source is active, as its owning block has it (R44, R118); an edge source is never active. -/
def Hub.levelActive (h : Hub) : Source → Bool
  | .ofPort p .powerFault => (h.power.get p).faultActive
  | .ofHub .storeLow => h.store.low
  | _ => false

/-- The 34 sources in table order (R188): by port and then as listed, then the global ones. -/
def allSources : List Source :=
  allPorts.flatMap (fun p => [.ofPort p .powerFault, .ofPort p .linkChange, .ofPort p .lensDone, .ofPort p .huntDone,
    .ofPort p .zoneSuspect]) ++ [.ofHub .cycleOverrun, .ofHub .slotSkipped, .ofHub .storeLow, .ofHub .uplinkError]

/-! ## Reports -/

/-- The detail of POWER_FAULT (R44, R194). -/
def Power.faultDetail (w : Power) : List Byte :=
  w1 w.state.code ++ w1 w.cause.code ++ w2 w.trips ++ w1 w.retriesUsed ++ w1 w.setup.retries

/-- The detail of STORE_LOW (R118, R194). -/
def Store.lowDetail (st : Store) : List Byte := w2 st.freePages ++ w2 st.lowMark ++ w1 st.freeDescriptors

/-- The length of a source's detail (R194). -/
def Source.detailLength : Source → Nat
  | .ofPort _ .powerFault => 6
  | .ofPort _ .linkChange => 3
  | .ofPort _ .lensDone => 26
  | .ofPort _ .huntDone => 18
  | .ofPort _ .zoneSuspect => 22
  | .ofHub .cycleOverrun => 11
  | .ofHub .slotSkipped => 7
  | .ofHub .storeLow => 5
  | .ofHub .uplinkError => 3

/-- How many open bytes a report needs: a whole detail when an edge entry reports with its last detail absent, which comes about
only when the link loses a report that was in transmission at a HUB_RESET (R182, R190; DESIGN CHOICE, log 7). -/
def Hub.reportDraws (h : Hub) (src : Source) : Nat :=
  if src.isLevel || (h.router.entry src).detail.isSome then 0 else src.detailLength

/-- The detail a report carries (R186): a level source's as it stands now, an edge source's last. -/
def Hub.reportDetail (h : Hub) (src : Source) : List Byte :=
  match src with
  | .ofPort p .powerFault => (h.power.get p).faultDetail
  | .ofHub .storeLow => h.store.lowDetail
  | _ => ((h.router.entry src).detail).getD (h.openBytes (h.reportDraws src))

/-- The count of firings a report stands for (R186). -/
def Entry.reportCount (e : Entry) : Nat := if 0 < e.count then e.count else 1

/-- The report record an entry would send now (R186, R192, R194). -/
def Hub.reportRec (h : Hub) (src : Source) : Rec where
  kind := 0x02
  port := src.portByte
  tag := (h.router.entry src).tag.setWidth 16
  payload := w1 src.code ++ w1 (h.router.entry src).reportCount ++ wTime h.now ++ h.reportDetail src

/-- A report of the entry enters the control queue at its tail (R186). -/
def Hub.sendReport (src : Source) (h : Hub) : Hub :=
  let e := h.router.entry src
  let item := CtrlRec.report src e.reportCount (h.reportRec src)
  ((h.draw (h.reportDraws src)).modUplink fun u => { u with queue := u.queue ++ [item] }).modRouter fun r =>
    (r.modEntry src fun e => { e with count := 0, awaiting := e.awaiting || e.tag != 0 }).dequeue src

/-- Whether a report can enter the control queue (R176). -/
def Hub.placeForReport (h : Hub) : Bool := h.uplink.up && 0 < h.uplink.free

/-- An entry offers a report (R186). `repeats` says the offer is made by an acknowledgment; an offer for an entry already
pending also repeats one. -/
def Hub.offerReport (src : Source) (repeats : Bool) (h : Hub) : Hub :=
  if h.placeForReport then h.sendReport src
  else
    let again := repeats || h.router.pending src
    h.modRouter fun r => (r.enqueue src).modEntry src fun e =>
      { e with count := if again then max e.count 1 else satInc 255 e.count }

/-- An edge source fires with a detail (R187). -/
def Hub.fire (src : Source) (detail : List Byte) (h : Hub) : Hub :=
  let e := h.router.entry src
  if e.masked then h
  else
    let h1 := h.modEntry src fun e => { e with detail := some detail }
    if e.awaiting then h1.modRouter fun r => (r.enqueue src).modEntry src fun e => { e with count := satInc 255 e.count }
    else if h.router.pending src then h1.modEntry src fun e => { e with count := satInc 255 e.count }
    else h1.offerReport src false

/-- A level source changes from inactive to active (R187). -/
def Hub.activate (src : Source) (h : Hub) : Hub :=
  let e := h.router.entry src
  if e.masked then h
  else if e.awaiting || h.router.pending src then h.modEntry src fun e => { e with count := satInc 255 e.count }
  else h.offerReport src false

/-! ## Places that become free (R176, R186) -/

/-- Whether the router may offer a pending entry: it is not awaiting (R187), and a level source is still active. -/
def Hub.offerable (h : Hub) (src : Source) : Bool :=
  !(h.router.entry src).awaiting && (!src.isLevel || h.levelActive src)

/-- Whether a pending entry that reaches the head is cleared without a report (R186). -/
def Hub.stale (h : Hub) (src : Source) : Bool :=
  !(h.router.entry src).awaiting && src.isLevel && !h.levelActive src

/-- R186: clear the stale entries that stand before the first offerable one. Passed over are the awaiting ones (R187), so a stale entry
behind them is at the head of what may be offered. The router does this only while a place is free, as it comes to offer its next entry
(`Hub.fillPlaces`; DESIGN CHOICE, log 45, unsafe). -/
def Hub.clearStale : List Source → Hub → Hub
  | [], h => h
  | src :: rest, h =>
    if h.stale src then
      Hub.clearStale rest (h.modRouter fun r => (r.modEntry src fun e => { e with count := 0 }).dequeue src)
    else if h.offerable src then h
    else Hub.clearStale rest h

/-- The pending entry the router offers next. -/
def Hub.nextOffer (h : Hub) : Option Source := h.router.order.find? h.offerable

/-! ## Link loss and link up (R190) -/

/-- The entry of a report that link down discarded, with the count the report carried. -/
def Hub.reportLost (src : Source) (count : Nat) (h : Hub) : Hub :=
  let e := h.router.entry src
  let h1 := h.modEntry src fun e => { e with awaiting := false }
  if e.masked || src.isLevel then h1
  else h1.modRouter fun r => (r.enqueue src).modEntry src fun e => { e with count := min 255 (e.count + count) }

/-- On link up, an unmasked active level entry that is neither awaiting nor pending becomes pending with a count of 1. -/
def Hub.repend (src : Source) (h : Hub) : Hub :=
  let e := h.router.entry src
  if src.isLevel && !e.masked && h.levelActive src && !e.awaiting && !h.router.pending src then
    h.modRouter fun r => (r.enqueue src).modEntry src fun e => { e with count := 1 }
  else h

end Sys2Proof.Machine
end

