-- ==== Sys2Proof/Machine/StoreOps.lean ====
section
/-! DEFINITION. The frame store controller's operations (R100 to R118) and the error zone map's counting (R137 to R142). -/

namespace Sys2Proof.Machine

/-! ## STORE_LOW and descriptors -/

/-- Re-evaluate STORE_LOW after a change (R118): the router is told of a change to active. -/
def Hub.reviewLow (wasLow : Bool) (h : Hub) : Hub :=
  if !wasLow && h.store.low then h.activate (.ofHub .storeLow) else h

/-- Release the descriptor that holds a tag (R108): its pages return to the pool and it becomes free. -/
def Hub.releaseFrame (t : FrameTag) (h : Hub) : Hub :=
  (h.modStore fun st => { st with frames := st.frames.filter (·.tag != t) }).reviewLow h.store.low

/-- R103: the first tag from the counter on that no descriptor in use holds. -/
def freeTag (used : List FrameTag) : Nat → FrameTag → FrameTag
  | 0, t => t
  | n + 1, t => if used.contains t then freeTag used n (t + 1) else t

/-- R103: the tag an opening would give. At most 24 values are in use, so 24 advances suffice. -/
def Store.nextTag (st : Store) : FrameTag := freeTag (st.frames.map (·.tag)) Config.descriptorCount st.tagCounter

/-- The first `n` numbers from `k` on, within `fuel`, that are not used. -/
def pickFree (used : List Nat) : Nat → Nat → Nat → List Nat
  | 0, _, _ => []
  | _ + 1, _, 0 => []
  | fuel + 1, k, n + 1 =>
    if used.contains k then pickFree used fuel (k + 1) (n + 1) else k :: pickFree used fuel (k + 1) n

/-- R100, R104: pages for an opening, the lowest-numbered free ones (DESIGN CHOICE, log 13). -/
def Store.takePages (st : Store) (n : Nat) : List Nat := pickFree st.usedPages Config.pageCount 0 n

/-- R104, check 4: a descriptor is free and the free pages suffice. -/
def Store.hasRoom (st : Store) (lines lineBytes : Nat) : Bool :=
  0 < st.freeDescriptors && pagesNeeded lines lineBytes ≤ st.freePages

/-- R104: open a frame for a slot. -/
def Hub.openFrame (i : SlotIx) (r : SlotRecord) (h : Hub) : Hub :=
  let t := h.store.nextTag
  let f : Frame :=
    { tag := t, port := r.port, slot := i, cycle := h.shot.number, lines := r.lines, lineBytes := r.lineBytes
      pages := h.store.takePages (pagesNeeded r.lines r.lineBytes), windowMs := r.window }
  (h.modStore fun st => { st with frames := st.frames ++ [f], tagCounter := t + 1 }).reviewLow h.store.low

/-- R107: close a frame. It enters QUEUED and joins the tail of its port's delivery FIFO. -/
def Hub.closeFrame (t : FrameTag) (p : Port) (status : CloseStatus) (h : Hub) : Hub :=
  (h.modFrame t fun f =>
    { f with window := none, closeStatus := some status, closeTime := some h.now, state := .queued }).modDelivery p
    fun d => { d with fifo := d.fifo ++ [t] }

/-! ## Error zones -/

/-- R139: the error rate of a bin in ppm; 0 for a bin with no lines. -/
def Bin.rate (b : Bin) : Nat := b.bad * 1000000 / b.lines

/-- R137, step 1: a full bin is halved. -/
def Bin.halved (b : Bin) : Bin :=
  if b.lines = Config.max32 then { b with lines := b.lines / 2, bad := b.bad / 2 } else b

/-- R137: count one placed line. -/
def Bin.countLine (b : Bin) (bad : Bool) : Bin :=
  let b := b.halved
  { b with lines := b.lines + 1, bad := if bad then b.bad + 1 else b.bad }

/-- R138: count one drop. -/
def Bin.countDrop (b : Bin) : Bin := { b with drops := satInc Config.max16 b.drops }

/-- R140: the suspect rule for rate. -/
def Bin.rateSuspect (b : Bin) (z : ZoneSetup) : Bool :=
  b.suspect.isNone && z.minLines ≤ b.lines && z.rateThreshold ≤ b.rate

/-- R141: the suspect rule for drops. -/
def Bin.dropSuspect (b : Bin) (z : ZoneSetup) : Bool := b.suspect.isNone && z.dropThreshold ≤ b.drops

/-- The detail of ZONE_SUSPECT (R142, R194). -/
def Bin.suspectDetail (b : Bin) (z : Zone) (cause : SuspectCause) (time : CellTime) : List Byte :=
  w1 z.val ++ w1 cause.code ++ w4 b.lines ++ w4 b.bad ++ w2 b.drops ++ w4 b.rate ++ wTime time

/-- Write a counted bin; when it meets the rule it becomes suspect and ZONE_SUSPECT fires (R140 to R142). -/
def Hub.putBin (p : Port) (z : Zone) (b : Bin) (suspect : Bool) (cause : SuspectCause) (h : Hub) : Hub :=
  if suspect then
    (h.modZone p fun m => { m with bins := m.bins.set z { b with suspect := some (cause, h.now) } }).fire
      (.ofPort p .zoneSuspect) (b.suspectDetail z cause h.now)
  else h.modZone p fun m => { m with bins := m.bins.set z b }

/-- R137: a placed line is counted in the bin of the port's current zone; only a bad line makes the rate test. -/
def Hub.countLine (p : Port) (bad : Bool) (h : Hub) : Hub :=
  let m := h.zones.get p
  let b := (m.bins.get m.current).countLine bad
  h.putBin p m.current b (bad && b.rateSuspect m.setup) .rate

/-- R138: a lock loss in UP is counted in the bin of the port's current zone. -/
def Hub.countDrop (p : Port) (h : Hub) : Hub :=
  let m := h.zones.get p
  let b := (m.bins.get m.current).countDrop
  h.putBin p m.current b (b.dropSuspect m.setup) .drops

/-! ## Lines (R110 to R113) -/

/-- Insert a line number with its mark into a received-line set kept in ascending order. -/
def insertLine (n : Nat) (bad : Bool) : List (Nat × Bool) → List (Nat × Bool)
  | [] => [(n, bad)]
  | (m, b) :: rest => if n < m then (n, bad) :: (m, b) :: rest else (m, b) :: insertLine n bad rest

/-- R111: the bytes placed for a payload: cut to the line bytes, or filled with zero bytes up to them. -/
def placedBytes (lineBytes : Nat) (payload : List Byte) : List Byte :=
  payload.take lineBytes ++ List.replicate (lineBytes - payload.length) 0

/-- R111, R112: a line is bad by its length, or by its CRC when the length is right. -/
def lineIsBad (w : LineWord) (lineBytes : Nat) : Bool :=
  w.payload.length != lineBytes || crc16 w.payload != w.crc

/-- R112: what placing a line records in the descriptor. -/
def Frame.recordLine (f : Frame) (n : Nat) (bad : Bool) : Frame :=
  { f with
    received := insertLine n bad f.received
    badList := if bad && f.badList.length < 64 then f.badList ++ [n] else f.badList
    badLines := f.badLines || bad }

/-- R111 to R113: place a line that passed the checks of R110, count it in its zone, and close the frame COMPLETE with its last
line. -/
def Hub.placeLine (p : Port) (f : Frame) (w : LineWord) (h : Hub) : Hub :=
  let n := w.line.toNat
  let bad := lineIsBad w f.lineBytes
  let h1 := (h.modStore fun st =>
    { st with dram := Memory.writeRun f.pages st.dram (n * f.lineBytes) (placedBytes f.lineBytes w.payload) }).modFrame f.tag
    fun g => g.recordLine n bad
  let h2 := h1.countLine p bad
  if f.receivedCount + 1 = f.lines then h2.closeFrame f.tag p .complete else h2

/-- R110: match a LINE word against the port's FILLING frame. -/
def Hub.takeLine (p : Port) (w : LineWord) (h : Hub) : Hub :=
  let stray := h.modStore fun st => { st with strays := st.strays.mod p (satInc Config.max16) }
  match h.store.filling? p with
  | none => stray
  | some f =>
    if !f.triggered || f.tag != w.tag then stray
    else if f.lines ≤ w.line.toNat then h.modFrame f.tag fun g => { g with overlong := true }
    else if f.received.any (·.1 == w.line.toNat) then
      h.modStore fun st => { st with duplicates := st.duplicates.mod p (satInc Config.max16) }
    else h.placeLine p f w

/-- R114: match an EOF word against the port's FILLING frame. -/
def Hub.takeEof (p : Port) (w : EofWord) (h : Hub) : Hub :=
  match h.store.filling? p with
  | none => h
  | some f =>
    if f.triggered && f.tag == w.tag then
      (h.modFrame f.tag fun g => { g with eofCount := some w.lines.toNat }).closeFrame f.tag p .eofShort
    else h

end Sys2Proof.Machine
end

