-- ==== Sys2Proof/Machine/UplinkOps.lean ====
section
/-! DEFINITION. Delivery grants and losses (R123 to R131), the control queue, receive credit and the transmitter's arbiter (R176 to
R178), discards (R171), and how a host command is taken and answered (R172 to R174). -/

namespace Sys2Proof.Machine

/-! ## Delivery -/

/-- R124: a port is eligible when its FIFO is not empty and its hold flag is clear. -/
def Delivery.eligible (d : Delivery) : Bool := !d.fifo.isEmpty && !d.hold

/-- R124: the eligible port of highest rank. -/
def Hub.grantee (h : Hub) : Option Port := h.rotation.find? fun p => (h.delivery.get p).eligible

/-- The image record of a frame's next grant (R125 to R128), the status if it is a FRAME_CLOSE, and the progress after it. A grant of an
ABORTED FRAME_CLOSE makes the next record CLOSE and leaves the next line as it was (DESIGN CHOICE, log 41). -/
def Store.imageRec (st : Store) (f : Frame) (g : Progress) : Rec × Option DeliveryStatus × Progress :=
  let mk (kind : Byte) (payload : List Byte) : Rec := ⟨kind, portByte f.port, 0, payload⟩
  if g.abort then
    (mk 0x05 (closePayload f.tag g.linesSent .aborted), some .aborted, { g with next := .close, inTx := true })
  else
    match g.next, g.nextLine with
    | .frameOpen, _ =>
      (mk 0x03 f.openPayload, none,
        { g with
          next := if f.received.isEmpty then .close else .line
          nextLine := f.received.head?.map (·.1)
          inTx := true })
    | .line, some n =>
      let bad := (f.received.find? (·.1 == n)).elim false (·.2)
      let bytes := (countFrom (n * f.lineBytes) f.lineBytes).map (Memory.readRun f.pages st.dram)
      let after := (f.received.find? fun e => n < e.1).map (·.1)
      (mk 0x04 (f.linePayload n bad bytes), none,
        { g with
          next := if after.isSome then .line else .close
          nextLine := after
          linesSent := g.linesSent + 1
          inTx := true })
    | _, _ =>
      (mk 0x05 (closePayload f.tag g.linesSent .delivered), some .delivered, { g with next := .close, inTx := true })

/-- R124, R125: grant a port one record of its head frame, which enters SENDING at its first grant. The port moves to the bottom of
the rotation order. -/
def Hub.grant (p : Port) (h : Hub) : Hub :=
  match (h.delivery.get p).fifo.head?.bind h.store.frame? with
  | none => h
  | some f =>
    let (r, closing, g) := h.store.imageRec f (((h.delivery.get p).progress).getD {})
    ((((h.modFrame f.tag fun x => { x with state := .sending }).modDelivery p
      fun d => { d with progress := some g }).setRotation (h.rotation.filter (· != p) ++ [p])).modUplink
      fun u => { u with tx := some (.image (some f.tag) closing r) })

/-- R128: after a FRAME_CLOSE the frame leaves its FIFO, is counted by the status sent, and its descriptor is released. -/
def Hub.frameDelivered (f : Frame) (st : DeliveryStatus) (h : Hub) : Hub :=
  (h.modDelivery f.port fun d =>
    { d with
      fifo := d.fifo.filter (· != f.tag)
      progress := none
      delivered := if st = .delivered then satInc Config.max16 d.delivered else d.delivered
      aborted := if st = .aborted then satInc Config.max16 d.aborted else d.aborted }).releaseFrame f.tag

/-- R131: uplink loss at one port: a SENDING head frame is discarded, counted lost and released. -/
def Hub.loseSending (h : Hub) (p : Port) : Hub :=
  match (h.delivery.get p).progress, (h.delivery.get p).fifo with
  | some _, t :: rest =>
    (h.modDelivery p fun d =>
      { d with fifo := rest, progress := none, lost := satInc Config.max16 d.lost }).releaseFrame t
  | _, _ => h

/-! ## The control queue, credit and the arbiter -/

/-- R177: grant one credit, reserving one place. -/
def Hub.grantCredit (h : Hub) : Hub := h.modUplink fun u => { u with credits := u.credits + 1 }

/-- R176, R177: while places are free, grant credits and offer pending reports. When the free places do not suffice for all that
want one, the free value says which is taken first (DESIGN CHOICE, log 6). A stale level entry (R186) is cleared only here, while a place
is free and the router comes to offer its next entry: one that comes to the head as the last place is taken stays pending until a place
is free again (DESIGN CHOICE, log 45, unsafe). -/
def Hub.fillPlaces : Nat → Hub → Hub
  | 0, h => h
  | fuel + 1, h =>
    if h.placeForReport then
      let h := Hub.clearStale h.router.order h
      let wanted := Config.maxCredits - h.uplink.credits
      match h.nextOffer with
      | none => if 0 < wanted then Hub.fillPlaces fuel h.grantCredit else h
      | some src =>
        if wanted = 0 then Hub.fillPlaces fuel (h.sendReport src)
        else if wanted + h.router.order.countP h.offerable ≤ h.uplink.free then Hub.fillPlaces fuel h.grantCredit
        else if Config.creditFirst h.draws then Hub.fillPlaces fuel (h.draw 1).grantCredit
        else Hub.fillPlaces fuel ((h.draw 1).sendReport src)
    else h

/-- R178: when the transmitter is free and the uplink UP, send the control queue's head, or else an image record. -/
def Hub.arbitrate (h : Hub) : Hub :=
  if h.uplink.up && h.uplink.tx.isNone then
    if h.uplink.queue.isEmpty then
      match h.grantee with
      | some p => h.grant p
      | none => h
    else h.modUplink fun u => { u with tx := some .control }
  else h

/-- What every command ends with: places are filled and the transmitter chooses (DEDUCED, log 8). -/
def Hub.finish (h : Hub) : Hub := (Hub.fillPlaces Config.queuePlaces h).arbitrate

/-! ## Discards (R171, R185) -/

/-- The uplink error count of a cause. -/
def Uplink.errors (u : Uplink) : DiscardCause → Nat
  | .noCredit => u.noCredit
  | .length => u.badLength
  | .crc => u.badCrc

/-- Add 1 to the uplink error count of a cause. -/
def Uplink.countError (u : Uplink) : DiscardCause → Uplink
  | .noCredit => { u with noCredit := satInc Config.max16 u.noCredit }
  | .length => { u with badLength := satInc Config.max16 u.badLength }
  | .crc => { u with badCrc := satInc Config.max16 u.badCrc }

/-- R171: discard a record: it is counted and UPLINK_ERROR fires; the credit it used, if any, is spent after that, as the worked
example's steps 5 and 6 show. -/
def Hub.discard (cause : DiscardCause) (h : Hub) : Hub :=
  let h1 := h.modUplink fun u => u.countError cause
  let h2 := h1.fire (.ofHub .uplinkError) (w1 cause.code ++ w2 (h1.uplink.errors cause))
  if cause = .noCredit then h2 else h2.modUplink fun u => { u with credits := u.credits - 1 }

/-! ## Host commands -/

/-- What a block answers to a command: the hub after it, the status, and the data that follows it in the reply. -/
structure Answer where
  hub    : Hub
  status : Status
  data   : List Byte := []

/-- A refusal: nothing changes and nothing more is carried (R173, R174). -/
def refuse (st : Status) (h : Hub) : Answer := ⟨h, st, []⟩

/-- OK or CLAMPED, by whether a quantity was brought into range (R175). -/
def okOr (clamped : Bool) : Status := if clamped then .clamped else .ok

/-- R192, R194: the reply record of a command. -/
def replyRec (kind : Nat) (c : Cmd) (st : Status) (data : List Byte) : Rec :=
  ⟨0x01, c.port, c.tag, w1 kind ++ w1 st.code ++ data⟩

/-- R173, R177: the reply enters the control queue at its tail, in the place reserved for the command. -/
def Hub.sendReply (kind : Nat) (c : Cmd) (st : Status) (data : List Byte) (h : Hub) : Hub :=
  h.modUplink fun u =>
    { u with queue := u.queue ++ [.reply (replyRec kind c st data)], credits := u.credits - 1 }

/-- R171 to R173: how a command record is taken. With the uplink DOWN none is received; without a credit it is discarded; a wrong
payload length is refused; else its block answers. -/
def Hub.takeCommand (kind : Nat) (c : Cmd) (lenOk : Bool) (body : Hub → Answer) (h : Hub) : Hub :=
  if !h.uplink.up then h
  else if h.uplink.credits = 0 then (h.discard .noCredit).finish
  else
    let a := if lenOk then body h else refuse .badLength h
    (a.hub.sendReply kind c a.status a.data).finish

/-- R172: a command that names a port is refused with BAD_PORT when the header port is above 5. -/
def withPort (c : Cmd) (body : Port → Hub → Answer) (h : Hub) : Answer :=
  if hp : c.port.toNat < 6 then body ⟨c.port.toNat, hp⟩ h else refuse .badPort h

/-- R193: an option, presence or on/off byte other than 0 or 1 is refused with BAD_ARG before the owning rule's checks. -/
def withFlags (ok : Bool) (body : Hub → Answer) (h : Hub) : Answer := if ok then body h else refuse .badArg h

end Sys2Proof.Machine
end

