-- ==== Sys2Proof/Machine/LensOps.lean ====
section
/-! DEFINITION. The outgoing word list of a port (R3, R4), surge admission (R36), issuing lens moves (R51 to R53) and serving the
deferred move list (R55). -/

namespace Sys2Proof.Machine

/-! ## Downstream words (R3) -/

/-- The time a downstream word occupies the cable, in µs (R2). -/
abbrev wordTime : Nat := 10

/-- Whether two words are of one kind. -/
def DownWord.sameKind : DownWord → DownWord → Bool
  | .trigger .., .trigger .. => true
  | .lensMove .., .lensMove .. => true
  | .retrain .., .retrain .. => true
  | _, _ => false

/-- R3: the link states in which a word of a kind is sent. -/
def DownWord.allowed (s : LinkState) : DownWord → Bool
  | .trigger .. => s == .up
  | .lensMove .. => s == .up || s == .relock
  | .retrain .. => s == .acquire

/-- The frame tag of a TRIGGER. -/
def DownWord.triggerTag? : DownWord → Option FrameTag
  | .trigger t _ => some t
  | _ => none

/-- R3: a word joins the list: in the place of a waiting word of its kind, else a TRIGGER at the head, another at the tail. -/
def joinWords (w : DownWord) (ws : List DownWord) : List DownWord :=
  if ws.any w.sameKind then ws.map fun x => if w.sameKind x then w else x
  else match w with
    | .trigger .. => w :: ws
    | _ => ws ++ [w]

/-- R3: the first word of the list that the link state allows, the words after it, and the tag of a TRIGGER removed unsent. -/
def pumpWords (s : LinkState) : List DownWord → Option DownWord × List DownWord × Option FrameTag
  | [] => (none, [], none)
  | w :: ws =>
    if w.allowed s then (some w, ws, none)
    else
      let (sent, rest, lost) := pumpWords s ws
      (sent, rest, (w.triggerTag?).or lost)

/-- R3: with the cable free, the next word of the list goes onto it. -/
def Link.pump (l : Link) : Link × Option FrameTag :=
  match l.cable with
  | some _ => (l, none)
  | none =>
    let (sent, rest, lost) := pumpWords l.state l.words
    ({ l with words := rest, cable := sent.map fun w => ⟨w, wordTime, false⟩ }, lost)

/-- R3: a word is offered to the port. -/
def Link.offer (w : DownWord) (l : Link) : Link × Option FrameTag := ({ l with words := joinWords w l.words }).pump

/-- Offer a LENS_MOVE or a RETRAIN. While the cable is free no word waits, so no TRIGGER can be removed unsent by it. -/
def Hub.offerWord (p : Port) (w : DownWord) (h : Hub) : Hub := h.modLink p fun l => (l.offer w).1

/-! ## Surges (R36) -/

/-- R36: whether a surge for the port's lens move would be admitted now. -/
def Hub.surgeFits (p : Port) (h : Hub) : Bool :=
  let w := h.power.get p
  w.state == .on && (w.setup.surge == 0 || h.admits w.setup.surge)

/-- R36: the held surge becomes the port's lens surge allowance. -/
def Hub.holdSurge (p : Port) (h : Hub) : Hub := h.modPower p fun w => { w with heldSurge := w.setup.surge }

/-! ## Moves (R51 to R53) -/

/-- Change a port's lens record, if it is valid. -/
def Hub.modRecord (p : Port) (f : LensRecord → LensRecord) (h : Hub) : Hub :=
  h.modLens p fun l => { l with record := l.record.map f }

/-- The targets a record holds: those of present axes that have one (R53). -/
def LensRecord.targets (r : LensRecord) : Targets := r.axes.map fun a => a.bind (·.target)

/-- R53: offer a LENS_MOVE word with the port's present targets. -/
def Hub.offerLensMove (p : Port) (h : Hub) : Hub :=
  match (h.lenses.get p).record with
  | some r => h.offerWord p (.lensMove r.targets)
  | none => h

/-- The length of a move timeout in µs (R58, R68). -/
def Lens.timeoutLength (l : Lens) : Nat := l.setup.moveTimeout * 1000

/-- R52, R55: an admitted move enters MOVING: the surge is held, the move timeout starts and a LENS_MOVE word is offered. -/
def Hub.startMove (p : Port) (h : Hub) : Hub :=
  let len := (h.lenses.get p).timeoutLength
  ((h.holdSurge p).modRecord p fun r =>
    { r with moveState := .moving, progress := 0, timeout := some len }).offerLensMove p

/-- R51: the axes a move is asked to move: those supplied with a target that the camera reports present. -/
def LensRecord.requested (r : LensRecord) (t : Targets) : PerAxis Bool :=
  r.axes.zip (fun a v => a.isSome && v.isSome) t

/-- R49, R51: write the supplied targets of present axes, clamped to the travel limits. -/
def LensRecord.writeTargets (r : LensRecord) (t : Targets) : LensRecord :=
  let put (a : Option AxisRecord) (v : Option Nat) : Option AxisRecord :=
    a.map fun x => match v with
      | some n => { x with target := some (x.limits.clamp n) }
      | none => x
  { r with axes := r.axes.zip put t }

/-- R49: whether clamping changes a supplied target of a present axis. -/
def LensRecord.clamps (r : LensRecord) (t : Targets) : Bool :=
  (r.axes.zip (fun a v => match a, v with | some x, some n => x.limits.clamp n != n | _, _ => false) t).any

/-- The union of two axis sets. -/
def axisUnion (a b : PerAxis Bool) : PerAxis Bool := a.zip (· || ·) b

/-- What issuing a move answers. -/
structure MoveAnswer where
  hub     : Hub
  issued  : Bool
  clamped : Bool

/-- R52: an issued move acts by the port's move state. -/
def Hub.actMove (p : Port) (req : PerAxis Bool) (h : Hub) : Hub :=
  match (h.lenses.get p).moveState with
  | .moving =>
    let len := (h.lenses.get p).timeoutLength
    (h.modRecord p fun r =>
      { r with moved := axisUnion r.moved req, progress := 0, timeout := some len }).offerLensMove p
  | .deferred => h.modRecord p fun r => { r with moved := axisUnion r.moved req }
  | .idle | .settled | .stalled =>
    let h1 := h.modRecord p fun r => { r with moved := req, progress := 0 }
    if h1.surgeFits p then h1.startMove p
    else (h1.modRecord p fun r => { r with moveState := .deferred }).setDeferred (h1.deferred ++ [p])

/-- R51: issue a lens move for a port. -/
def Hub.issueMove (p : Port) (t : Targets) (h : Hub) : MoveAnswer :=
  match (h.lenses.get p).record with
  | none => ⟨h, false, false⟩
  | some r =>
    if !(h.links.get p).carriesMoves || !(r.requested t).any then ⟨h, false, false⟩
    else ⟨(h.modRecord p fun r => r.writeTargets t).actMove p (r.requested t), true, r.clamps t⟩

/-! ## Serving (R55) -/

/-- R55: run through entries from the head, admitting while surges fit. -/
def Hub.serveList : List Port → Hub → Hub
  | [], h => h
  | p :: rest, h =>
    if h.surgeFits p then Hub.serveList rest ((h.setDeferred (h.deferred.filter (· != p))).startMove p) else h

/-- R55: one serving of the deferred move list. -/
def Hub.serve (h : Hub) : Hub := Hub.serveList h.deferred h

/-- R35: a fall of the reserved sum prompts a serving. -/
def Hub.serveIfBelow (before : Nat) (h : Hub) : Hub := if h.reservedSum < before then h.serve else h

/-- R36, R35: release a port's held surge, which prompts a serving. -/
def Hub.releaseSurge (p : Port) (h : Hub) : Hub :=
  (h.modPower p fun w => { w with heldSurge := 0 }).serveIfBelow h.reservedSum

end Sys2Proof.Machine
end

