-- ==== Sys2Proof/Machine/ShotOps.lean ====
section
/-! DEFINITION. The shot scheduler's operations (R78, R79, R85, R86, R90 to R95). -/

namespace Sys2Proof.Machine

/-! ## Outcomes (R95) -/

/-- R95: the counters of a slot that goes to DONE. -/
def SlotStats.count (s : SlotStats) (o : SlotOutcome) (cycle : BitVec 32) : SlotStats :=
  match o with
  | .fired => { s with fired := satInc Config.max16 s.fired, last := some (o, cycle) }
  | .late => { s with late := satInc Config.max16 s.late, last := some (o, cycle) }
  | .skipped _ => { s with skipped := satInc Config.max16 s.skipped, last := some (o, cycle) }

/-- R95: record the outcome of a slot. -/
def Hub.recordOutcome (i : SlotIx) (o : SlotOutcome) (cycle : BitVec 32) (h : Hub) : Hub :=
  h.modShot fun s => { s with stats := vmod s.stats i fun x => x.count o cycle }

/-- R91, R61: issue a slot's lens move to its preset, read now. A slot without a preset issues nothing. -/
def Hub.issueSlotMove (i : SlotIx) (h : Hub) : Hub :=
  match h.shot.active with
  | none => h
  | some t =>
    let r := t.slots.get i
    match r.preset with
    | none => h
    | some k => (h.issueMove r.port ((h.lenses.get r.port).presets.get k)).hub

/-- Whether a slot of the cycle numbered so belongs to the cycle that runs now. -/
def Shot.inCycle (s : Shot) (cycle : BitVec 32) : Bool := s.cycle == .running && s.number == cycle

/-- The later same-port slot whose lens move waits on slot `i`, in the cycle that runs now (R91). -/
def Shot.follower (s : Shot) (i : SlotIx) (cycle : BitVec 32) : Option SlotIx :=
  if s.inCycle cycle then s.active.bind fun t => t.nextOn i else none

/-- R91: the issue point of the next same-port slot. -/
def Hub.issueNext (i : SlotIx) (cycle : BitVec 32) (h : Hub) : Hub :=
  match h.shot.follower i cycle with
  | some j => h.issueSlotMove j
  | none => h

/-- The detail of SLOT_SKIPPED (R95, R194). -/
def skipDetail (i : SlotIx) (p : Port) (cycle : BitVec 32) (r : SkipReason) : List Byte :=
  w1 i.val ++ w1 p.val ++ w4 cycle.toNat ++ w1 r.code

/-- R94, R95: a slot goes to DONE as SKIPPED: it is counted, SLOT_SKIPPED fires, and the next same-port slot's move is issued. -/
def Hub.skipSlot (i : SlotIx) (p : Port) (cycle : BitVec 32) (r : SkipReason) (h : Hub) : Hub :=
  ((h.recordOutcome i (.skipped r) cycle).fire (.ofHub .slotSkipped) (skipDetail i p cycle r)).issueNext i cycle

/-- R90, R93: the reason a slot of a port is skipped with, by the port's power and link state. -/
def Hub.skipReason (p : Port) (h : Hub) : SkipReason :=
  match (h.power.get p).state with
  | .on => .link
  | .hunt => .hunt
  | _ => .power

/-- Change the flight of a frame tag. -/
def Hub.modFlight (t : FrameTag) (f : Flight → Flight) (h : Hub) : Hub :=
  h.modShot fun s => { s with flights := s.flights.map fun x => if x.tag == t then f x else x }

/-- Take the flight of a frame tag out. -/
def Hub.dropFlight (t : FrameTag) (h : Hub) : Hub :=
  h.modShot fun s => { s with flights := s.flights.filter (·.tag != t) }

/-- R94: an opened slot ends without a trigger: its descriptor is released with its pages. -/
def Hub.endFlight (f : Flight) (r : SkipReason) (h : Hub) : Hub :=
  (((h.dropFlight f.tag).releaseFrame f.tag).skipSlot f.slot f.port f.cycle r)

/-- R94: every slot of a port in GUARD or OFFERED ends. -/
def Hub.endFlights (p : Port) (r : SkipReason) (h : Hub) : Hub :=
  (h.shot.flights.filter (·.port == p)).foldl (fun h f => h.endFlight f r) h

/-- R93: the link unit reports a TRIGGER not sent. A slot that is past OFFERED is not touched. -/
def Hub.triggerNotSent (h : Hub) (t : FrameTag) : Hub :=
  match h.shot.flights.find? (fun f => f.tag == t && f.stage == .offered) with
  | some f => h.endFlight f (h.skipReason f.port)
  | none => h

/-- R92, R93: offer the TRIGGER of an opened slot; `late` flags its frame LENS_LATE (R105). -/
def Hub.offerTrigger (f : Flight) (late : Bool) (h : Hub) : Hub :=
  let h1 := h.modFlight f.tag fun x => { x with stage := .offered, late := late }
  let h2 := if late then h1.modFrame f.tag fun x => { x with lensLate := true } else h1
  let w : DownWord := .trigger f.tag f.exposure
  let lost := ((h2.links.get f.port).offer w).2
  let h3 := h2.offerWord f.port w
  match lost with
  | some t => h3.triggerNotSent t
  | none => h3

/-- R93, R105: the link unit reports a TRIGGER sent: the frame gets its exposure timestamp, zone, lens snapshot and window, and the
slot goes to DONE as FIRED or LATE. -/
def Hub.triggerSent (t : FrameTag) (h : Hub) : Hub :=
  match h.shot.flights.find? (fun f => f.tag == t && f.stage == .offered) with
  | none => h
  | some f =>
    let l := h.lenses.get f.port
    let snap : LensSnapshot :=
      { actuals := (l.record.map fun r => r.axes.map fun a => a.bind (·.actual)).getD ⟨none, none, none⟩
        moveState := l.moveState }
    let h1 := h.modFrame t fun x =>
      { x with
        exposedAt := some h.now, zone := some (h.zones.get f.port).current, lens := some snap
        window := some (x.windowMs * 1000) }
    let h2 := (h1.dropFlight t).recordOutcome f.slot (if f.late then .late else .fired) f.cycle
    match h.shot.follower f.slot f.cycle with
    | some _ => h2.modShot fun s => { s with exposureEnds := s.exposureEnds.set f.slot (some f.exposure) }
    | none => h2

/-! ## Notices from the lens controller (R92) -/

/-- R92: the port's lens settled or stalled: a slot in GUARD offers its TRIGGER. -/
def Hub.lensReady (p : Port) (h : Hub) : Hub :=
  (h.shot.flights.filter fun f => f.port == p && f.stage != .offered).foldl (fun h f => h.offerTrigger f false) h

/-- R92, R94: the port's move was abandoned: with power ON and the link UP a slot in GUARD offers its TRIGGER; otherwise slots in
GUARD and OFFERED end. -/
def Hub.lensAbandoned (p : Port) (h : Hub) : Hub :=
  if (h.power.get p).state == .on && (h.links.get p).state == .up then h.lensReady p
  else h.endFlights p (h.skipReason p)

/-! ## Opening a slot (R90, R92) -/

/-- R90: the four checks, in order. -/
def Hub.openingFault (r : SlotRecord) (h : Hub) : Option SkipReason :=
  if (h.power.get r.port).state != .on then some (h.skipReason r.port)
  else if (h.links.get r.port).state != .up then some .link
  else if (h.store.filling? r.port).isSome then some .portBusy
  else if !h.store.hasRoom r.lines r.lineBytes then some .store
  else none

/-- R92: whether a slot waits for its lens. -/
def Hub.mustWait (r : SlotRecord) (h : Hub) : Bool :=
  r.preset.isSome &&
    ((h.lenses.get r.port).moveState == .deferred || (h.lenses.get r.port).moveState == .moving)

/-- R90 to R92: a slot opens. A guard of 0 expires at once (DEDUCED, log 18). -/
def Hub.openSlot (i : SlotIx) (h : Hub) : Hub :=
  match h.shot.active with
  | none => h
  | some t =>
    let r := t.slots.get i
    let h := h.modShot fun s => { s with opening := s.opening.set i none }
    match h.openingFault r with
    | some why => h.skipSlot i r.port h.shot.number why
    | none =>
      let f : Flight :=
        { slot := i, port := r.port, tag := h.store.nextTag, cycle := h.shot.number, exposure := r.exposure, late := false
          stage := .waiting r.guardTime }
      let h1 := (h.openFrame i r).modShot fun s => { s with flights := s.flights ++ [f] }
      if h1.mustWait r then (if r.guardTime = 0 then h1.offerTrigger f true else h1) else h1.offerTrigger f false

/-! ## Cycles -/

/-- R85: a start taken in ARMED begins a cycle. Step 6 issues the first slots' moves in port order (DESIGN CHOICE, log 38). -/
def Hub.beginCycle (h : Hub) : Hub :=
  match h.shot.active with
  | none => h
  | some t =>
    let order := t.runOrder
    let h1 := h.modShot fun s =>
      { s with
        cycle := .running, number := s.number + 1, startTime := h.now, span := some t.header.span
        opening := vtab fun i => if (t.slots.get i).enabled then some (t.slots.get i).offset else none
        exposureEnds := Vector.replicate 16 none }
    let h2 := (allPorts.filterMap fun p => t.firstOn p order).foldl (fun h i => h.issueSlotMove i) h1
    (order.filter fun i => (t.slots.get i).offset == 0).foldl (fun h i => h.openSlot i) h2

/-- The detail of CYCLE_OVERRUN (R86, R194). -/
def Hub.overrunDetail (kind : StartSource) (h : Hub) : List Byte :=
  w1 kind.code ++ w4 h.shot.number.toNat ++ w2 h.shot.missed ++ w4 h.time.position.toNat

/-- R86: a start taken in RUNNING is an overrun. -/
def Hub.overrun (kind : StartSource) (h : Hub) : Hub :=
  let h1 := h.modShot fun s => { s with missed := satInc Config.max16 s.missed }
  h1.fire (.ofHub .cycleOverrun) (h1.overrunDetail kind)

/-- R85, R86: a start. -/
def Hub.start (kind : StartSource) (h : Hub) : Hub :=
  match h.shot.cycle with
  | .armed => h.beginCycle
  | .running => h.overrun kind
  | .stopped => h

/-- R79: a table becomes active; the encoder next-start is set by the start sources before and after. No active table before counts as
another source than ENCODER (DESIGN CHOICE, log 39). -/
def Shot.apply (pos : BitVec 32) (t : ShotTable) (s : Shot) : Shot :=
  let fresh := t.header.source == .encoder && (s.active.map (·.header.source)) != some .encoder
  { s with
    active := some t, pending := none
    nextStart := if fresh then pos + BitVec.ofNat 32 t.header.pitch else s.nextStart }

/-- R87, R88: a pending table becomes active at the end of a cycle. -/
def Shot.applyPending (pos : BitVec 32) (s : Shot) : Shot :=
  match s.pending with
  | some t => s.apply pos t
  | none => s

/-! ## Validation (R78) -/

/-- The check a slot fails, if it fails one: 1 span, 2 same-port overlap. `earlier` holds the slots before it, nearest first. -/
def ShotTable.checkSlot (t : ShotTable) (earlier : List SlotIx) (i : SlotIx) : Option Nat :=
  let r := t.slots.get i
  if t.header.span < r.offset + r.occupancy then some 1
  else match t.firstOn r.port earlier with
    | some j => if r.offset < (t.slots.get j).offset + (t.slots.get j).occupancy then some 2 else none
    | none => none

/-- R78: the first slot in run order that fails a check, with the check. -/
def ShotTable.firstFault (t : ShotTable) : List SlotIx → List SlotIx → Option (SlotIx × Nat)
  | _, [] => none
  | earlier, i :: rest =>
    match t.checkSlot earlier i with
    | some c => some (i, c)
    | none => t.firstFault (i :: earlier) rest

/-- R78: validate a table. -/
def ShotTable.fault? (t : ShotTable) : Option (SlotIx × Nat) := t.firstFault [] t.runOrder

end Sys2Proof.Machine
end

