-- ==== Sys2Proof/Machine/LinkOps.lean ====
section
/-! DEFINITION. Settle, stall and abandonment of lens moves (R47, R48, R56 to R60), and the link unit's changes of state with all
they bring at the frame store, the scheduler and the lens controller (R8 to R18, R109, R116, R117). -/

namespace Sys2Proof.Machine

/-! ## The lens record -/

/-- R47: the lens record built from a camera record. -/
def LensRecord.build (c : CameraRecord) : LensRecord where
  axes := c.travel.map fun l => l.map fun lim => ⟨lim, none, none, false⟩
  moveState := .idle
  moved := ⟨false, false, false⟩
  progress := 0
  doneCause := .none
  doneTime := 0
  timeout := none

/-- The detail of LENS_DONE (R70, R194). -/
def LensRecord.doneDetail (r : LensRecord) : List Byte :=
  w1 r.doneCause.code ++ wAxes r.moved
    ++ wPerAxis (fun a => wOpt2 (a.bind (·.target)) ++ wOpt2 (a.bind (·.actual))) r.axes ++ wTime r.doneTime

/-- R57, R58: a move ends SETTLED or STALLED: its surge is released, the scheduler is told, and LENS_DONE fires. -/
def Hub.endMove (p : Port) (st : MoveState) (cause : DoneCause) (h : Hub) : Hub :=
  let h1 := h.modRecord p fun r =>
    { r with timeout := none, moveState := st, doneCause := cause, doneTime := h.now }
  let h2 := (h1.releaseSurge p).lensReady p
  match (h1.lenses.get p).record with
  | some r => h2.fire (.ofPort p .lensDone) r.doneDetail
  | none => h2

/-- R59: what an abandonment does to the record: IDLE, no moved axes, no progress, and targets set to the actuals. -/
def LensRecord.abandoned (r : LensRecord) : LensRecord :=
  let back (a : AxisRecord) : AxisRecord :=
    match a.actual with
    | some n => { a with target := some (a.limits.clamp n) }
    | none => a
  { r with
    axes := r.axes.map fun a => a.map back
    moveState := .idle, moved := ⟨false, false, false⟩, progress := 0, timeout := none }

/-- R59: abandon a port's lens move: its list entry or its surge goes, and the scheduler is told. -/
def Hub.abandon (p : Port) (h : Hub) : Hub :=
  let h1 := (h.setDeferred (h.deferred.filter (· != p))).modRecord p LensRecord.abandoned
  (h1.releaseSurge p).lensAbandoned p

/-! ## Settle checks (R48, R49, R56) -/

/-- R48: take one entry of a LENS_STATUS word. -/
def AxisRecord.take (a : AxisRecord) (e : LensEntry) : AxisRecord :=
  let lim : Limits := if limitsOk e.lo.toNat e.hi.toNat then ⟨e.lo.toNat, e.hi.toNat⟩ else a.limits
  { limits := lim
    target := some (lim.clamp (a.target.getD e.actual.toNat))
    actual := some e.actual.toNat
    moving := e.moving != 0 }

/-- R48: take every entry of the word for the axes of the record. -/
def LensRecord.take (r : LensRecord) (w : LensStatusWord) : LensRecord :=
  { r with axes := r.axes.zip (fun a e => a.map fun x => x.take e) w.axes }

/-- R49: whether a re-clamp changed a target that was there. -/
def LensRecord.retargeted (old new : LensRecord) : Bool :=
  (old.axes.zip
    (fun a b => match a.bind (·.target), b.bind (·.target) with | some x, some y => x != y | _, _ => false) new.axes).any

/-- R56: every moved axis is within the tolerance. -/
def LensRecord.within (r : LensRecord) (tolerance : Nat) : Bool :=
  (r.axes.zip
    (fun a m => !m || match a with
      | some x => match x.actual, x.target with
        | some n, some t => ((n : Int) - t).natAbs ≤ tolerance
        | _, _ => false
      | none => false) r.moved).every

/-- R48, R49, R56, R57: a LENS_STATUS word of a port whose link is UP. -/
def Hub.takeLensStatus (p : Port) (w : LensStatusWord) (h : Hub) : Hub :=
  let l := h.lenses.get p
  match l.record with
  | none => h
  | some r =>
    let r1 := r.take w
    let h1 := h.modRecord p fun _ => r1
    if r.moveState != .moving then h1
    else
      let h2 := if r.retargeted r1 then h1.offerLensMove p else h1
      if r1.within l.setup.tolerance then
        let h3 := h2.modRecord p fun x => { x with progress := min 15 (r.progress + 1) }
        if l.setup.settleCount ≤ r.progress + 1 then h3.endMove p .settled .settled else h3
      else h2.modRecord p fun x => { x with progress := 0 }

/-! ## Frames of a port that leaves UP or ON (R109, R116, R117) -/

/-- R109, R116, R117: the port's FILLING frame is closed: a triggered one goes to delivery, an untriggered one is released and the
scheduler skips its slot. -/
def Hub.dropFilling (p : Port) (status : CloseStatus) (why : SkipReason) (h : Hub) : Hub :=
  let h1 := match h.store.filling? p with
    | some f => if f.triggered then h.closeFrame f.tag p status else h.releaseFrame f.tag
    | none => h
  h1.endFlights p why

/-! ## Link states -/

/-- The acquire timer in µs (R9). -/
abbrev acquireTime : Nat := 3000000

/-- The relock window in µs (R12). -/
abbrev relockTime : Nat := 50000

/-- R17: LINK_CHANGE fires with the link state and rate as they stand, and a cause. -/
def Hub.linkChange (p : Port) (cause : LinkCause) (h : Hub) : Hub :=
  let l := h.links.get p
  h.fire (.ofPort p .linkChange) (w1 l.state.code ++ w1 l.rate.code ++ w1 cause.code)

/-- R4: the tags of TRIGGERs that leaving UP makes not sent: one that waits, and one on the cable not yet reported. -/
def Link.unsent (l : Link) : List FrameTag :=
  l.words.filterMap DownWord.triggerTag? ++
    (match l.cable with
      | some c => if c.reported then [] else c.word.triggerTag?.toList
      | none => [])

/-- Mark the TRIGGER on the cable as reported. -/
def Link.markReported (l : Link) : Link :=
  { l with cable := l.cable.map fun c => { c with reported := c.reported || c.word.triggerTag?.isSome } }

/-- R4: on entry to RELOCK a waiting TRIGGER is removed. -/
def Link.trimTriggers (l : Link) : Link :=
  { l.markReported with words := l.words.filter fun w => w.triggerTag?.isNone }

/-- R4: on entry to ACQUIRE the list is emptied of TRIGGER and LENS_MOVE words. -/
def Link.trimAll (l : Link) : Link :=
  { l.markReported with words := l.words.filter fun w => w.sameKind (.retrain .full) }

/-- R4, R93: report TRIGGERs not sent. -/
def Hub.reportUnsent (tags : List FrameTag) (h : Hub) : Hub := tags.foldl Hub.triggerNotSent h

/-- R12, R13, R18: enter ACQUIRE at a rate with a fresh timer: the list is trimmed, a RETRAIN is added, LINK_CHANGE fires and the lens
move is abandoned. A LINK_RETRAIN taken in ACQUIRE sets the last change time too (DESIGN CHOICE, log 36). -/
def Hub.enterAcquire (p : Port) (rate : Rate) (cause : LinkCause) (h : Hub) : Hub :=
  let h1 := h.modLink p fun l =>
    { l.trimAll with
      state := .acquire, rate := rate, acquireTimer := some acquireTime, relockWindow := none, lastChange := h.now }
  (((h1.offerWord p (.retrain rate)).reportUnsent (h.links.get p).unsent).linkChange p cause).abandon p

/-- R9: the power state enters ON: DOWN to ACQUIRE at the current rate; at HALF a RETRAIN is added. -/
def Hub.linkStart (p : Port) (h : Hub) : Hub :=
  let h1 := h.modLink p fun l =>
    { l with state := .acquire, acquireTimer := some acquireTime, locked := false, lastChange := h.now }
  let h2 := match (h.links.get p).rate with
    | .half => h1.offerWord p (.retrain .half)
    | .full => h1
  h2.linkChange p .powerOn

/-- R4, R16: the link record on entry to DOWN. -/
def Link.toDown (now : CellTime) (l : Link) : Link :=
  { l with
    state := .down, lastChange := now, camera := none, locked := false, acquireTimer := none, relockWindow := none
    words := [], cable := none }

/-- R16, R117: the power state leaves ON: the link goes DOWN, the FILLING frame closes POWER_LOST, the lens move is abandoned and the
lens record becomes invalid. -/
def Hub.linkStop (p : Port) (h : Hub) : Hub :=
  let h1 :=
    if (h.links.get p).state == .down then h
    else ((h.modLink p (Link.toDown h.now)).linkChange p .powerOff).reportUnsent (h.links.get p).unsent
  let h2 := (h1.dropFilling p .powerLost (h1.skipReason p)).abandon p
  h2.modLens p fun l => { l with record := none }

/-- R12: whether a lock loss in UP, already counted, makes fallback due. -/
def Link.fallbackDue (l : Link) : Bool := l.threshold != 0 && l.threshold ≤ l.sinceUp && l.rate == .full

/-- R12: lock lost in UP, in the order the rule gives (DEDUCED, log 29). -/
def Hub.lockLostUp (p : Port) (h : Hub) : Hub :=
  let h1 := h.modLink p fun l =>
    { l with sinceUp := satInc 255 l.sinceUp, total := satInc Config.max16 l.total, locked := false }
  let h2 := (h1.countDrop p).dropFilling p .linkLost .link
  if (h2.links.get p).fallbackDue then h2.enterAcquire p .half .fallback
  else
    let h3 := h2.modLink p fun l =>
      { l.trimTriggers with state := .relock, relockWindow := some relockTime, lastChange := h2.now }
    h3.reportUnsent (h2.links.get p).unsent

/-- R1, R6, R10: the receiver takes words in UP, and in ACQUIRE while it holds lock. -/
def Link.takesWords (l : Link) : Bool := l.state == .up || (l.state == .acquire && l.locked)

/-- R6: an undecodable word is discarded and counted. -/
def Hub.countWordError (p : Port) (h : Hub) : Hub :=
  h.modLink p fun l => { l with wordErrors := satInc Config.max16 l.wordErrors }

/-- R47: build the port's lens record from a camera record. -/
def Hub.buildLens (p : Port) (c : CameraRecord) (h : Hub) : Hub :=
  h.modLens p fun l => { l with record := some (LensRecord.build c) }

/-- R10: a well-formed HELLO in ACQUIRE brings the link UP. -/
def Hub.helloAcquire (p : Port) (c : CameraRecord) (h : Hub) : Hub :=
  let h1 := h.modLink p fun l =>
    { l with camera := some c, acquireTimer := none, sinceUp := 0, state := .up, lastChange := h.now }
  (h1.linkChange p .acquired).buildLens p c

/-- R14, R60: a well-formed HELLO in UP is a camera restart. -/
def Hub.helloRestart (p : Port) (c : CameraRecord) (h : Hub) : Hub :=
  (((h.modLink p fun l => { l with camera := some c }).abandon p).buildLens p c).linkChange p .cameraRestart

/-- R6, R7, R10, R14: a HELLO word that the receiver takes. -/
def Hub.takeHello (p : Port) (w : HelloWord) (h : Hub) : Hub :=
  if !w.ok then h.countWordError p
  else
    let c := CameraRecord.ofHello w h.now
    if (h.links.get p).state == .up then h.helloRestart p c else h.helloAcquire p c

/-- R3, R93: the word on the cable has ended: a TRIGGER not reported yet is reported sent, and the next word goes onto the cable. -/
def Hub.wordEnd (p : Port) (c : OnCable) (h : Hub) : Hub :=
  let h1 := h.modLink p fun l => { l with cable := none }
  let h2 := match c.word.triggerTag? with
    | some t => if c.reported then h1 else h1.triggerSent t
    | none => h1
  let lost := ((h2.links.get p).pump).2
  let h3 := h2.modLink p fun l => l.pump.1
  match lost with
  | some t => h3.triggerNotSent t
  | none => h3

end Sys2Proof.Machine
end

