-- ==== Sys2Proof/Machine/EchoOps.lean ====
section
/-! DEFINITION. The echo locator's operations: the queue and the sampler (R147 to R149), the locating arithmetic (R157 to R161), and
result records (R155, R162, R169). -/

namespace Sys2Proof.Machine

/-! ## Queue and sampler -/

/-- 256 zeros. -/
def Trace.zero : Trace := Vector.replicate 256 0

/-- R149: what the sampler reads when it takes a job; a LEARN uses averaging 16. -/
def EchoJob.ofTake (p : Port) (k : EchoKind) (e : EchoPort) : EchoJob where
  port := p
  kind := k
  settings := if k = .learn then { e.settings with averaging := 16 } else e.settings
  map := e.map
  baseline := if k = .learn then none else e.baseline
  shots := 0
  sums := Trace.zero
  due := 0

/-- R148: an idle sampler takes the oldest queued job whose port is discharged. -/
def Hub.lookForJob (h : Hub) : Hub :=
  match h.echo.sampler with
  | some _ => h
  | none =>
    match h.echo.queue.find? (fun q => (h.power.get q.1).discharged) with
    | none => h
    | some (p, k) =>
      h.modEcho fun e =>
        { e with queue := e.queue.filter (·.1 != p), sampler := some (EchoJob.ofTake p k (e.ports.get p)) }

/-- R147, R148: a job joins the tail of the queue, and an idle sampler looks for one. -/
def Hub.queueJob (p : Port) (k : EchoKind) (h : Hub) : Hub :=
  (h.modEcho fun e => { e with queue := e.queue ++ [(p, k)] }).lookForJob

/-- R166: the power controller's request after a SHORT trip. -/
def Hub.requestAuto (p : Port) (h : Hub) : Hub :=
  if (h.echo.ports.get p).baseline.isSome && !h.echo.busy p then h.queueJob p .auto else h

/-! ## Locating (R157 to R161) -/

/-- R157: the trace value of each sample, rounded toward negative infinity. -/
def averageTrace (averaging : Nat) (sums : Trace) : Trace := vmap (fun s => s.fdiv averaging) sums

/-- R157: the difference of each trace value from the baseline. -/
def differences (t baseline : Trace) : Trace := vzip (fun a b => a - b) t baseline

/-- The value at an index of a run, 0 past its end. -/
def intAt (d : List Int) (i : Nat) : Int := d.getD i 0

/-- R158: the least sample at or past the blanking whose difference reaches the threshold. -/
def crossing (s : EchoSettings) (d : List Int) : Option Nat :=
  (countFrom 0 256).find? fun i => s.blanking ≤ i && s.threshold ≤ (intAt d i).natAbs

/-- R159: the fraction of a crossing, in sixteenths. -/
def fraction (s : EchoSettings) (d : List Int) (i : Nat) : Nat :=
  if i = 0 then 0
  else
    let a := (intAt d (i - 1)).natAbs
    let b := (intAt d i).natAbs
    if s.threshold ≤ a then 0 else min 15 (16 * (s.threshold - a) / (b - a))

/-- R159: the delay in sixteenths of a ns. -/
def delay16 (s : EchoSettings) (d : List Int) (i : Nat) : Nat :=
  if i = 0 then 0 else 16 * (i - 1) + fraction s d i

/-- R160: the distance in mm. -/
def distanceMm (s : EchoSettings) (delay : Nat) : Nat := delay * s.velocity / 32

/-- R160: the greatest difference over the 8 samples from the crossing on. -/
def magnitude (d : List Int) (i : Nat) : Nat :=
  ((countFrom i (min (i + 7) 255 + 1 - i)).map fun j => (intAt d j).natAbs).foldl max 0

/-- R160: a trace value from before the crossing to 7 past it is at an end of the range. -/
def clipped (t : List Int) (i : Nat) : Bool :=
  (countFrom (i - 1) (min (i + 7) 255 + 1 - (i - 1))).any fun j => intAt t j == -2048 || intAt t j == 2047

/-- R152: boundary `k` of a map: the sum of the lengths of the segments before it. -/
def boundary (m : List Segment) (k : Nat) : Nat := ((m.take k).map (·.length)).sum

/-- The magnitude of the difference of two lengths. -/
def gap (a b : Nat) : Nat := max a b - min a b

/-- R161, step 2: the joint nearest to the distance within the window, the lower of two equally near. -/
def nearestJoint (m : List Segment) (window dist : Nat) : Option Nat :=
  (countFrom 0 (m.length + 1)).foldl
    (fun best k =>
      if window < gap dist (boundary m k) then best
      else match best with
        | none => some k
        | some j => if gap dist (boundary m k) < gap dist (boundary m j) then some k else some j) none

/-- R161: place a distance on a cable map. -/
def placeOn (m : List Segment) (window dist : Nat) : Place :=
  if m.isEmpty then .unmapped
  else match nearestJoint m window dist with
    | some k => .joint k
    | none =>
      match (countFrom 0 m.length).find? fun k => boundary m k ≤ dist && dist < boundary m (k + 1) with
      | some k => .segment k (dist - boundary m k)
      | none => .beyondMap

/-- R158 to R161: what a crossing yields. -/
def findingAt (s : EchoSettings) (m : List Segment) (t d : List Int) (i : Nat) : Finding :=
  let delay := delay16 s d i
  let dist := distanceMm s delay
  { crossing := i, delay := delay, distance := dist, place := placeOn m s.jointWindow dist
    magnitude := magnitude d i, clipped := clipped t i }

/-- R155, R157 to R162: the result of a completed job. -/
def EchoJob.result (j : EchoJob) (now : CellTime) : EchoResult :=
  match j.kind, j.baseline with
  | .learn, _ | _, none =>
    { kind := j.kind, outcome := .noFault, finding := none, averaging := j.settings.averaging, differences := none, time := now }
  | k, some base =>
    let t := averageTrace j.settings.averaging j.sums
    let d := differences t base
    match crossing j.settings d.toList with
    | none =>
      { kind := k, outcome := .noFault, finding := none, averaging := j.settings.averaging, differences := some d, time := now }
    | some i =>
      { kind := k
        outcome := if 0 < intAt d.toList i then .openFault else .shortFault
        finding := some (findingAt j.settings j.map t.toList d.toList i)
        averaging := j.settings.averaging, differences := some d, time := now }

/-- R162: the record of an aborted job. -/
def EchoResult.abortedJob (k : EchoKind) (averaging : Nat) (now : CellTime) : EchoResult :=
  { kind := k, outcome := .aborted, finding := none, averaging := averaging, differences := none, time := now }

/-- The detail of HUNT_DONE (R169, R194): distance, place, magnitude and clipped are 0 unless OPEN or SHORT. -/
def EchoResult.huntDetail (r : EchoResult) : List Byte :=
  w1 r.kind.code ++ w1 r.outcome.code
    ++ (match r.finding with
        | some f => w2 f.distance ++ wPlace f.place ++ w2 f.magnitude ++ wFlag f.clipped
        | none => w2 0 ++ List.replicate 4 0 ++ w2 0 ++ w1 0)
    ++ w1 r.averaging ++ wTime r.time

/-- R33: a result that locks a port in COOLDOWN out: SHORT at a place other than BEYOND_MAP. -/
def EchoResult.locatesShort (r : EchoResult) : Bool :=
  r.outcome == .shortFault && (r.finding.map (·.place)) != some .beyondMap

/-- Store a result record whole (R150, R162). -/
def Hub.storeResult (p : Port) (r : EchoResult) (h : Hub) : Hub := h.modEchoPort p fun e => { e with last := some r }

/-- HUNT_DONE fires with a result's detail (R169). -/
def Hub.huntDone (p : Port) (r : EchoResult) (h : Hub) : Hub := h.fire (.ofPort p .huntDone) r.huntDetail

/-- R167, R168: a port's job, its kind and the averaging an ABORTED record carries: that read at the take for a job sampling, 16 for a
LEARN, the port's setting for a job still queued. -/
def Echo.jobOf (e : Echo) (p : Port) : Option (EchoKind × Nat) :=
  match e.sampler with
  | some j =>
    if j.port == p then some (j.kind, j.settings.averaging)
    else (e.queuedKind p).map fun k => (k, if k = .learn then 16 else (e.ports.get p).settings.averaging)
  | none => (e.queuedKind p).map fun k => (k, if k = .learn then 16 else (e.ports.get p).settings.averaging)

/-- R167, steps 1 and 2: remove a port's job from the queue or stop it in the sampler. -/
def Echo.remove (e : Echo) (p : Port) : Echo :=
  { e with
    queue := e.queue.filter (·.1 != p)
    sampler := match e.sampler with
      | some j => if j.port == p then none else some j
      | none => none }

end Sys2Proof.Machine
end

