-- ==== Sys2Proof/Machine/PowerOps.lean ====
section
/-! DEFINITION. The power controller's operations (R22 to R38, R42, R43): the switch, trips, retries, lockouts, entry to and end of a
hunt, and the completion of an echo job (R150). -/

namespace Sys2Proof.Machine

/-- The on timer in µs (R32). -/
abbrev onTime : Nat := 5000000

/-- R30: the switch opens: the discharged flag clears and the discharge timer starts. -/
def Power.openSwitch (w : Power) : Power := { w with discharged := false, dischargeTimer := some dischargeTime }

/-- R27: entry to PRECHARGE. -/
def Power.toPrecharge (w : Power) : Power :=
  { w with
    state := .precharge, discharged := false, dischargeTimer := none, overCount := 0
    inrushTimer := some (w.setup.inrush * 1000) }

/-- R28, R29: what a trip does to the power record. -/
def Power.trip (cause : TripCause) (w : Power) : Power :=
  let w1 := { w.openSwitch with
    inrushTimer := none, onTimer := none, cause := cause, trips := satInc Config.max16 w.trips, overCount := 0 }
  if w.retriesUsed < w.setup.retries then
    { w1 with state := .cooldown, cooldownTimer := some (w.setup.cooldown * 1000) }
  else { w1 with state := .lockedOut }

/-- R28, R29, R33, R44: a trip: from ON the link goes DOWN; POWER_FAULT becomes active; a claim released prompts a serving; a SHORT into
COOLDOWN with auto-hunt on asks for an AUTO job. -/
def Hub.trip (p : Port) (cause : TripCause) (h : Hub) : Hub :=
  let w := h.power.get p
  let h1 := h.modPower p (Power.trip cause)
  let h2 := if w.state == .on then h1.linkStop p else h1
  let h3 := (h2.activate (.ofPort p .powerFault)).serveIfBelow h.reservedSum
  if cause = .short && (h1.power.get p).state == .cooldown && w.setup.autoHunt then h3.requestAuto p else h3

/-- R26, R27: a sample against the trip threshold of ON or PRECHARGE. -/
def Power.sampled (reading : Nat) (w : Power) : Power :=
  let w1 := { w with last := reading, peak := max w.peak reading }
  match w.state with
  | .precharge | .on =>
    if reading ≥ 3000 then w1
    else if w.threshold < reading then { w1 with overCount := min 16 (w.overCount + 1) } else { w1 with overCount := 0 }
  | _ => w1

/-- R25 to R27: the cause a sample trips with, if it does. The SHORT check comes first. -/
def Power.sampleTrip (reading : Nat) (w : Power) : Option TripCause :=
  match w.state with
  | .precharge =>
    if reading ≥ 3000 then some .short
    else if w.threshold < reading && w.setup.tripSamples ≤ w.overCount + 1 then some .inrush else none
  | .on =>
    if reading ≥ 3000 then some .short
    else if w.threshold < reading && w.setup.tripSamples ≤ w.overCount + 1 then some .overcurrent else none
  | _ => none

/-- R24 to R28: take a current sample. -/
def Hub.sample (p : Port) (reading : Nat) (h : Hub) : Hub :=
  let h1 := h.modPower p (Power.sampled reading)
  match (h.power.get p).sampleTrip reading with
  | some cause => h1.trip p cause
  | none => h1

/-- R27: the port enters ON: the on timer starts and the link unit starts its acquire. -/
def Hub.enterOn (p : Port) (h : Hub) : Hub :=
  (h.modPower p fun w =>
    { w with state := .on, overCount := 0, inrushTimer := none, onTimer := some onTime }).linkStart p

/-- R31: a retry: retries used goes up and the port enters PRECHARGE with the claim already held. -/
def Hub.retry (p : Port) (h : Hub) : Hub :=
  h.modPower p fun w => { w with cooldownTimer := none, retriesUsed := w.retriesUsed + 1 }.toPrecharge

/-- R38: the port enters OFF from any state but HUNT: timers stop, the switch opens if it was closed, the claim is released. -/
def Power.toOff (w : Power) : Power :=
  { (if w.switchClosed then w.openSwitch else w) with
    state := .off, inrushTimer := none, onTimer := none, cooldownTimer := none, restore := false }

/-- A departure from ON takes the link to DOWN (R22). -/
def Hub.leaveOn (p : Port) (wasOn : Bool) (h : Hub) : Hub := if wasOn then h.linkStop p else h

/-- R38: POWER_OFF from any state but HUNT and OFF. -/
def Hub.turnOff (p : Port) (h : Hub) : Hub :=
  ((h.modPower p Power.toOff).leaveOn p ((h.power.get p).state == .on)).serveIfBelow h.reservedSum

/-- R42: whether the power controller takes a request to enter HUNT. -/
def Power.huntable (w : Power) : Bool := w.state != .cooldown && w.state != .hunt

/-- R42: the power record on entry to HUNT. -/
def Power.toHunt (restore : Bool) (w : Power) : Power :=
  if w.switchClosed then
    { w.openSwitch with state := .hunt, inrushTimer := none, onTimer := none, restore := restore }
  else { w with state := .hunt, restore := false }

/-- R42: enter HUNT. A claim not kept is released. -/
def Hub.enterHunt (p : Port) (restore : Bool) (h : Hub) : Hub :=
  ((h.modPower p (Power.toHunt restore)).leaveOn p ((h.power.get p).state == .on)).serveIfBelow h.reservedSum

/-- R43: end the hunt of a port: PRECHARGE with the restore flag set, else OFF. -/
def Hub.endHunt (p : Port) (h : Hub) : Hub :=
  h.modPower p fun w =>
    if w.state != .hunt then w
    else if w.restore then { w with restore := false }.toPrecharge
    else { w with state := .off }

/-- R33: a located short locks a port in COOLDOWN out. -/
def Hub.lockOutLocated (p : Port) (h : Hub) : Hub :=
  (h.modPower p fun w =>
    { w with state := .lockedOut, cooldownTimer := none, cause := .shortLocated }).serveIfBelow h.reservedSum

/-- R33, R34: the power controller acts on the result of an AUTO job by the port's state at that moment. -/
def Hub.autoResult (p : Port) (located : Bool) (h : Hub) : Hub :=
  let w := h.power.get p
  if w.state != .cooldown then h
  else if located then h.lockOutLocated p
  else if w.cooldownTimer.isNone then h.retry p
  else h

/-- R155: the baseline a completed LEARN stores. -/
def EchoJob.learned (j : EchoJob) : Trace := averageTrace 16 j.sums

/-- R150: complete the sampler's job. -/
def Hub.completeJob (j : EchoJob) (h : Hub) : Hub :=
  let r := j.result h.now
  let h1 := if j.kind = .learn then h.modEchoPort j.port fun e => { e with baseline := some j.learned } else h
  let h2 := (h1.storeResult j.port r).modEcho fun e => { e with sampler := none }
  let h3 := match j.kind with
    | .hunt => h2.endHunt j.port
    | .auto => h2.autoResult j.port r.locatesShort
    | .learn => h2
  (h3.huntDone j.port r).lookForJob

end Sys2Proof.Machine
end

