-- ==== Sys2Proof/Machine/PortCmds.lean ====
section
/-! DEFINITION. Camera ports and cable links (01): LINK_RETRAIN, LINK_SETUP, PORT_INFO, the receiver's and the link timers' events,
the words cameras send, and the end of a downstream word. -/

namespace Sys2Proof.Machine

/-! ## Replies -/

/-- Travel limits as an optional field: one presence byte for minimum and maximum together (DESIGN CHOICE, log 11). -/
def wLimits : Option Limits → List Byte := wOpt ⟨0, 0⟩ fun l => w2 l.lo ++ w2 l.hi

/-- A camera record (R7, R20): model, maximum line, the axis set, then the limits of each axis, present or not (DESIGN CHOICE, log 11). -/
def CameraRecord.bytes (c : CameraRecord) : List Byte :=
  w2 c.model.toNat ++ w2 c.maxLine.toNat ++ wAxes (c.travel.map Option.isSome) ++ wPerAxis wLimits c.travel
    ++ wTime c.receivedAt

/-- The data of PORT_INFO (R20). -/
def Hub.portInfo (p : Port) (h : Hub) : List Byte :=
  let l := h.links.get p
  w1 l.state.code ++ w1 l.rate.code ++ w1 l.threshold ++ w1 l.sinceUp ++ w2 l.total ++ w2 l.wordErrors
    ++ wTime l.lastChange ++ wOpt ⟨0, 0, ⟨none, none, none⟩, 0⟩ CameraRecord.bytes l.camera
    ++ w2 (h.store.strays.get p) ++ w2 (h.store.duplicates.get p)

/-! ## Commands -/

/-- R18: LINK_RETRAIN. Taken in UP it drops the receiver's lock, and the FILLING frame closes LINK_LOST. -/
def linkRetrain (p : Port) (h : Hub) : Answer :=
  let l := h.links.get p
  match l.state with
  | .down => refuse .badState h
  | .up =>
    let h1 := (h.modLink p fun x => { x with locked := false }).enterAcquire p .full .retrain
    ⟨h1.dropFilling p .linkLost .link, .ok, []⟩
  | _ => ⟨h.enterAcquire p .full .retrain, .ok, []⟩

/-- R19: LINK_SETUP. -/
def linkSetup (c : Cmd) (p : Port) (h : Hub) : Answer :=
  let v := byteAt c.payload 0
  let n := min 15 v
  ⟨h.modLink p fun l => { l with threshold := n }, okOr (n != v), if n != v then w1 n else []⟩

/-- LINK_RETRAIN (R18). -/
def execLinkRetrain (c : Cmd) (s : State) : Result :=
  s.next (s.toHub.takeCommand 0x10 c (c.payload.length == 0) (withPort c linkRetrain))

/-- LINK_SETUP (R19). -/
def execLinkSetup (c : Cmd) (s : State) : Result :=
  s.next (s.toHub.takeCommand 0x11 c (c.payload.length == 1) (withPort c (linkSetup c)))

/-- PORT_INFO (R20). -/
def execPortInfo (c : Cmd) (s : State) : Result :=
  s.next (s.toHub.takeCommand 0x12 c (c.payload.length == 0)
    (withPort c fun p h => ⟨h, .ok, h.portInfo p⟩))

/-! ## Receiver and link timers -/

/-- R10, R13: lock gained. In ACQUIRE the receiver may take words from now on; in RELOCK the link returns to UP. -/
def Hub.lockGained (p : Port) (h : Hub) : Hub :=
  match (h.links.get p).state with
  | .acquire => h.modLink p fun l => { l with locked := true }
  | .relock =>
    (h.modLink p fun l =>
      { l with state := .up, locked := true, relockWindow := none, lastChange := h.now }).finish
  | _ => h

/-- R10, R12: lock lost. -/
def Hub.lockLost (p : Port) (h : Hub) : Hub :=
  match (h.links.get p).state with
  | .acquire => h.modLink p fun l => { l with locked := false }
  | .up => (h.lockLostUp p).finish
  | _ => h

/-- R11: the acquire timer expires in ACQUIRE: the link moves to FAILED. -/
def Hub.acquireFailed (p : Port) (h : Hub) : Hub :=
  ((h.modLink p fun l =>
    { l with state := .failed, acquireTimer := none, locked := false, lastChange := h.now }).linkChange p .timeout).abandon p

/-- LOCK_GAINED (R10, R13). -/
def execLockGained (p : Port) (s : State) : Result := s.next (s.toHub.lockGained p)

/-- LOCK_LOST (R10, R12). -/
def execLockLost (p : Port) (s : State) : Result := s.next (s.toHub.lockLost p)

/-- ACQUIRE_TIMEOUT (R11). -/
def execAcquireTimeout (p : Port) (s : State) : Result :=
  match (s.links.get p).state, (s.links.get p).acquireTimer with
  | .acquire, some left => s.next (((s.toHub.elapse left).acquireFailed p).finish)
  | _, _ => s.next s.toHub

/-- RELOCK_EXPIRE (R13): the link moves to ACQUIRE at the same rate. -/
def execRelockExpire (p : Port) (s : State) : Result :=
  match (s.links.get p).state, (s.links.get p).relockWindow with
  | .relock, some left =>
    s.next (((s.toHub.elapse left).enterAcquire p (s.links.get p).rate .relockExpired).finish)
  | _, _ => s.next s.toHub

/-! ## Words -/

/-- A HELLO word at the port (R6, R7). -/
def Hub.hello (p : Port) (w : HelloWord) (h : Hub) : Hub :=
  if (h.links.get p).takesWords then (h.takeHello p w).finish else h

/-- A LINE word at the port: handed to the frame store in UP, else discarded (R6). -/
def Hub.line (p : Port) (w : LineWord) (h : Hub) : Hub :=
  if (h.links.get p).state == .up then (h.takeLine p w).finish else h

/-- An EOF word at the port (R6). -/
def Hub.eof (p : Port) (w : EofWord) (h : Hub) : Hub :=
  if (h.links.get p).state == .up then (h.takeEof p w).finish else h

/-- A LENS_STATUS word at the port (R6). -/
def Hub.lensWord (p : Port) (w : LensStatusWord) (h : Hub) : Hub :=
  if (h.links.get p).state == .up then (h.takeLensStatus p w).finish else h

/-- An upstream word given by its bytes (R6, R196): an undecodable one is counted where words are taken (DEDUCED, log 17); any other is the
word it decodes to (DESIGN CHOICE, log 5). -/
def Hub.rawWord (p : Port) (raw : List Byte) (h : Hub) : Hub :=
  match decodeUpWord raw with
  | none => if (h.links.get p).takesWords then h.countWordError p else h
  | some (.hello w) => h.hello p w
  | some (.line w) => h.line p w
  | some (.eof w) => h.eof p w
  | some (.lensStatus w) => h.lensWord p w

/-- HELLO_WORD (R10, R14). -/
def execHelloWord (p : Port) (w : HelloWord) (s : State) : Result := s.next (s.toHub.hello p w)

/-- LINE_WORD (R110 to R113). -/
def execLineWord (p : Port) (w : LineWord) (s : State) : Result := s.next (s.toHub.line p w)

/-- EOF_WORD (R114). -/
def execEofWord (p : Port) (w : EofWord) (s : State) : Result := s.next (s.toHub.eof p w)

/-- LENS_STATUS_WORD (R48, R56, R57). -/
def execLensStatusWord (p : Port) (w : LensStatusWord) (s : State) : Result := s.next (s.toHub.lensWord p w)

/-- UNDECODABLE_WORD (R6). -/
def execUndecodableWord (p : Port) (raw : List Byte) (s : State) : Result := s.next (s.toHub.rawWord p raw)

/-- DOWNSTREAM_WORD_END (R3, R93). -/
def execDownstreamWordEnd (p : Port) (s : State) : Result :=
  match (s.links.get p).cable with
  | some c => s.next (((s.toHub.elapse c.left).wordEnd p c).finish)
  | none => s.next s.toHub

end Sys2Proof.Machine
end

