-- ==== Sys2Proof/Machine/PowerCmds.lean ====
section
/-! DEFINITION. Camera power and the cell budget (02): POWER_ON, POWER_OFF, POWER_SETUP, BUDGET_SET, POWER_STATUS, current samples and
the power timers' events. -/

namespace Sys2Proof.Machine

/-! ## Setup fields -/

/-- The seven fields of POWER_SETUP as sent. -/
def powerSetupSent (bs : List Byte) : PowerSetup where
  limit := u16At bs 0
  inrush := byteAt bs 2
  tripSamples := byteAt bs 3
  retries := byteAt bs 4
  cooldown := u16At bs 5
  surge := u16At bs 7
  autoHunt := flagAt bs 9

/-- R39: each value brought into its range. -/
def PowerSetup.bounded (x : PowerSetup) : PowerSetup where
  limit := clampStep 100 1500 10 x.limit
  inrush := clampTo 1 255 x.inrush
  tripSamples := clampTo 1 16 x.tripSamples
  retries := clampTo 0 7 x.retries
  cooldown := clampStep 10 2550 10 x.cooldown
  surge := clampStep 0 500 10 x.surge
  autoHunt := x.autoHunt

/-- The setup in a reply (R39, R193). -/
def PowerSetup.bytes (x : PowerSetup) : List Byte :=
  w2 x.limit ++ w1 x.inrush ++ w1 x.tripSamples ++ w1 x.retries ++ w2 x.cooldown ++ w2 x.surge ++ wFlag x.autoHunt

/-- The data of POWER_STATUS (R41). -/
def Hub.powerStatus (p : Port) (h : Hub) : List Byte :=
  let w := h.power.get p
  w1 w.state.code ++ wFlag w.restore ++ wFlag w.discharged ++ w.setup.bytes ++ w1 w.retriesUsed ++ w2 w.heldSurge
    ++ w2 w.last ++ w2 w.peak ++ w1 w.cause.code ++ w2 w.trips ++ w2 h.budget ++ w2 h.reservedSum

/-! ## Commands -/

/-- R37: the power record of a port that POWER_ON brings to PRECHARGE. -/
def Power.startUp (w : Power) : Power := { w with retriesUsed := 0 }.toPrecharge

/-- R37: POWER_ON. -/
def powerOn (p : Port) (h : Hub) : Answer :=
  let w := h.power.get p
  match w.state with
  | .precharge | .on => ⟨h, .ok, []⟩
  | .cooldown | .hunt => refuse .busy h
  | .off | .lockedOut =>
    if h.echo.busy p then refuse .busy h
    else if h.admits w.setup.limit then ⟨h.modPower p Power.startUp, .ok, []⟩
    else refuse .budget h

/-- R38: POWER_OFF. In HUNT the port stays in HUNT until its echo job ends. -/
def powerOff (p : Port) (h : Hub) : Answer :=
  match (h.power.get p).state with
  | .off => ⟨h, .ok, []⟩
  | .hunt => ⟨(h.modPower p fun w => { w with restore := false }).serveIfBelow h.reservedSum, .ok, []⟩
  | _ => ⟨h.turnOff p, .ok, []⟩

/-- R39: POWER_SETUP. A serving that a lowered claim prompts (R35, R55) comes after all seven fields are written (DESIGN CHOICE, log 37). -/
def powerSetup (c : Cmd) (p : Port) (h : Hub) : Answer :=
  let sent := powerSetupSent c.payload
  let new := sent.bounded
  let w := h.power.get p
  if w.holdsClaim && w.setup.limit < new.limit && !h.admits (new.limit - w.setup.limit) then refuse .budget h
  else
    ⟨(h.modPower p fun x => { x with setup := new }).serveIfBelow h.reservedSum, okOr (new != sent), new.bytes⟩

/-- R40: BUDGET_SET. -/
def budgetSet (c : Cmd) (h : Hub) : Answer :=
  let v := u16At c.payload 0
  let n := min 9000 v
  if n < h.reservedSum then refuse .badState h
  else
    let h1 := h.setBudget n
    ⟨if h.budget < n then h1.serve else h1, okOr (n != v), if n != v then w2 n else []⟩

/-- R41: POWER_STATUS. The peak current is zeroed after the reply is built. -/
def powerStatus (p : Port) (h : Hub) : Answer :=
  ⟨h.modPower p fun w => { w with peak := 0 }, .ok, h.powerStatus p⟩

/-- POWER_ON (R37). -/
def execPowerOn (c : Cmd) (s : State) : Result :=
  s.next (s.toHub.takeCommand 0x20 c (c.payload.length == 0) (withPort c powerOn))

/-- POWER_OFF (R38). -/
def execPowerOff (c : Cmd) (s : State) : Result :=
  s.next (s.toHub.takeCommand 0x21 c (c.payload.length == 0) (withPort c powerOff))

/-- POWER_SETUP (R39). -/
def execPowerSetup (c : Cmd) (s : State) : Result :=
  s.next (s.toHub.takeCommand 0x22 c (c.payload.length == 10)
    (withPort c fun p => withFlags (flagOk c.payload 9) (powerSetup c p)))

/-- BUDGET_SET (R40). -/
def execBudgetSet (c : Cmd) (s : State) : Result :=
  s.next (s.toHub.takeCommand 0x23 c (c.payload.length == 2) (budgetSet c))

/-- POWER_STATUS (R41). -/
def execPowerStatus (c : Cmd) (s : State) : Result :=
  s.next (s.toHub.takeCommand 0x24 c (c.payload.length == 0) (withPort c powerStatus))

/-! ## Samples and timers -/

/-- R24: the current of a converter code, in mA. -/
def currentOf (code : BitVec 12) : Nat := code.toNat * 25 / 32

/-- CURRENT_SAMPLE (R24 to R29). -/
def execCurrentSample (p : Port) (code : BitVec 12) (s : State) : Result :=
  s.next ((s.toHub.sample p (currentOf code)).finish)

/-- R27: the inrush timer expires: ON if the last sample reads at or below the limit, else an INRUSH trip. -/
def Hub.inrushEnd (p : Port) (h : Hub) : Hub :=
  if (h.power.get p).last ≤ (h.power.get p).setup.limit then h.enterOn p else h.trip p .inrush

/-- INRUSH_EXPIRE (R27). -/
def execInrushExpire (p : Port) (s : State) : Result :=
  match (s.power.get p).state, (s.power.get p).inrushTimer with
  | .precharge, some left => s.next (((s.toHub.elapse left).inrushEnd p).finish)
  | _, _ => s.next s.toHub

/-- R31: the cooldown timer expires: a retry, unless an AUTO job of the port is queued or sampling; then the retry waits. -/
def Hub.cooldownEnd (p : Port) (h : Hub) : Hub :=
  if h.echo.autoBusy p then h.modPower p fun w => { w with cooldownTimer := none } else h.retry p

/-- COOLDOWN_EXPIRE (R31). -/
def execCooldownExpire (p : Port) (s : State) : Result :=
  match (s.power.get p).state, (s.power.get p).cooldownTimer with
  | .cooldown, some left => s.next (((s.toHub.elapse left).cooldownEnd p).finish)
  | _, _ => s.next s.toHub

/-- ON_TIMER_EXPIRE (R32). -/
def execOnTimerExpire (p : Port) (s : State) : Result :=
  match (s.power.get p).state, (s.power.get p).onTimer with
  | .on, some left =>
    s.next ((s.toHub.elapse left).modPower p fun w => { w with onTimer := none, retriesUsed := 0 })
  | _, _ => s.next s.toHub

/-- DISCHARGE_EXPIRE (R30, R148). -/
def execDischargeExpire (p : Port) (s : State) : Result :=
  match (s.power.get p).dischargeTimer with
  | some left =>
    s.next (((s.toHub.elapse left).modPower p fun w =>
      { w with dischargeTimer := none, discharged := true }).lookForJob)
  | none => s.next s.toHub

end Sys2Proof.Machine
end

