-- ==== Sys2Proof/Machine/LensCmds.lean ====
section
/-! DEFINITION. Lens settings (03): the preset, stack and lens commands, and the move timeout. -/

namespace Sys2Proof.Machine

/-! ## Replies -/

/-- Targets as three optional fields. -/
def Targets.bytes (t : Targets) : List Byte := wPerAxis wOpt2 t

/-- The lens setup in a reply (R68). -/
def LensSetup.bytes (x : LensSetup) : List Byte := w1 x.tolerance ++ w1 x.settleCount ++ w2 x.moveTimeout

/-- One axis of a LENS_STATUS reply: target, actual, travel limits and camera moving flag (R69). -/
def AxisRecord.bytes (a : AxisRecord) : List Byte :=
  wOpt2 a.target ++ wOpt2 a.actual ++ w2 a.limits.lo ++ w2 a.limits.hi ++ wFlag a.moving

/-- The lens-record fields of a LENS_STATUS reply: the axes, then move state, moved axes and settle progress. Each of FOCUS, IRIS and ZOOM is
one presence byte for its five fields together, 11 bytes, which are 0 for an axis that is absent (DESIGN CHOICE, log 11). -/
def LensRecord.bytes (r : LensRecord) : List Byte :=
  wPerAxis (wOpt ⟨⟨0, 0⟩, none, none, false⟩ AxisRecord.bytes) r.axes ++ w1 r.moveState.code ++ wAxes r.moved ++ w1 r.progress

/-- The place of a port on the deferred move list, 1 from the head, 0 when it has no entry (R69). -/
def Hub.deferredPlace (p : Port) (h : Hub) : Nat := ((h.deferred.findIdx? (· == p)).map (· + 1)).getD 0

/-- The data of LENS_STATUS (R69). While the record is invalid its fields are not meaningful: 39 open bytes, and 7 for the last done
cause and time, which the invalid record does not hold. -/
def Hub.lensStatus (p : Port) (h : Hub) : List Byte :=
  let l := h.lenses.get p
  wFlag l.record.isSome
    ++ (match l.record with | some r => r.bytes | none => h.openBytes 39)
    ++ w2 (h.power.get p).heldSurge ++ w1 (h.deferredPlace p)
    ++ (match l.record with
        | some r => w1 r.doneCause.code ++ wTime r.doneTime
        | none => (h.draw 39).openBytes 7)
    ++ w1 l.stack.length ++ wFlag l.overflow ++ l.setup.bytes

/-! ## Presets -/

/-- R62: a preset part above 4095 is stored as 4095. -/
def Targets.capped (t : Targets) : Targets := t.map fun o => o.map (min 4095)

/-- R62, R193: an index byte above 15 is refused with BAD_ARG. -/
def withPreset (n : Nat) (body : Fin 16 → Hub → Answer) (h : Hub) : Answer :=
  if hn : n < 16 then body ⟨n, hn⟩ h else refuse .badArg h

/-- R62: PRESET_WRITE. -/
def presetWrite (c : Cmd) (p : Port) (i : Fin 16) (h : Hub) : Answer :=
  let sent : Targets := targetsAt c.payload 1
  let new := Targets.capped sent
  ⟨h.modLens p fun l => { l with presets := l.presets.set i new }, okOr (new != sent),
    if new != sent then w1 i.val ++ Targets.bytes new else []⟩

/-- R64, R66: the answer to a command that issued a move: CLAMPED if a target was clamped, with the resulting move state. -/
def moveAnswer (p : Port) (a : MoveAnswer) (more : List Byte) : Answer :=
  ⟨a.hub, okOr a.clamped, w1 (a.hub.lenses.get p).moveState.code ++ more⟩

/-- R64: PRESET_GO. -/
def presetGo (p : Port) (i : Fin 16) (h : Hub) : Answer :=
  if !(h.links.get p).carriesMoves then refuse .badState h
  else moveAnswer p (h.issueMove p ((h.lenses.get p).presets.get i)) []

/-- R65: the target set a LENS_PUSH saves, when every present axis has a target. -/
def LensRecord.pushable (r : LensRecord) : Bool :=
  (r.axes.map fun a => match a with | some x => x.target.isSome | none => true).every

/-- R65: LENS_PUSH. A push onto 4 entries discards the bottom one and sets the overflow flag. -/
def lensPush (p : Port) (h : Hub) : Answer :=
  let l := h.lenses.get p
  match l.record with
  | none => refuse .badState h
  | some r =>
    if !r.pushable then refuse .badState h
    else
      let stack := (r.targets :: l.stack).take 4
      ⟨h.modLens p fun x => { x with stack := stack, overflow := x.overflow || 4 ≤ l.stack.length }, .ok, w1 stack.length⟩

/-- R66: LENS_POP. -/
def lensPop (p : Port) (h : Hub) : Answer :=
  if !(h.links.get p).carriesMoves then refuse .badState h
  else match (h.lenses.get p).stack with
    | [] => refuse .stackEmpty h
    | t :: rest =>
      let h1 := h.modLens p fun l => { l with stack := rest }
      moveAnswer p (h1.issueMove p t) (w1 rest.length)

/-- R67: whether a target sent for a requested axis is above 4095. -/
def LensRecord.overMax (r : LensRecord) (t : Targets) : Bool :=
  (r.axes.zip (fun a v => match a, v with | some _, some n => decide (4095 < n) | _, _ => false) t).any

/-- R67: LENS_MOVE. -/
def lensMove (c : Cmd) (p : Port) (h : Hub) : Answer :=
  if !(h.links.get p).carriesMoves then refuse .badState h
  else
    let sent : Targets := targetsAt c.payload 0
    let a := h.issueMove p (Targets.capped sent)
    let big := match (h.lenses.get p).record with | some r => r.overMax sent | none => false
    let after := (a.hub.lenses.get p).record
    let now : Targets := (after.map (·.targets)).getD Targets.empty
    let moved : PerAxis Bool := (after.map (·.moved)).getD ⟨false, false, false⟩
    moveAnswer p { a with clamped := a.clamped || big } (Targets.bytes now ++ wAxes moved)

/-- R68: LENS_SETUP. -/
def lensSetup (c : Cmd) (p : Port) (h : Hub) : Answer :=
  let sent : LensSetup := ⟨byteAt c.payload 0, byteAt c.payload 1, u16At c.payload 2⟩
  let new : LensSetup := ⟨clampTo 0 63 sent.tolerance, clampTo 1 15 sent.settleCount, clampStep 10 2550 10 sent.moveTimeout⟩
  ⟨h.modLens p fun l => { l with setup := new }, okOr (new != sent), new.bytes⟩

/-- R69: LENS_STATUS. The overflow flag is cleared after the reply is built. -/
def lensStatus (p : Port) (h : Hub) : Answer :=
  let h1 := h.modLens p fun l => { l with overflow := false }
  ⟨if (h.lenses.get p).record.isSome then h1 else h1.draw 46, .ok, h.lensStatus p⟩

/-! ## Meanings -/

/-- PRESET_WRITE (R62). -/
def execPresetWrite (c : Cmd) (s : State) : Result :=
  s.next (s.toHub.takeCommand 0x30 c (c.payload.length == 10)
    (withPort c fun p => withFlags (targetFlagsOk c.payload 1) (withPreset (byteAt c.payload 0) (presetWrite c p))))

/-- PRESET_READ (R63). -/
def execPresetRead (c : Cmd) (s : State) : Result :=
  s.next (s.toHub.takeCommand 0x31 c (c.payload.length == 1)
    (withPort c fun p => withPreset (byteAt c.payload 0) fun i h =>
      ⟨h, .ok, Targets.bytes ((h.lenses.get p).presets.get i)⟩))

/-- PRESET_GO (R64). -/
def execPresetGo (c : Cmd) (s : State) : Result :=
  s.next (s.toHub.takeCommand 0x32 c (c.payload.length == 1)
    (withPort c fun p => withPreset (byteAt c.payload 0) (presetGo p)))

/-- LENS_PUSH (R65). -/
def execLensPush (c : Cmd) (s : State) : Result :=
  s.next (s.toHub.takeCommand 0x33 c (c.payload.length == 0) (withPort c lensPush))

/-- LENS_POP (R66). -/
def execLensPop (c : Cmd) (s : State) : Result :=
  s.next (s.toHub.takeCommand 0x34 c (c.payload.length == 0) (withPort c lensPop))

/-- LENS_MOVE (R67). -/
def execLensMove (c : Cmd) (s : State) : Result :=
  s.next (s.toHub.takeCommand 0x35 c (c.payload.length == 9)
    (withPort c fun p => withFlags (targetFlagsOk c.payload 0) (lensMove c p)))

/-- LENS_SETUP (R68). -/
def execLensSetup (c : Cmd) (s : State) : Result :=
  s.next (s.toHub.takeCommand 0x36 c (c.payload.length == 4) (withPort c (lensSetup c)))

/-- LENS_STATUS, the host command (R69). -/
def execLensStatus (c : Cmd) (s : State) : Result :=
  s.next (s.toHub.takeCommand 0x37 c (c.payload.length == 0) (withPort c lensStatus))

/-- MOVE_TIMEOUT (R58): the move stalls. -/
def execMoveTimeout (p : Port) (s : State) : Result :=
  match (s.lenses.get p).record with
  | some r =>
    match r.moveState, r.timeout with
    | .moving, some left => s.next (((s.toHub.elapse left).endMove p .stalled .stall).finish)
    | _, _ => s.next s.toHub
  | none => s.next s.toHub

end Sys2Proof.Machine
end

