-- ==== Sys2Proof/Machine/ShotCmds.lean ====
section
/-! DEFINITION. The shot cycle (04): the shot table commands, the cycle commands, cell time, the encoder and the trigger line, and
the cycle's timers. -/

namespace Sys2Proof.Machine

/-! ## Fields -/

/-- A slot record in a command or reply (R74, R193): 20 bytes. -/
def SlotRecord.bytes (r : SlotRecord) : List Byte :=
  wFlag r.enabled ++ w1 r.port.val ++ w4 r.offset ++ w4 r.exposure ++ w2 r.guardTime ++ w2 r.window
    ++ wOpt 0 w1 (r.preset.map Fin.val) ++ w2 r.lines ++ w2 r.lineBytes

/-- A table header in a command or reply (R75, R193): 7 bytes. -/
def TableHeader.bytes (x : TableHeader) : List Byte := w1 x.source.code ++ w2 x.pitch ++ w4 x.span

/-- R74: each numeric field of a slot brought into its range. -/
def SlotRecord.bounded (r : SlotRecord) : SlotRecord :=
  { r with
    offset := clampTo 0 999999 r.offset
    exposure := clampTo 1 100000 r.exposure
    guardTime := clampTo 0 50000 r.guardTime
    window := clampTo 1 1000 r.window
    lines := clampTo 1 8192 r.lines
    lineBytes := clampTo 64 16384 r.lineBytes }

/-- R75: pitch and span brought into their ranges. -/
def TableHeader.bounded (x : TableHeader) : TableHeader :=
  { x with pitch := clampTo 1 65535 x.pitch, span := clampTo 1000 1000000 x.span }

/-- The slot record SLOT_WRITE carries, its port and preset index already checked. -/
def slotSent (bs : List Byte) (p : Port) (preset : Option (Fin 16)) : SlotRecord where
  enabled := flagAt bs 1
  port := p
  offset := u32At bs 3
  exposure := u32At bs 7
  guardTime := u16At bs 11
  window := u16At bs 13
  preset := preset
  lines := u16At bs 17
  lineBytes := u16At bs 19

/-! ## The shot table -/

/-- Change the staged table. -/
def Hub.modStaged (f : ShotTable → ShotTable) (h : Hub) : Hub := h.modShot fun s => { s with staged := f s.staged }

/-- R76: write slot `i` of the staged table. -/
def writeSlot (i : SlotIx) (sent : SlotRecord) (h : Hub) : Answer :=
  let new := sent.bounded
  ⟨h.modStaged fun t => { t with slots := t.slots.set i new }, okOr (new != sent), new.bytes⟩

/-- R76: SLOT_WRITE. -/
def slotWrite (c : Cmd) (h : Hub) : Answer :=
  let bs := c.payload
  if hi : byteAt bs 0 < 16 then
    if hp : byteAt bs 2 < 6 then
      if flagAt bs 15 then
        if hk : byteAt bs 16 < 16 then
          writeSlot ⟨byteAt bs 0, hi⟩ (slotSent bs ⟨byteAt bs 2, hp⟩ (some ⟨byteAt bs 16, hk⟩)) h
        else refuse .badArg h
      else writeSlot ⟨byteAt bs 0, hi⟩ (slotSent bs ⟨byteAt bs 2, hp⟩ none) h
    else refuse .badArg h
  else refuse .badArg h

/-- R77: TABLE_HEADER. -/
def tableHeader (c : Cmd) (h : Hub) : Answer :=
  match StartSource.ofCode (byteAt c.payload 0) with
  | none => refuse .badArg h
  | some src =>
    let sent : TableHeader := ⟨src, u16At c.payload 1, u32At c.payload 3⟩
    let new := sent.bounded
    ⟨h.modStaged fun t => { t with header := new }, okOr (new != sent), if new != sent then new.bytes else []⟩

/-- R79: a validated commit acts by the cycle state. -/
def Shot.commit (pos : BitVec 32) (s : Shot) : Shot :=
  match s.cycle with
  | .running => { s with pending := some s.staged }
  | .stopped | .armed => s.apply pos s.staged

/-- R78, R79: TABLE_COMMIT. -/
def tableCommit (h : Hub) : Answer :=
  match h.shot.staged.fault? with
  | some (i, check) => ⟨h, .badTable, w1 i.val ++ w1 check⟩
  | none => ⟨h.modShot fun s => s.commit h.time.position, .ok, []⟩

/-- The table a selector names, when it is one of the three (R80, R193). -/
def Shot.named (s : Shot) : Nat → Option (Option ShotTable)
  | 0 => some (some s.staged)
  | 1 => some s.active
  | 2 => some s.pending
  | _ => none

/-- A table in a reply: the header and the 16 slots, 327 bytes. -/
def ShotTable.bytes (t : ShotTable) : List Byte := t.header.bytes ++ t.slots.toList.flatMap SlotRecord.bytes

/-- R80: TABLE_READ. The header and slots of an absent table are not meaningful (DESIGN CHOICE, log 7). -/
def tableRead (c : Cmd) (h : Hub) : Answer :=
  match h.shot.named (byteAt c.payload 0) with
  | none => refuse .badArg h
  | some (some t) => ⟨h, .ok, t.bytes ++ wFlag true ++ wFlag h.shot.pending.isSome⟩
  | some none => ⟨h.draw 327, .ok, h.openBytes 327 ++ wFlag false ++ wFlag h.shot.pending.isSome⟩

/-! ## Cycles -/

/-- R81: CYCLE_RUN. -/
def cycleRun (h : Hub) : Answer :=
  match h.shot.cycle, h.shot.active with
  | .stopped, none => refuse .badState h
  | .stopped, some t =>
    ⟨h.modShot fun s =>
      { s with
        cycle := .armed
        nextStart :=
          if t.header.source == .encoder then h.time.position + BitVec.ofNat 32 t.header.pitch else s.nextStart },
      .ok, []⟩
  | .armed, _ => ⟨h, .ok, []⟩
  | .running, _ => ⟨h.modShot fun s => { s with stopAfter := false }, .ok, []⟩

/-- R84: CYCLE_FIRE. -/
def cycleFire (h : Hub) : Answer :=
  match h.shot.cycle with
  | .armed => ⟨h.start .command, .ok, []⟩
  | .running => ⟨h.start .command, .busy, []⟩
  | .stopped => refuse .badState h

/-- R88, steps 1 and 2: the cycle state is left first, so that no issue point of the cycle acts any more. -/
def Shot.halt (s : Shot) : Shot :=
  { s with
    cycle := .stopped, stopAfter := false, span := none
    opening := Vector.replicate 16 none, exposureEnds := Vector.replicate 16 none }

/-- R88: CYCLE_STOP NOW in RUNNING. Slots in GUARD end SKIPPED(STOPPED), in the order in which they opened
(DESIGN CHOICE, log 43); a slot in OFFERED goes on (DEDUCED, log 21). -/
def Hub.stopNow (h : Hub) : Hub :=
  let waiting := h.shot.flights.filter (·.stage != .offered)
  let h1 := waiting.foldl (fun h f => h.endFlight f .stopped) (h.modShot Shot.halt)
  h1.modShot fun s => s.applyPending h.time.position

/-- R88: CYCLE_STOP. -/
def cycleStop (c : Cmd) (h : Hub) : Answer :=
  if 1 < byteAt c.payload 0 then refuse .badArg h
  else match h.shot.cycle with
    | .stopped => ⟨h, .ok, []⟩
    | .armed => ⟨h.modShot fun s => { s with cycle := .stopped }, .ok, []⟩
    | .running =>
      if byteAt c.payload 0 = 0 then ⟨h.modShot fun s => { s with stopAfter := true }, .ok, []⟩
      else ⟨h.stopNow, .ok, []⟩

/-- Cycle state as CYCLE_STATUS sends it: 0 STOPPED, 1 ARMED, 2 RUNNING (DESIGN CHOICE, log 11). -/
def CycleState.code : CycleState → Nat
  | .stopped => 0 | .armed => 1 | .running => 2

/-- One slot index of CYCLE_STATUS (R96): counts, last outcome with its cycle number, and the slot state as an optional field. With no
outcome the cycle number is sent as 0 (DESIGN CHOICE, log 11). -/
def Shot.slotStatus (s : Shot) (i : SlotIx) : List Byte :=
  let x := s.stats.get i
  w2 x.fired ++ w2 x.late ++ w2 x.skipped ++ wOutcome (x.last.map (·.1)) ++ w4 (x.last.elim 0 fun o => o.2.toNat)
    ++ wOpt 0 w1 ((s.slotState i).map SlotState.code)

/-- R96: next-start is meaningful with source ENCODER in ARMED and RUNNING. -/
def Shot.nextStartMeans (s : Shot) : Bool :=
  s.cycle != .stopped && (s.active.map (·.header.source)) == some .encoder

/-- The data of CYCLE_STATUS (R96), and the hub with the open bytes drawn (DESIGN CHOICE, log 7). The stop request is sent as 0 none, 1
AFTER_CYCLE (DESIGN CHOICE, log 11). -/
def Hub.cycleStatus (h : Hub) : Hub × List Byte :=
  let s := h.shot
  let (h1, table) := match s.active with
    | some t => (h, t.header.bytes)
    | none => (h.draw 7, h.openBytes 7)
  let (h2, next) :=
    if s.nextStartMeans then (h1, w4 s.nextStart.toNat) else (h1.draw 4, h1.openBytes 4)
  (h2,
    w1 s.cycle.code ++ wFlag s.stopAfter ++ w4 s.number.toNat ++ wTime s.startTime ++ wFlag s.pending.isSome ++ table
      ++ w2 s.missed ++ w4 h.time.position.toNat ++ next ++ w2 h.time.illegal ++ allSlots.flatMap s.slotStatus)

/-- R96: the clear option zeroes the per-slot counts and the missed starts and keeps the last outcomes. -/
def Shot.clearCounts (s : Shot) : Shot :=
  { s with missed := 0, stats := vmap (fun x => { x with fired := 0, late := 0, skipped := 0 }) s.stats }

/-- R96: CYCLE_STATUS. -/
def cycleStatus (c : Cmd) (h : Hub) : Answer :=
  let (h1, data) := h.cycleStatus
  ⟨if flagAt c.payload 0 then h1.modShot Shot.clearCounts else h1, .ok, data⟩

/-! ## The encoder and the trigger line -/

/-- The place of a pair of levels in the cycle of R82. -/
def phaseIndex (a b : Bool) : Nat :=
  match a, b with
  | false, false => 0
  | true, false => 1
  | true, true => 2
  | false, true => 3

/-- R82: what a change of the levels does to the timebase. -/
def Timebase.edge (a b : Bool) (t : Timebase) : Timebase :=
  let t1 := { t with phaseA := a, phaseB := b }
  match (phaseIndex a b + 4 - phaseIndex t.phaseA t.phaseB) % 4 with
  | 0 => t1
  | 1 => { t1 with position := t.position + 1 }
  | 2 => { t1 with illegal := satInc Config.max16 t.illegal }
  | _ => { t1 with position := t.position - 1 }

/-- R83: the position, moved from `before`, reaches next-start: the signed difference, negative before, is 0 or more after, whichever way
the position moved (DESIGN CHOICE, log 40). -/
def Shot.reached (before after : BitVec 32) (s : Shot) : Bool :=
  (before - s.nextStart).slt 0 && !(after - s.nextStart).slt 0

/-- R83: the pitch, while encoder motion starts cycles. -/
def Shot.encoderPitch (s : Shot) : Option Nat :=
  match s.active with
  | some t => if s.cycle != .stopped && t.header.source == .encoder then some t.header.pitch else none
  | none => none

/-- R82, R83: a change of the encoder's levels. -/
def Hub.encoderEdge (a b : Bool) (h : Hub) : Hub :=
  let h1 := h.modTime (Timebase.edge a b)
  match h.shot.encoderPitch with
  | some pitch =>
    if h.shot.reached h.time.position h1.time.position then
      (h1.modShot fun s => { s with nextStart := s.nextStart + BitVec.ofNat 32 pitch }).start .encoder
    else h1
  | none => h1

/-- R84: a rising edge on the trigger line. -/
def Hub.triggerLine (h : Hub) : Hub :=
  if (h.shot.active.map (·.header.source)) == some .line then h.start .line else h

/-! ## Timers -/

/-- R87: the span timer expires. -/
def Shot.endCycle (pos : BitVec 32) (s : Shot) : Shot :=
  { s.applyPending pos with
    cycle := if s.stopAfter then .stopped else .armed, stopAfter := false, span := none }

/-- The slot's flight in GUARD, with the time its guard timer has left. -/
def Shot.guarded (s : Shot) (i : SlotIx) : Option (Flight × Nat) :=
  s.flights.findSome? fun f =>
    match f.stage with
    | .waiting left => if f.slot == i then some (f, left) else none
    | .offered => none

/-- R85: slots with equal offsets open in run order, so slot `i` does not open while one of lower index and equal offset is NOT_OPEN. -/
def Shot.outOfTurn (s : Shot) (i : SlotIx) : Bool :=
  match s.active with
  | some t =>
    allSlots.any fun j =>
      decide (j < i) && (t.slots.get j).offset == (t.slots.get i).offset && s.slotState j == some .notOpen
  | none => false

/-- R91: the exposure end of a slot: the next same-port slot's lens move is issued. -/
def Hub.exposureEnd (i : SlotIx) (h : Hub) : Hub :=
  (h.modShot fun s => { s with exposureEnds := s.exposureEnds.set i none }).issueNext i h.shot.number

/-! ## Meanings -/

/-- SLOT_WRITE (R76). -/
def execSlotWrite (c : Cmd) (s : State) : Result :=
  s.next (s.toHub.takeCommand 0x40 c (c.payload.length == 21)
    (withFlags (flagOk c.payload 1 && flagOk c.payload 15) (slotWrite c)))

/-- TABLE_HEADER (R77). -/
def execTableHeader (c : Cmd) (s : State) : Result :=
  s.next (s.toHub.takeCommand 0x41 c (c.payload.length == 7) (tableHeader c))

/-- TABLE_COMMIT (R78, R79). -/
def execTableCommit (c : Cmd) (s : State) : Result :=
  s.next (s.toHub.takeCommand 0x42 c (c.payload.length == 0) tableCommit)

/-- TABLE_READ (R80). -/
def execTableRead (c : Cmd) (s : State) : Result :=
  s.next (s.toHub.takeCommand 0x43 c (c.payload.length == 1) (tableRead c))

/-- CYCLE_RUN (R81). -/
def execCycleRun (c : Cmd) (s : State) : Result :=
  s.next (s.toHub.takeCommand 0x44 c (c.payload.length == 0) cycleRun)

/-- CYCLE_FIRE (R84). -/
def execCycleFire (c : Cmd) (s : State) : Result :=
  s.next (s.toHub.takeCommand 0x45 c (c.payload.length == 0) cycleFire)

/-- CYCLE_STOP (R88). -/
def execCycleStop (c : Cmd) (s : State) : Result :=
  s.next (s.toHub.takeCommand 0x46 c (c.payload.length == 1) (cycleStop c))

/-- CYCLE_STATUS (R96). -/
def execCycleStatus (c : Cmd) (s : State) : Result :=
  s.next (s.toHub.takeCommand 0x47 c (c.payload.length == 1) (withFlags (flagOk c.payload 0) (cycleStatus c)))

/-- TIME_SET (R97). -/
def execTimeSet (c : Cmd) (s : State) : Result :=
  s.next (s.toHub.takeCommand 0x48 c (c.payload.length == 6) fun h =>
    ⟨h.modTime fun t => { t with cellTime := BitVec.ofNat 48 (u48At c.payload 0) }, .ok, []⟩)

/-- TIME_READ (R97). -/
def execTimeRead (c : Cmd) (s : State) : Result :=
  s.next (s.toHub.takeCommand 0x49 c (c.payload.length == 0) fun h =>
    ⟨h, .ok, wTime h.now ++ w4 h.time.position.toNat⟩)

/-- ENCODER_EDGE (R82, R83). -/
def execEncoderEdge (a b : Bool) (s : State) : Result := s.next ((s.toHub.encoderEdge a b).finish)

/-- TRIGGER_LINE_EDGE (R84). -/
def execTriggerLineEdge (s : State) : Result := s.next (s.toHub.triggerLine.finish)

/-- SPAN_EXPIRE (R87). -/
def execSpanExpire (s : State) : Result :=
  match s.shot.cycle, s.shot.span with
  | .running, some left =>
    s.next (((s.toHub.elapse left).modShot fun x => x.endCycle s.time.position).finish)
  | _, _ => s.next s.toHub

/-- SLOT_OPEN (R90, R92). A slot whose turn has not come is not opened (R85): the event cannot occur then (DESIGN CHOICE, log 28). -/
def execSlotOpen (i : SlotIx) (s : State) : Result :=
  match s.shot.cycle, s.shot.opening.get i with
  | .running, some left =>
    if s.shot.outOfTurn i then s.next s.toHub else s.next (((s.toHub.elapse left).openSlot i).finish)
  | _, _ => s.next s.toHub

/-- GUARD_EXPIRE (R92): the TRIGGER is offered with the frame flagged LENS_LATE. -/
def execGuardExpire (i : SlotIx) (s : State) : Result :=
  match s.shot.guarded i with
  | some (f, left) => s.next (((s.toHub.elapse left).offerTrigger f true).finish)
  | none => s.next s.toHub

/-- EXPOSURE_END (R91). -/
def execExposureEnd (i : SlotIx) (s : State) : Result :=
  match s.shot.cycle, s.shot.exposureEnds.get i with
  | .running, some left => s.next (((s.toHub.elapse left).exposureEnd i).finish)
  | _, _ => s.next s.toHub

end Sys2Proof.Machine
end

