-- ==== Sys2Proof/Machine/StoreCmds.lean ====
section
/-! DEFINITION. Frame store, delivery and error zones (05, 06, 07): STORE_SETUP, STORE_STATUS, IMAGE_HOLD, IMAGE_RESUME,
DELIVERY_STATUS, POSE, ZONE_SETUP, ZONE_READ, ZONE_CLEAR, and the frame window. -/

namespace Sys2Proof.Machine

/-! ## Frame store -/

/-- R119: STORE_SETUP. -/
def storeSetup (c : Cmd) (h : Hub) : Answer :=
  let v := u16At c.payload 0
  let n := min Config.pageCount v
  ⟨(h.modStore fun st => { st with lowMark := n }).reviewLow h.store.low, okOr (n != v), w2 n⟩

/-- The FILLING frame of a port in STORE_STATUS: tag, whether triggered, received count, expected lines (R120). -/
def Frame.fillingBytes (f : Frame) : List Byte :=
  w2 f.tag.toNat ++ wFlag f.triggered ++ w2 f.receivedCount ++ w2 f.lines

/-- One port of STORE_STATUS (R120). -/
def Store.portStatus (st : Store) (p : Port) : List Byte :=
  (match st.filling? p with
    | some f => wFlag true ++ f.fillingBytes
    | none => wFlag false ++ List.replicate 7 0)
    ++ w1 (st.portCountIn p .queued) ++ wOpt2 ((st.sending? p).map (·.tag.toNat)) ++ w2 (st.strays.get p)
    ++ w2 (st.duplicates.get p)

/-- The data of STORE_STATUS (R120). -/
def Store.status (st : Store) : List Byte :=
  w2 st.freePages ++ w2 st.lowMark ++ wFlag st.low ++ w1 st.freeDescriptors ++ w1 (st.countIn .filling)
    ++ w1 (st.countIn .queued) ++ w1 (st.countIn .sending) ++ w2 st.tagCounter.toNat ++ allPorts.flatMap st.portStatus

/-- R120: STORE_STATUS. The clear option acts after the reply is built. -/
def storeStatus (c : Cmd) (h : Hub) : Answer :=
  let h1 :=
    if flagAt c.payload 0 then h.modStore fun st => { st with strays := PerPort.all 0, duplicates := PerPort.all 0 }
    else h
  ⟨h1, .ok, h.store.status⟩

/-! ## Delivery -/

/-- R129: write a port's hold flag. -/
def setHold (v : Bool) (p : Port) (h : Hub) : Answer := ⟨h.modDelivery p fun d => { d with hold := v }, .ok, []⟩

/-- The kind of the next record as DELIVERY_STATUS sends it: 0 OPEN, 1 LINE, 2 CLOSE (DESIGN CHOICE, log 11). -/
def NextRecord.code : NextRecord → Nat
  | .frameOpen => 0 | .line => 1 | .close => 2

/-- A sending progress in DELIVERY_STATUS: next record, next line, lines sent, abort mark (R130). -/
def Progress.bytes (g : Progress) : List Byte :=
  w1 g.next.code ++ wOpt2 g.nextLine ++ w2 g.linesSent ++ wFlag g.abort

/-- One port of DELIVERY_STATUS (R130). The flag that the head frame is SENDING is the presence byte of its progress (DESIGN CHOICE, log
11). -/
def Delivery.status (d : Delivery) : List Byte :=
  wFlag d.hold ++ w1 d.fifo.length ++ wOpt2 (d.fifo.head?.map (·.toNat))
    ++ (match d.progress with
        | some g => wFlag true ++ g.bytes
        | none => wFlag false ++ List.replicate 7 0)
    ++ w2 d.delivered ++ w2 d.aborted ++ w2 d.lost

/-- The data of DELIVERY_STATUS (R130). -/
def Hub.deliveryStatus (h : Hub) : List Byte :=
  h.rotation.flatMap (fun p => w1 p.val) ++ h.delivery.toList.flatMap Delivery.status

/-- R130: DELIVERY_STATUS. The clear option acts after the reply is built. -/
def deliveryStatus (c : Cmd) (h : Hub) : Answer :=
  let h1 :=
    if flagAt c.payload 0 then
      { h with delivery := h.delivery.map fun d => { d with delivered := 0, aborted := 0, lost := 0 } }
    else h
  ⟨h1, .ok, h.deliveryStatus⟩

/-! ## Error zones -/

/-- The pairs of a POSE, when each port is at most 5 and each zone at most 31 (R134). -/
def posePairs (bs : List Byte) : List Nat → Option (List (Port × Zone))
  | [] => some []
  | k :: ks =>
    if hp : byteAt bs (1 + 2 * k) < 6 then
      if hz : byteAt bs (2 + 2 * k) < 32 then
        (posePairs bs ks).map fun l => (⟨byteAt bs (1 + 2 * k), hp⟩, ⟨byteAt bs (2 + 2 * k), hz⟩) :: l
      else none
    else none

/-- R134: apply pairs in the order they stand. -/
def Hub.applyPose (l : List (Port × Zone)) (h : Hub) : Hub :=
  l.foldl (fun h q => h.modZone q.1 fun m => { m with current := q.2 }) h

/-- R134: POSE. The count is checked before the pairs (R193). -/
def pose (c : Cmd) (h : Hub) : Answer :=
  let n := byteAt c.payload 0
  if n < 1 || 6 < n then refuse .badArg h
  else match posePairs c.payload (countFrom 0 n) with
    | none => refuse .badArg h
    | some l =>
      let h1 := h.applyPose l
      ⟨h1, .ok, h1.zones.toList.flatMap fun m => w1 m.current.val⟩

/-- R136: each zone setting brought into its range. -/
def ZoneSetup.bounded (z : ZoneSetup) : ZoneSetup :=
  ⟨clampTo 1000 10000000 z.minLines, clampTo 1 1000000 z.rateThreshold, clampTo 1 255 z.dropThreshold⟩

/-- The zone setup in a command or reply: 9 bytes. -/
def ZoneSetup.bytes (z : ZoneSetup) : List Byte := w4 z.minLines ++ w4 z.rateThreshold ++ w1 z.dropThreshold

/-- R143: ZONE_SETUP. -/
def zoneSetup (c : Cmd) (p : Port) (h : Hub) : Answer :=
  let sent : ZoneSetup := ⟨u32At c.payload 0, u32At c.payload 4, byteAt c.payload 8⟩
  let new := sent.bounded
  ⟨h.modZone p fun m => { m with setup := new }, okOr (new != sent), new.bytes⟩

/-- One bin of ZONE_READ (R144). -/
def Bin.bytes (b : Bin) : List Byte :=
  w4 b.lines ++ w4 b.bad ++ w2 b.drops ++ w4 b.rate ++ wFlag b.suspect.isSome
    ++ wOpt 0 w1 (b.suspect.map fun x => x.1.code) ++ wOpt 0 wTime (b.suspect.map fun x => x.2)

/-- The data of ZONE_READ (R144). -/
def ZoneMap.bytes (m : ZoneMap) : List Byte :=
  w1 m.current.val ++ m.setup.bytes ++ m.bins.toList.flatMap Bin.bytes

/-- R145: ZONE_CLEAR. The selector is one zone, or 0xFF for ALL. -/
def zoneClear (c : Cmd) (p : Port) (h : Hub) : Answer :=
  let n := byteAt c.payload 0
  if hz : n < 32 then ⟨h.modZone p fun m => { m with bins := m.bins.set (⟨n, hz⟩ : Zone) {} }, .ok, []⟩
  else if n = 0xFF then ⟨h.modZone p fun m => { m with bins := Vector.replicate 32 {} }, .ok, []⟩
  else refuse .badArg h

/-! ## Meanings -/

/-- STORE_SETUP (R119). -/
def execStoreSetup (c : Cmd) (s : State) : Result :=
  s.next (s.toHub.takeCommand 0x50 c (c.payload.length == 2) (storeSetup c))

/-- STORE_STATUS (R120). -/
def execStoreStatus (c : Cmd) (s : State) : Result :=
  s.next (s.toHub.takeCommand 0x51 c (c.payload.length == 1) (withFlags (flagOk c.payload 0) (storeStatus c)))

/-- IMAGE_HOLD (R129). -/
def execImageHold (c : Cmd) (s : State) : Result :=
  s.next (s.toHub.takeCommand 0x52 c (c.payload.length == 0) (withPort c (setHold true)))

/-- IMAGE_RESUME (R129). -/
def execImageResume (c : Cmd) (s : State) : Result :=
  s.next (s.toHub.takeCommand 0x53 c (c.payload.length == 0) (withPort c (setHold false)))

/-- DELIVERY_STATUS (R130). -/
def execDeliveryStatus (c : Cmd) (s : State) : Result :=
  s.next (s.toHub.takeCommand 0x54 c (c.payload.length == 1) (withFlags (flagOk c.payload 0) (deliveryStatus c)))

/-- POSE (R134). -/
def execPose (c : Cmd) (s : State) : Result :=
  s.next (s.toHub.takeCommand 0x60 c (c.payload.length == 1 + 2 * byteAt c.payload 0) (pose c))

/-- ZONE_SETUP (R143). -/
def execZoneSetup (c : Cmd) (s : State) : Result :=
  s.next (s.toHub.takeCommand 0x61 c (c.payload.length == 9) (withPort c (zoneSetup c)))

/-- ZONE_READ (R144). -/
def execZoneRead (c : Cmd) (s : State) : Result :=
  s.next (s.toHub.takeCommand 0x62 c (c.payload.length == 0) (withPort c fun p h => ⟨h, .ok, (h.zones.get p).bytes⟩))

/-- ZONE_CLEAR (R145). -/
def execZoneClear (c : Cmd) (s : State) : Result :=
  s.next (s.toHub.takeCommand 0x63 c (c.payload.length == 1) (withPort c (zoneClear c)))

/-- FRAME_WINDOW_EXPIRE (R115). -/
def execFrameWindowExpire (p : Port) (s : State) : Result :=
  match s.store.filling? p with
  | some f =>
    match f.window with
    | some left => s.next (((s.toHub.elapse left).closeFrame f.tag p .timeout).finish)
    | none => s.next s.toHub
  | none => s.next s.toHub

end Sys2Proof.Machine
end

