-- ==== Sys2Proof/Machine/EchoCmds.lean ====
section
/-! DEFINITION. Echo location and break hunts (08): ECHO_SETUP, the cable map, baseline and result commands, HUNT, and the sampler's
shots and completions. -/

namespace Sys2Proof.Machine

/-! ## Settings and cable maps -/

/-- R151: each quantity of the echo settings brought into its range. -/
def EchoSettings.bounded (x : EchoSettings) : EchoSettings :=
  { x with
    blanking := clampTo 0 255 x.blanking
    threshold := clampTo 16 1024 x.threshold
    velocity := clampTo 120 300 x.velocity
    jointWindow := clampTo 0 1000 x.jointWindow }

/-- The echo settings in a command or reply: 8 bytes. -/
def EchoSettings.bytes (x : EchoSettings) : List Byte :=
  w1 x.averaging ++ w1 x.blanking ++ w2 x.threshold ++ w2 x.velocity ++ w2 x.jointWindow

/-- R151: ECHO_SETUP. -/
def echoSetup (c : Cmd) (p : Port) (h : Hub) : Answer :=
  let bs := c.payload
  let sent : EchoSettings := ⟨byteAt bs 0, byteAt bs 1, u16At bs 2, u16At bs 4, u16At bs 6⟩
  if sent.averaging = 1 || sent.averaging = 4 || sent.averaging = 16 then
    let new := sent.bounded
    ⟨h.modEchoPort p fun e => { e with settings := new }, okOr (new != sent), new.bytes⟩
  else refuse .badArg h

/-- A cable map in a reply: the count, then each length and label (R152). -/
def mapBytes (m : List Segment) : List Byte := w1 m.length ++ m.flatMap fun g => w4 g.length ++ [g.label]

/-- R152: CABLE_MAP_WRITE. -/
def cableMapWrite (c : Cmd) (p : Port) (h : Hub) : Answer :=
  let n := byteAt c.payload 0
  if 8 < n then refuse .badArg h
  else
    let sent : List Segment :=
      (countFrom 0 n).map fun k => ⟨u32At c.payload (1 + 5 * k), c.payload.getD (5 + 5 * k) 0⟩
    let new := sent.map fun g => { g with length := clampTo 100 100000 g.length }
    ⟨h.modEchoPort p fun e => { e with map := new }, okOr (new != sent), if new != sent then mapBytes new else []⟩

/-! ## Baselines -/

/-- R154: BASELINE_LEARN. The reply's place is the job's place as it joins the queue (DEDUCED, log 26). -/
def baselineLearn (p : Port) (h : Hub) : Answer :=
  match (h.power.get p).state with
  | .off | .lockedOut =>
    if h.echo.busy p then refuse .busy h
    else ⟨h.queueJob p .learn, .ok, w1 (h.echo.queue.length + 1)⟩
  | _ => refuse .badState h

/-- 256 values in a reply (R193). -/
def Trace.bytes (t : Trace) : List Byte := t.toList.flatMap wInt

/-- The values BASELINE_WRITE carries, as sent. -/
def baselineSent (bs : List Byte) : Trace := vtab fun i => i16At bs (2 + 2 * i.val)

/-- A value brought into −2048 to 2047 (R156). -/
def clampSample (v : Int) : Int := min 2047 (max (-2048) v)

/-- R156: BASELINE_WRITE. Every count other than 256 is outside its range (R193). The CLAMPED reply carries the 256 values without the
count (DESIGN CHOICE, log 11). -/
def baselineWrite (c : Cmd) (p : Port) (h : Hub) : Answer :=
  if u16At c.payload 0 ≠ 256 then refuse .badArg h
  else if h.echo.busy p then refuse .busy h
  else
    let sent := baselineSent c.payload
    let new : Trace := vmap clampSample sent
    ⟨h.modEchoPort p fun e => { e with baseline := some new }, okOr (new != sent), if new != sent then Trace.bytes new else []⟩

/-- R156: BASELINE_READ. -/
def baselineRead (p : Port) (h : Hub) : Answer :=
  match (h.echo.ports.get p).baseline with
  | some b => ⟨h, .ok, b.bytes⟩
  | none => refuse .noBaseline h

/-! ## Results -/

/-- A result record in a reply (R162), less its difference values; each field that only OPEN and SHORT carry is optional. -/
def EchoResult.bytes (r : EchoResult) : List Byte :=
  let f := r.finding
  w1 r.kind.code ++ w1 r.outcome.code ++ wOpt 0 w1 (f.map (·.crossing)) ++ wOpt2 (f.map (·.delay))
    ++ wOpt2 (f.map (·.distance)) ++ wOpt (.segment 0 0) wPlace (f.map (·.place)) ++ wOpt2 (f.map (·.magnitude))
    ++ wOpt false wFlag (f.map (·.clipped)) ++ w1 r.averaging ++ wTime r.time

/-- The record whose bytes are all 0, sent where no last result is held (R193). -/
def EchoResult.blank : EchoResult :=
  { kind := .learn, outcome := .noFault, finding := none, averaging := 0, differences := none, time := 0 }

/-- The job of a port, queued or sampling. -/
def Echo.kind? (e : Echo) (p : Port) : Option EchoKind := (e.queuedKind p).or (e.samplingKind p)

/-- The data of ECHO_RESULT (R163). -/
def Echo.resultBytes (e : Echo) (p : Port) (trace : Bool) : List Byte :=
  let x := e.ports.get p
  w1 (e.stateCode p) ++ wOpt 0 w1 ((e.kind? p).map EchoKind.code) ++ wOpt 0 w1 (e.place p)
    ++ wOpt EchoResult.blank EchoResult.bytes x.last ++ x.settings.bytes
    ++ (if trace then wOpt Trace.zero Trace.bytes (x.last.bind (·.differences)) else [])

/-! ## Hunts -/

/-- R164: HUNT. -/
def hunt (c : Cmd) (p : Port) (h : Hub) : Answer :=
  if (h.echo.ports.get p).baseline.isNone then refuse .noBaseline h
  else if h.echo.busy p then refuse .busy h
  else if !(h.power.get p).huntable then refuse .busy h
  else
    let h1 := h.enterHunt p (flagAt c.payload 0)
    ⟨h1.queueJob p .hunt, .ok, w1 (h1.echo.queue.length + 1)⟩

/-! ## The sampler -/

/-- The time from one shot to the next, and from the last to the end of the job, in µs (R149). -/
abbrev shotTime : Nat := 1000

/-- R149: one shot's samples join the sums. -/
def EchoJob.shot (samples : Vector (BitVec 12) 256) (j : EchoJob) : EchoJob :=
  { j with sums := vzip (fun a b => a + b.toInt) j.sums samples, shots := j.shots + 1, due := shotTime }

/-- R149: the sampler takes one shot. -/
def Hub.takeShot (samples : Vector (BitVec 12) 256) (h : Hub) : Hub :=
  h.modEcho fun e => { e with sampler := e.sampler.map (EchoJob.shot samples) }

/-! ## Meanings -/

/-- ECHO_SETUP (R151). -/
def execEchoSetup (c : Cmd) (s : State) : Result :=
  s.next (s.toHub.takeCommand 0x70 c (c.payload.length == 8) (withPort c (echoSetup c)))

/-- CABLE_MAP_WRITE (R152). -/
def execCableMapWrite (c : Cmd) (s : State) : Result :=
  s.next (s.toHub.takeCommand 0x71 c (c.payload.length == 1 + 5 * byteAt c.payload 0) (withPort c (cableMapWrite c)))

/-- CABLE_MAP_READ (R152). -/
def execCableMapRead (c : Cmd) (s : State) : Result :=
  s.next (s.toHub.takeCommand 0x72 c (c.payload.length == 0)
    (withPort c fun p h => ⟨h, .ok, mapBytes (h.echo.ports.get p).map⟩))

/-- BASELINE_LEARN (R154). -/
def execBaselineLearn (c : Cmd) (s : State) : Result :=
  s.next (s.toHub.takeCommand 0x73 c (c.payload.length == 0) (withPort c baselineLearn))

/-- BASELINE_WRITE (R156). -/
def execBaselineWrite (c : Cmd) (s : State) : Result :=
  s.next (s.toHub.takeCommand 0x74 c (c.payload.length == 2 + 2 * u16At c.payload 0) (withPort c (baselineWrite c)))

/-- BASELINE_READ (R156). -/
def execBaselineRead (c : Cmd) (s : State) : Result :=
  s.next (s.toHub.takeCommand 0x75 c (c.payload.length == 0) (withPort c baselineRead))

/-- ECHO_RESULT (R163). -/
def execEchoResult (c : Cmd) (s : State) : Result :=
  s.next (s.toHub.takeCommand 0x76 c (c.payload.length == 1)
    (withPort c fun p => withFlags (flagOk c.payload 0) fun h => ⟨h, .ok, h.echo.resultBytes p (flagAt c.payload 0)⟩))

/-- HUNT (R164). -/
def execHunt (c : Cmd) (s : State) : Result :=
  s.next (s.toHub.takeCommand 0x77 c (c.payload.length == 1)
    (withPort c fun p => withFlags (flagOk c.payload 0) (hunt c p)))

/-- ECHO_SHOT (R149). -/
def execEchoShot (samples : Vector (BitVec 12) 256) (s : State) : Result :=
  match s.echo.sampler with
  | some j =>
    if j.shots < j.settings.averaging then s.next ((s.toHub.elapse j.due).takeShot samples) else s.next s.toHub
  | none => s.next s.toHub

/-- ECHO_JOB_COMPLETE (R150). -/
def execEchoJobComplete (s : State) : Result :=
  match s.echo.sampler with
  | some j =>
    if j.shots = j.settings.averaging then s.next (((s.toHub.elapse j.due).completeJob j).finish) else s.next s.toHub
  | none => s.next s.toHub

end Sys2Proof.Machine
end

