-- ==== Sys2Proof/Machine/ResetCmds.lean ====
section
/-! DEFINITION. The three kinds of reset: PORT_RESET (R21, R46, R73, R99, R122, R132, R167), HUB_RESET (R34, R45, R72, R98, R121, R133,
R168, R182) and the reset pin (R181). -/

namespace Sys2Proof.Machine

/-! ## PORT_RESET, share by share (DESIGN CHOICE, log 19) -/

/-- R122: the frame store's share: the FILLING frame is released and the stray and duplicate counts become 0. -/
def Hub.portResetStore (p : Port) (h : Hub) : Hub :=
  let h1 := match h.store.filling? p with
    | some f => h.releaseFrame f.tag
    | none => h
  h1.modStore fun st => { st with strays := st.strays.set p 0, duplicates := st.duplicates.set p 0 }

/-- R73: the lens controller's share: the move is abandoned, the stack emptied and the overflow flag cleared. -/
def Hub.portResetLens (p : Port) (h : Hub) : Hub :=
  (h.abandon p).modLens p fun l => { l with stack := [], overflow := false }

/-- R132: the delivery arbiter's share: QUEUED frames leave the FIFO and are released; a SENDING head frame stays with its abort mark set,
which has no effect once its FRAME_CLOSE is granted. -/
def Hub.portResetDelivery (p : Port) (h : Hub) : Hub :=
  let d := h.delivery.get p
  let kept := if d.progress.isSome then d.fifo.take 1 else []
  let gone := d.fifo.drop kept.length
  let h1 := h.modDelivery p fun d =>
    { d with
      fifo := kept, progress := d.progress.map fun g => { g with abort := true }
      hold := false, delivered := 0, aborted := 0, lost := 0 }
  gone.foldl (fun h t => h.releaseFrame t) h1

/-- R46: the power record after PORT_RESET. -/
def Power.portReset (w : Power) : Power := { w.toOff with heldSurge := 0, retriesUsed := 0, overCount := 0 }

/-- R46: the power controller's share. -/
def Hub.portResetPower (p : Port) (h : Hub) : Hub := (h.modPower p Power.portReset).serveIfBelow h.reservedSum

/-- R21: the link record after PORT_RESET. -/
def Link.portReset (now : CellTime) (l : Link) : Link :=
  { l.toDown now with rate := .full, sinceUp := 0, total := 0, wordErrors := 0 }

/-- R21: the link unit's share; with no camera record the lens record is invalid (R73). -/
def Hub.portResetLink (p : Port) (h : Hub) : Hub :=
  let h1 := h.modLink p (Link.portReset h.now)
  let h2 := if (h.links.get p).state == .down then h1 else h1.linkChange p .reset
  h2.modLens p fun l => { l with record := none }

/-- R167: the echo locator's share: the port's job is removed with outcome ABORTED. The power controller finds the port OFF. -/
def Hub.portResetEcho (p : Port) (h : Hub) : Hub :=
  match h.echo.jobOf p with
  | none => h
  | some (k, averaging) =>
    let r := EchoResult.abortedJob k averaging h.now
    ((((h.modEcho fun e => e.remove p).storeResult p r).huntDone p r).lookForJob)

/-- R21: PORT_RESET is applied by every block before its reply enters the control queue. -/
def Hub.portReset (p : Port) (h : Hub) : Hub :=
  ((((((h.portResetStore p).endFlights p .power).portResetLens p).portResetDelivery p).portResetPower p).portResetLink
    p).portResetEcho p

/-- PORT_RESET (R21). -/
def execPortReset (c : Cmd) (s : State) : Result :=
  s.next (s.toHub.takeCommand 0x13 c (c.payload.length == 0) (withPort c fun p h => ⟨h.portReset p, .ok, []⟩))

/-! ## HUB_RESET, share by share (DEDUCED, log 20) -/

/-- R98: the scheduler's share. -/
def Hub.hubResetShot (h : Hub) : Hub := { h with shot := {} }

/-- R72: the lens controller's share: the list is emptied first, then every move is abandoned. -/
def Hub.hubResetLens (h : Hub) : Hub := allPorts.foldl (fun h p => h.abandon p) (h.setDeferred [])

/-- R121: the frame store's share. With 4096 pages free STORE_LOW is inactive. -/
def Hub.hubResetStore (h : Hub) : Hub := h.modStore fun st => { st with frames := [] }

/-- R133: the delivery arbiter's share. -/
def Hub.hubResetDelivery (h : Hub) : Hub :=
  { h with
    delivery := h.delivery.map fun d => { d with fifo := [], progress := none, hold := false }
    rotation := allPorts }

/-- R168: the echo locator's share for one port. -/
def Hub.hubResetEchoPort (p : Port) (h : Hub) : Hub :=
  match h.echo.jobOf p with
  | none => h
  | some (k, averaging) =>
    let h1 := (h.modEcho fun e => e.remove p).storeResult p (EchoResult.abortedJob k averaging h.now)
    if k = .auto then h1.autoResult p false else h1

/-- R168: the echo locator's share. -/
def Hub.hubResetEcho (h : Hub) : Hub := allPorts.foldl (fun h p => h.hubResetEchoPort p) h

/-- R45: a power record after HUB_RESET. -/
def Power.hubReset (w : Power) : Power :=
  let w1 := { w with heldSurge := 0 }
  if w.state == .hunt then { w1 with state := .off, restore := false } else w1

/-- R45: the power controller's share. The deferred move list is empty, so no serving follows. -/
def Hub.hubResetPower (h : Hub) : Hub := { h with power := h.power.map Power.hubReset }

/-- The link units' share (01, the table before R8): waiting TRIGGER and LENS_MOVE words are removed. -/
def Hub.hubResetLink (h : Hub) : Hub :=
  { h with links := h.links.map fun l => { l with words := l.words.filter fun w => w.sameKind (.retrain .full) } }

/-- R182: the uplink controller's share, before the reply enters: control records are discarded, less the one in transmission, which
completes; an image record in transmission no longer names its frame (R133). -/
def Uplink.hubReset (u : Uplink) : Uplink :=
  match u.tx with
  | some .control => { u with queue := u.queue.take 1 }
  | some (.image _ closing r) => { u with queue := [], tx := some (.image none closing r) }
  | none => { u with queue := [] }

/-- R182, R190: HUB_RESET. The router's entries return to their defaults first, so firings in the shares are discarded. -/
def Hub.hubReset (h : Hub) : Hub :=
  ((((((((h.modRouter fun _ => {}).hubResetShot).hubResetLens).hubResetStore).hubResetDelivery).hubResetEcho).hubResetPower
    ).hubResetLink).modUplink Uplink.hubReset

/-- HUB_RESET (R182). -/
def execHubReset (c : Cmd) (s : State) : Result :=
  s.next (s.toHub.takeCommand 0x80 c (c.payload.length == 0) fun h => ⟨h.hubReset, .ok, []⟩)

/-! ## The reset pin -/

/-- R181: every block in its pin-reset state. What the manual gives no reset value stays: the levels at the encoder inputs (DESIGN CHOICE,
log 15) and the contents of the DRAM (R100, DESIGN CHOICE, log 14). -/
def Hub.pinReset (h : Hub) : Hub :=
  { Hub.reset with
    time := { phaseA := h.time.phaseA, phaseB := h.time.phaseB }
    store := { dram := h.store.dram }
    draws := h.draws }

/-- PIN_RESET (R181). -/
def execPinReset (s : State) : Result := s.next s.toHub.pinReset

end Sys2Proof.Machine
end

