-- ==== Sys2Proof/Machine/UplinkCmds.lean ====
section
/-! DEFINITION. The uplink and event routing (09, 10): IDENTIFY, UPLINK_STATUS, ROUTE_SET, ROUTE_READ, EVENT_ACK, the link's coming
and going, and the ends of transmissions. -/

namespace Sys2Proof.Machine

/-! ## Identity and status -/

/-- The data of IDENTIFY (R183): part code, revision, port, page, descriptor and slot counts. -/
def identity : List Byte := w2 600 ++ w1 1 ++ w1 6 ++ w2 Config.pageCount ++ w1 Config.descriptorCount ++ w1 16

/-- The data of UPLINK_STATUS (R184). The reply's own place counts as held, and the credit the command used as no longer
outstanding. -/
def Uplink.status (u : Uplink) : List Byte :=
  w2 u.linkUps ++ w2 u.noCredit ++ w2 u.badLength ++ w2 u.badCrc ++ w1 (u.queue.length + 1) ++ w1 (u.credits - 1)
    ++ w1 u.free ++ w1 (u.credits - 1)

/-- R184: UPLINK_STATUS. The clear option acts after the reply is built. -/
def uplinkStatus (c : Cmd) (h : Hub) : Answer :=
  ⟨if flagAt c.payload 0 then h.modUplink fun u => { u with noCredit := 0, badLength := 0, badCrc := 0 } else h,
    .ok, h.uplink.status⟩

/-! ## Routing entries -/

/-- A per-port source code (R194). -/
def PortSource.ofCode : Nat → Option PortSource
  | 0 => some .powerFault
  | 1 => some .linkChange
  | 2 => some .lensDone
  | 3 => some .huntDone
  | 4 => some .zoneSuspect
  | _ => none

/-- A global source code (R194). -/
def GlobalSource.ofCode : Nat → Option GlobalSource
  | 5 => some .cycleOverrun
  | 6 => some .slotSkipped
  | 7 => some .storeLow
  | 8 => some .uplinkError
  | _ => none

/-- R189, checks 1 and 2: the source a code and a header port name. -/
def withSource (c : Cmd) (code : Nat) (body : Source → Hub → Answer) (h : Hub) : Answer :=
  match PortSource.ofCode code, GlobalSource.ofCode code with
  | some k, _ => withPort c (fun p => body (.ofPort p k)) h
  | none, some g => if c.port = 0xFF then body (.ofHub g) h else refuse .badPort h
  | none, none => refuse .badArg h

/-- R189: masking clears the pending flag and the count; unmasking an active level entry that is not awaiting offers a report. -/
def Hub.setMask (src : Source) (mask : Bool) (h : Hub) : Hub :=
  let e := h.router.entry src
  let h1 := h.modEntry src fun e => { e with masked := mask }
  if mask && !e.masked then h1.modRouter fun r => (r.dequeue src).modEntry src fun e => { e with count := 0 }
  else if !mask && e.masked && h.levelActive src && !e.awaiting then h1.offerReport src false
  else h1

/-- R189: a new tag; with tag 0 an awaiting entry no longer awaits. -/
def Hub.setTag (src : Source) (tag : Byte) (h : Hub) : Hub :=
  h.modEntry src fun e => { e with tag := tag, awaiting := e.awaiting && tag != 0 }

/-- The fields of a routing entry, in the order of their table (10): mask, tag, awaiting, pending, coalesced count, last detail (DESIGN
CHOICE, log 11). -/
def Router.entryBytes (r : Router) (src : Source) : List Byte :=
  let e := r.entry src
  wFlag e.masked ++ w1 e.tag.toNat ++ wFlag e.awaiting ++ wFlag (r.pending src) ++ w1 e.count
    ++ wOpt (List.replicate src.detailLength 0) id e.detail

/-- R189: ROUTE_SET, the mask first; the reply carries the entry as written. A mask byte of 1 masks (DESIGN CHOICE, log 12). A pending edge
entry that tag 0 makes offerable is offered at the end of this step, behind the reply, where a place is free (DESIGN CHOICE, log 44). -/
def routeSet (c : Cmd) (src : Source) (h : Hub) : Answer :=
  let tag := u16At c.payload 2
  if 255 < tag then refuse .badArg h
  else
    let h1 := (h.setMask src (flagAt c.payload 1)).setTag src (BitVec.ofNat 8 tag)
    ⟨h1, .ok, h1.router.entryBytes src⟩

/-- The place of an entry in the pending order, 1 from the head, 0 when not pending (R189). -/
def Router.place (r : Router) (src : Source) : Nat := ((r.order.findIdx? (· == src)).map (· + 1)).getD 0

/-- The data of ROUTE_READ (R189): the entry's fields, its place, and for a level source whether it is active (DESIGN CHOICE, log 11). -/
def Hub.routeData (src : Source) (h : Hub) : List Byte :=
  h.router.entryBytes src ++ w1 (h.router.place src) ++ (if src.isLevel then wFlag (h.levelActive src) else [])

/-! ## Acknowledgment -/

/-- R188: what an acknowledgment does to one entry. -/
def Hub.ackEntry (h : Hub) (src : Source) : Hub :=
  let e := h.router.entry src
  let h1 := h.modEntry src fun e => { e with awaiting := false }
  if !e.masked && (if src.isLevel then h.levelActive src else h.router.pending src) then h1.offerReport src true
  else h1.modEntry src fun e => { e with count := 0 }

/-- R188: the entries a tag acknowledges, in table order. -/
def Router.acked (r : Router) (tag : Nat) : List Source :=
  allSources.filter fun src => (r.entry src).awaiting && (r.entry src).tag.toNat == tag

/-- R188: EVENT_ACK. -/
def eventAck (c : Cmd) (h : Hub) : Answer :=
  let tag := u16At c.payload 0
  if tag = 0 || 255 < tag then refuse .badArg h
  else
    let l := h.router.acked tag
    ⟨l.foldl Hub.ackEntry h, .ok, w1 l.length⟩

/-! ## The link and the transmitter -/

/-- R180, R190: link up. -/
def Hub.linkUp (h : Hub) : Hub :=
  let h1 := h.modUplink fun u => { u with up := true, linkUps := satInc Config.max16 u.linkUps }
  (allSources.foldl (fun h src => h.repend src) h1).finish

/-- R179: the router is told of a control record that link down discarded. -/
def Hub.recordLost (h : Hub) : CtrlRec → Hub
  | .reply _ => h
  | .report src count _ => h.reportLost src count

/-- R179, R131: link down. The entries of the reports discarded join the pending order in the order of the control queue, head first
(DESIGN CHOICE, log 42). -/
def Hub.linkDown (h : Hub) : Hub :=
  let h1 := h.modUplink fun u => { u with up := false, queue := [], credits := 0, tx := none }
  allPorts.foldl (fun h p => h.loseSending p) (h.uplink.queue.foldl Hub.recordLost h1)

/-- R178: the end of a control record's transmission: its place becomes free. -/
def Hub.controlSent (h : Hub) : Hub := (h.modUplink fun u => { u with queue := u.queue.drop 1, tx := none }).finish

/-- Clear the in-transmission mark of a port's progress (R125). -/
def Delivery.offWire (d : Delivery) : Delivery := { d with progress := d.progress.map fun g => { g with inTx := false } }

/-- R178, R128: the end of an image record's transmission. One whose frame a HUB_RESET discarded changes nothing more (R133). -/
def Hub.imageSent (frame : Option FrameTag) (closing : Option DeliveryStatus) (h : Hub) : Hub :=
  let h1 := h.modUplink fun u => { u with tx := none }
  let h2 := match frame.bind h1.store.frame? with
    | none => h1
    | some f =>
      let h2 := h1.modDelivery f.port Delivery.offWire
      match closing with
      | some st => h2.frameDelivered f st
      | none => h2
  h2.finish

/-! ## Meanings -/

/-- IDENTIFY (R183). -/
def execIdentify (c : Cmd) (s : State) : Result :=
  s.next (s.toHub.takeCommand 0x81 c (c.payload.length == 0) fun h => ⟨h, .ok, identity⟩)

/-- UPLINK_STATUS (R184). -/
def execUplinkStatus (c : Cmd) (s : State) : Result :=
  s.next (s.toHub.takeCommand 0x82 c (c.payload.length == 1) (withFlags (flagOk c.payload 0) (uplinkStatus c)))

/-- ROUTE_SET (R189). -/
def execRouteSet (c : Cmd) (s : State) : Result :=
  s.next (s.toHub.takeCommand 0x83 c (c.payload.length == 4)
    (withFlags (flagOk c.payload 1) (withSource c (byteAt c.payload 0) (routeSet c))))

/-- ROUTE_READ (R189). -/
def execRouteRead (c : Cmd) (s : State) : Result :=
  s.next (s.toHub.takeCommand 0x84 c (c.payload.length == 1)
    (withSource c (byteAt c.payload 0) fun src h => ⟨h, .ok, h.routeData src⟩))

/-- EVENT_ACK (R188). -/
def execEventAck (c : Cmd) (s : State) : Result :=
  s.next (s.toHub.takeCommand 0x85 c (c.payload.length == 2) (eventAck c))

/-- UPLINK_UP (R170, R180). -/
def execUplinkUp (s : State) : Result := s.next (if s.uplink.up then s.toHub else s.toHub.linkUp)

/-- UPLINK_DOWN (R170, R179). -/
def execUplinkDown (s : State) : Result := s.next (if s.uplink.up then s.toHub.linkDown else s.toHub)

/-- CONTROL_RECORD_SENT (R178). -/
def execControlRecordSent (s : State) : Result :=
  match s.uplink.tx with
  | some .control => s.next s.toHub.controlSent
  | _ => s.next s.toHub

/-- IMAGE_RECORD_SENT (R178, R128). -/
def execImageRecordSent (s : State) : Result :=
  match s.uplink.tx with
  | some (.image frame closing _) => s.next (s.toHub.imageSent frame closing)
  | _ => s.next s.toHub

end Sys2Proof.Machine
end

