-- ==== Sys2Proof/Machine/RecordCmds.lean ====
section
/-! DEFINITION. Records as the link delivers them (R171, R172): the front door of the uplink, RECORD_DISCARD and BAD_KIND_RECORD, and
the µs that passes while no command waits. -/

namespace Sys2Proof.Machine

/-! ## By kind -/

/-- R172, check 1: a record whose kind byte is not a command kind is refused with BAD_KIND. -/
def badKind (kind : Byte) (c : Cmd) (s : State) : Result :=
  s.next (s.toHub.takeCommand kind.toNat c true (refuse .badKind))

/-- R172, R192: a record that passed the checks of R171 is taken by its kind. -/
def takeByKind (kind : Byte) (c : Cmd) (s : State) : Result :=
  match kind.toNat with
  | 0x10 => execLinkRetrain c s
  | 0x11 => execLinkSetup c s
  | 0x12 => execPortInfo c s
  | 0x13 => execPortReset c s
  | 0x20 => execPowerOn c s
  | 0x21 => execPowerOff c s
  | 0x22 => execPowerSetup c s
  | 0x23 => execBudgetSet c s
  | 0x24 => execPowerStatus c s
  | 0x30 => execPresetWrite c s
  | 0x31 => execPresetRead c s
  | 0x32 => execPresetGo c s
  | 0x33 => execLensPush c s
  | 0x34 => execLensPop c s
  | 0x35 => execLensMove c s
  | 0x36 => execLensSetup c s
  | 0x37 => execLensStatus c s
  | 0x40 => execSlotWrite c s
  | 0x41 => execTableHeader c s
  | 0x42 => execTableCommit c s
  | 0x43 => execTableRead c s
  | 0x44 => execCycleRun c s
  | 0x45 => execCycleFire c s
  | 0x46 => execCycleStop c s
  | 0x47 => execCycleStatus c s
  | 0x48 => execTimeSet c s
  | 0x49 => execTimeRead c s
  | 0x50 => execStoreSetup c s
  | 0x51 => execStoreStatus c s
  | 0x52 => execImageHold c s
  | 0x53 => execImageResume c s
  | 0x54 => execDeliveryStatus c s
  | 0x60 => execPose c s
  | 0x61 => execZoneSetup c s
  | 0x62 => execZoneRead c s
  | 0x63 => execZoneClear c s
  | 0x70 => execEchoSetup c s
  | 0x71 => execCableMapWrite c s
  | 0x72 => execCableMapRead c s
  | 0x73 => execBaselineLearn c s
  | 0x74 => execBaselineWrite c s
  | 0x75 => execBaselineRead c s
  | 0x76 => execEchoResult c s
  | 0x77 => execHunt c s
  | 0x80 => execHubReset c s
  | 0x81 => execIdentify c s
  | 0x82 => execUplinkStatus c s
  | 0x83 => execRouteSet c s
  | 0x84 => execRouteRead c s
  | 0x85 => execEventAck c s
  | _ => badKind kind c s

/-! ## The front door -/

/-- The payload length a record's header states (R192). -/
def statedLength (raw : List Byte) : Nat := u16At raw 4

/-- R171, checks 2 and 3: the length and the CRC. -/
def rawFault (raw : List Byte) : Option DiscardCause :=
  let n := statedLength raw
  if Config.maxPayload < n || raw.length != n + 8 then some .length
  else if (crc16 (raw.take (n + 6))).toNat != u16At raw (n + 6) then some .crc
  else none

/-- The command fields of a whole record (R192). -/
def Cmd.ofRaw (raw : List Byte) : Cmd := ⟨raw.getD 1 0, bv16At raw 2, (raw.drop 6).take (statedLength raw)⟩

/-- RECORD_DISCARD (R171): a whole record as the link delivered it. With the uplink DOWN none is delivered; without a credit, with a bad
length or a bad CRC it is discarded; one that passes is the command it spells (DESIGN CHOICE, log 5). -/
def execRecordDiscard (raw : List Byte) (s : State) : Result :=
  if !s.uplink.up then s.next s.toHub
  else if s.uplink.credits = 0 then s.next (s.toHub.discard .noCredit).finish
  else match rawFault raw with
    | some cause => s.next (s.toHub.discard cause).finish
    | none => takeByKind (raw.getD 0 0) (Cmd.ofRaw raw) s

/-- BAD_KIND_RECORD (R172): one whose kind is a command kind after all is that command (DESIGN CHOICE, log 5). -/
def execBadKindRecord (kind : Byte) (c : Cmd) (s : State) : Result := takeByKind kind c s

/-! ## Idle time -/

/-- While no command waits, 1 µs passes (R97; DESIGN CHOICE, log 1). -/
def idle (s : State) : Result := s.next (s.toHub.elapse 1)

end Sys2Proof.Machine
end

