-- ==== Sys2Proof/Machine/Dispatch.lean ====
section
/-! DEFINITION. One arm per command: its meaning. -/

namespace Sys2Proof.Machine

def exec (i : Instr) (s : State) : Host.Outcome State Fault Refusal :=
  match i with
  | .linkRetrain c => Sys2Proof.Machine.execLinkRetrain c s
  | .linkSetup c => Sys2Proof.Machine.execLinkSetup c s
  | .portInfo c => Sys2Proof.Machine.execPortInfo c s
  | .portReset c => Sys2Proof.Machine.execPortReset c s
  | .powerOn c => Sys2Proof.Machine.execPowerOn c s
  | .powerOff c => Sys2Proof.Machine.execPowerOff c s
  | .powerSetup c => Sys2Proof.Machine.execPowerSetup c s
  | .budgetSet c => Sys2Proof.Machine.execBudgetSet c s
  | .powerStatus c => Sys2Proof.Machine.execPowerStatus c s
  | .presetWrite c => Sys2Proof.Machine.execPresetWrite c s
  | .presetRead c => Sys2Proof.Machine.execPresetRead c s
  | .presetGo c => Sys2Proof.Machine.execPresetGo c s
  | .lensPush c => Sys2Proof.Machine.execLensPush c s
  | .lensPop c => Sys2Proof.Machine.execLensPop c s
  | .lensMove c => Sys2Proof.Machine.execLensMove c s
  | .lensSetup c => Sys2Proof.Machine.execLensSetup c s
  | .lensStatus c => Sys2Proof.Machine.execLensStatus c s
  | .slotWrite c => Sys2Proof.Machine.execSlotWrite c s
  | .tableHeader c => Sys2Proof.Machine.execTableHeader c s
  | .tableCommit c => Sys2Proof.Machine.execTableCommit c s
  | .tableRead c => Sys2Proof.Machine.execTableRead c s
  | .cycleRun c => Sys2Proof.Machine.execCycleRun c s
  | .cycleFire c => Sys2Proof.Machine.execCycleFire c s
  | .cycleStop c => Sys2Proof.Machine.execCycleStop c s
  | .cycleStatus c => Sys2Proof.Machine.execCycleStatus c s
  | .timeSet c => Sys2Proof.Machine.execTimeSet c s
  | .timeRead c => Sys2Proof.Machine.execTimeRead c s
  | .storeSetup c => Sys2Proof.Machine.execStoreSetup c s
  | .storeStatus c => Sys2Proof.Machine.execStoreStatus c s
  | .imageHold c => Sys2Proof.Machine.execImageHold c s
  | .imageResume c => Sys2Proof.Machine.execImageResume c s
  | .deliveryStatus c => Sys2Proof.Machine.execDeliveryStatus c s
  | .pose c => Sys2Proof.Machine.execPose c s
  | .zoneSetup c => Sys2Proof.Machine.execZoneSetup c s
  | .zoneRead c => Sys2Proof.Machine.execZoneRead c s
  | .zoneClear c => Sys2Proof.Machine.execZoneClear c s
  | .echoSetup c => Sys2Proof.Machine.execEchoSetup c s
  | .cableMapWrite c => Sys2Proof.Machine.execCableMapWrite c s
  | .cableMapRead c => Sys2Proof.Machine.execCableMapRead c s
  | .baselineLearn c => Sys2Proof.Machine.execBaselineLearn c s
  | .baselineWrite c => Sys2Proof.Machine.execBaselineWrite c s
  | .baselineRead c => Sys2Proof.Machine.execBaselineRead c s
  | .echoResult c => Sys2Proof.Machine.execEchoResult c s
  | .hunt c => Sys2Proof.Machine.execHunt c s
  | .hubReset c => Sys2Proof.Machine.execHubReset c s
  | .identify c => Sys2Proof.Machine.execIdentify c s
  | .uplinkStatus c => Sys2Proof.Machine.execUplinkStatus c s
  | .routeSet c => Sys2Proof.Machine.execRouteSet c s
  | .routeRead c => Sys2Proof.Machine.execRouteRead c s
  | .eventAck c => Sys2Proof.Machine.execEventAck c s
  | .badKindRecord kind c => Sys2Proof.Machine.execBadKindRecord kind c s
  | .recordDiscard raw => Sys2Proof.Machine.execRecordDiscard raw s
  | .pinReset => Sys2Proof.Machine.execPinReset s
  | .uplinkUp => Sys2Proof.Machine.execUplinkUp s
  | .uplinkDown => Sys2Proof.Machine.execUplinkDown s
  | .controlRecordSent => Sys2Proof.Machine.execControlRecordSent s
  | .imageRecordSent => Sys2Proof.Machine.execImageRecordSent s
  | .encoderEdge a b => Sys2Proof.Machine.execEncoderEdge a b s
  | .triggerLineEdge => Sys2Proof.Machine.execTriggerLineEdge s
  | .currentSample p code => Sys2Proof.Machine.execCurrentSample p code s
  | .inrushExpire p => Sys2Proof.Machine.execInrushExpire p s
  | .cooldownExpire p => Sys2Proof.Machine.execCooldownExpire p s
  | .onTimerExpire p => Sys2Proof.Machine.execOnTimerExpire p s
  | .dischargeExpire p => Sys2Proof.Machine.execDischargeExpire p s
  | .lockGained p => Sys2Proof.Machine.execLockGained p s
  | .lockLost p => Sys2Proof.Machine.execLockLost p s
  | .acquireTimeout p => Sys2Proof.Machine.execAcquireTimeout p s
  | .relockExpire p => Sys2Proof.Machine.execRelockExpire p s
  | .helloWord p w => Sys2Proof.Machine.execHelloWord p w s
  | .lineWord p w => Sys2Proof.Machine.execLineWord p w s
  | .eofWord p w => Sys2Proof.Machine.execEofWord p w s
  | .lensStatusWord p w => Sys2Proof.Machine.execLensStatusWord p w s
  | .undecodableWord p raw => Sys2Proof.Machine.execUndecodableWord p raw s
  | .downstreamWordEnd p => Sys2Proof.Machine.execDownstreamWordEnd p s
  | .moveTimeout p => Sys2Proof.Machine.execMoveTimeout p s
  | .spanExpire => Sys2Proof.Machine.execSpanExpire s
  | .slotOpen k => Sys2Proof.Machine.execSlotOpen k s
  | .guardExpire k => Sys2Proof.Machine.execGuardExpire k s
  | .exposureEnd k => Sys2Proof.Machine.execExposureEnd k s
  | .frameWindowExpire p => Sys2Proof.Machine.execFrameWindowExpire p s
  | .echoShot samples => Sys2Proof.Machine.execEchoShot samples s
  | .echoJobComplete => Sys2Proof.Machine.execEchoJobComplete s

end Sys2Proof.Machine
end

