-- ==== Sys2Proof/Safety.lean ====
section
/-! DEFINITION. What a safe run keeps: the laws the manual states over the hub's state as a whole, in the terms the claims use. -/

namespace Sys2Proof.Machine

/-! ## Frames -/

/-- The parts of the hub's state. -/
inductive Part where
  | time | links | power | budget | lenses | deferred | shot | store | delivery | rotation | zones | echo | router | uplink | draws
deriving DecidableEq, Repr

/-- Two hubs agree in a part. -/
def Hub.sameIn (a b : Hub) : Part → Prop
  | .time => b.time = a.time
  | .links => b.links = a.links
  | .power => b.power = a.power
  | .budget => b.budget = a.budget
  | .lenses => b.lenses = a.lenses
  | .deferred => b.deferred = a.deferred
  | .shot => b.shot = a.shot
  | .store => b.store = a.store
  | .delivery => b.delivery = a.delivery
  | .rotation => b.rotation = a.rotation
  | .zones => b.zones = a.zones
  | .echo => b.echo = a.echo
  | .router => b.router = a.router
  | .uplink => b.uplink = a.uplink
  | .draws => b.draws = a.draws

/-- The second hub differs from the first only in the parts listed. -/
def Hub.onlyIn (l : List Part) (a b : Hub) : Prop := ∀ x : Part, x ∉ l → a.sameIn b x

/-! ## What the claims say of a command -/

/-- The commands that are host command records, each with its kind code (R192). -/
def hostCommand : Instr → Option (Nat × Cmd)
  | .linkRetrain c => some (0x10, c)
  | .linkSetup c => some (0x11, c)
  | .portInfo c => some (0x12, c)
  | .portReset c => some (0x13, c)
  | .powerOn c => some (0x20, c)
  | .powerOff c => some (0x21, c)
  | .powerSetup c => some (0x22, c)
  | .budgetSet c => some (0x23, c)
  | .powerStatus c => some (0x24, c)
  | .presetWrite c => some (0x30, c)
  | .presetRead c => some (0x31, c)
  | .presetGo c => some (0x32, c)
  | .lensPush c => some (0x33, c)
  | .lensPop c => some (0x34, c)
  | .lensMove c => some (0x35, c)
  | .lensSetup c => some (0x36, c)
  | .lensStatus c => some (0x37, c)
  | .slotWrite c => some (0x40, c)
  | .tableHeader c => some (0x41, c)
  | .tableCommit c => some (0x42, c)
  | .tableRead c => some (0x43, c)
  | .cycleRun c => some (0x44, c)
  | .cycleFire c => some (0x45, c)
  | .cycleStop c => some (0x46, c)
  | .cycleStatus c => some (0x47, c)
  | .timeSet c => some (0x48, c)
  | .timeRead c => some (0x49, c)
  | .storeSetup c => some (0x50, c)
  | .storeStatus c => some (0x51, c)
  | .imageHold c => some (0x52, c)
  | .imageResume c => some (0x53, c)
  | .deliveryStatus c => some (0x54, c)
  | .pose c => some (0x60, c)
  | .zoneSetup c => some (0x61, c)
  | .zoneRead c => some (0x62, c)
  | .zoneClear c => some (0x63, c)
  | .echoSetup c => some (0x70, c)
  | .cableMapWrite c => some (0x71, c)
  | .cableMapRead c => some (0x72, c)
  | .baselineLearn c => some (0x73, c)
  | .baselineWrite c => some (0x74, c)
  | .baselineRead c => some (0x75, c)
  | .echoResult c => some (0x76, c)
  | .hunt c => some (0x77, c)
  | .hubReset c => some (0x80, c)
  | .identify c => some (0x81, c)
  | .uplinkStatus c => some (0x82, c)
  | .routeSet c => some (0x83, c)
  | .routeRead c => some (0x84, c)
  | .eventAck c => some (0x85, c)
  | _ => none

/-- R192, R193: the payload lengths a command kind allows; three kinds carry a count first. -/
def payloadFits (kind : Nat) (bs : List Byte) : Prop :=
  if [0x10, 0x12, 0x13, 0x20, 0x21, 0x24, 0x33, 0x34, 0x37, 0x42, 0x44, 0x45, 0x49, 0x52, 0x53, 0x62, 0x72, 0x73, 0x75,
    0x80, 0x81].contains kind then bs.length = 0
  else if [0x11, 0x31, 0x32, 0x43, 0x46, 0x47, 0x51, 0x54, 0x63, 0x76, 0x77, 0x82, 0x84].contains kind then bs.length = 1
  else if [0x23, 0x50, 0x85].contains kind then bs.length = 2
  else if [0x36, 0x83].contains kind then bs.length = 4
  else if kind = 0x48 then bs.length = 6
  else if kind = 0x41 then bs.length = 7
  else if kind = 0x70 then bs.length = 8
  else if [0x35, 0x61].contains kind then bs.length = 9
  else if [0x22, 0x30].contains kind then bs.length = 10
  else if kind = 0x40 then bs.length = 21
  else if kind = 0x60 then bs.length = 1 + 2 * byteAt bs 0
  else if kind = 0x71 then bs.length = 1 + 5 * byteAt bs 0
  else if kind = 0x74 then bs.length = 2 + 2 * u16At bs 0
  else False

/-- The commands that are whole records the link delivers (R171): host commands, records of no command kind, and records given raw. -/
def isRecord (i : Instr) : Prop :=
  (hostCommand i).isSome = true ∨ (∃ kind c, i = .badKindRecord kind c) ∨ ∃ raw, i = .recordDiscard raw

/-- The kinds whose commands name a port (09, Command catalogue), ROUTE_SET and ROUTE_READ apart. -/
def namesPort (kind : Nat) : Bool :=
  [0x10, 0x11, 0x12, 0x13, 0x20, 0x21, 0x22, 0x24, 0x30, 0x31, 0x32, 0x33, 0x34, 0x35, 0x36, 0x37, 0x52, 0x53, 0x61, 0x62,
    0x63, 0x70, 0x71, 0x72, 0x73, 0x74, 0x75, 0x76, 0x77].contains kind

/-- R170, R177: the uplink is UP and the host holds a credit. -/
def Hub.ready (h : Hub) : Prop := h.uplink.up = true ∧ 0 < h.uplink.credits

/-- The record's header names a port. -/
def addresses (c : Cmd) (p : Port) : Prop := c.port.toNat = p.val

/-- Routing entries keep their masks, tags and last details. -/
def Router.sameSetup (a b : Router) : Prop :=
  ∀ src, (b.entry src).masked = (a.entry src).masked ∧ (b.entry src).tag = (a.entry src).tag ∧
    (b.entry src).detail = (a.entry src).detail

/-- The uplink keeps its state and its counts. -/
def Uplink.sameCounts (a b : Uplink) : Prop :=
  b.up = a.up ∧ b.linkUps = a.linkUps ∧ b.noCredit = a.noCredit ∧ b.badLength = a.badLength ∧ b.badCrc = a.badCrc

/-- The second hub is the first but for what a reply, the credits granted and pending reports offered change: control queue, credits
and transmitter; awaiting flags, counts and the pending order; the counter of free values. -/
def Hub.repliedTo (a b : Hub) : Prop :=
  a.onlyIn [.router, .uplink, .draws] b ∧ a.router.sameSetup b.router ∧ a.uplink.sameCounts b.uplink

/-- R195: the payload of a frame's FRAME_OPEN, 44 + 2n bytes. -/
def openFields (f : Frame) : List Byte :=
  w2 f.tag.toNat ++ w1 f.slot.val ++ w1 ((f.zone.map Fin.val).getD 0) ++ w4 f.cycle.toNat ++ w2 f.lines ++ w2 f.lineBytes ++
    w6 ((f.exposedAt.getD 0).toNat) ++ w6 ((f.closeTime.getD 0).toNat) ++ w1 ((f.closeStatus.map CloseStatus.code).getD 0) ++
    w1 ((if f.lensLate then 1 else 0) + (if f.badLines then 2 else 0) + (if f.overlong then 4 else 0)) ++
    w1 ((f.lens.map fun l => l.moveState.code).getD 0) ++
    ((f.lens.map LensSnapshot.actuals).getD ⟨none, none, none⟩).toList.flatMap wOpt2 ++
    w2 f.received.length ++ w2 (f.received.countP (·.2)) ++ wOpt2 f.eofCount ++ w1 f.badList.length ++ f.badList.flatMap w2

/-- R125 to R128, R195: the image record that a grant sends of a frame at a sending progress, its status if it is a FRAME_CLOSE, and the
progress after the grant. (What an ABORTED close leaves in the progress is the model's choice, log 41.) -/
def imageRecordOf (dram : Memory) (f : Frame) (g : Progress) (r : Rec) (closing : Option DeliveryStatus) (g' : Progress) : Prop :=
  r.port = BitVec.ofNat 8 f.port.val ∧ r.tag = 0 ∧
    (g.abort = true → r.kind = 0x05 ∧ r.payload = w2 f.tag.toNat ++ w2 g.linesSent ++ [1] ∧ closing = some .aborted ∧
      g' = { g with next := .close, inTx := true }) ∧
    (g.abort = false → g.next = .frameOpen → r.kind = 0x03 ∧ r.payload = openFields f ∧ closing = none ∧
      g' = { g with
        next := if f.received = [] then .close else .line, nextLine := f.received.head?.map (·.1), inTx := true }) ∧
    (∀ n, g.abort = false → g.next = .line → g.nextLine = some n → r.kind = 0x04 ∧ closing = none ∧
      (∃ bytes, bytes.length = f.lineBytes ∧
        r.payload = w2 f.tag.toNat ++ w2 n ++ [if f.received.find? (·.1 == n) = some (n, true) then 1 else 0] ++ bytes ∧
        ∀ k a, k < f.lineBytes → pageAddress f.pages (n * f.lineBytes + k) = some a → bytes[k]? = some (dram.read a)) ∧
      (∀ m, (f.received.find? (n < ·.1)).map (·.1) = some m →
        g' = { g with nextLine := some m, linesSent := g.linesSent + 1, inTx := true }) ∧
      (f.received.find? (n < ·.1) = none →
        g' = { g with next := .close, nextLine := none, linesSent := g.linesSent + 1, inTx := true })) ∧
    (g.abort = false → g.next = .close → r.kind = 0x05 ∧ r.payload = w2 f.tag.toNat ++ w2 g.linesSent ++ [0] ∧
      closing = some .delivered ∧ g' = { g with inTx := true })

/-- R124, R125: between two hubs a port was granted one record of its head frame, which is SENDING from then on; the port moves to the
bottom of the rotation order. -/
def imageGranted (p : Port) (a b : Hub) : Prop :=
  ∃ tag rest f r closing g,
    (a.delivery.get p).fifo = tag :: rest ∧ (a.delivery.get p).hold = false ∧ a.store.frame? tag = some f ∧
      imageRecordOf a.store.dram f ((a.delivery.get p).progress.getD {}) r closing g ∧
      b.uplink.tx = some (.image (some tag) closing r) ∧ b.rotation = a.rotation.filter (· != p) ++ [p] ∧
      b.delivery = a.delivery.mod p (fun d => { d with progress := some g }) ∧
      b.store = { a.store with frames := a.store.frames.map fun x => if x.tag = tag then { x with state := .sending } else x }

/-- The second hub is the first but for what `repliedTo` allows and at most one grant of an image record. -/
def Hub.settledTo (a b : Hub) : Prop :=
  a.onlyIn [.router, .uplink, .draws, .store, .delivery, .rotation] b ∧ a.router.sameSetup b.router ∧
    a.uplink.sameCounts b.uplink ∧
    (b.store = a.store ∧ b.delivery = a.delivery ∧ b.rotation = a.rotation ∨ ∃ p, imageGranted p a b)

/-- The detail a report of a source carries: a level source's as its block has it now (R44, R118), an edge source's last (R186). -/
def Hub.detailOf (h : Hub) : Source → List Byte
  | .ofPort p .powerFault =>
    let w := h.power.get p
    w1 w.state.code ++ w1 w.cause.code ++ w2 w.trips ++ w1 w.retriesUsed ++ w1 w.setup.retries
  | .ofHub .storeLow => w2 h.store.freePages ++ w2 h.store.lowMark ++ w1 (24 - h.store.frames.length)
  | src => ((h.router.entry src).detail).getD []

/-- R186, R192, R194: the report of a source that stands for `n` firings and carries a detail, built now. -/
def Hub.reportOf (h : Hub) (src : Source) (n : Nat) (detail : List Byte) : CtrlRec :=
  .report src n
    ⟨0x02, src.portByte, (h.router.entry src).tag.setWidth 16, w1 src.code ++ w1 n ++ w6 h.time.cellTime.toNat ++ detail⟩

/-- R186: the count a report carries: the coalesced count, or 1 where that is 0. -/
def Entry.carried (e : Entry) : Nat := if e.count = 0 then 1 else e.count

/-- R176, R170: a report can enter the control queue: the uplink is UP and a place is neither held nor reserved. -/
def Hub.roomFor (h : Hub) (n : Nat) : Prop := h.uplink.up = true ∧ h.uplink.queue.length + h.uplink.credits + n ≤ 32

/-- R187: a source's entry is unmasked, not awaiting and not pending. -/
def Hub.listens (h : Hub) (src : Source) : Prop :=
  (h.router.entry src).masked = false ∧ (h.router.entry src).awaiting = false ∧ h.router.pending src = false

/-- R186, R187: between two hubs an edge source fired once, with a detail. A masked entry's detail is as it was. An unmasked entry holds
the detail; where it awaits, or the uplink is DOWN, it is pending with one more firing on its count, else it has a report in the control
queue or is pending. -/
def fired (src : Source) (detail : List Byte) (a b : Hub) : Prop :=
  ((a.router.entry src).masked = true → (b.router.entry src).detail = (a.router.entry src).detail) ∧
    ((a.router.entry src).masked = false → (b.router.entry src).detail = some detail ∧
      ((a.router.entry src).awaiting = true ∨ a.uplink.up = false →
        b.router.pending src = true ∧ (b.router.entry src).count = min 255 ((a.router.entry src).count + 1)) ∧
      ((∃ n r, CtrlRec.report src n r ∈ b.uplink.queue) ∨ b.router.pending src = true))

/-- Between two hubs an edge source did not fire: its detail is as it was, and so is its count where no report of it can be sent. -/
def quiet (src : Source) (a b : Hub) : Prop :=
  (b.router.entry src).detail = (a.router.entry src).detail ∧
    ((a.router.entry src).awaiting = true ∨ a.uplink.up = false → (b.router.entry src).count = (a.router.entry src).count)

/-- R187: between two hubs a level source changed from inactive to active. An unmasked entry that awaits has one more firing on its count;
with the uplink DOWN one that does not is pending with one more; otherwise it has a report in the control queue or is pending. -/
def activated (src : Source) (a b : Hub) : Prop :=
  (a.router.entry src).masked = false →
    ((a.router.entry src).awaiting = true → (b.router.entry src).count = min 255 ((a.router.entry src).count + 1)) ∧
      ((a.router.entry src).awaiting = false → a.uplink.up = false →
        b.router.pending src = true ∧ (b.router.entry src).count = min 255 ((a.router.entry src).count + 1)) ∧
      ((a.router.entry src).awaiting = false → (∃ n r, CtrlRec.report src n r ∈ b.uplink.queue) ∨ b.router.pending src = true)

/-- R186, R187: the router may offer a source's pending entry: it does not await, and a level source is still active. -/
def Hub.mayOffer (h : Hub) (src : Source) : Bool :=
  !(h.router.entry src).awaiting && (!src.isLevel || h.levelActive src)

/-- R186: a source's pending entry is to be cleared without a report: it does not await, and its level source is inactive. -/
def Hub.mayClear (h : Hub) (src : Source) : Bool := !(h.router.entry src).awaiting && src.isLevel && !h.levelActive src

/-- R176, R177, R186, R187, R190: from the first hub to the second the free places of the control queue were filled with credits, up to 4,
and with reports of the pending entries that may be offered, from the head of the pending order. Either all that wanted a place have one or
no place is left; which of a credit and a report takes a contested place is open (log 6). Each report is built from its entry, whose count
becomes 0 and which awaits if its tag is not 0. An entry that is to be cleared is cleared where it stands before one that was sent, and
where a place is left over; with no place free none is (log 45). The other entries are as they were, in their order. (The detail of an edge
report without a last detail is open, log 7.) -/
def placesFilled (a b : Hub) : Prop :=
  let free := 32 - a.uplink.queue.length - a.uplink.credits
  let wanted := 4 - a.uplink.credits
  let gone (src : Source) : Prop := b.router.pending src = false ∧ b.router.entry src = { a.router.entry src with count := 0 }
  ∃ sent left reports granted,
    a.router.order.filter a.mayOffer = sent ++ left ∧
      granted ≤ wanted ∧ sent.length + granted = min free ((sent ++ left).length + wanted) ∧
      b.uplink.credits = a.uplink.credits + granted ∧ b.uplink.queue = a.uplink.queue ++ reports ∧
      List.Forall₂ (fun src r => ∃ d, r = a.reportOf src (a.router.entry src).carried d ∧
        (src.isLevel = true ∨ (a.router.entry src).detail.isSome = true → d = a.detailOf src)) sent reports ∧
      (∀ src ∈ sent, b.router.pending src = false ∧
        b.router.entry src = { a.router.entry src with count := 0, awaiting := decide ((a.router.entry src).tag ≠ 0) }) ∧
      (∀ src ∈ a.router.order, a.mayClear src = true →
        gone src ∨ b.router.pending src = true ∧ b.router.entry src = a.router.entry src) ∧
      (∀ before src after, a.router.order = before ++ src :: after → src ∈ sent → ∀ x ∈ before, a.mayClear x = true → gone x) ∧
      (sent.length + granted < free → ∀ src ∈ a.router.order, a.mayClear src = true → gone src) ∧
      (free = 0 → b.router = a.router) ∧
      (∀ src, src ∉ sent → (src ∈ a.router.order → a.mayClear src = false) →
        b.router.pending src = a.router.pending src ∧ b.router.entry src = a.router.entry src) ∧
      b.router.order = a.router.order.filter b.router.pending

/-- R17, R194: the detail of LINK_CHANGE. -/
def linkFields (state : LinkState) (rate : Rate) (cause : LinkCause) : List Byte := w1 state.code ++ w1 rate.code ++ w1 cause.code

/-- R70, R194: the detail of LENS_DONE. -/
def lensFields (r : LensRecord) : List Byte :=
  w1 r.doneCause.code ++ wAxes r.moved ++
    r.axes.toList.flatMap (fun a => wOpt2 (a.bind (·.target)) ++ wOpt2 (a.bind (·.actual))) ++ w6 r.doneTime.toNat

/-- R169, R194: the detail of HUNT_DONE. -/
def huntFields (r : EchoResult) : List Byte :=
  w1 r.kind.code ++ w1 r.outcome.code ++
    (match r.finding with
      | some g => w2 g.distance ++ wPlace g.place ++ w2 g.magnitude ++ [if g.clipped then 1 else 0]
      | none => List.replicate 9 0) ++
    w1 r.averaging ++ w6 r.time.toNat

/-- An on/off or presence byte (R193). -/
def flagByte (b : Bool) : Byte := if b then 1 else 0

/-- R193: an optional field: presence byte 1 and the value's bytes, or presence byte 0 and `width` bytes 0. -/
def optionalField {α : Type} (width : Nat) (value : α → List Byte) : Option α → List Byte
  | some a => 1 :: value a
  | none => 0 :: List.replicate width 0

/-- R120: what STORE_STATUS carries. (A FILLING frame's four fields stand behind one presence byte: the model's choice, log 11.) -/
def storeFields (st : Store) : List Byte :=
  let inState (x : FrameState) : Nat := st.frames.countP (·.state == x)
  w2 (4096 - st.usedPages.length) ++ w2 st.lowMark ++ [flagByte (4096 - st.usedPages.length < st.lowMark)] ++
    w1 (24 - st.frames.length) ++ w1 (inState .filling) ++ w1 (inState .queued) ++ w1 (inState .sending) ++
    w2 st.tagCounter.toNat ++
    allPorts.flatMap fun p =>
      optionalField 7 (fun f : Frame => w2 f.tag.toNat ++ [flagByte f.exposedAt.isSome] ++ w2 f.received.length ++ w2 f.lines)
          (st.filling? p) ++
        w1 (st.frames.countP fun f => f.port == p && f.state == .queued) ++
        optionalField 2 (fun f : Frame => w2 f.tag.toNat) (st.frames.find? fun f => f.port == p && f.state == .sending) ++
        w2 (st.strays.get p) ++ w2 (st.duplicates.get p)

/-- R130: what DELIVERY_STATUS carries. (The next record's code, and the presence byte of the progress as the SENDING flag, are the model's
choice, log 11.) -/
def deliveryFields (h : Hub) : List Byte :=
  h.rotation.flatMap (fun p => w1 p.val) ++
    allPorts.flatMap fun p =>
      let d := h.delivery.get p
      [flagByte d.hold] ++ w1 d.fifo.length ++ optionalField 2 (fun t : FrameTag => w2 t.toNat) d.fifo.head? ++
        optionalField 7 (fun g : Progress =>
          w1 (match g.next with | .frameOpen => 0 | .line => 1 | .close => 2) ++ optionalField 2 w2 g.nextLine ++
            w2 g.linesSent ++ [flagByte g.abort]) d.progress ++
        w2 d.delivered ++ w2 d.aborted ++ w2 d.lost

/-- R184: what UPLINK_STATUS carries: the reply's own place is held, and the credit the command used is spent. -/
def uplinkFields (u : Uplink) : List Byte :=
  w2 u.linkUps ++ w2 u.noCredit ++ w2 u.badLength ++ w2 u.badCrc ++ w1 (u.queue.length + 1) ++ w1 (u.credits - 1) ++
    w1 (32 - u.queue.length - u.credits) ++ w1 (u.credits - 1)

/-- R144, R139: what ZONE_READ carries. -/
def zoneFields (m : ZoneMap) : List Byte :=
  w1 m.current.val ++ w4 m.setup.minLines ++ w4 m.setup.rateThreshold ++ w1 m.setup.dropThreshold ++
    m.bins.toList.flatMap fun b =>
      w4 b.lines ++ w4 b.bad ++ w2 b.drops ++ w4 (b.bad * 1000000 / b.lines) ++ [flagByte b.suspect.isSome] ++
        optionalField 1 (fun x : SuspectCause × CellTime => w1 x.1.code) b.suspect ++
        optionalField 6 (fun x : SuspectCause × CellTime => w6 x.2.toNat) b.suspect

/-- R162, R163: what ECHO_RESULT carries. (The code of the echo state and the presence bytes are the model's choice, log 11.) -/
def echoFields (e : Echo) (p : Port) (trace : Bool) : List Byte :=
  let last := (e.ports.get p).last
  let x := (e.ports.get p).settings
  w1 (if (e.samplingKind p).isSome then 2 else if (e.queuedKind p).isSome then 1 else 0) ++
    optionalField 1 (fun k : EchoKind => w1 k.code) ((e.queuedKind p).or (e.samplingKind p)) ++
    optionalField 1 (fun k : Nat => w1 (k + 1)) (e.queue.findIdx? (·.1 == p)) ++
    optionalField 27 (fun r : EchoResult =>
      w1 r.kind.code ++ w1 r.outcome.code ++ optionalField 1 (fun g : Finding => w1 g.crossing) r.finding ++
        optionalField 2 (fun g : Finding => w2 g.delay) r.finding ++
        optionalField 2 (fun g : Finding => w2 g.distance) r.finding ++
        optionalField 4 (fun g : Finding => wPlace g.place) r.finding ++
        optionalField 2 (fun g : Finding => w2 g.magnitude) r.finding ++
        optionalField 1 (fun g : Finding => [flagByte g.clipped]) r.finding ++ w1 r.averaging ++ w6 r.time.toNat) last ++
    w1 x.averaging ++ w1 x.blanking ++ w2 x.threshold ++ w2 x.velocity ++ w2 x.jointWindow ++
    if trace then optionalField 512 (fun t : Trace => t.toList.flatMap wInt) (last.bind (·.differences)) else []

/-- R80, R74, R75: a table as TABLE_READ carries it: the header and the 16 slots. -/
def tableFields (t : ShotTable) : List Byte :=
  w1 t.header.source.code ++ w2 t.header.pitch ++ w4 t.header.span ++
    t.slots.toList.flatMap fun r =>
      [flagByte r.enabled] ++ w1 r.port.val ++ w4 r.offset ++ w4 r.exposure ++ w2 r.guardTime ++ w2 r.window ++
        optionalField 1 (fun k : Fin 16 => w1 k.val) r.preset ++ w2 r.lines ++ w2 r.lineBytes

/-- R189: what ROUTE_READ carries. (The order of the entry's fields, and that only a level source's activity is sent, are the model's choice,
log 11.) -/
def routeFields (h : Hub) (src : Source) : List Byte :=
  let e := h.router.entry src
  [flagByte e.masked, e.tag, flagByte e.awaiting, flagByte (h.router.pending src)] ++ w1 e.count ++
    optionalField src.detailLength id e.detail ++ w1 (((h.router.order.findIdx? (· == src)).map (· + 1)).getD 0) ++
    if src.isLevel then [flagByte (h.levelActive src)] else []

/-- R69: what LENS_STATUS carries of a valid lens record. (That one presence byte stands before an axis's five fields, and 11 bytes 0 for an
absent axis, is the model's choice, log 11.) -/
def lensStatusFields (h : Hub) (p : Port) (r : LensRecord) : List Byte :=
  let l := h.lenses.get p
  [1] ++
    r.axes.toList.flatMap (optionalField 11 fun a : AxisRecord =>
      optionalField 2 w2 a.target ++ optionalField 2 w2 a.actual ++ w2 a.limits.lo ++ w2 a.limits.hi ++ [flagByte a.moving]) ++
    w1 r.moveState.code ++ wAxes r.moved ++ w1 r.progress ++ w2 (h.power.get p).heldSurge ++
    w1 (((h.deferred.findIdx? (· == p)).map (· + 1)).getD 0) ++ w1 r.doneCause.code ++ w6 r.doneTime.toNat ++
    w1 l.stack.length ++ [flagByte l.overflow] ++ w1 l.setup.tolerance ++ w1 l.setup.settleCount ++ w2 l.setup.moveTimeout

/-- R96: what CYCLE_STATUS carries, `header` and `next` being the bytes sent for the active header and for next-start. (The codes of cycle
state and stop request, and 0 for the cycle number of no outcome, are the model's choice, log 11.) -/
def cycleFields (h : Hub) (header next : List Byte) : List Byte :=
  let x := h.shot
  w1 (match x.cycle with | .stopped => 0 | .armed => 1 | .running => 2) ++ [flagByte x.stopAfter] ++ w4 x.number.toNat ++
    w6 x.startTime.toNat ++ [flagByte x.pending.isSome] ++ header ++ w2 x.missed ++ w4 h.time.position.toNat ++ next ++
    w2 h.time.illegal ++
    allSlots.flatMap fun i =>
      let y := x.stats.get i
      w2 y.fired ++ w2 y.late ++ w2 y.skipped ++ wOutcome (y.last.map (·.1)) ++
        w4 ((y.last.map fun o => o.2.toNat).getD 0) ++ optionalField 1 (fun z : SlotState => w1 z.code) (x.slotState i)

/-- R94, R107, R109, R116, R117: between two hubs the port's FILLING frame was closed, if it had one. An untriggered one is released. A
triggered one, which no slot in GUARD or OFFERED holds, has its close status and time, is QUEUED (or SENDING already) and joins the tail of
its port's delivery FIFO. No slot of the port stays in GUARD or OFFERED. -/
def fillingDropped (p : Port) (status : CloseStatus) (a b : Hub) : Prop :=
  (∀ f, a.store.filling? p = some f → f.exposedAt = none →
      (∀ g ∈ b.store.frames, g.tag ≠ f.tag) ∧ (b.delivery.get p).fifo = (a.delivery.get p).fifo) ∧
    (∀ f, a.store.filling? p = some f → f.exposedAt.isSome = true → (∀ x ∈ a.shot.flights, x.tag ≠ f.tag) →
      (b.delivery.get p).fifo = (a.delivery.get p).fifo ++ [f.tag] ∧
        ∃ g ∈ b.store.frames, g.state ∈ [.queued, .sending] ∧
          g = { f with
            state := g.state, window := none, closeStatus := some status, closeTime := some b.time.cellTime }) ∧
    (a.store.filling? p = none → (b.delivery.get p).fifo = (a.delivery.get p).fifo) ∧
    (∀ x ∈ b.shot.flights, x.port ≠ p)

/-- A word is on the port's cable or waits for it. -/
def Link.carries (l : Link) (w : DownWord) : Prop := w ∈ l.words ∨ ∃ c, l.cable = some c ∧ c.word = w

/-- The slots of a port in GUARD or OFFERED are its own: a TRIGGER at its link names no other port's slot, and a slot that opened in the
running cycle stands on the port in the active table. -/
def Hub.slotsOwn (h : Hub) (p : Port) : Prop :=
  (∀ t e, (h.links.get p).carries (.trigger t e) → ∀ x ∈ h.shot.flights, x.tag = t → x.port = p) ∧
    (∀ x ∈ h.shot.flights, x.port = p → x.cycle = h.shot.number → ∀ tb, h.shot.active = some tb → (tb.slots.get x.slot).port = p)

/-- R94, R95: between two hubs the slot of a port in GUARD or OFFERED, if there was one, ended SKIPPED: it is counted with its outcome and
cycle, its descriptor is released, and SLOT_SKIPPED fired. The other slots and counters are as they were. -/
def slotsSkipped (p : Port) (why : SkipReason) (a b : Hub) : Prop :=
  let mine : List Flight := a.shot.flights.filter (·.port == p)
  a.slotsOwn p →
    (mine = [] → b.shot = a.shot ∧ quiet (.ofHub .slotSkipped) a b) ∧
    (∀ f, mine = [f] →
      b.shot = { a.shot with
        flights := a.shot.flights.filter fun x => decide (x.tag ≠ f.tag)
        stats := vmod a.shot.stats f.slot fun y =>
          { y with skipped := min 65535 (y.skipped + 1), last := some (.skipped why, f.cycle) } } ∧
      (∀ g ∈ b.store.frames, g.tag ≠ f.tag) ∧
      fired (.ofHub .slotSkipped) (w1 f.slot.val ++ w1 p.val ++ w4 f.cycle.toNat ++ w1 why.code) a b)

/-- R92, R93: between two hubs a slot of a port in GUARD, if there was one, was told that its lens settled, stalled or was abandoned with
power ON and the link UP: it is OFFERED, not late, and its TRIGGER is at the port's link. The rest of the scheduler is as it was, and no
frame is newly flagged LENS_LATE. -/
def waitersTriggered (p : Port) (a b : Hub) : Prop :=
  let waiting : List Flight := a.shot.flights.filter fun x => x.port == p && x.stage != .offered
  b.shot = { a.shot with
    flights := a.shot.flights.map fun x =>
      if x.tag ∈ waiting.map (·.tag) then { x with stage := .offered, late := false } else x } ∧
    (waiting = [] → b.shot = a.shot) ∧
    (∀ f, waiting = [f] → (b.links.get p).carries (.trigger f.tag f.exposure)) ∧
    b.store.frames.map (fun g => (g.tag, g.lensLate)) = a.store.frames.map fun g => (g.tag, g.lensLate)

/-- R148, R149: the sampler has looked for a job, the locator being `e` before. An idle one takes the oldest queued job whose port is
discharged and reads the port's settings (averaging 16 for a LEARN), cable map and, for a HUNT or AUTO, baseline; the sums are 0 and the
first shot is due at once. -/
def looksForJob (e : Echo) (b : Hub) : Prop :=
  (e.sampler.isSome = true → b.echo = e) ∧
    (e.sampler = none → (∀ q ∈ e.queue, (b.power.get q.1).discharged = false) → b.echo = e) ∧
    (∀ before p k after, e.sampler = none → e.queue = before ++ (p, k) :: after →
      (∀ q ∈ before, (b.power.get q.1).discharged = false) → (b.power.get p).discharged = true → (∀ q ∈ after, q.1 ≠ p) →
      b.echo = { e with
        queue := before ++ after
        sampler := some
          { port := p, kind := k
            settings := { (e.ports.get p).settings with
              averaging := if k = .learn then 16 else (e.ports.get p).settings.averaging }
            map := (e.ports.get p).map, baseline := if k = .learn then none else (e.ports.get p).baseline
            shots := 0, sums := Vector.replicate 256 0, due := 0 } })

/-- The reply record of a command: kind 0x01, the command's port and tag, then its kind, a status code and data (R192, R194). -/
def replyOf (kind : Nat) (c : Cmd) (status : Nat) (data : List Byte) : CtrlRec :=
  .reply ⟨0x01, c.port, c.tag, [BitVec.ofNat 8 kind, BitVec.ofNat 8 status] ++ data⟩

/-- The command answers a next state whose hub is `h` but for the reply's own effects, with the waiting commands as they were, and its
reply stands in the control queue right behind the records that stood there. -/
def completes (i : Instr) (s : State) (h : Hub) (kind : Nat) (c : Cmd) (status : Nat) (data : List Byte) : Prop :=
  ∃ t, exec i s = .next t ∧ t.pending = s.pending ∧ h.repliedTo t.toHub ∧
    s.uplink.queue ++ [replyOf kind c status data] <+: t.uplink.queue

/-- The event answers a next state whose hub is `h` but for what the end of a step brings (DEDUCED, log 8). -/
def happens (i : Instr) (s : State) (h : Hub) : Prop :=
  ∃ t, exec i s = .next t ∧ t.pending = s.pending ∧ h.settledTo t.toHub

/-- The command or event answers the same state: it is not taken, or cannot occur in the state (DESIGN CHOICE, log 28). -/
def ignored (i : Instr) (s : State) : Prop := exec i s = .next s

/-! ## Laws of the state -/

/-- The frame-store DRAM is in canonical form (DESIGN CHOICE, log 14). -/
def State.memoryKept (s : State) : Prop := Memory.wf s.store.dram

/-- R35: the reserved sum never exceeds the cell budget. -/
def State.budgetKept (s : State) : Prop := s.reservedSum ≤ s.budget

/-- R176, R177: places held and reserved are at most 32, and at most 4 credits are outstanding. -/
def State.placesKept (s : State) : Prop :=
  s.uplink.queue.length + s.uplink.credits ≤ Config.queuePlaces ∧ s.uplink.credits ≤ Config.maxCredits

/-- R124: the rotation order is a list of the six ports, each once. -/
def State.rotationKept (s : State) : Prop := s.rotation.Perm allPorts

/-- R137: in every zone bin the bad count never exceeds the lines count. -/
def State.binsKept (s : State) : Prop := ∀ (p : Port) (z : Zone), ((s.zones.get p).bins.get z).bad ≤ ((s.zones.get p).bins.get z).lines

/-- R1: while a port's power is in any state but ON its link is DOWN. -/
def State.linksKept (s : State) : Prop := ∀ p : Port, (s.power.get p).state ≠ .on → (s.links.get p).state = .down

/-- R100, R101, R103: no page is reserved twice, pages are numbered 0 to 4095, at most 24 descriptors are in use, and their tags are
unique. -/
def State.pagesKept (s : State) : Prop :=
  s.store.usedPages.Nodup ∧ (∀ n ∈ s.store.usedPages, n < Config.pageCount) ∧
    s.store.frames.length ≤ Config.descriptorCount ∧ (s.store.frames.map (·.tag)).Nodup

/-- R101: each port has at most one frame FILLING. -/
def State.fillingKept (s : State) : Prop := ∀ p : Port, s.store.portCountIn p .filling ≤ 1

/-- R102, R110, R125: every frame's received lines stand in strictly ascending order of line number, each below the expected lines. -/
def State.receivedKept (s : State) : Prop :=
  ∀ f ∈ s.store.frames, (f.received.map (·.1)).Pairwise (· < ·) ∧ ∀ q ∈ f.received, q.1 < f.lines

/-- R30, R22: a port that is discharged, or whose discharge timer runs, has its switch open. -/
def State.dischargeKept (s : State) : Prop :=
  ∀ p : Port, ((s.power.get p).discharged ∨ (s.power.get p).dischargeTimer.isSome) → (s.power.get p).switchClosed = false

/-- R147: the port of every job, the sampler's first. -/
def Echo.jobPorts (e : Echo) : List Port := (e.sampler.map (·.port)).toList ++ e.queue.map (·.1)

/-- The power states in which a job of a kind may stand (R154, R164, R33, R38). -/
def EchoKind.stateOk : EchoKind → PowerState → Bool
  | .learn, x => x == .off || x == .lockedOut
  | .hunt, x => x == .hunt
  | .auto, x => x == .off || x == .cooldown || x == .lockedOut

/-- R147, R148: at most one job per port; while a port has a job its power state is one in which its switch is open; the port the sampler
works on is discharged. -/
def State.echoKept (s : State) : Prop :=
  s.dischargeKept ∧ s.echo.jobPorts.Nodup ∧
    (∀ q ∈ s.echo.queue, q.2.stateOk (s.power.get q.1).state) ∧
    (∀ j ∈ s.echo.sampler, j.kind.stateOk (s.power.get j.port).state ∧ (s.power.get j.port).discharged)

/-- R177 to R179: what the transmitter, the control queue and the credits are in each state of the uplink. -/
def State.transmitterKept (s : State) : Prop :=
  (s.uplink.up = false → s.uplink.queue = [] ∧ s.uplink.credits = 0 ∧ s.uplink.tx = none) ∧
    (s.uplink.up = true → s.uplink.tx = none → s.uplink.queue = []) ∧
    (s.uplink.tx = some .control → s.uplink.queue ≠ [])

/-- R177: while the uplink is UP, no fewer than 4 credits are outstanding unless no place is free. -/
def State.creditsKept (s : State) : Prop :=
  s.uplink.up = true → Config.maxCredits ≤ s.uplink.credits ∨ Config.queuePlaces ≤ s.uplink.queue.length + s.uplink.credits

/-- R187, R189: a pending entry stands once in the pending order and is not masked. -/
def State.pendingKept (s : State) : Prop := s.router.order.Nodup ∧ ∀ src ∈ s.router.order, (s.router.entry src).masked = false

/-- R176, R178, R186: while the uplink is UP and a place is free, no pending entry may be offered. -/
def State.offersKept (s : State) : Prop :=
  s.uplink.up = true → s.uplink.queue.length + s.uplink.credits < 32 → ∀ src ∈ s.router.order, s.mayOffer src = false

/-- R94, R105, R107, R122 to R132: each port's delivery FIFO lists frames of the port that are in the store, closed and exposed, each once;
the frame of a slot in GUARD or OFFERED is not exposed, and a frame whose window runs is. -/
def State.deliveryKept (s : State) : Prop :=
  (∀ p : Port, (s.delivery.get p).fifo.Nodup ∧ ∀ tag ∈ (s.delivery.get p).fifo,
    ∃ f ∈ s.store.frames, f.tag = tag ∧ f.port = p ∧ f.state ≠ .filling ∧ f.exposedAt.isSome = true) ∧
    (∀ x ∈ s.shot.flights, ∀ f ∈ s.store.frames, f.tag = x.tag → f.exposedAt = none) ∧
    (∀ f ∈ s.store.frames, f.window.isSome = true → f.exposedAt.isSome = true)

/-- R124, R178: while the uplink is UP and the transmitter is free, no port is eligible: its FIFO is empty or its hold flag is set. -/
def State.grantsKept (s : State) : Prop :=
  s.uplink.up = true → s.uplink.tx = none → ∀ p : Port, (s.delivery.get p).fifo = [] ∨ (s.delivery.get p).hold = true

/-- R94, R88, R92: a slot in GUARD or OFFERED has its port's link UP. -/
def State.slotsKept (s : State) : Prop := ∀ f ∈ s.shot.flights, (s.links.get f.port).state = .up

/-- R3, R4: while a port's link is in any state but UP, no TRIGGER waits in its outgoing word list. -/
def State.triggersKept (s : State) : Prop :=
  ∀ p : Port, (s.links.get p).state ≠ .up → ∀ w ∈ (s.links.get p).words, w.triggerTag? = none

/-! ## What an issued lens move and a start do -/

/-- R49, R51: the axes once the supplied targets of present axes are written, each clamped to its axis's travel limits. -/
def axesWritten (axes : PerAxis (Option AxisRecord)) (t : Targets) : PerAxis (Option AxisRecord) :=
  axes.zip
    (fun a v => a.map fun x => { x with target := (v.map fun n => min x.limits.hi (max x.limits.lo n)).or x.target }) t

/-- R49: a supplied target of a present axis lies outside its travel limits. -/
def targetOutside (axes : PerAxis (Option AxisRecord)) (t : Targets) : Bool :=
  (axes.zip (fun a v => (a.bind fun x => v.map fun n => min x.limits.hi (max x.limits.lo n) != n).getD false) t).any

/-- R51: the axes a move to the supplied targets asks to move: those present. -/
def axesAsked (axes : PerAxis (Option AxisRecord)) (t : Targets) : PerAxis Bool :=
  axes.zip (fun a v => a.isSome && v.isSome) t

/-- The targets of present axes. -/
def targetsOf (axes : PerAxis (Option AxisRecord)) : Targets := axes.map fun a => a.bind (·.target)

/-- R59: a lens record whose move was abandoned: IDLE, no moved axes, settle progress 0, the timeout stopped, and the target of each axis
with an actual set to that actual, clamped to the travel limits. Limits, actuals, moving flags, the targets of the other axes, and last done
cause and time are as they were. -/
def abandonedRecord (r : LensRecord) : LensRecord where
  axes := r.axes.map fun a => a.map fun x =>
    { x with target := (x.actual.map fun n => min x.limits.hi (max x.limits.lo n)).or x.target }
  moveState := .idle
  moved := ⟨false, false, false⟩
  progress := 0
  doneCause := r.doneCause
  doneTime := r.doneTime
  timeout := none

/-- R59, R60: between two hubs a port's lens move was abandoned; its presets, stack, overflow flag and setup are kept. -/
def moveAbandoned (p : Port) (a b : Hub) : Prop :=
  b.lenses.get p = { a.lenses.get p with record := (a.lenses.get p).record.map abandonedRecord }

/-- R91: the targets of the lens move that is issued at port `p` as its slot in GUARD or OFFERED goes to DONE: the preset of the port's next
slot, if the slot is of the running cycle and such a slot names one. -/
def Hub.followingTargets (h : Hub) (p : Port) (x : Flight) : Targets :=
  let preset := (h.shot.active.bind fun tb => (tb.nextOn x.slot).bind fun j => (tb.slots.get j).preset)
  if h.shot.cycle = .running ∧ h.shot.number = x.cycle then (preset.map (h.lenses.get p).presets.get).getD ⟨none, none, none⟩
  else ⟨none, none, none⟩

/-- R36: a surge for the port's lens move would be admitted. -/
def Hub.surgeAdmitted (h : Hub) (p : Port) : Prop :=
  (h.power.get p).state = .on ∧
    ((h.power.get p).setup.surge = 0 ∨ h.reservedSum + (h.power.get p).setup.surge ≤ h.budget)

/-- R52, R55: between two hubs a deferred entry was admitted: it leaves the list, the surge is held, the move state is MOVING with a fresh
timeout, and a LENS_MOVE word is offered. -/
def entryAdmitted (p : Port) (a b : Hub) : Prop :=
  a.onlyIn [.links, .power, .lenses, .deferred] b ∧
    (∀ q, q ≠ p → b.links.get q = a.links.get q ∧ b.power.get q = a.power.get q ∧ b.lenses.get q = a.lenses.get q) ∧
    b.deferred = a.deferred.filter (· != p) ∧
    b.power.get p = { a.power.get p with heldSurge := (a.power.get p).setup.surge } ∧
    b.lenses.get p =
      { a.lenses.get p with
        record := (a.lenses.get p).record.map fun r =>
          { r with moveState := .moving, progress := 0, timeout := some ((a.lenses.get p).setup.moveTimeout * 1000) } } ∧
    b.links.get p = { a.links.get p with words := (b.links.get p).words, cable := (b.links.get p).cable } ∧
    (∀ r, (a.lenses.get p).record = some r → (a.links.get p).state ∈ [.up, .relock] →
      (b.links.get p).carries (.lensMove (targetsOf r.axes)))

/-- R55: one serving of a deferred move list: each entry from the head whose surge is admitted is admitted; the first whose surge is not
ends the serving. -/
def served : List Port → Hub → Hub → Prop
  | [], a, b => b = a
  | p :: rest, a, b =>
    (¬ a.surgeAdmitted p → b = a) ∧ (a.surgeAdmitted p → ∃ m, entryAdmitted p a m ∧ served rest m b)

/-- R35: a fall of the reserved sum, from the first hub to the second, prompts one serving (log 35); else nothing follows. -/
def servedIfLess (a b c : Hub) : Prop :=
  (b.reservedSum < a.reservedSum → served b.deferred b c) ∧ (a.reservedSum ≤ b.reservedSum → c = b)

/-- R35, R55: between two hubs a port gave up what it held of the budget, its claim or its surge, and its place on the deferred move list if
it had one; `waiting` is the list left. If the reserved sum fell, that prompted one serving (log 35). The other ports' links, power and lens
records, and the list, are as the serving left them. -/
def portFreed (p : Port) (waiting : List Port) (a b : Hub) : Prop :=
  let freed : Hub := { a with
    links := a.links.set p (b.links.get p), power := a.power.set p (b.power.get p), lenses := a.lenses.set p (b.lenses.get p)
    deferred := waiting }
  ∃ m, servedIfLess a freed m ∧ b.links = m.links ∧ b.power = m.power ∧ b.lenses = m.lenses ∧ b.deferred = m.deferred

/-- R49, R51 to R53: between two hubs a lens move to targets `t` was issued at a port whose lens record is `r`. -/
def moveIssued (p : Port) (r : LensRecord) (t : Targets) (a b : Hub) : Prop :=
  a.onlyIn [.links, .power, .lenses, .deferred] b ∧
    (∀ q, q ≠ p → b.links.get q = a.links.get q ∧ b.power.get q = a.power.get q ∧ b.lenses.get q = a.lenses.get q) ∧
    (b.links.get p).state = (a.links.get p).state ∧
    b.power.get p = { a.power.get p with heldSurge := (b.power.get p).heldSurge } ∧
    (b.lenses.get p) = { a.lenses.get p with record := (b.lenses.get p).record } ∧
    ∃ x, (b.lenses.get p).record = some x ∧ x.axes = axesWritten r.axes t ∧
      (x.moveState = .moving → (b.links.get p).carries (.lensMove (targetsOf x.axes)) ∧
        x.progress = 0 ∧ x.timeout = some ((a.lenses.get p).setup.moveTimeout * 1000)) ∧
      (r.moveState = .moving → x.moveState = .moving ∧ x.moved = r.moved.zip (· || ·) (axesAsked r.axes t) ∧
        (b.power.get p).heldSurge = (a.power.get p).heldSurge ∧ b.deferred = a.deferred) ∧
      (r.moveState = .deferred → x.moveState = .deferred ∧ x.moved = r.moved.zip (· || ·) (axesAsked r.axes t) ∧
        b.links = a.links ∧ b.power = a.power ∧ b.deferred = a.deferred) ∧
      (r.moveState ∉ [.moving, .deferred] → x.moved = axesAsked r.axes t ∧ x.progress = 0 ∧
        (a.surgeAdmitted p → x.moveState = .moving ∧ (b.power.get p).heldSurge = (a.power.get p).setup.surge ∧
          b.deferred = a.deferred) ∧
        (¬ a.surgeAdmitted p → x.moveState = .deferred ∧ b.links = a.links ∧ b.power = a.power ∧
          b.deferred = a.deferred ++ [p]))

/-- R91, R51: between two hubs the lens move of a slot was issued to its preset. A slot without a preset, a port without a lens record or
with its link neither UP nor RELOCK, and a preset that names no present axis change nothing. -/
def slotMoveIssued (r : SlotRecord) (a b : Hub) : Prop :=
  let link := (a.links.get r.port).state
  let target (k : Fin 16) : Targets := (a.lenses.get r.port).presets.get k
  (r.preset = none ∨ (a.lenses.get r.port).record = none ∨ link ∉ [.up, .relock] → b = a) ∧
    (∀ k x, r.preset = some k → (a.lenses.get r.port).record = some x →
      ((axesAsked x.axes (target k)).any = false → b = a) ∧
      (link ∈ [.up, .relock] → (axesAsked x.axes (target k)).any = true → moveIssued r.port x (target k) a b))

/-- R91: an enabled slot is the first of its port in run order: by offset, then by index (R77). -/
def ShotTable.startsPort (tb : ShotTable) (i : SlotIx) : Prop :=
  (tb.slots.get i).enabled = true ∧
    ∀ j, (tb.slots.get j).enabled = true → (tb.slots.get j).port = (tb.slots.get i).port →
      (tb.slots.get i).offset < (tb.slots.get j).offset ∨ (tb.slots.get i).offset = (tb.slots.get j).offset ∧ i ≤ j

/-- R85, step 6: between two hubs the moves of the first slots of the ports listed were issued, in the list's order (log 38). -/
def firstMovesIssued (tb : ShotTable) : List Port → Hub → Hub → Prop
  | [], a, b => b = a
  | p :: rest, a, b => ∃ m,
    (∀ i, (tb.slots.get i).port = p → tb.startsPort i → slotMoveIssued (tb.slots.get i) a m) ∧
      ((∀ i, (tb.slots.get i).enabled = true → (tb.slots.get i).port ≠ p) → m = a) ∧ firstMovesIssued tb rest m b

/-- R90 to R95, R100, R103 to R105: between two hubs a slot of the running cycle's table opened. The four checks run in order. The first
that fails skips the slot: it is counted, SLOT_SKIPPED fires, and the next same-port slot's lens move is issued. A slot that passes gets
a FILLING frame with its tag and its pages, and a flight: GUARD when it names a preset and the lens is DEFERRED or MOVING, else OFFERED with
its TRIGGER at the link unit (a guard of 0 expires within the opening, log 18); STORE_LOW may become active by it (R118). -/
def slotOpened (tb : ShotTable) (i : SlotIx) (a b : Hub) : Prop :=
  let r := tb.slots.get i
  let power := (a.power.get r.port).state
  let link := (a.links.get r.port).state
  let busy := ∃ f ∈ a.store.frames, f.port = r.port ∧ f.state = .filling
  let pages := (r.lines * r.lineBytes + 65535) / 65536
  let full := 24 ≤ a.store.frames.length ∨ a.store.freePages < pages
  let waits := r.preset.isSome ∧ (a.lenses.get r.port).moveState ∈ [.deferred, .moving]
  let skipped (why : SkipReason) : Prop :=
    a.onlyIn [.links, .power, .lenses, .deferred, .shot, .router, .uplink, .draws] b ∧
      b.shot = { a.shot with
        opening := a.shot.opening.set i none
        stats := vmod a.shot.stats i fun x =>
          { x with skipped := min 65535 (x.skipped + 1), last := some (.skipped why, a.shot.number) } } ∧
      (tb.nextOn i = none → b.links = a.links ∧ b.power = a.power ∧ b.lenses = a.lenses ∧ b.deferred = a.deferred) ∧
      (∀ j, tb.nextOn i = some j → ∃ u, slotMoveIssued (tb.slots.get j) a u ∧
        b.links = u.links ∧ b.power = u.power ∧ b.lenses = u.lenses ∧ b.deferred = u.deferred) ∧
      fired (.ofHub .slotSkipped) (w1 i.val ++ w1 r.port.val ++ w4 a.shot.number.toNat ++ w1 why.code) a b
  (power ≠ .on → skipped (if power = .hunt then .hunt else .power)) ∧
    (power = .on → link ≠ .up → skipped .link) ∧
    (power = .on → link = .up → busy → skipped .portBusy) ∧
    (power = .on → link = .up → ¬ busy → full → skipped .store) ∧
    (power = .on → link = .up → ¬ busy → ¬ full → ∃ f : Frame,
      a.onlyIn [.links, .shot, .store, .router, .uplink, .draws] b ∧
        b.shot = { a.shot with
          opening := a.shot.opening.set i none
          flights :=
            let new : Flight :=
              { slot := i, port := r.port, tag := f.tag, cycle := a.shot.number, exposure := r.exposure, late := false
                stage := .waiting r.guardTime }
            (a.shot.flights ++ [new]).map fun x =>
              if ¬ (waits ∧ r.guardTime ≠ 0) ∧ x.tag = f.tag then { x with stage := .offered, late := decide waits } else x } ∧
        b.store = { a.store with
          frames := a.store.frames ++ [f], tagCounter := f.tag + 1 } ∧ (∀ g ∈ a.store.frames, g.tag ≠ f.tag) ∧
        ((∀ g ∈ a.store.frames, g.tag ≠ a.store.tagCounter) → f.tag = a.store.tagCounter) ∧
        f = { tag := f.tag, port := r.port, slot := i, cycle := a.shot.number, lines := r.lines, lineBytes := r.lineBytes
              pages := f.pages, windowMs := r.window, lensLate := decide (waits ∧ r.guardTime = 0) } ∧
        (a.levelActive (.ofHub .storeLow) = false → b.levelActive (.ofHub .storeLow) = true → activated (.ofHub .storeLow) a b) ∧
        (a.levelActive (.ofHub .storeLow) = b.levelActive (.ofHub .storeLow) → b.router = a.router ∧ b.uplink = a.uplink) ∧
        f.pages.length = pages ∧ (∀ n ∈ f.pages, n < 4096 ∧ n ∉ a.store.usedPages) ∧ f.pages.Nodup ∧
        (waits ∧ r.guardTime ≠ 0 → b.links = a.links) ∧
        (¬ (waits ∧ r.guardTime ≠ 0) → (b.links.get r.port).carries (.trigger f.tag r.exposure) ∧
          (b.links.get r.port).state = .up) ∧
        (∀ q, q ≠ r.port → b.links.get q = a.links.get q))

/-- R85, step 7: between two hubs the slots listed opened, in the list's order. -/
def slotsOpened (tb : ShotTable) : List SlotIx → Hub → Hub → Prop
  | [], a, b => b = a
  | i :: rest, a, b => ∃ m, slotOpened tb i a m ∧ slotsOpened tb rest m b

/-- R85: between two hubs a start began a cycle of table `tb`: steps 1 to 5, the first slots' lens moves, and the openings of the slots at
offset 0, in run order, which among equal offsets is the order of the indices. What the end of a step brings follows (log 8). -/
def cycleBegun (tb : ShotTable) (a b : Hub) : Prop :=
  b.shot.cycle = .running ∧ b.shot.number = a.shot.number + 1 ∧ b.shot.startTime = a.time.cellTime ∧
    b.shot.span = some tb.header.span ∧ b.shot.active = some tb ∧ b.shot.staged = a.shot.staged ∧
    b.shot.missed = a.shot.missed ∧
    (∀ i, (tb.slots.get i).enabled = true → (tb.slots.get i).offset ≠ 0 →
      b.shot.opening.get i = some (tb.slots.get i).offset) ∧
    (∀ i, (tb.slots.get i).enabled = false ∨ (tb.slots.get i).offset = 0 → b.shot.opening.get i = none) ∧
    (∀ q, (b.links.get q).state = (a.links.get q).state ∧ (b.power.get q).state = (a.power.get q).state) ∧
    b.store.dram = a.store.dram ∧ b.zones = a.zones ∧
    ∃ u v, firstMovesIssued tb allPorts a u ∧
      slotsOpened tb (allSlots.filter fun i => (tb.slots.get i).enabled && (tb.slots.get i).offset == 0)
        { u with
          shot := { a.shot with
            cycle := .running, number := a.shot.number + 1, startTime := a.time.cellTime, span := some tb.header.span
            opening := vtab fun i => if (tb.slots.get i).enabled then some (tb.slots.get i).offset else none
            exposureEnds := Vector.replicate 16 none } } v ∧ v.settledTo b

/-- R86: between two hubs a start was missed: only the missed-starts count went up, and CYCLE_OVERRUN fired. -/
def startMissed (kind : StartSource) (a b : Hub) : Prop :=
  b.shot = { a.shot with missed := min 65535 (a.shot.missed + 1) } ∧
    fired (.ofHub .cycleOverrun)
      (w1 kind.code ++ w4 a.shot.number.toNat ++ w2 (min 65535 (a.shot.missed + 1)) ++ w4 a.time.position.toNat) a b

end Sys2Proof.Machine
end

