-- ==== Sys2Proof/WellFormed.lean ====
section
/-! DEFINITION. When a command is one that the row of the opcode table it stands for means: checks on the command alone. -/

namespace Sys2Proof

/-- A command record's payload is at most 16,448 bytes (R171, R192). -/
def Cmd.wf (c : Cmd) : Bool := c.payload.length ≤ Config.maxPayload

/-- The bytes of a whole record hold at least the six bytes of its header (R192). -/
def rawWf (raw : List Byte) : Bool := 6 ≤ raw.length

/-- A LINE word states its payload's length in two bytes (R196). -/
def LineWord.wf (w : LineWord) : Bool := w.payload.length ≤ 65535

/-- The check of each command. -/
def Instr.wf : Instr → Bool
  | .linkRetrain c | .linkSetup c | .portInfo c | .portReset c | .powerOn c | .powerOff c | .powerSetup c
  | .budgetSet c | .powerStatus c | .presetWrite c | .presetRead c | .presetGo c | .lensPush c | .lensPop c
  | .lensMove c | .lensSetup c | .lensStatus c | .slotWrite c | .tableHeader c | .tableCommit c | .tableRead c
  | .cycleRun c | .cycleFire c | .cycleStop c | .cycleStatus c | .timeSet c | .timeRead c | .storeSetup c
  | .storeStatus c | .imageHold c | .imageResume c | .deliveryStatus c | .pose c | .zoneSetup c | .zoneRead c
  | .zoneClear c | .echoSetup c | .cableMapWrite c | .cableMapRead c | .baselineLearn c | .baselineWrite c
  | .baselineRead c | .echoResult c | .hunt c | .hubReset c | .identify c | .uplinkStatus c | .routeSet c
  | .routeRead c | .eventAck c => c.wf
  -- a kind that is a command kind makes another command of the record (R172)
  | .badKindRecord kind c => !isCommandKind kind.toNat && c.wf
  | .recordDiscard raw => rawWf raw
  | .lineWord _ w => w.wf
  -- bytes that decode make another word (R196)
  | .undecodableWord _ raw => (decodeUpWord raw).isNone
  | .pinReset | .uplinkUp | .uplinkDown | .controlRecordSent | .imageRecordSent | .encoderEdge _ _
  | .triggerLineEdge | .currentSample _ _ | .inrushExpire _ | .cooldownExpire _ | .onTimerExpire _
  | .dischargeExpire _ | .lockGained _ | .lockLost _ | .acquireTimeout _ | .relockExpire _ | .helloWord _ _
  | .eofWord _ _ | .lensStatusWord _ _ | .downstreamWordEnd _ | .moveTimeout _ | .spanExpire | .slotOpen _
  | .guardExpire _ | .exposureEnd _ | .frameWindowExpire _ | .echoShot _ | .echoJobComplete => true

end Sys2Proof
end

