-- ==== Sys2Proof/Certificates/Slice0/Obligations.lean ====
section
/-! DEFINITION. The statements for the provers: the machine, laws every step keeps, then the commands and events chapter by chapter. -/

open Sys2Proof Sys2Proof.Machine

/-! ## The machine -/

/-- Step of a state with a command at the front of its queue is the command's meaning on the state with the queue's rest. -/
def Obligations.StepRunsFrontCommand : Prop :=
  ∀ (i : Instr) (s : State), step { s with pending := i :: s.pending } = exec i s

/-- The model's choice (log 1): with no command waiting a step lets 1 µs pass. Cell time goes up by 1 (R97), each running timer has 1 µs
less, down to 0, and every other field of every block is as it was. -/
def Obligations.IdleStepPassesOneMicrosecond : Prop :=
  ∀ s : State, s.pending = [] → step s = .next { s with
    time := { s.time with cellTime := s.time.cellTime + 1 }
    links := s.links.map fun l =>
      { l with
        acquireTimer := l.acquireTimer.map (· - 1), relockWindow := l.relockWindow.map (· - 1)
        cable := l.cable.map fun w => { w with left := w.left - 1 } }
    power := s.power.map fun w =>
      { w with
        inrushTimer := w.inrushTimer.map (· - 1), cooldownTimer := w.cooldownTimer.map (· - 1)
        onTimer := w.onTimer.map (· - 1), dischargeTimer := w.dischargeTimer.map (· - 1) }
    lenses := s.lenses.map fun l => { l with record := l.record.map fun r => { r with timeout := r.timeout.map (· - 1) } }
    shot :=
      { s.shot with
        span := s.shot.span.map (· - 1)
        opening := vmap (fun t => t.map (· - 1)) s.shot.opening
        exposureEnds := vmap (fun t => t.map (· - 1)) s.shot.exposureEnds
        flights := s.shot.flights.map fun f =>
          { f with
            stage := match f.stage with
              | .waiting left => .waiting (left - 1)
              | .offered => .offered } }
    store := { s.store with frames := s.store.frames.map fun f => { f with window := f.window.map (· - 1) } }
    echo := { s.echo with sampler := s.echo.sampler.map fun j => { j with due := j.due - 1 } } }

/-- Every command answers a next state, whatever the state, and leaves the waiting commands as they were. (A refused command is answered
with a status, R173; that an event that cannot occur changes nothing is the model's choice, log 28.) -/
def Obligations.EveryCommandAnswersNext : Prop :=
  ∀ (i : Instr) (s : State), ∃ t, exec i s = .next t ∧ t.pending = s.pending

/-! ## Laws that every step keeps -/

/-- The frame-store DRAM stays in canonical form (log 14). -/
def Obligations.StepKeepsMemoryCanonical : Prop :=
  ∀ s t : State, s.memoryKept → step s = .next t → t.memoryKept

/-- R35: the reserved sum never exceeds the cell budget. -/
def Obligations.StepKeepsReservedSumWithinBudget : Prop :=
  ∀ s t : State, s.budgetKept → step s = .next t → t.budgetKept

/-- R176 to R179: held and reserved places are at most 32 and at most 4 credits are outstanding; while the uplink is UP no fewer than 4
credits are outstanding unless no place is free; the transmitter sends only while the uplink is UP and is never free while UP with a
control record waiting, and with the uplink DOWN no record is held and no credit is outstanding. R186, R187: while UP with a place free no
pending entry may be offered; a pending entry is unmasked and stands once in the pending order. R124, R178: while UP with the transmitter
free no port is eligible. (That places are filled and the transmitter chooses within the step is DEDUCED, log 8.) -/
def Obligations.StepKeepsUplinkLaws : Prop :=
  ∀ s t : State, step s = .next t →
    (s.placesKept → t.placesKept) ∧ (s.creditsKept → t.creditsKept) ∧ (s.transmitterKept → t.transmitterKept) ∧
    (s.offersKept → t.offersKept) ∧ (s.pendingKept → t.pendingKept) ∧
    (s.rotationKept → s.pagesKept → s.deliveryKept → s.grantsKept → t.grantsKept)

/-- R124: the rotation order stays a list of the six ports, each once. -/
def Obligations.StepKeepsRotation : Prop :=
  ∀ s t : State, s.rotationKept → step s = .next t → t.rotationKept

/-- R137: in every zone bin, the bad count never exceeds the lines count. -/
def Obligations.StepKeepsBadWithinLines : Prop :=
  ∀ s t : State, s.binsKept → step s = .next t → t.binsKept

/-- R1: while a port's power is in any state but ON, its link is DOWN. -/
def Obligations.StepKeepsUnpoweredLinksDown : Prop :=
  ∀ s t : State, s.linksKept → step s = .next t → t.linksKept

/-- R100, R101, R103: no page is reserved twice, at most 24 descriptors are in use, and their tags are unique; each port has at most one
frame FILLING. R94, R107: the delivery FIFOs list closed and exposed frames of their port, each once, and the frame of a slot in GUARD or
OFFERED is not exposed; a frame whose window runs is. R102, R110, R125: the received lines of a frame stand in strictly ascending order,
each below the expected lines. -/
def Obligations.StepKeepsStorePages : Prop :=
  ∀ s t : State, step s = .next t → (s.pagesKept → t.pagesKept) ∧ (s.fillingKept → t.fillingKept) ∧
    (s.pagesKept → s.deliveryKept → t.deliveryKept) ∧ (s.pagesKept → s.receivedKept → t.receivedKept)

/-- R88, R92, R94: a slot in GUARD or OFFERED has its port's link UP. (That a port whose power is not ON has its link DOWN is the law
above.) R3, R4: so no TRIGGER waits at a link that is not UP. -/
def Obligations.StepKeepsSlotsOnUpLinks : Prop :=
  ∀ s t : State, s.linksKept → s.slotsKept → step s = .next t → t.slotsKept ∧ (s.triggersKept → t.triggersKept)

/-- R147, R148: at most one job per port; a port with a job has its switch open; the sampler works on a discharged port. -/
def Obligations.StepKeepsEchoPortsOpen : Prop :=
  ∀ s t : State, s.echoKept → step s = .next t → t.echoKept

/-- The laws above hold right after reset. -/
def Obligations.ResetMeetsLaws : Prop :=
  State.reset.memoryKept ∧ State.reset.budgetKept ∧ State.reset.placesKept ∧ State.reset.rotationKept ∧
    State.reset.binsKept ∧ State.reset.linksKept ∧ State.reset.pagesKept ∧ State.reset.fillingKept ∧
    State.reset.slotsKept ∧ State.reset.echoKept ∧ State.reset.transmitterKept ∧ State.reset.creditsKept ∧
    State.reset.offersKept ∧ State.reset.pendingKept ∧ State.reset.deliveryKept ∧ State.reset.grantsKept ∧
    State.reset.receivedKept ∧ State.reset.triggersKept

/-- Settings change only by the commands that write them: the cell budget by BUDGET_SET, a port's power setup by POWER_SETUP, its fallback
threshold by LINK_SETUP, its presets by PRESET_WRITE, its lens setup by LENS_SETUP, its zone setup by ZONE_SETUP and its current zone by
POSE, its echo settings by ECHO_SETUP and its cable map by CABLE_MAP_WRITE, the low mark by STORE_SETUP, the staged table by SLOT_WRITE,
TABLE_HEADER and HUB_RESET, the masks and tags of the routing entries by ROUTE_SET and HUB_RESET, and all of them by PIN_RESET (R19, R39,
R40, R62, R68, R76, R77, R98, R119, R134, R143, R151, R152, R181, R189, R190). -/
def Obligations.SettingsChangeOnlyByTheirCommands : Prop :=
  ∀ (i : Instr) (s t : State), exec i s = .next t → i ≠ .pinReset →
    (∀ c, i ≠ .recordDiscard c) → (∀ k c, i ≠ .badKindRecord k c) →
    ((∀ c, i ≠ .budgetSet c) → t.budget = s.budget) ∧
    ((∀ c, i ≠ .powerSetup c) → ∀ p, (t.power.get p).setup = (s.power.get p).setup) ∧
    ((∀ c, i ≠ .linkSetup c) → ∀ p, (t.links.get p).threshold = (s.links.get p).threshold) ∧
    ((∀ c, i ≠ .presetWrite c) → ∀ p, (t.lenses.get p).presets = (s.lenses.get p).presets) ∧
    ((∀ c, i ≠ .lensSetup c) → ∀ p, (t.lenses.get p).setup = (s.lenses.get p).setup) ∧
    ((∀ c, i ≠ .zoneSetup c) → ∀ p, (t.zones.get p).setup = (s.zones.get p).setup) ∧
    ((∀ c, i ≠ .pose c) → ∀ p, (t.zones.get p).current = (s.zones.get p).current) ∧
    ((∀ c, i ≠ .echoSetup c) → ∀ p, (t.echo.ports.get p).settings = (s.echo.ports.get p).settings) ∧
    ((∀ c, i ≠ .cableMapWrite c) → ∀ p, (t.echo.ports.get p).map = (s.echo.ports.get p).map) ∧
    ((∀ c, i ≠ .storeSetup c) → t.store.lowMark = s.store.lowMark) ∧
    ((∀ c, i ≠ .slotWrite c) → (∀ c, i ≠ .tableHeader c) → (∀ c, i ≠ .hubReset c) → t.shot.staged = s.shot.staged) ∧
    ((∀ c, i ≠ .routeSet c) → (∀ c, i ≠ .hubReset c) → ∀ src,
      (t.router.entry src).masked = (s.router.entry src).masked ∧ (t.router.entry src).tag = (s.router.entry src).tag)

/-! ## Records and replies -/

/-- R170, R171: while the uplink is DOWN the part takes no command. A record that arrives with no credit outstanding, whatever its kind, its
length and its CRC, is discarded with cause NO_CREDIT: it is counted, UPLINK_ERROR fires with the cause and the count, nothing else but the
router, the control queue and the image side changes, and no reply enters. -/
def Obligations.CommandNeedsUplinkAndCredit : Prop :=
  ∀ (i : Instr) (s : State), isRecord i →
    (s.uplink.up = false → ignored i s) ∧
    (s.uplink.up = true → s.uplink.credits = 0 →
      ∃ t, exec i s = .next t ∧ t.pending = s.pending ∧
        s.toHub.onlyIn [.router, .uplink, .draws, .store, .delivery, .rotation] t.toHub ∧
        t.uplink.noCredit = min 65535 (s.uplink.noCredit + 1) ∧ t.uplink.badLength = s.uplink.badLength ∧
        t.uplink.badCrc = s.uplink.badCrc ∧ t.uplink.linkUps = s.uplink.linkUps ∧
        fired (.ofHub .uplinkError) (w1 0 ++ w2 (min 65535 (s.uplink.noCredit + 1))) s.toHub t.toHub ∧
        (∀ r, CtrlRec.reply r ∈ t.uplink.queue → CtrlRec.reply r ∈ s.uplink.queue))

/-- R172, R194: a record whose kind is not a command kind is refused with BAD_KIND, a payload length that the kind does not allow with
BAD_LENGTH, and a command that names a port with BAD_PORT when its header port is above 5; every block is left as it was. -/
def Obligations.RefusedBeforeTheBlock : Prop :=
  (∀ (kind : Byte) (c : Cmd) (s : State), s.ready → isCommandKind kind.toNat = false →
    completes (.badKindRecord kind c) s s.toHub kind.toNat c 2 []) ∧
  (∀ (i : Instr) (k : Nat) (c : Cmd) (s : State), hostCommand i = some (k, c) → s.ready →
    (¬ payloadFits k c.payload → completes i s s.toHub k c 3 []) ∧
    (payloadFits k c.payload → namesPort k = true → 5 < c.port.toNat → completes i s s.toHub k c 4 []))

/-- R171: a whole record taken under a credit and failing the length or the CRC check is discarded: its cause is counted, UPLINK_ERROR
fires with the cause and the count, and it gets no reply. -/
def Obligations.FaultyRecordDiscarded : Prop :=
  ∀ (raw : List Byte) (s : State), s.ready →
    let tooLong := 16448 < u16At raw 4 ∨ raw.length ≠ u16At raw 4 + 8
    let badCrc := (crc16 (raw.take (u16At raw 4 + 6))).toNat ≠ u16At raw (u16At raw 4 + 6)
    (tooLong ∨ badCrc) →
      ∃ t, exec (.recordDiscard raw) s = .next t ∧ t.pending = s.pending ∧
        s.toHub.onlyIn [.router, .uplink, .draws, .store, .delivery, .rotation] t.toHub ∧
        t.uplink.noCredit = s.uplink.noCredit ∧
        (tooLong → t.uplink.badLength = min 65535 (s.uplink.badLength + 1) ∧ t.uplink.badCrc = s.uplink.badCrc) ∧
        (¬ tooLong → t.uplink.badCrc = min 65535 (s.uplink.badCrc + 1) ∧ t.uplink.badLength = s.uplink.badLength) ∧
        (tooLong → fired (.ofHub .uplinkError) (w1 1 ++ w2 (min 65535 (s.uplink.badLength + 1))) s.toHub t.toHub) ∧
        (¬ tooLong → fired (.ofHub .uplinkError) (w1 2 ++ w2 (min 65535 (s.uplink.badCrc + 1))) s.toHub t.toHub) ∧
        (∀ r, CtrlRec.reply r ∈ t.uplink.queue → CtrlRec.reply r ∈ s.uplink.queue)

/-- R171, R191, R192: the bytes of a record that carries a command are taken as that command: no field of the header, no payload byte and
no bit of the CRC is read otherwise than it is laid out. (That a record which passes those checks is its command is the model's choice, log
5.) -/
def Obligations.WholeRecordIsItsCommand : Prop :=
  ∀ (i : Instr) (k : Nat) (c : Cmd) (s : State), hostCommand i = some (k, c) → c.wf = true →
    exec (.recordDiscard (Rec.wire ⟨BitVec.ofNat 8 k, c.port, c.tag, c.payload⟩)) s = exec i s

/-- R183: IDENTIFY replies OK with part code 600, revision 1, 6 ports, 4096 pages, 24 descriptors and 16 slots, and changes nothing. -/
def Obligations.IdentifyRepliesFixedValues : Prop :=
  ∀ (c : Cmd) (s : State), s.ready → c.payload = [] →
    completes (.identify c) s s.toHub 0x81 c 0 [0x58, 0x02, 0x01, 0x06, 0x00, 0x10, 0x18, 0x10]

/-- PORT_INFO, PRESET_READ, ZONE_READ, CABLE_MAP_READ, BASELINE_READ and ECHO_RESULT reply OK with what they read, field by field, and
change nothing; BASELINE_READ of an absent baseline replies NO_BASELINE (R20, R63, R144, R152, R156, R163). (Where the layout chapter leaves
the bytes of PORT_INFO, PRESET_READ, ZONE_READ and ECHO_RESULT open they are the model's choice, log 11.) -/
def Obligations.PortQueriesChangeNothing : Prop :=
  ∀ (c : Cmd) (p : Port) (s : State), s.ready → addresses c p →
    (c.payload = [] →
      let l := s.links.get p
      completes (.portInfo c) s s.toHub 0x12 c 0
        (w1 l.state.code ++ w1 l.rate.code ++ w1 l.threshold ++ w1 l.sinceUp ++ w2 l.total ++ w2 l.wordErrors ++
          w6 l.lastChange.toNat ++
          optionalField 26 (fun x : CameraRecord =>
            w2 x.model.toNat ++ w2 x.maxLine.toNat ++ wAxes (x.travel.map Option.isSome) ++
              x.travel.toList.flatMap (optionalField 4 fun m : Limits => w2 m.lo ++ w2 m.hi) ++ w6 x.receivedAt.toNat) l.camera ++
          w2 (s.store.strays.get p) ++ w2 (s.store.duplicates.get p))) ∧
    (∀ k : Fin 16, c.payload = [BitVec.ofNat 8 k.val] →
      let t := (s.lenses.get p).presets.get k
      completes (.presetRead c) s s.toHub 0x31 c 0 (wOpt2 t.focus ++ wOpt2 t.iris ++ wOpt2 t.zoom)) ∧
    (c.payload = [] → completes (.zoneRead c) s s.toHub 0x62 c 0 (zoneFields (s.zones.get p))) ∧
    (c.payload = [] → completes (.cableMapRead c) s s.toHub 0x72 c 0
      (w1 (s.echo.ports.get p).map.length ++ (s.echo.ports.get p).map.flatMap fun g => w4 g.length ++ [g.label])) ∧
    (∀ b, c.payload = [] → (s.echo.ports.get p).baseline = some b →
      completes (.baselineRead c) s s.toHub 0x75 c 0 (b.toList.flatMap wInt)) ∧
    (c.payload = [] → (s.echo.ports.get p).baseline = none → completes (.baselineRead c) s s.toHub 0x75 c 10 []) ∧
    (∀ trace : Bool, c.payload = [if trace then 1 else 0] →
      completes (.echoResult c) s s.toHub 0x76 c 0 (echoFields s.echo p trace))

/-- TABLE_READ, TIME_READ and ROUTE_READ reply OK with what they read, field by field, and change nothing; STORE_STATUS, DELIVERY_STATUS and
UPLINK_STATUS do so with the clear option clear (R80, R97, R120, R130, R184, R189). (The header and slots of an absent table are free bytes,
log 7. Where the layout chapter leaves the bytes of STORE_STATUS, DELIVERY_STATUS and ROUTE_READ open they are the model's choice, log
11.) -/
def Obligations.HubQueriesChangeNothing : Prop :=
  ∀ (c : Cmd) (s : State), s.ready →
    (∀ (k : Fin 3) (t : ShotTable), c.payload = [BitVec.ofNat 8 k.val] →
      [some s.shot.staged, s.shot.active, s.shot.pending][k.val]? = some (some t) →
      completes (.tableRead c) s s.toHub 0x43 c 0 (tableFields t ++ [1, flagByte s.shot.pending.isSome])) ∧
    (∀ k : Fin 3, c.payload = [BitVec.ofNat 8 k.val] →
      [some s.shot.staged, s.shot.active, s.shot.pending][k.val]? = some none →
      ∃ unmeant : List Byte, unmeant.length = 327 ∧
        completes (.tableRead c) s s.toHub 0x43 c 0 (unmeant ++ [0, flagByte s.shot.pending.isSome])) ∧
    (c.payload = [] → completes (.timeRead c) s s.toHub 0x49 c 0
      (w6 s.time.cellTime.toNat ++ w4 s.time.position.toNat)) ∧
    (c.payload = [0] → completes (.storeStatus c) s s.toHub 0x51 c 0 (storeFields s.store)) ∧
    (c.payload = [0] → completes (.deliveryStatus c) s s.toHub 0x54 c 0 (deliveryFields s.toHub)) ∧
    (c.payload = [0] → completes (.uplinkStatus c) s s.toHub 0x82 c 0 (uplinkFields s.uplink)) ∧
    (∀ src : Source, c.payload = [BitVec.ofNat 8 src.code] → c.port = src.portByte →
      completes (.routeRead c) s s.toHub 0x84 c 0 (routeFields s.toHub src))

/-- The status commands reply OK with their fields one by one, and their clearings act after the reply is built: STORE_STATUS zeroes strays
and duplicates, DELIVERY_STATUS the delivery counts, UPLINK_STATUS the error counts, CYCLE_STATUS the per-slot and missed counts;
POWER_STATUS zeroes the peak current and LENS_STATUS the stack overflow flag (R41, R69, R96, R120, R130, R184). (Where the layout chapter
leaves the bytes of STORE_STATUS, DELIVERY_STATUS, CYCLE_STATUS and LENS_STATUS open they are the model's choice, log 11; fields the manual
calls not meaningful are free bytes, log 7.) -/
def Obligations.StatusClearsAfterReply : Prop :=
  ∀ (c : Cmd) (s : State), s.ready →
    (c.payload = [1] → completes (.storeStatus c) s
      { s.toHub with store := { s.store with strays := PerPort.all 0, duplicates := PerPort.all 0 } } 0x51 c 0
      (storeFields s.store)) ∧
    (c.payload = [1] → completes (.deliveryStatus c) s
      { s.toHub with delivery := s.delivery.map fun d => { d with delivered := 0, aborted := 0, lost := 0 } } 0x54 c 0
      (deliveryFields s.toHub)) ∧
    (c.payload = [1] → completes (.uplinkStatus c) s
      { s.toHub with uplink := { s.uplink with noCredit := 0, badLength := 0, badCrc := 0 } } 0x82 c 0
      (uplinkFields s.uplink)) ∧
    (∀ clear : Bool, c.payload = [if clear then 1 else 0] → ∃ header next : List Byte, header.length = 7 ∧ next.length = 4 ∧
      (∀ t, s.shot.active = some t → header = w1 t.header.source.code ++ w2 t.header.pitch ++ w4 t.header.span) ∧
      (∀ t, s.shot.active = some t → t.header.source = .encoder → s.shot.cycle ≠ .stopped → next = w4 s.shot.nextStart.toNat) ∧
      completes (.cycleStatus c) s
        { s.toHub with
          shot := if clear then
              { s.shot with
                missed := 0, stats := vmap (fun x => { x with fired := 0, late := 0, skipped := 0 }) s.shot.stats }
            else s.shot } 0x47 c 0 (cycleFields s.toHub header next)) ∧
    (∀ p, addresses c p → c.payload = [] →
      let w := s.power.get p
      completes (.powerStatus c) s (s.toHub.modPower p fun w => { w with peak := 0 }) 0x24 c 0
        (w1 w.state.code ++ [flagByte w.restore] ++ [flagByte w.discharged] ++ w2 w.setup.limit ++ w1 w.setup.inrush ++
          w1 w.setup.tripSamples ++ w1 w.setup.retries ++ w2 w.setup.cooldown ++ w2 w.setup.surge ++ [flagByte w.setup.autoHunt] ++
          w1 w.retriesUsed ++ w2 w.heldSurge ++ w2 w.last ++ w2 w.peak ++ w1 w.cause.code ++ w2 w.trips ++ w2 s.budget ++
          w2 s.reservedSum)) ∧
    (∀ p, addresses c p → c.payload = [] →
      let cleared : Hub := s.toHub.modLens p fun l => { l with overflow := false }
      let l := s.lenses.get p
      (∀ r, l.record = some r → completes (.lensStatus c) s cleared 0x37 c 0 (lensStatusFields s.toHub p r)) ∧
      (l.record = none → ∃ fields done : List Byte, fields.length = 39 ∧ done.length = 7 ∧
        completes (.lensStatus c) s cleared 0x37 c 0
          ([0] ++ fields ++ w2 (s.power.get p).heldSurge ++ w1 (((s.deferred.findIdx? (· == p)).map (· + 1)).getD 0) ++ done ++
            w1 l.stack.length ++ [flagByte l.overflow] ++ w1 l.setup.tolerance ++ w1 l.setup.settleCount ++ w2 l.setup.moveTimeout)))

/-- Commands refused for an argument are answered BAD_ARG and change nothing: an option or presence byte other than 0 or 1, an index,
selector, source, tag, enumeration or count out of range, a POSE pair out of range, an averaging other than 1, 4 or 16 (R62, R67, R76, R77,
R80, R88, R134, R145, R151, R152, R156, R188, R189, R193). Commands that name no port are so refused under any header port (R172).
ROUTE_SET and ROUTE_READ of a per-port source need a port up to 5, of a global source 0xFF, else BAD_PORT. (That ROUTE_SET's mask byte is an
on/off byte is the model's choice, log 12.) -/
def Obligations.BadArgumentsRefused : Prop :=
  ∀ (c : Cmd) (s : State), s.ready →
    let bs := c.payload
    let badArg (i : Instr) (kind : Nat) : Prop := completes i s s.toHub kind c 5 []
    (∀ i k, hostCommand i = some (k, c) → k ∈ [0x47, 0x51, 0x54, 0x82] → bs.length = 1 → 1 < byteAt bs 0 → badArg i k) ∧
    (bs.length = 21 → 15 < byteAt bs 0 ∨ 5 < byteAt bs 2 ∨ 1 < byteAt bs 1 ∨ 1 < byteAt bs 15 ∨
      byteAt bs 15 = 1 ∧ 15 < byteAt bs 16 → badArg (.slotWrite c) 0x40) ∧
    (bs.length = 7 → 2 < byteAt bs 0 → badArg (.tableHeader c) 0x41) ∧
    (bs.length = 1 → 2 < byteAt bs 0 → badArg (.tableRead c) 0x43) ∧
    (bs.length = 1 → 1 < byteAt bs 0 → badArg (.cycleStop c) 0x46) ∧
    (bs.length = 1 + 2 * byteAt bs 0 → byteAt bs 0 = 0 ∨ 6 < byteAt bs 0 ∨
      (∃ k, k < byteAt bs 0 ∧ (5 < byteAt bs (1 + 2 * k) ∨ 31 < byteAt bs (2 + 2 * k))) → badArg (.pose c) 0x60) ∧
    (bs.length = 2 → u16At bs 0 = 0 ∨ 255 < u16At bs 0 → badArg (.eventAck c) 0x85) ∧
    (bs.length = 4 → 8 < byteAt bs 0 ∨ 1 < byteAt bs 1 → badArg (.routeSet c) 0x83) ∧
    (bs.length = 1 → 8 < byteAt bs 0 → badArg (.routeRead c) 0x84) ∧
    (let portOk := if byteAt bs 0 < 5 then c.port.toNat ≤ 5 else c.port = 0xFF
     (bs.length = 4 → byteAt bs 0 ≤ 8 → byteAt bs 1 ≤ 1 → ¬ portOk → completes (.routeSet c) s s.toHub 0x83 c 4 []) ∧
     (bs.length = 1 → byteAt bs 0 ≤ 8 → ¬ portOk → completes (.routeRead c) s s.toHub 0x84 c 4 []) ∧
     (bs.length = 4 → byteAt bs 0 ≤ 8 → portOk → 255 < u16At bs 2 → badArg (.routeSet c) 0x83)) ∧
    (∀ p, addresses c p →
      (∀ i k, hostCommand i = some (k, c) → k ∈ [0x76, 0x77] → bs.length = 1 → 1 < byteAt bs 0 → badArg i k) ∧
      (bs.length = 10 → 1 < byteAt bs 9 → badArg (.powerSetup c) 0x22) ∧
      (bs.length = 10 → 15 < byteAt bs 0 ∨ 1 < byteAt bs 1 ∨ 1 < byteAt bs 4 ∨ 1 < byteAt bs 7 → badArg (.presetWrite c) 0x30) ∧
      (bs.length = 1 → 15 < byteAt bs 0 → badArg (.presetRead c) 0x31) ∧
      (bs.length = 1 → 15 < byteAt bs 0 → badArg (.presetGo c) 0x32) ∧
      (bs.length = 9 → 1 < byteAt bs 0 ∨ 1 < byteAt bs 3 ∨ 1 < byteAt bs 6 → badArg (.lensMove c) 0x35) ∧
      (bs.length = 1 → 31 < byteAt bs 0 → byteAt bs 0 ≠ 255 → badArg (.zoneClear c) 0x63) ∧
      (bs.length = 8 → byteAt bs 0 ∉ [1, 4, 16] → badArg (.echoSetup c) 0x70) ∧
      (bs.length = 1 + 5 * byteAt bs 0 → 8 < byteAt bs 0 → badArg (.cableMapWrite c) 0x71) ∧
      (bs.length = 2 + 2 * u16At bs 0 → u16At bs 0 ≠ 256 → badArg (.baselineWrite c) 0x74))

/-! ## The uplink and the router -/

/-- R170, R180, R190: link up. The state becomes UP and the link-up count goes up by 1, saturating. Each unmasked level entry whose source
is active and which is neither awaiting nor pending joins the pending order, in table order, with count 1. Then credits are granted and
reports offered from the head of the order as places allow (R176, R177, R186): with at most 28 to offer all of them beside 4 credits, and
with none an empty queue; then, with no control record to send, an image record is granted if a port is eligible (R124). (Which of a
credit and a report takes a contested place is open, log 6, as is a detail that is absent, log 7; when a stale entry is cleared is the
model's choice, log 45; that all this is done within the step is DEDUCED, log 8.) -/
def Obligations.UplinkUpGrantsCredits : Prop :=
  ∀ s : State, s.uplink.up = false → s.uplink.queue = [] → s.uplink.credits = 0 →
    ∃ t, exec .uplinkUp s = .next t ∧ t.pending = s.pending ∧
      s.toHub.onlyIn [.router, .uplink, .draws, .store, .delivery, .rotation] t.toHub ∧ s.router.sameSetup t.router ∧
      t.uplink.up = true ∧ t.uplink.linkUps = min 65535 (s.uplink.linkUps + 1) ∧ t.uplink.noCredit = s.uplink.noCredit ∧
      t.uplink.badLength = s.uplink.badLength ∧ t.uplink.badCrc = s.uplink.badCrc ∧
      (let joining : List Source := allSources.filter fun src => src.isLevel && !(s.router.entry src).masked && s.levelActive src &&
          !(s.router.entry src).awaiting && !s.router.pending src
       let h : Hub := { s.toHub with
         uplink := { s.uplink with up := true }
         router := joining.foldl (fun r src => { r.modEntry src fun e => { e with count := 1 } with order := r.order ++ [src] })
           s.router }
       s.pendingKept → placesFilled h t.toHub ∧
         ((h.router.order.filter h.mayOffer).length ≤ 28 → t.uplink.credits = 4 ∧
           t.uplink.queue.length = (h.router.order.filter h.mayOffer).length)) ∧
      (s.rotationKept → s.pagesKept → s.deliveryKept → t.grantsKept) ∧
      (t.uplink.credits = 4 ∨ t.uplink.queue.length + t.uplink.credits = 32) ∧
      (s.router.order = [] → (∀ src, (s.router.entry src).masked = true ∨ s.levelActive src = false) →
        t.uplink.credits = 4 ∧ t.uplink.queue = [])

/-- R131, R179, R190: link down. Every record is discarded and every credit withdrawn. The SENDING head frame of each port is lost, counted
and released; the other frames, the DRAM and the tag counter stay. An entry whose reports were discarded no longer awaits; an unmasked edge
entry of these is pending again, joining the order in the order of the control queue (DESIGN CHOICE, log 42), with the firings those reports
carried added to its count; every other entry is as it was. -/
def Obligations.UplinkDownDiscards : Prop :=
  ∀ s : State, s.uplink.up = true →
    let lost (p : Port) : Option FrameTag := if (s.delivery.get p).progress.isSome then (s.delivery.get p).fifo.head? else none
    let counts (src : Source) : List Nat := s.uplink.queue.filterMap fun r => match r with
      | .report x n _ => if x = src then some n else none
      | .reply _ => none
    let again (src : Source) : Bool := !(s.router.entry src).masked && !src.isLevel
    ∃ t, exec .uplinkDown s = .next t ∧ t.pending = s.pending ∧
      s.toHub.onlyIn [.router, .uplink, .store, .delivery] t.toHub ∧
      t.uplink = { s.uplink with up := false, queue := [], credits := 0, tx := none } ∧
      (∀ p, t.delivery.get p =
        if (lost p).isSome then
          { s.delivery.get p with
            progress := none, fifo := (s.delivery.get p).fifo.drop 1, lost := min 65535 ((s.delivery.get p).lost + 1) }
        else s.delivery.get p) ∧
      t.store = { s.store with frames := s.store.frames.filter fun f => allPorts.all fun p => lost p != some f.tag } ∧
      s.router.sameSetup t.router ∧
      (∀ src, counts src = [] → t.router.entry src = s.router.entry src) ∧
      (∀ src, counts src ≠ [] → (t.router.entry src).awaiting = false ∧
        (t.router.entry src).count =
          if again src then min 255 ((s.router.entry src).count + (counts src).sum) else (s.router.entry src).count) ∧
      (∀ src, counts src ≠ [] → again src = true → t.router.pending src = true) ∧
      t.router.order = s.uplink.queue.foldl (fun o r => match r with
        | .report src _ _ => if again src && !o.contains src then o ++ [src] else o
        | .reply _ => o) s.router.order

/-- R176 to R178: the end of a control record's transmission frees its place, which a credit or a pending report may take; then the
record behind it is sent, or with none an image record, if a port is eligible (R124). Pending reports are offered from the head of the
pending order, built from their entries (R186). (Open are who takes a contested place, log 6, and a detail that is absent, log 7; when a
stale entry is cleared is the model's choice, log 45; that all this is done within the step is DEDUCED, log 8.) -/
def Obligations.ControlRecordSentFreesPlace : Prop :=
  ∀ (s : State) (r : CtrlRec) (rest : List CtrlRec), s.uplink.up = true → s.uplink.tx = some .control →
    s.uplink.queue = r :: rest → ∃ t, exec .controlRecordSent s = .next t ∧ t.pending = s.pending ∧
      s.toHub.settledTo t.toHub ∧ rest <+: t.uplink.queue ∧ (rest ≠ [] → t.uplink.tx = some .control) ∧
      (s.pendingKept → placesFilled { s.toHub with uplink := { s.uplink with queue := rest, tx := none } } t.toHub) ∧
      (s.rotationKept → s.pagesKept → s.deliveryKept → t.grantsKept)

/-- R128: the end of a FRAME_CLOSE. The frame leaves its FIFO, is counted by the status sent, and its descriptor is released. After any
other record only the in-transmission mark changes, and after a record whose frame a HUB_RESET discarded nothing (R133), until the next
choice, which sends a control record, or an image record if a port is eligible (R124, R178). An end with no image record in transmission
cannot occur (DESIGN CHOICE, log 28). -/
def Obligations.ImageRecordSentAdvancesDelivery : Prop :=
  ∀ (s : State) (r : Rec),
    (∀ (tag : FrameTag) (f : Frame), s.store.frame? tag = some f →
      (∀ st, s.uplink.tx = some (.image (some tag) (some st) r) → happens .imageRecordSent s { s.toHub with
        delivery := s.delivery.mod f.port fun d =>
          { d with
            fifo := d.fifo.filter (· != tag), progress := none
            delivered := if st = .delivered then min 65535 (d.delivered + 1) else d.delivered
            aborted := if st = .aborted then min 65535 (d.aborted + 1) else d.aborted }
        store := { s.store with frames := s.store.frames.filter (·.tag != tag) }
        uplink := { s.uplink with tx := none } }) ∧
      (s.uplink.tx = some (.image (some tag) none r) → happens .imageRecordSent s { s.toHub with
        delivery := s.delivery.mod f.port fun d => { d with progress := d.progress.map fun g => { g with inTx := false } }
        uplink := { s.uplink with tx := none } })) ∧
    (∀ closing, s.uplink.tx = some (.image none closing r) →
      happens .imageRecordSent s { s.toHub with uplink := { s.uplink with tx := none } }) ∧
    (∀ tag closing, s.uplink.tx = some (.image tag closing r) → s.rotationKept → s.pagesKept → s.deliveryKept →
      ∃ t, exec .imageRecordSent s = .next t ∧ t.grantsKept ∧
        (s.uplink.up = true → s.uplink.queue ≠ [] → t.uplink.tx = some .control)) ∧
    (s.uplink.tx = none ∨ s.uplink.tx = some .control → ignored .imageRecordSent s)

/-- R124 to R128, R195: of the eligible ports the highest-ranked is granted one record of its head frame: FRAME_OPEN with the descriptor,
then the received lines in ascending order with the bytes that stand in the DRAM, then FRAME_CLOSE; with the abort mark set an ABORTED
FRAME_CLOSE (what that leaves in the progress is the model's choice, log 41). The frame is SENDING, its progress advances, the port moves to
the bottom of the rotation order, the others keeping theirs, and nothing else changes. -/
def Obligations.GrantServesHighestRankedPort : Prop :=
  ∀ (h : Hub) (p : Port) (f : Frame) (tag : FrameTag) (rest : List FrameTag) (before after : List Port),
    h.rotation = before ++ p :: after → p ∉ before → p ∉ after → h.uplink.up = true → h.uplink.tx = none → h.uplink.queue = [] →
    (∀ q ∈ before, (h.delivery.get q).fifo = [] ∨ (h.delivery.get q).hold = true) →
    (h.delivery.get p).fifo = tag :: rest → (h.delivery.get p).hold = false → h.store.frame? tag = some f → f.tag = tag →
    ∃ r closing g, imageRecordOf h.store.dram f ((h.delivery.get p).progress.getD {}) r closing g ∧
      h.arbitrate = { h with
        rotation := before ++ after ++ [p]
        delivery := h.delivery.mod p fun d => { d with progress := some g }
        store := { h.store with frames := h.store.frames.map fun x => if x.tag = tag then { x with state := .sending } else x }
        uplink := { h.uplink with tx := some (.image (some tag) closing r) } }

/-- R186, R187: what a firing of an edge source, and the activation of a level source (POWER_FAULT, STORE_LOW), do by the state of the
entry: nothing while masked; a report at the tail of the control queue where it listens and a place is free, and a place in the pending
order where none is; else one more firing on the count. An edge source's last detail is the firing's, a level source's detail is as its
block has it now. -/
def Obligations.FiringsActByEntryState : Prop :=
  ∀ (h : Hub) (src : Source) (d : List Byte),
    let e := h.router.entry src
    let raised : Hub := if src.isLevel then h.activate src else h.fire src d
    let detail : List Byte := if src.isLevel then h.detailOf src else d
    (e.masked = true → raised = h) ∧
    (e.masked = false → (raised.router.entry src).detail = (if src.isLevel then e.detail else some d)) ∧
    (h.listens src → h.roomFor 1 →
      raised.uplink = { h.uplink with queue := h.uplink.queue ++ [h.reportOf src e.carried detail] } ∧
      raised.router.order = h.router.order ∧
      (raised.router.entry src).awaiting = decide (e.tag ≠ 0) ∧ (raised.router.entry src).count = 0) ∧
    (h.listens src → ¬ h.roomFor 1 →
      raised.uplink = h.uplink ∧ raised.router.order = h.router.order ++ [src] ∧
      (raised.router.entry src).awaiting = false ∧ (raised.router.entry src).count = min 255 (e.count + 1)) ∧
    (e.masked = false → e.awaiting = true ∨ h.router.pending src = true →
      raised.uplink = h.uplink ∧
      raised.router.order = (if src.isLevel || h.router.pending src then h.router.order else h.router.order ++ [src]) ∧
      (raised.router.entry src).awaiting = e.awaiting ∧ (raised.router.entry src).count = min 255 (e.count + 1)) ∧
    (raised.router.entry src).masked = e.masked ∧ (raised.router.entry src).tag = e.tag ∧
    (∀ other, other ≠ src → raised.router.entry other = h.router.entry other) ∧
    h.onlyIn [.router, .uplink, .draws] raised

/-- R189: ROUTE_SET writes mask and tag of the entry named and of no other; masking clears its pending flag and its count; with tag 0 it no
longer awaits. Unmasking a level entry whose source is active and which does not await offers a report, by the old tag (log 30). A per-port
source needs its port in the header, a global source 0xFF; the reply carries the entry as written, in fields that are the model's choice
(log 11; the mask byte's coding, log 12; that the report offered by an unmasking stands before the reply, log 9; that the report of a
pending edge entry which tag 0 makes offerable does not, so that the reply carries it as pending still, log 44). -/
def Obligations.RouteSetWritesEntry : Prop :=
  ∀ (c : Cmd) (src : Source) (mask : Bool) (tag : Byte) (s : State), s.ready → c.port = src.portByte →
    c.payload = [BitVec.ofNat 8 src.code, if mask then 1 else 0, tag, 0] →
    let e := s.router.entry src
    let flag (b : Bool) : List Byte := [if b then 1 else 0]
    let entry (awaiting pending : Bool) (count : Nat) : List Byte :=
      flag mask ++ [tag] ++ flag awaiting ++ flag pending ++ w1 count ++
        (match e.detail with
          | some d => flag true ++ d
          | none => flag false ++ List.replicate src.detailLength 0)
    let masks := mask = true ∧ e.masked = false
    let offers := mask = false ∧ e.masked = true ∧ e.awaiting = false ∧ s.levelActive src = true
    ∃ t, exec (.routeSet c) s = .next t ∧ t.pending = s.pending ∧ s.toHub.onlyIn [.router, .uplink, .draws] t.toHub ∧
      (t.router.entry src).masked = mask ∧ (t.router.entry src).tag = tag ∧
      (t.router.entry src).detail = (s.router.entry src).detail ∧
      (∀ other, other ≠ src → (t.router.entry other).masked = (s.router.entry other).masked ∧
        (t.router.entry other).tag = (s.router.entry other).tag ∧
        (t.router.entry other).detail = (s.router.entry other).detail) ∧
      (mask = true → (s.router.entry src).masked = false →
        t.router.pending src = false ∧ (t.router.entry src).count = 0) ∧
      (tag = 0 → (t.router.entry src).awaiting = false) ∧
      (masks → s.uplink.queue ++ [replyOf 0x83 c 0 (entry (e.awaiting && tag != 0) false 0)] <+: t.uplink.queue) ∧
      (¬ masks → ¬ offers →
        s.uplink.queue ++ [replyOf 0x83 c 0 (entry (e.awaiting && tag != 0) (s.router.pending src) e.count)] <+: t.uplink.queue) ∧
      (offers → s.toHub.roomFor 1 →
        s.uplink.queue ++ [s.toHub.reportOf src e.carried (s.toHub.detailOf src),
          replyOf 0x83 c 0 (entry (e.tag != 0 && tag != 0) false 0)] <+: t.uplink.queue) ∧
      (offers → ¬ s.toHub.roomFor 1 →
        s.uplink.queue ++ [replyOf 0x83 c 0
          (entry false true (if s.router.pending src then max e.count 1 else min 255 (e.count + 1)))] <+: t.uplink.queue)

/-- R188: EVENT_ACK replies with the number of entries that awaited under the tag. Of these, an unmasked edge entry that is pending and an
unmasked level entry whose source is active report again: in table order before the reply where the free places suffice, else as places
allow, pending where they do not. An entry with nothing to report is only cleared, and its count becomes 0. (That the reports stand before
the reply is the model's choice, log 9.) -/
def Obligations.EventAckClearsAwaiting : Prop :=
  ∀ (c : Cmd) (tag : Byte) (s : State), s.ready → tag ≠ 0 → c.payload = [tag, 0] →
    let acked (src : Source) : Bool := (s.router.entry src).awaiting && (s.router.entry src).tag == tag
    let again : List Source := allSources.filter fun src => acked src && !(s.router.entry src).masked &&
      (if src.isLevel then s.levelActive src else s.router.pending src)
    let reply : CtrlRec := replyOf 0x85 c 0 (w1 (allSources.countP acked))
    ∃ t, exec (.eventAck c) s = .next t ∧ t.pending = s.pending ∧ s.toHub.onlyIn [.router, .uplink, .draws] t.toHub ∧
      s.router.sameSetup t.router ∧ reply ∈ t.uplink.queue ∧
      (s.toHub.roomFor again.length → (∀ src ∈ again, src.isLevel = false → (s.router.entry src).detail.isSome = true) →
        s.uplink.queue ++ again.map (fun src => s.toHub.reportOf src (s.router.entry src).carried (s.toHub.detailOf src)) ++
          [reply] <+: t.uplink.queue) ∧
      (∀ src ∈ again, (∃ n r, CtrlRec.report src n r ∈ t.uplink.queue) ∨ t.router.pending src = true) ∧
      (∀ src, (s.router.entry src).awaiting = true → (s.router.entry src).tag = tag → s.router.pending src = false →
        ((s.router.entry src).masked = true ∨ s.levelActive src = false) →
        (t.router.entry src).awaiting = false ∧ (t.router.entry src).count = 0 ∧ t.router.pending src = false) ∧
      (∀ src, (s.router.entry src).awaiting = true → (s.router.entry src).tag ≠ tag → (t.router.entry src).awaiting = true)

/-! ## Camera ports and cable links -/

/-- R18: LINK_RETRAIN takes the link from any state but DOWN to ACQUIRE at FULL with a fresh 3000 ms timer; only RETRAIN words wait, and one
that carries FULL is added; the camera record and the lock losses stay; the lens move is abandoned, which leaves the lens record IDLE with
its targets at the actuals (R59, R60), its surge released, which prompts a serving (R35, R55, log 35), and LINK_CHANGE fires with cause
RETRAIN (R17). Taken in UP it closes the FILLING frame LINK_LOST (R109, R116; a port has at most one, R101) and ends the port's slot in
GUARD or OFFERED SKIPPED(LINK) (R94, R95). In DOWN it is refused with BAD_STATE. (That the last change time is set in ACQUIRE too is the
model's choice, log 36.) -/
def Obligations.LinkRetrainForcesAcquire : Prop :=
  ∀ (c : Cmd) (p : Port) (s : State), s.ready → addresses c p → c.payload = [] →
    ((s.links.get p).state = .down → completes (.linkRetrain c) s s.toHub 0x10 c 6 []) ∧
    ((s.links.get p).state ≠ .down → ∃ t, exec (.linkRetrain c) s = .next t ∧ t.pending = s.pending ∧
      s.toHub.onlyIn [.links, .power, .lenses, .deferred, .shot, .store, .delivery, .router, .uplink, .draws] t.toHub ∧
      (t.links.get p).state = .acquire ∧ (t.links.get p).rate = .full ∧ (t.links.get p).acquireTimer = some 3000000 ∧
      (t.links.get p).relockWindow = none ∧ (t.links.get p).camera = (s.links.get p).camera ∧
      (t.links.get p).sinceUp = (s.links.get p).sinceUp ∧ (t.links.get p).total = (s.links.get p).total ∧
      (t.links.get p).lastChange = s.time.cellTime ∧ (∀ w ∈ (t.links.get p).words, ∃ r, w = .retrain r) ∧
      (t.links.get p).carries (.retrain .full) ∧
      moveAbandoned p s.toHub t.toHub ∧ p ∉ t.deferred ∧
      fired (.ofPort p .linkChange) (linkFields .acquire .full .retrain) s.toHub t.toHub ∧
      quiet (.ofPort p .lensDone) s.toHub t.toHub ∧ (∀ x ∈ t.shot.flights, x.port ≠ p) ∧
      ((s.links.get p).state = .up → s.fillingKept → fillingDropped p .linkLost s.toHub t.toHub) ∧
      ((s.links.get p).state = .up → s.linksKept → slotsSkipped p .link s.toHub t.toHub) ∧
      (s.toHub.slotsOwn p → portFreed p (s.deferred.filter (· != p)) s.toHub t.toHub) ∧
      (∀ q, q ≠ p → (t.links.get q).state = (s.links.get q).state ∧ (t.links.get q).rate = (s.links.get q).rate) ∧
      (∀ q, (t.power.get q).state = (s.power.get q).state) ∧ t.store.dram = s.store.dram ∧
      replyOf 0x10 c 0 [] ∈ t.uplink.queue)

/-- R6, R7, R10, R14, R47: a well-formed HELLO in ACQUIRE under lock brings the link UP, one in UP is a camera restart; both store the
camera record, build the lens record from it and fire LINK_CHANGE, with cause ACQUIRED or CAMERA_RESTART (R17). The restart abandons the
lens move: a slot in GUARD offers its TRIGGER (R92), and a surge released prompts a serving (R35, R55, log 35). A malformed one is counted
and discarded; one in another link state is not taken. -/
def Obligations.HelloWordActsByLinkState : Prop :=
  ∀ (p : Port) (w : HelloWord) (s : State),
    let l := s.links.get p
    let cam := CameraRecord.ofHello w s.time.cellTime
    (l.state = .acquire → l.locked = true → w.ok = true → ∃ t, exec (.helloWord p w) s = .next t ∧ t.pending = s.pending ∧
      s.toHub.onlyIn [.links, .lenses, .router, .uplink, .draws, .store, .delivery, .rotation] t.toHub ∧
      t.links.get p =
        { l with camera := some cam, acquireTimer := none, sinceUp := 0, state := .up, lastChange := s.time.cellTime } ∧
      (t.lenses.get p) = { s.lenses.get p with record := some (LensRecord.build cam) } ∧
      fired (.ofPort p .linkChange) (linkFields .up l.rate .acquired) s.toHub t.toHub ∧
      (∀ q, q ≠ p → t.links.get q = s.links.get q ∧ t.lenses.get q = s.lenses.get q)) ∧
    (l.state = .up → w.ok = true → s.linksKept → ∃ t, exec (.helloWord p w) s = .next t ∧ t.pending = s.pending ∧
      (t.links.get p).state = .up ∧ (t.links.get p).camera = some cam ∧ (t.links.get p).rate = l.rate ∧
      (t.links.get p).sinceUp = l.sinceUp ∧ (t.lenses.get p).record = some (LensRecord.build cam) ∧
      (t.lenses.get p).presets = (s.lenses.get p).presets ∧ (t.lenses.get p).stack = (s.lenses.get p).stack ∧
      fired (.ofPort p .linkChange) (linkFields .up l.rate .cameraRestart) s.toHub t.toHub ∧
      quiet (.ofPort p .lensDone) s.toHub t.toHub ∧
      waitersTriggered p s.toHub t.toHub ∧ portFreed p (s.deferred.filter (· != p)) s.toHub t.toHub ∧
      p ∉ t.deferred ∧ (t.power.get p).heldSurge = 0 ∧ (∀ q, (t.power.get q).state = (s.power.get q).state)) ∧
    ((l.state = .up ∨ l.state = .acquire ∧ l.locked = true) → w.ok = false →
      happens (.helloWord p w) s (s.toHub.modLink p fun l => { l with wordErrors := min 65535 (l.wordErrors + 1) })) ∧
    (l.state = .down ∨ l.state = .relock ∨ l.state = .failed ∨ l.state = .acquire ∧ l.locked = false →
      ignored (.helloWord p w) s)

/-- R12, R138, R141, R142: lock lost in UP is counted in the link's two counts and as a drop in the bin of the port's current zone. A bin
not yet suspect whose drops reach the drop threshold becomes suspect with cause DROPS and the time, and ZONE_SUSPECT fires. At the fallback
threshold at FULL the link goes to ACQUIRE at HALF with a fresh timer and a RETRAIN that carries HALF, and LINK_CHANGE fires with cause
FALLBACK, else it goes to RELOCK with a 50 ms window and fires nothing (R17). The fallback abandons the lens move: the lens record is IDLE
with its targets at the actuals (R59, R60), and a target of an axis without an actual is that of the next slot's move where the end of a
slot issued one first (R91; the order is DEDUCED, log 29); its surge released prompts a serving of the deferred list (R35, R55; that a
release which lowers nothing prompts none is DEDUCED, log 35); RELOCK keeps the move (R13). After the fallback only RETRAIN words wait, and
after entry to RELOCK no TRIGGER, while the other waiting words stay, where no slot of the port was in GUARD or OFFERED (R4). The FILLING
frame closes LINK_LOST (R109, R116), and a slot in GUARD or OFFERED ends SKIPPED(LINK) (R94, R95). R10, R15: in ACQUIRE only the receiver's
lock is lost (a flag of the model's, log 16), and elsewhere, where the receiver has no lock to lose, nothing changes (log 28). -/
def Obligations.LockLostActsByLinkState : Prop :=
  ∀ (p : Port) (s : State),
    let l := s.links.get p
    let n := min 255 (l.sinceUp + 1)
    let falls := l.threshold ≠ 0 ∧ l.threshold ≤ n ∧ l.rate = .full
    let z := (s.zones.get p).current
    let b := (s.zones.get p).bins.get z
    let drops := min 65535 (b.drops + 1)
    let suspect := b.suspect = none ∧ (s.zones.get p).setup.dropThreshold ≤ drops
    (l.state = .up → ∃ t, exec (.lockLost p) s = .next t ∧ t.pending = s.pending ∧ (t.links.get p).sinceUp = n ∧
        (t.links.get p).total = min 65535 (l.total + 1) ∧ (t.links.get p).camera = l.camera ∧
        (t.links.get p).lastChange = s.time.cellTime ∧
        (falls → (t.links.get p).state = .acquire ∧ (t.links.get p).rate = .half ∧
          (t.links.get p).acquireTimer = some 3000000 ∧ (t.links.get p).carries (.retrain .half) ∧
          (∀ w ∈ (t.links.get p).words, ∃ r, w = .retrain r) ∧
          (t.lenses.get p).moveState = .idle ∧
          (s.toHub.slotsOwn p → t.lenses.get p =
            { s.lenses.get p with
              record := (s.lenses.get p).record.map fun r => abandonedRecord { r with
                axes := (s.shot.flights.filter (·.port == p)).foldl
                  (fun a x => axesWritten a (s.toHub.followingTargets p x)) r.axes } }) ∧
          ((∀ x ∈ s.shot.flights, x.port ≠ p) → moveAbandoned p s.toHub t.toHub) ∧
          ((∀ x ∈ s.shot.flights, x.port ≠ p) → s.toHub.slotsOwn p →
            portFreed p (s.deferred.filter (· != p)) s.toHub t.toHub) ∧
          fired (.ofPort p .linkChange) (linkFields .acquire .half .fallback) s.toHub t.toHub) ∧
        (¬ falls → (t.links.get p).state = .relock ∧ (t.links.get p).rate = l.rate ∧
          (t.links.get p).relockWindow = some 50000 ∧ quiet (.ofPort p .linkChange) s.toHub t.toHub ∧
          (∀ w ∈ (t.links.get p).words, w.triggerTag? = none) ∧
          ((∀ x ∈ s.shot.flights, x.port ≠ p) → s.toHub.slotsOwn p →
            (t.links.get p).words = l.words.filter (fun w => w.triggerTag?.isNone) ∧ t.lenses = s.lenses ∧ t.power = s.power ∧ t.deferred = s.deferred)) ∧
        fillingDropped p .linkLost s.toHub t.toHub ∧ slotsSkipped p .link s.toHub t.toHub ∧
        (suspect → t.zones = s.zones.mod p fun m =>
          { m with bins := m.bins.set z { b with drops := drops, suspect := some (.drops, s.time.cellTime) } }) ∧
        (¬ suspect → t.zones = s.zones.mod p fun m => { m with bins := m.bins.set z { b with drops := drops } }) ∧
        (suspect → fired (.ofPort p .zoneSuspect) (w1 z.val ++ w1 1 ++ w4 b.lines ++ w4 b.bad ++ w2 drops ++
          w4 (b.bad * 1000000 / b.lines) ++ w6 s.time.cellTime.toNat) s.toHub t.toHub) ∧
        (¬ suspect → quiet (.ofPort p .zoneSuspect) s.toHub t.toHub) ∧
        (∀ q, q ≠ p → (t.links.get q).state = (s.links.get q).state) ∧
        t.store.dram = s.store.dram ∧ (∀ q, (t.power.get q).state = (s.power.get q).state)) ∧
    (l.state = .acquire → exec (.lockLost p) s = .next (s.withHub (s.toHub.modLink p fun x => { x with locked := false }))) ∧
    (l.state ∉ [.up, .acquire] → ignored (.lockLost p) s)

/-- R10, R11, R13, R15: lock gained makes the receiver hold lock in ACQUIRE, returns RELOCK to UP, and is nothing elsewhere. The acquire
timer's expiry moves ACQUIRE to FAILED with the camera record kept; the relock window's moves RELOCK to ACQUIRE at the same rate with a
fresh timer and a RETRAIN that carries the rate. Both abandon the lens move, which leaves the lens record IDLE with its targets at the
actuals (R59, R60) and whose surge released prompts a serving (R35, R55, log 35). The first leaves the waiting words as they were; after the
second only RETRAIN words wait (R4). LINK_CHANGE fires at both expiries, with cause TIMEOUT or RELOCK_EXPIRED (R17). Time has run on by what
the timer had left (log 2). An event that cannot occur in the state changes nothing (log 28). -/
def Obligations.LockGainedAndLinkTimers : Prop :=
  ∀ (p : Port) (left : Nat) (s : State),
    ((s.links.get p).state = .acquire →
      happens (.lockGained p) s (s.toHub.modLink p fun l => { l with locked := true })) ∧
    ((s.links.get p).state = .relock →
      happens (.lockGained p) s (s.toHub.modLink p fun l =>
        { l with state := .up, locked := true, relockWindow := none, lastChange := s.time.cellTime })) ∧
    ((s.links.get p).state ∉ [.acquire, .relock] → ignored (.lockGained p) s) ∧
    ((s.links.get p).state = .acquire → (s.links.get p).acquireTimer = some left →
      ∃ t, exec (.acquireTimeout p) s = .next t ∧ t.pending = s.pending ∧
        t.time.cellTime = s.time.cellTime + BitVec.ofNat 48 left ∧ (t.links.get p).state = .failed ∧
        (t.links.get p).acquireTimer = none ∧ (t.links.get p).camera = (s.links.get p).camera ∧
        (t.links.get p).words = (s.links.get p).words ∧ (t.links.get p).rate = (s.links.get p).rate ∧ (t.links.get p).lastChange = t.time.cellTime ∧
        fired (.ofPort p .linkChange) (linkFields .failed (s.links.get p).rate .timeout) s.toHub t.toHub ∧
        (s.toHub.slotsOwn p → portFreed p (s.deferred.filter (· != p)) (s.toHub.elapse left) t.toHub) ∧
        quiet (.ofPort p .lensDone) s.toHub t.toHub ∧ moveAbandoned p s.toHub t.toHub) ∧
    ((s.links.get p).state = .relock → (s.links.get p).relockWindow = some left →
      ∃ t, exec (.relockExpire p) s = .next t ∧ t.pending = s.pending ∧
        t.time.cellTime = s.time.cellTime + BitVec.ofNat 48 left ∧ (t.links.get p).state = .acquire ∧
        (t.links.get p).rate = (s.links.get p).rate ∧ (t.links.get p).acquireTimer = some 3000000 ∧
        (t.links.get p).relockWindow = none ∧ (t.links.get p).camera = (s.links.get p).camera ∧
        (t.links.get p).carries (.retrain (s.links.get p).rate) ∧ (∀ w ∈ (t.links.get p).words, ∃ r, w = .retrain r) ∧
        fired (.ofPort p .linkChange) (linkFields .acquire (s.links.get p).rate .relockExpired) s.toHub t.toHub ∧
        (s.toHub.slotsOwn p → portFreed p (s.deferred.filter (· != p)) (s.toHub.elapse left) t.toHub) ∧
        quiet (.ofPort p .lensDone) s.toHub t.toHub ∧ moveAbandoned p s.toHub t.toHub) ∧
    ((s.links.get p).state ≠ .acquire → ignored (.acquireTimeout p) s) ∧
    ((s.links.get p).state ≠ .relock → ignored (.relockExpire p) s)

/-- R6, R196: bytes that are no word of the table are discarded and counted where words are taken (UP, and ACQUIRE under lock: log 17),
and nothing else changes. -/
def Obligations.UndecodableWordCounted : Prop :=
  ∀ (p : Port) (raw : List Byte) (s : State), (Instr.undecodableWord p raw).wf = true →
    (((s.links.get p).state = .up ∨ (s.links.get p).state = .acquire ∧ (s.links.get p).locked = true) →
      exec (.undecodableWord p raw) s = .next (s.withHub (s.toHub.modLink p fun l =>
        { l with wordErrors := min 65535 (l.wordErrors + 1) }))) ∧
    (((s.links.get p).state ∉ [.up, .acquire]) → ignored (.undecodableWord p raw) s)

/-- R3, R93, R95, R105: the word on the cable ends. The first waiting word that the link state allows goes onto the cable for 10 µs; words
before it, which are not allowed, leave the list unsent. A TRIGGER not yet reported is reported sent, whatever waits behind it: its slot
goes to DONE as FIRED, or LATE if its frame was so flagged, the frame gets its exposure timestamp, zone, lens snapshot and window, and where
a later slot of the port waits for it its exposure-end timer starts (R91); a report that finds no slot in OFFERED does nothing (R98). (Time
has run on by what the word had left, log 2.) An event that cannot occur in the state changes nothing (log 28). -/
def Obligations.DownstreamWordEnds : Prop :=
  ∀ (p : Port) (s : State),
    let l := s.links.get p
    let noTriggerLost := l.state = .up ∨ ∀ x ∈ l.words, x.triggerTag? = none
    let nextSent (t : State) : Prop :=
      (∀ before next after, l.words = before ++ next :: after → (∀ x ∈ before, x.allowed l.state = false) →
        next.allowed l.state = true → (t.links.get p).cable = some ⟨next, 10, false⟩ ∧ (t.links.get p).words = after) ∧
      (l.words.find? (DownWord.allowed l.state) = none → (t.links.get p).cable = none ∧ (t.links.get p).words = []) ∧
      (t.links.get p).state = l.state ∧ (∀ q, q ≠ p → t.links.get q = (s.toHub.elapse (l.cable.elim 0 (·.left))).links.get q)
    (l.cable = none → ignored (.downstreamWordEnd p) s) ∧
    (∀ w, l.cable = some w → noTriggerLost →
      w.word.triggerTag? = none ∨ w.reported = true ∨
        (∀ x ∈ s.shot.flights, x.stage = .offered → w.word.triggerTag? ≠ some x.tag) →
      ∃ t, exec (.downstreamWordEnd p) s = .next t ∧ t.pending = s.pending ∧
        (s.toHub.elapse w.left).onlyIn [.links, .router, .uplink, .draws, .store, .delivery, .rotation] t.toHub ∧
        t.time.cellTime = s.time.cellTime + BitVec.ofNat 48 w.left ∧ nextSent t) ∧
    (∀ (tag : FrameTag) (exposure left : Nat) (f : Flight),
      l.cable = some ⟨.trigger tag exposure, left, false⟩ → noTriggerLost →
      s.shot.flights.find? (fun x => x.tag == tag && x.stage == .offered) = some f →
      ∃ t, exec (.downstreamWordEnd p) s = .next t ∧ t.pending = s.pending ∧ nextSent t ∧
        t.time = (s.toHub.elapse left).time ∧
        (∀ x ∈ t.shot.flights, x.tag ≠ tag) ∧
        t.shot.stats = vmod s.shot.stats f.slot (fun x =>
          { x with
            fired := if f.late then x.fired else min 65535 (x.fired + 1)
            late := if f.late then min 65535 (x.late + 1) else x.late
            last := some (if f.late then .late else .fired, f.cycle) }) ∧
        (∀ tb j, s.shot.cycle = .running → s.shot.number = f.cycle → s.shot.active = some tb → tb.nextOn f.slot = some j →
          t.shot.exposureEnds.get f.slot = some f.exposure) ∧
        (∀ g ∈ t.store.frames, g.tag = tag → g.exposedAt = some t.time.cellTime ∧
          g.zone = some (s.zones.get f.port).current ∧ g.window = some (g.windowMs * 1000) ∧
          g.lens = some
            ⟨(((s.lenses.get f.port).record.map LensRecord.axes).getD ⟨none, none, none⟩).map (fun a => a.bind (·.actual)),
              (s.lenses.get f.port).moveState⟩) ∧
        t.store.frames.map (·.tag) = s.store.frames.map (·.tag) ∧ t.power = (s.toHub.elapse left).power ∧
        t.lenses = (s.toHub.elapse left).lenses)

/-! ## Camera power -/

/-- R37: POWER_ON by power state. In OFF and LOCKED_OUT a port with an echo job is refused with BUSY, then a claim that does not fit with
BUDGET; else retries used becomes 0 and the port enters PRECHARGE, with POWER_FAULT inactive. R38: POWER_OFF by power state; a claim
released prompts a serving of the deferred list (R35, R55, log 35). From ON the link goes DOWN, LINK_CHANGE fires with cause POWER_OFF
unless it was DOWN already (R16, R17), the FILLING frame closes POWER_LOST (R109, R117; a port has at most one, R101), a slot in GUARD or
OFFERED ends SKIPPED(POWER) (R94, R95), and claim and surge are released together. -/
def Obligations.PowerOnAndOffActByState : Prop :=
  ∀ (c : Cmd) (p : Port) (s : State), s.ready → addresses c p → c.payload = [] →
    let w := s.power.get p
    let started : Hub := s.toHub.modPower p fun w =>
      { w with
        state := .precharge, retriesUsed := 0, discharged := false, dischargeTimer := none, overCount := 0
        inrushTimer := some (w.setup.inrush * 1000) }
    (w.state ∈ [.off, .lockedOut] → s.echo.busy p = true → completes (.powerOn c) s s.toHub 0x20 c 7 []) ∧
    (w.state ∈ [.off, .lockedOut] → s.echo.busy p = false → s.budget < s.reservedSum + w.setup.limit →
      completes (.powerOn c) s s.toHub 0x20 c 8 []) ∧
    (w.state ∈ [.off, .lockedOut] → s.echo.busy p = false → s.reservedSum + w.setup.limit ≤ s.budget →
      completes (.powerOn c) s started 0x20 c 0 [] ∧ started.levelActive (.ofPort p .powerFault) = false ∧
        started.reservedSum ≤ s.budget) ∧
    (w.state ∈ [.precharge, .on] → completes (.powerOn c) s s.toHub 0x20 c 0 []) ∧
    (w.state ∈ [.cooldown, .hunt] → completes (.powerOn c) s s.toHub 0x20 c 7 []) ∧
    (w.state = .off → completes (.powerOff c) s s.toHub 0x21 c 0 []) ∧
    (w.state = .hunt →
      let ended : Hub := s.toHub.modPower p fun w => { w with restore := false }
      (ended.power.get p).claim = 0 ∧ ∃ u, servedIfLess s.toHub ended u ∧ completes (.powerOff c) s u 0x21 c 0 []) ∧
    (w.state ∈ [.precharge, .cooldown, .lockedOut] →
      let ended : Hub := s.toHub.modPower p fun w =>
        { w with
          state := .off, restore := false, inrushTimer := none, onTimer := none, cooldownTimer := none
          discharged := if w.state = .precharge then false else w.discharged
          dischargeTimer := if w.state = .precharge then some 20000 else w.dischargeTimer }
      (ended.power.get p).claim = 0 ∧ ended.levelActive (.ofPort p .powerFault) = false ∧
        ∃ u, servedIfLess s.toHub ended u ∧ completes (.powerOff c) s u 0x21 c 0 []) ∧
    (w.state ∉ [.off, .hunt] → ∃ t, exec (.powerOff c) s = .next t ∧ t.pending = s.pending ∧
      s.toHub.onlyIn [.links, .power, .lenses, .deferred, .shot, .store, .delivery, .router, .uplink, .draws] t.toHub ∧
      t.power.get p =
        { w with
          state := .off, restore := false, inrushTimer := none, onTimer := none, cooldownTimer := none
          discharged := if w.switchClosed then false else w.discharged
          dischargeTimer := if w.switchClosed then some 20000 else w.dischargeTimer
          heldSurge := (t.power.get p).heldSurge } ∧
      (t.power.get p).claim = 0 ∧
      (w.state = .on → (t.links.get p).state = .down ∧ (t.lenses.get p).record = none ∧ (t.power.get p).heldSurge = 0 ∧
        ((s.links.get p).state ≠ .down → (t.links.get p).camera = none ∧ (t.links.get p).words = [] ∧
          (t.links.get p).cable = none ∧ (t.links.get p).acquireTimer = none ∧
          fired (.ofPort p .linkChange) (linkFields .down (s.links.get p).rate .powerOff) s.toHub t.toHub) ∧
        (∀ x ∈ t.shot.flights, x.port ≠ p) ∧ (s.fillingKept → fillingDropped p .powerLost s.toHub t.toHub) ∧
        slotsSkipped p .power s.toHub t.toHub ∧
        (s.toHub.slotsOwn p → portFreed p (s.deferred.filter (· != p)) s.toHub t.toHub)) ∧
      (w.state ≠ .on ∨ (s.links.get p).state = .down → quiet (.ofPort p .linkChange) s.toHub t.toHub) ∧
      quiet (.ofPort p .lensDone) s.toHub t.toHub ∧
      (∀ q, q ≠ p → (t.power.get q).state = (s.power.get q).state ∧ (t.links.get q).state = (s.links.get q).state) ∧
      t.store.dram = s.store.dram ∧ replyOf 0x21 c 0 [] ∈ t.uplink.queue)

/-- R39, R40: POWER_SETUP brings each value into range and writes all seven, unless a risen claim does not fit; BUDGET_SET lowers a value
above 9000 and writes the budget, unless it is below the reserved sum. A claim that falls and a budget that rises prompt a serving of the
deferred list (R35, R40, R55, log 35). (That the serving after a POWER_SETUP finds the new surge allowance is the model's choice, log 37;
that BUDGET_SET answers OK without data and CLAMPED with it is DEDUCED, log 10.) -/
def Obligations.PowerSetupAndBudgetSetWrite : Prop :=
  ∀ (c : Cmd) (p : Port) (s : State), s.ready →
    let bs := c.payload
    let w := s.power.get p
    let sent : PowerSetup :=
      ⟨u16At bs 0, byteAt bs 2, byteAt bs 3, byteAt bs 4, u16At bs 5, u16At bs 7, byteAt bs 9 == 1⟩
    let new : PowerSetup :=
      ⟨min 1500 (max 100 (u16At bs 0)) / 10 * 10, min 255 (max 1 (byteAt bs 2)), min 16 (max 1 (byteAt bs 3)),
        min 7 (byteAt bs 4), min 2550 (max 10 (u16At bs 5)) / 10 * 10, min 500 (u16At bs 7) / 10 * 10, byteAt bs 9 == 1⟩
    let data := w2 new.limit ++ w1 new.inrush ++ w1 new.tripSamples ++ w1 new.retries ++ w2 new.cooldown ++ w2 new.surge ++
      w1 (if new.autoHunt then 1 else 0)
    let status := if new = sent then 0 else 1
    let v := u16At bs 0
    let n := min 9000 v
    (addresses c p → bs.length = 10 → byteAt bs 9 ≤ 1 →
      (w.holdsClaim = true → w.setup.limit < new.limit → s.budget < s.reservedSum + (new.limit - w.setup.limit) →
        completes (.powerSetup c) s s.toHub 0x22 c 8 []) ∧
      (w.holdsClaim = true → w.setup.limit < new.limit → s.reservedSum + (new.limit - w.setup.limit) ≤ s.budget →
        completes (.powerSetup c) s (s.toHub.modPower p fun x => { x with setup := new }) 0x22 c status data) ∧
      (w.holdsClaim = false ∨ new.limit = w.setup.limit →
        completes (.powerSetup c) s (s.toHub.modPower p fun x => { x with setup := new }) 0x22 c status data) ∧
      (w.holdsClaim = true → new.limit < w.setup.limit →
        let written : Hub := s.toHub.modPower p fun x => { x with setup := new }
        ∃ u, served s.deferred written u ∧ completes (.powerSetup c) s u 0x22 c status data)) ∧
    (bs.length = 2 →
      (n < s.reservedSum → completes (.budgetSet c) s s.toHub 0x23 c 6 []) ∧
      (s.reservedSum ≤ n → n ≤ s.budget →
        completes (.budgetSet c) s { s.toHub with budget := n } 0x23 c (if v ≤ 9000 then 0 else 1)
          (if v ≤ 9000 then [] else w2 n)) ∧
      (s.reservedSum ≤ n → s.budget < n →
        ∃ u, served s.deferred { s.toHub with budget := n } u ∧
          completes (.budgetSet c) s u 0x23 c (if v ≤ 9000 then 0 else 1) (if v ≤ 9000 then [] else w2 n)))

/-- R24 to R29, R33, R166: a current sample. The reading is floor(code × 25 / 32); it sets last current and raises peak current. In ON and
PRECHARGE a reading of 3000 or more trips with SHORT, and a run of readings above the threshold with OVERCURRENT or INRUSH; a trip opens the
switch and ends in COOLDOWN or LOCKED_OUT, and POWER_FAULT becomes active: from PRECHARGE its report enters the control queue where its
entry listens and a place is free; with the uplink DOWN it is pending (R44, R187). From ON the link goes DOWN without camera record or
words, LINK_CHANGE fires (R4, R16, R17), the FILLING frame closes POWER_LOST (R109, R117; a port has at most one, R101) and a slot in GUARD
or OFFERED ends SKIPPED(POWER) (R94, R95). A claim or a surge released prompts a serving (R35, R55, log 35). Any other sample counts the run
and changes nothing else. -/
def Obligations.CurrentSampleReadsAndTrips : Prop :=
  ∀ (p : Port) (code : BitVec 12) (s : State),
    let w := s.power.get p
    let r := code.toNat * 25 / 32
    let threshold := if w.state = .precharge then min (2 * w.setup.limit) 3000 else w.setup.limit + w.heldSurge
    let trips := w.state ∈ [.precharge, .on] ∧ (3000 ≤ r ∨ threshold < r ∧ w.setup.tripSamples ≤ w.overCount + 1)
    let cause : TripCause := if 3000 ≤ r then .short else if w.state = .precharge then .inrush else .overcurrent
    (¬ trips → happens (.currentSample p code) s (s.toHub.modPower p fun w =>
      { w with
        last := r, peak := max w.peak r
        overCount :=
          if w.state ∉ [.precharge, .on] then w.overCount else if threshold < r then min 16 (w.overCount + 1) else 0 })) ∧
    (trips → ∃ t, exec (.currentSample p code) s = .next t ∧ t.pending = s.pending ∧
      t.power.get p =
        { w with
          state := if w.retriesUsed < w.setup.retries then .cooldown else .lockedOut
          last := r, peak := max w.peak r, overCount := 0, cause := cause, trips := min 65535 (w.trips + 1)
          discharged := false, dischargeTimer := some 20000, inrushTimer := none, onTimer := none
          cooldownTimer :=
            if w.retriesUsed < w.setup.retries then some (w.setup.cooldown * 1000) else w.cooldownTimer
          heldSurge := (t.power.get p).heldSurge } ∧
      t.levelActive (.ofPort p .powerFault) = true ∧ activated (.ofPort p .powerFault) s.toHub t.toHub ∧
      (w.state = .precharge → s.toHub.listens (.ofPort p .powerFault) → s.toHub.roomFor 1 →
        s.uplink.queue ++ [s.toHub.reportOf (.ofPort p .powerFault) (s.router.entry (.ofPort p .powerFault)).carried
          (w1 (if w.retriesUsed < w.setup.retries then 3 else 4) ++ w1 cause.code ++ w2 (min 65535 (w.trips + 1)) ++
            w1 w.retriesUsed ++ w1 w.setup.retries)] <+: t.uplink.queue) ∧
      (s.toHub.listens (.ofPort p .powerFault) → s.uplink.up = false →
        t.router.pending (.ofPort p .powerFault) = true ∧
          (t.router.entry (.ofPort p .powerFault)).count =
            min 255 ((s.router.entry (.ofPort p .powerFault)).count + 1)) ∧
      (w.state = .on → (t.links.get p).state = .down ∧ (t.lenses.get p).record = none ∧ (t.power.get p).heldSurge = 0 ∧
        ((s.links.get p).state ≠ .down →
          (t.links.get p).camera = none ∧ (t.links.get p).words = [] ∧ (t.links.get p).cable = none ∧
            fired (.ofPort p .linkChange) (linkFields .down (s.links.get p).rate .powerOff) s.toHub t.toHub) ∧
        (∀ x ∈ t.shot.flights, x.port ≠ p) ∧ (s.fillingKept → fillingDropped p .powerLost s.toHub t.toHub) ∧
        slotsSkipped p .power s.toHub t.toHub ∧
        (s.toHub.slotsOwn p → portFreed p (s.deferred.filter (· != p)) s.toHub t.toHub)) ∧
      (w.state = .precharge → portFreed p s.deferred s.toHub t.toHub ∧ t.links.get p = s.links.get p ∧
        quiet (.ofPort p .linkChange) s.toHub t.toHub) ∧
      (cause = .short → w.retriesUsed < w.setup.retries → w.setup.autoHunt = true →
        (s.echo.ports.get p).baseline.isSome → s.echo.busy p = false →
        looksForJob { s.echo with queue := s.echo.queue ++ [(p, .auto)] } t.toHub ∧ t.echo.queuedKind p = some .auto) ∧
      (cause ≠ .short ∨ w.setup.autoHunt = false ∨ w.setup.retries ≤ w.retriesUsed ∨
        (s.echo.ports.get p).baseline = none → t.echo = s.echo) ∧
      (∀ q, q ≠ p → t.power.get q = { s.power.get q with heldSurge := (t.power.get q).heldSurge } ∧
        (t.links.get q).state = (s.links.get q).state) ∧
      t.time = s.time ∧ t.budget = s.budget ∧ t.zones = s.zones ∧ t.store.dram = s.store.dram)

/-- R27, R30 to R32: the power timers. The inrush timer ends PRECHARGE in ON, with the link in ACQUIRE and LINK_CHANGE fired with cause
POWER_ON (R17) and at HALF a RETRAIN added (R9), if the last sample is at or below the limit, else in an INRUSH trip, whose claim released
prompts a serving (R35, R55, log 35); the cooldown timer brings a retry, which waits for an AUTO job of the port; the on timer clears
retries used; the discharge timer sets the discharged flag, and an idle sampler looks for a job (R148, R149). Time has run on by what the
timer had left (log 2). An event that cannot occur in the state changes nothing (log 28). -/
def Obligations.PowerTimersExpire : Prop :=
  ∀ (p : Port) (left : Nat) (s : State),
    let w := s.power.get p
    let h := s.toHub.elapse left
    (w.state = .precharge → w.inrushTimer = some left → w.last ≤ w.setup.limit →
      ∃ t, exec (.inrushExpire p) s = .next t ∧ t.pending = s.pending ∧
        h.onlyIn [.links, .power, .router, .uplink, .draws, .store, .delivery, .rotation] t.toHub ∧
        t.power.get p =
          { h.power.get p with state := .on, overCount := 0, inrushTimer := none, onTimer := some 5000000 } ∧
        t.links.get p =
          { h.links.get p with
            state := .acquire, acquireTimer := some 3000000, locked := false, lastChange := h.time.cellTime
            words := (t.links.get p).words, cable := (t.links.get p).cable } ∧
        ((s.links.get p).rate = .half → (t.links.get p).carries (.retrain .half)) ∧
        ((s.links.get p).rate = .full →
          (t.links.get p).words = (h.links.get p).words ∧ (t.links.get p).cable = (h.links.get p).cable) ∧
        fired (.ofPort p .linkChange) (linkFields .acquire (s.links.get p).rate .powerOn) s.toHub t.toHub ∧
        (∀ q, q ≠ p → t.power.get q = h.power.get q ∧ t.links.get q = h.links.get q)) ∧
    (w.state = .precharge → w.inrushTimer = some left → w.setup.limit < w.last →
      ∃ t, exec (.inrushExpire p) s = .next t ∧ t.pending = s.pending ∧ t.time = h.time ∧
        (t.power.get p).state = (if w.retriesUsed < w.setup.retries then .cooldown else .lockedOut) ∧
        (t.power.get p).cause = .inrush ∧ (t.power.get p).trips = min 65535 (w.trips + 1) ∧
        (t.power.get p).discharged = false ∧ (t.power.get p).dischargeTimer = some 20000 ∧
        (t.power.get p).inrushTimer = none ∧ (t.power.get p).retriesUsed = w.retriesUsed ∧
        portFreed p s.deferred h t.toHub ∧ activated (.ofPort p .powerFault) s.toHub t.toHub ∧
        (∀ q, q ≠ p → (t.power.get q).state = (s.power.get q).state) ∧ t.links.get p = h.links.get p) ∧
    (w.state = .cooldown → w.cooldownTimer = some left → s.echo.autoBusy p = true →
      happens (.cooldownExpire p) s (h.modPower p fun x => { x with cooldownTimer := none })) ∧
    (w.state = .cooldown → w.cooldownTimer = some left → s.echo.autoBusy p = false →
      happens (.cooldownExpire p) s (h.modPower p fun x =>
        { x with
          state := .precharge, retriesUsed := x.retriesUsed + 1, cooldownTimer := none, discharged := false
          dischargeTimer := none, overCount := 0, inrushTimer := some (x.setup.inrush * 1000) })) ∧
    (w.state = .on → w.onTimer = some left →
      exec (.onTimerExpire p) s = .next (s.withHub (h.modPower p fun x => { x with onTimer := none, retriesUsed := 0 }))) ∧
    (w.dischargeTimer = some left →
      ∃ t, exec (.dischargeExpire p) s = .next t ∧ t.pending = s.pending ∧ h.onlyIn [.power, .echo] t.toHub ∧
        t.power = h.power.mod p (fun x => { x with dischargeTimer := none, discharged := true }) ∧
        looksForJob h.echo t.toHub) ∧
    (w.state ≠ .precharge → ignored (.inrushExpire p) s) ∧ (w.state ≠ .cooldown → ignored (.cooldownExpire p) s) ∧
    (w.state ≠ .on → ignored (.onTimerExpire p) s) ∧ (w.dischargeTimer = none → ignored (.dischargeExpire p) s)

/-! ## Settings -/

/-- R19, R62, R65, R68: LINK_SETUP, PRESET_WRITE, LENS_SETUP and LENS_PUSH write what they carry, brought into range, and nothing else. A
LENS_PUSH onto 4 entries drops the oldest and sets the overflow flag; without a target for each present axis it is refused. (That LINK_SETUP
and PRESET_WRITE answer OK without data and CLAMPED with it is DEDUCED, log 10.) -/
def Obligations.LinkAndLensSettingsWritten : Prop :=
  ∀ (c : Cmd) (p : Port) (s : State), s.ready → addresses c p →
    let bs := c.payload
    let part (i : Nat) : Option Nat := if byteAt bs i = 1 then some (min 4095 (u16At bs (i + 1))) else none
    let preset : Targets := ⟨part 1, part 4, part 7⟩
    let clampedPreset := [1, 4, 7].any fun i => byteAt bs i == 1 && 4095 < u16At bs (i + 1)
    let newSetup : LensSetup :=
      ⟨min 63 (byteAt bs 0), min 15 (max 1 (byteAt bs 1)), min 2550 (max 10 (u16At bs 2)) / 10 * 10⟩
    (∀ v, bs = [v] → completes (.linkSetup c) s (s.toHub.modLink p fun l => { l with threshold := min 15 v.toNat }) 0x11 c
      (if 15 < v.toNat then 1 else 0) (if 15 < v.toNat then [15] else [])) ∧
    (∀ k : Fin 16, bs.length = 10 → byteAt bs 0 = k.val → byteAt bs 1 ≤ 1 → byteAt bs 4 ≤ 1 → byteAt bs 7 ≤ 1 →
      completes (.presetWrite c) s (s.toHub.modLens p fun l => { l with presets := l.presets.set k preset }) 0x30 c
        (if clampedPreset then 1 else 0)
        (if clampedPreset then w1 k.val ++ wOpt2 preset.focus ++ wOpt2 preset.iris ++ wOpt2 preset.zoom else [])) ∧
    (bs.length = 4 → completes (.lensSetup c) s (s.toHub.modLens p fun l => { l with setup := newSetup }) 0x36 c
      (if newSetup = ⟨byteAt bs 0, byteAt bs 1, u16At bs 2⟩ then 0 else 1)
      (w1 newSetup.tolerance ++ w1 newSetup.settleCount ++ w2 newSetup.moveTimeout)) ∧
    (∀ r, bs = [] → (s.lenses.get p).record = some r →
      (∀ a x, a ∈ r.axes.toList → a = some x → x.target.isSome) →
      completes (.lensPush c) s (s.toHub.modLens p fun l =>
        { l with stack := (targetsOf r.axes :: l.stack).take 4, overflow := l.overflow || decide (4 ≤ l.stack.length) })
        0x33 c 0 (w1 (min 4 ((s.lenses.get p).stack.length + 1)))) ∧
    (∀ r x, bs = [] → (s.lenses.get p).record = some r → some x ∈ r.axes.toList → x.target = none →
      completes (.lensPush c) s s.toHub 0x33 c 6 []) ∧
    (bs = [] → (s.lenses.get p).record = none → completes (.lensPush c) s s.toHub 0x33 c 6 [])

/-- R97, R119, R129, R134, R143, R145: TIME_SET, STORE_SETUP, IMAGE_HOLD, IMAGE_RESUME, POSE, ZONE_SETUP and ZONE_CLEAR write what they
carry, brought into range, and nothing else; TIME_SET, STORE_SETUP and POSE under any header port (R172). A STORE_SETUP that makes
STORE_LOW active brings its report before the reply where its entry listens and a place is free; where none is, the entry is pending
(R118, R187; that the report stands before the reply is the model's choice, log 9). -/
def Obligations.StoreAndZoneSettingsWritten : Prop :=
  ∀ (c : Cmd) (s : State), s.ready →
    let bs := c.payload
    let mark := min 4096 (u16At bs 0)
    let status := if u16At bs 0 ≤ 4096 then 0 else 1
    let marked : Hub := { s.toHub with store := { s.store with lowMark := mark } }
    let low : Source := .ofHub .storeLow
    let newZone : ZoneSetup :=
      ⟨min 10000000 (max 1000 (u32At bs 0)), min 1000000 (max 1 (u32At bs 4)), min 255 (max 1 (byteAt bs 8))⟩
    (bs.length = 6 → completes (.timeSet c) s
      { s.toHub with time := { s.time with cellTime := BitVec.ofNat 48 (u48At bs 0) } } 0x48 c 0 []) ∧
    (bs.length = 2 →
      (s.store.freePages < s.store.lowMark ∨ mark ≤ s.store.freePages ∨ (s.router.entry low).masked = true →
        completes (.storeSetup c) s marked 0x50 c status (w2 mark)) ∧
      (∃ t, exec (.storeSetup c) s = .next t ∧ t.pending = s.pending ∧
        s.toHub.onlyIn [.store, .router, .uplink, .draws] t.toHub ∧ t.store = { s.store with lowMark := mark } ∧
        t.levelActive low = decide (s.store.freePages < mark) ∧
        (s.store.lowMark ≤ s.store.freePages → s.store.freePages < mark → s.toHub.listens low →
          (s.toHub.roomFor 1 → s.uplink.queue ++ [s.toHub.reportOf low (s.router.entry low).carried (marked.detailOf low),
            replyOf 0x50 c status (w2 mark)] <+: t.uplink.queue) ∧
          (¬ s.toHub.roomFor 1 → t.router.pending low = true ∧
            (t.router.entry low).count = min 255 ((s.router.entry low).count + 1))) ∧
        replyOf 0x50 c status (w2 mark) ∈ t.uplink.queue)) ∧
    (∀ l : List (Port × Zone), 1 ≤ l.length → l.length ≤ 6 →
      bs = w1 l.length ++ l.flatMap (fun q => w1 q.1.val ++ w1 q.2.val) →
      let h := l.foldl (fun h q => h.modZone q.1 fun m => { m with current := q.2 }) s.toHub
      completes (.pose c) s h 0x60 c 0 (allPorts.flatMap fun q => w1 (h.zones.get q).current.val)) ∧
    (∀ p, addresses c p →
      (bs = [] → completes (.imageHold c) s (s.toHub.modDelivery p fun d => { d with hold := true }) 0x52 c 0 []) ∧
      (bs = [] → completes (.imageResume c) s (s.toHub.modDelivery p fun d => { d with hold := false }) 0x53 c 0 []) ∧
      (bs.length = 9 → completes (.zoneSetup c) s (s.toHub.modZone p fun m => { m with setup := newZone }) 0x61 c
        (if newZone = ⟨u32At bs 0, u32At bs 4, byteAt bs 8⟩ then 0 else 1)
        (w4 newZone.minLines ++ w4 newZone.rateThreshold ++ w1 newZone.dropThreshold)) ∧
      (∀ z : Zone, bs = w1 z.val → completes (.zoneClear c) s
        (s.toHub.modZone p fun m => { m with bins := m.bins.set z ⟨0, 0, 0, none⟩ }) 0x63 c 0 []) ∧
      (bs = [255] → completes (.zoneClear c) s
        (s.toHub.modZone p fun m => { m with bins := Vector.replicate 32 ⟨0, 0, 0, none⟩ }) 0x63 c 0 []))

/-- R151, R152, R156: ECHO_SETUP, CABLE_MAP_WRITE and BASELINE_WRITE write what they carry, brought into range, and nothing else; a
BASELINE_WRITE for a port with an echo job is refused with BUSY. (That CABLE_MAP_WRITE and BASELINE_WRITE answer OK without data and CLAMPED
with it is DEDUCED, log 10; that the CLAMPED BASELINE_WRITE carries no count is the model's choice, log 11.) -/
def Obligations.EchoSettingsWritten : Prop :=
  ∀ (c : Cmd) (p : Port) (s : State), s.ready → addresses c p →
    let bs := c.payload
    let new : EchoSettings :=
      ⟨byteAt bs 0, byteAt bs 1, min 1024 (max 16 (u16At bs 2)), min 300 (max 120 (u16At bs 4)), min 1000 (u16At bs 6)⟩
    (bs.length = 8 → byteAt bs 0 ∈ [1, 4, 16] →
      completes (.echoSetup c) s (s.toHub.modEchoPort p fun e => { e with settings := new }) 0x70 c
        (if new = ⟨byteAt bs 0, byteAt bs 1, u16At bs 2, u16At bs 4, u16At bs 6⟩ then 0 else 1)
        (w1 new.averaging ++ w1 new.blanking ++ w2 new.threshold ++ w2 new.velocity ++ w2 new.jointWindow)) ∧
    (∀ l : List Segment, l.length ≤ 8 → (∀ g ∈ l, g.length < 4294967296) →
      bs = w1 l.length ++ l.flatMap (fun g => w4 g.length ++ [g.label]) →
      let m := l.map fun g => { g with length := min 100000 (max 100 g.length) }
      completes (.cableMapWrite c) s (s.toHub.modEchoPort p fun e => { e with map := m }) 0x71 c (if m = l then 0 else 1)
        (if m = l then [] else w1 m.length ++ m.flatMap fun g => w4 g.length ++ [g.label])) ∧
    (∀ t : Trace, (∀ x ∈ t.toList, -32768 ≤ x ∧ x ≤ 32767) → bs = w2 256 ++ t.toList.flatMap wInt → s.echo.busy p = false →
      let b : Trace := vmap (fun x => min 2047 (max (-2048) x)) t
      completes (.baselineWrite c) s (s.toHub.modEchoPort p fun e => { e with baseline := some b }) 0x74 c
        (if b = t then 0 else 1) (if b = t then [] else b.toList.flatMap wInt)) ∧
    (bs.length = 514 → u16At bs 0 = 256 → s.echo.busy p = true → completes (.baselineWrite c) s s.toHub 0x74 c 7 [])

/-! ## Lens moves -/

/-- R51 to R53, R64, R66, R67: PRESET_GO, LENS_POP and LENS_MOVE. With the link neither UP nor RELOCK they are refused with BAD_STATE, and
a LENS_POP of an empty stack with STACK_EMPTY. A set that names no present axis is answered OK and moves nothing. Else a move to the
targets is issued, and the reply is CLAMPED if a target was changed. LENS_POP takes the top entry off either way. -/
def Obligations.LensCommandsIssueMoves : Prop :=
  ∀ (c : Cmd) (p : Port) (s : State), s.ready → addresses c p →
    let bs := c.payload
    let carries := (s.links.get p).state = .up ∨ (s.links.get p).state = .relock
    let l := s.lenses.get p
    let part (i : Nat) : Option Nat := if byteAt bs i = 1 then some (u16At bs (i + 1)) else none
    let sent : Targets := ⟨part 0, part 3, part 6⟩
    let capped : Targets := sent.map fun o => o.map (min 4095)
    let flagsOk := byteAt bs 0 ≤ 1 ∧ byteAt bs 3 ≤ 1 ∧ byteAt bs 6 ≤ 1
    let moves (i : Instr) (kind : Nat) (h : Hub) (t : Targets) (changed : LensRecord → Bool) (data : Hub → List Byte) : Prop :=
      (∀ r, l.record = some r → (axesAsked r.axes t).any = true →
        ∃ u, moveIssued p r t h u ∧ completes i s u kind c (if changed r then 1 else 0)
          (w1 (u.lenses.get p).moveState.code ++ data u)) ∧
      (∀ r, l.record = some r → (axesAsked r.axes t).any = false →
        completes i s h kind c 0 (w1 r.moveState.code ++ data h)) ∧
      (l.record = none → completes i s h kind c 0 (w1 0 ++ data h))
    let written (u : Hub) : List Byte :=
      let axes := ((u.lenses.get p).record.map (·.axes)).getD ⟨none, none, none⟩
      (targetsOf axes).toList.flatMap wOpt2 ++
        wAxes (((u.lenses.get p).record.map (·.moved)).getD ⟨false, false, false⟩)
    (∀ k : Fin 16, bs = w1 k.val → carries →
      moves (.presetGo c) 0x32 s.toHub (l.presets.get k) (fun r => targetOutside r.axes (l.presets.get k)) fun _ => []) ∧
    (∀ top rest, bs = [] → carries → l.stack = top :: rest →
      moves (.lensPop c) 0x34 (s.toHub.modLens p fun l => { l with stack := rest }) top
        (fun r => targetOutside r.axes top) fun _ => w1 rest.length) ∧
    (bs.length = 9 → flagsOk → carries → moves (.lensMove c) 0x35 s.toHub capped
      (fun r => targetOutside r.axes capped || (axesAsked r.axes (sent.map fun o => o.filter (4095 < ·))).any) written) ∧
    (bs = [] → carries → l.stack = [] → completes (.lensPop c) s s.toHub 0x34 c 9 []) ∧
    (bs.length = 1 → byteAt bs 0 < 16 → ¬ carries → completes (.presetGo c) s s.toHub 0x32 c 6 []) ∧
    (bs = [] → ¬ carries → completes (.lensPop c) s s.toHub 0x34 c 6 []) ∧
    (bs.length = 9 → flagsOk → ¬ carries → completes (.lensMove c) s s.toHub 0x35 c 6 [])

/-- R48, R49, R56 to R58: a LENS_STATUS word taken in UP updates limits, actuals, flags and targets of every axis of the record; in MOVING
it is a settle check, which raises or clears the settle progress and at the settle count settles the move, and where a re-clamp changed a
target a LENS_MOVE word carries the new ones (R49, R53). The move timeout stalls the move (time has run on by what it had left, log 2).
Settle and stall fire LENS_DONE (R70), make a slot in GUARD offer its TRIGGER (R92) and release the surge, which prompts a serving of the
deferred list (R36, R55; a release of 0 prompts none, log 35). (That a nonzero moving byte sets the flag is the model's choice, log 27;
that an actual above 4095 is kept is DEDUCED, log 31.) An event that cannot occur in the state changes nothing (log 28). -/
def Obligations.LensMovesSettleOrStall : Prop :=
  ∀ (p : Port) (w : LensStatusWord) (r : LensRecord) (s : State), (s.lenses.get p).record = some r →
    let limits (a : AxisRecord) (e : LensEntry) : Limits :=
      if e.lo.toNat ≤ e.hi.toNat ∧ e.hi.toNat ≤ 4095 then ⟨e.lo.toNat, e.hi.toNat⟩ else a.limits
    let axes := r.axes.zip (fun a e => a.map fun x =>
      { limits := limits x e
        target := some (min (limits x e).hi (max (limits x e).lo (x.target.getD e.actual.toNat)))
        actual := some e.actual.toNat, moving := e.moving != 0 }) w.axes
    let near := ∀ q ∈ axes.toList.zip r.moved.toList, q.2 = true →
      ∃ x n t, q.1 = some x ∧ x.actual = some n ∧ x.target = some t ∧ max n t - min n t ≤ (s.lenses.get p).setup.tolerance
    let retargeted := ∃ q ∈ (targetsOf r.axes).toList.zip (targetsOf axes).toList, q.1.isSome = true ∧ q.1 ≠ q.2
    let ended (h : Hub) (x : LensRecord) : Hub :=
      (h.modLens p fun l => { l with record := some x }).modPower p fun w => { w with heldSurge := 0 }
    ((s.links.get p).state ≠ .up → ignored (.lensStatusWord p w) s) ∧
    ((s.links.get p).state = .up → r.moveState ≠ .moving → happens (.lensStatusWord p w) s
      (s.toHub.modLens p fun l => { l with record := some { r with axes := axes } })) ∧
    ((s.links.get p).state = .up → r.moveState = .moving → ¬ near ∨ r.progress + 1 < (s.lenses.get p).setup.settleCount →
      ∃ t, exec (.lensStatusWord p w) s = .next t ∧ t.pending = s.pending ∧
        s.toHub.onlyIn [.links, .lenses, .router, .uplink, .draws, .store, .delivery, .rotation] t.toHub ∧
        (¬ near → (t.lenses.get p).record = some { r with axes := axes, progress := 0 }) ∧
        (near → (t.lenses.get p).record = some { r with axes := axes, progress := min 15 (r.progress + 1) }) ∧
        (retargeted → (t.links.get p).carries (.lensMove (targetsOf axes)) ∧ (t.links.get p).state = .up) ∧
        (¬ retargeted → t.links = s.links) ∧ quiet (.ofPort p .lensDone) s.toHub t.toHub ∧
        (∀ q, q ≠ p → t.lenses.get q = s.lenses.get q ∧ t.links.get q = s.links.get q)) ∧
    ((s.links.get p).state = .up → r.moveState = .moving → near → (s.lenses.get p).setup.settleCount ≤ r.progress + 1 →
      p ∉ s.deferred →
      let x : LensRecord := { r with
        axes := axes, progress := min 15 (r.progress + 1), moveState := .settled, timeout := none
        doneCause := .settled, doneTime := s.time.cellTime }
      ∃ t, exec (.lensStatusWord p w) s = .next t ∧ t.pending = s.pending ∧ (t.lenses.get p).record = some x ∧
        fired (.ofPort p .lensDone) (lensFields x) s.toHub t.toHub ∧ waitersTriggered p s.toHub t.toHub ∧
        (retargeted → (t.links.get p).carries (.lensMove (targetsOf axes))) ∧
        (∃ u m, s.toHub.onlyIn [.links] u ∧ servedIfLess u (ended u x) m ∧ (¬ retargeted → u.links = s.links) ∧
          (∀ q, q ≠ p → u.links.get q = s.links.get q) ∧ t.power = m.power ∧ t.lenses = m.lenses ∧ t.deferred = m.deferred ∧
          (∀ q, q ≠ p → t.links.get q = m.links.get q)) ∧
        (t.power.get p).heldSurge = 0 ∧ (∀ q, (t.power.get q).state = (s.power.get q).state) ∧
        t.time = s.time ∧ t.zones = s.zones ∧ t.store.dram = s.store.dram) ∧
    (∀ left, r.moveState = .moving → r.timeout = some left → s.slotsKept → p ∉ s.deferred →
      let h := s.toHub.elapse left
      let x : LensRecord := { r with moveState := .stalled, timeout := none, doneCause := .stall, doneTime := h.time.cellTime }
      ∃ t, exec (.moveTimeout p) s = .next t ∧ t.pending = s.pending ∧ t.time = h.time ∧ (t.lenses.get p).record = some x ∧
        fired (.ofPort p .lensDone) (lensFields x) s.toHub t.toHub ∧ waitersTriggered p h t.toHub ∧
        (∃ m, servedIfLess h (ended h x) m ∧ t.power = m.power ∧ t.lenses = m.lenses ∧ t.deferred = m.deferred ∧
          (∀ q, q ≠ p → t.links.get q = m.links.get q)) ∧
        (t.power.get p).heldSurge = 0 ∧ (∀ q, (t.power.get q).state = (s.power.get q).state) ∧ t.zones = s.zones ∧
        t.store.dram = s.store.dram) ∧
    (r.moveState ≠ .moving → ignored (.moveTimeout p) s)

/-! ## The shot cycle -/

/-- R74 to R79: SLOT_WRITE and TABLE_HEADER write the staged table, each value brought into range. TABLE_COMMIT of a staged table that
fails validation is refused with BAD_TABLE, with the first slot in run order that fails and the check it fails; one that passes becomes
active in STOPPED and ARMED and pending in RUNNING. In a table that passes every enabled slot fits the span and no two enabled slots of
one port overlap. (That TABLE_HEADER answers OK without data and CLAMPED with it is DEDUCED, log 10; that SLOT_WRITE's reply carries the
slot without its index is the model's choice, log 11; so is the next-start where no table was active before, log 39.) -/
def Obligations.ShotTableWrittenAndCommitted : Prop :=
  ∀ (c : Cmd) (s : State), s.ready →
    let bs := c.payload
    let staged := s.shot.staged
    (∀ (i : SlotIx) (p : Port) (k : Option (Fin 16)), bs.length = 21 → byteAt bs 0 = i.val → byteAt bs 1 ≤ 1 →
      byteAt bs 2 = p.val → (match k with | some n => byteAt bs 15 = 1 ∧ byteAt bs 16 = n.val | none => byteAt bs 15 = 0) →
      let sent : SlotRecord :=
        ⟨byteAt bs 1 == 1, p, u32At bs 3, u32At bs 7, u16At bs 11, u16At bs 13, k, u16At bs 17, u16At bs 19⟩
      let new : SlotRecord :=
        ⟨byteAt bs 1 == 1, p, min 999999 (u32At bs 3), min 100000 (max 1 (u32At bs 7)), min 50000 (u16At bs 11),
          min 1000 (max 1 (u16At bs 13)), k, min 8192 (max 1 (u16At bs 17)), min 16384 (max 64 (u16At bs 19))⟩
      completes (.slotWrite c) s (s.toHub.modShot fun x => { x with staged := { staged with slots := staged.slots.set i new } })
        0x40 c (if new = sent then 0 else 1)
        (w1 (byteAt bs 1) ++ w1 p.val ++ w4 new.offset ++ w4 new.exposure ++ w2 new.guardTime ++ w2 new.window ++
          w1 (byteAt bs 15) ++ w1 ((k.map Fin.val).getD 0) ++ w2 new.lines ++ w2 new.lineBytes)) ∧
    (∀ src : StartSource, bs.length = 7 → byteAt bs 0 = src.code →
      let sent : TableHeader := ⟨src, u16At bs 1, u32At bs 3⟩
      let new : TableHeader := ⟨src, min 65535 (max 1 (u16At bs 1)), min 1000000 (max 1000 (u32At bs 3))⟩
      completes (.tableHeader c) s (s.toHub.modShot fun x => { x with staged := { staged with header := new } }) 0x41 c
        (if new = sent then 0 else 1) (if new = sent then [] else w1 src.code ++ w2 new.pitch ++ w4 new.span)) ∧
    (∀ i k, bs = [] → staged.fault? = some (i, k) → completes (.tableCommit c) s s.toHub 0x42 c 11 (w1 i.val ++ w1 k)) ∧
    (bs = [] → staged.fault? = none → s.shot.cycle = .running →
      completes (.tableCommit c) s (s.toHub.modShot fun x => { x with pending := some staged }) 0x42 c 0 []) ∧
    (bs = [] → staged.fault? = none → s.shot.cycle ≠ .running →
      completes (.tableCommit c) s (s.toHub.modShot fun x =>
        { x with
          active := some staged, pending := none
          nextStart :=
            if staged.header.source = .encoder ∧ (x.active.map (·.header.source)) ≠ some .encoder then
              s.time.position + BitVec.ofNat 32 staged.header.pitch
            else x.nextStart }) 0x42 c 0 []) ∧
    (∀ (t : ShotTable) (i : SlotIx) (k : Nat), t.fault? = some (i, k) →
      let x (j : SlotIx) : SlotRecord := t.slots.get j
      let before (a b : SlotIx) : Prop := (x a).offset < (x b).offset ∨ (x a).offset = (x b).offset ∧ a < b
      let fits (j : SlotIx) : Prop :=
        (x j).offset + (x j).guardTime + (x j).exposure + (x j).window * 1000 ≤ t.header.span
      let clear (j : SlotIx) : Prop := ∀ m, (x m).enabled = true → (x m).port = (x j).port → before m j →
        (x m).offset + (x m).occupancy ≤ (x j).offset
      (x i).enabled = true ∧ (k = 1 ∧ ¬ fits i ∨ k = 2 ∧ fits i ∧ ¬ clear i) ∧
        (∀ j, (x j).enabled = true → before j i → fits j ∧ clear j)) ∧
    (∀ t : ShotTable, t.fault? = none →
      (∀ i, (t.slots.get i).enabled = true →
        (t.slots.get i).offset + (t.slots.get i).guardTime + (t.slots.get i).exposure + (t.slots.get i).window * 1000 ≤
          t.header.span) ∧
      (∀ i j, i ≠ j → (t.slots.get i).enabled = true → (t.slots.get j).enabled = true →
        (t.slots.get i).port = (t.slots.get j).port →
        (t.slots.get i).offset + (t.slots.get i).occupancy ≤ (t.slots.get j).offset ∨
          (t.slots.get j).offset + (t.slots.get j).occupancy ≤ (t.slots.get i).offset))

/-- R81, R84, R87, R88: CYCLE_RUN, CYCLE_FIRE, CYCLE_STOP and the span timer, by cycle state. CYCLE_STOP NOW in RUNNING ends the cycle at
once: opening and exposure-end timers stop; each slot in GUARD ends SKIPPED(STOPPED), is counted, and its frame is released (R94, R95,
R109); a slot in OFFERED goes on, with its frame and its TRIGGER; and a pending table becomes active. A CYCLE_FIRE in ARMED begins a cycle
(R85; the first slots' moves are issued in port order, the model's choice, log 38). (The slots in GUARD end in the order in which they
opened, the model's choice, log 43. The span's expiry lets time run on by what the timer had left, log 2, with the uplink UP or DOWN, R170;
next-start where no table was active before is the model's choice, log 39.) An event that cannot occur in the state changes nothing (log
28). -/
def Obligations.CycleCommandsActByState : Prop :=
  ∀ (c : Cmd) (s : State),
    let x := s.shot
    let waiting : List Flight := x.flights.filter (·.stage != .offered)
    let applied (pos : BitVec 32) (x : Shot) : Shot := match x.pending with
      | some tb =>
        { x with
          active := some tb, pending := none
          nextStart :=
            if tb.header.source = .encoder ∧ (x.active.map (·.header.source)) ≠ some .encoder then
              pos + BitVec.ofNat 32 tb.header.pitch
            else x.nextStart }
      | none => x
    (s.ready → c.payload = [] →
      (x.cycle = .stopped → x.active = none → completes (.cycleRun c) s s.toHub 0x44 c 6 []) ∧
      (∀ tb, x.cycle = .stopped → x.active = some tb → completes (.cycleRun c) s
        { s.toHub with
          shot := { x with
            cycle := .armed
            nextStart :=
              if tb.header.source = .encoder then s.time.position + BitVec.ofNat 32 tb.header.pitch else x.nextStart } }
        0x44 c 0 []) ∧
      (x.cycle = .armed → completes (.cycleRun c) s s.toHub 0x44 c 0 []) ∧
      (x.cycle = .running → completes (.cycleRun c) s { s.toHub with shot := { x with stopAfter := false } } 0x44 c 0 []) ∧
      (x.cycle = .stopped → completes (.cycleFire c) s s.toHub 0x45 c 6 []) ∧
      (x.cycle = .running → ∃ t, exec (.cycleFire c) s = .next t ∧ t.pending = s.pending ∧
        s.toHub.onlyIn [.shot, .router, .uplink, .draws] t.toHub ∧ startMissed .command s.toHub t.toHub ∧
        replyOf 0x45 c 7 [] ∈ t.uplink.queue) ∧
      (∀ tb, x.cycle = .armed → x.active = some tb → ∃ t, exec (.cycleFire c) s = .next t ∧ t.pending = s.pending ∧
        cycleBegun tb s.toHub t.toHub ∧ t.shot.nextStart = x.nextStart ∧ replyOf 0x45 c 0 [] ∈ t.uplink.queue)) ∧
    (∀ now : Bool, s.ready → c.payload = [if now then 1 else 0] →
      (x.cycle = .stopped → completes (.cycleStop c) s s.toHub 0x46 c 0 []) ∧
      (x.cycle = .armed → completes (.cycleStop c) s { s.toHub with shot := { x with cycle := .stopped } } 0x46 c 0 []) ∧
      (x.cycle = .running → now = false →
        completes (.cycleStop c) s { s.toHub with shot := { x with stopAfter := true } } 0x46 c 0 []) ∧
      (x.cycle = .running → now = true → ∃ t, exec (.cycleStop c) s = .next t ∧ t.pending = s.pending ∧
        s.toHub.onlyIn [.shot, .store, .router, .uplink, .draws] t.toHub ∧
        t.shot = { applied s.time.position x with
          cycle := .stopped, stopAfter := false, span := none, opening := Vector.replicate 16 none
          exposureEnds := Vector.replicate 16 none
          flights := x.flights.filter fun f => decide (f.tag ∉ waiting.map (·.tag))
          stats := waiting.foldl (fun v f => vmod v f.slot fun y =>
            { y with skipped := min 65535 (y.skipped + 1), last := some (.skipped .stopped, f.cycle) }) x.stats } ∧
        (∀ f ∈ t.shot.flights, f.stage = .offered) ∧
        t.store = { s.store with frames := s.store.frames.filter fun g => decide (g.tag ∉ waiting.map (·.tag)) } ∧
        (∀ f, waiting = [f] → fired (.ofHub .slotSkipped) (w1 f.slot.val ++ w1 f.port.val ++ w4 f.cycle.toNat ++ w1 5)
          s.toHub t.toHub) ∧
        (waiting = [] → quiet (.ofHub .slotSkipped) s.toHub t.toHub) ∧
        replyOf 0x46 c 0 [] ∈ t.uplink.queue)) ∧
    (∀ left, x.cycle = .running → x.span = some left → happens .spanExpire s
      ((s.toHub.elapse left).modShot fun y =>
        { applied s.time.position y with
          cycle := if x.stopAfter then .stopped else .armed, stopAfter := false, span := none })) ∧
    (x.cycle ≠ .running → ignored .spanExpire s)

/-- R82 to R86: the encoder and the trigger line. One phase changed forward adds 1 to the position, backward subtracts 1; both changed is
counted illegal. As the position reaches next-start with source ENCODER, next-start advances by the pitch and a start occurs; with source
LINE each rising edge of the trigger line is one. A start begins a cycle in ARMED, with the first slots' lens moves issued and the slots
at offset 0 opened, and is missed in RUNNING. (That the moves are issued in port order is the model's choice, log 38; that a difference
which wraps from its least value to its greatest counts as reaching is the model's choice, log 40.) -/
def Obligations.EncoderAndTriggerLineStartCycles : Prop :=
  ∀ (a b : Bool) (s : State),
    let x := s.shot
    let old := s.time
    let forward := (old.phaseA, old.phaseB, a, b) ∈ [(false, false, true, false), (true, false, true, true),
      (true, true, false, true), (false, true, false, false)]
    let backward := (a, b, old.phaseA, old.phaseB) ∈ [(false, false, true, false), (true, false, true, true),
      (true, true, false, true), (false, true, false, false)]
    let both := a ≠ old.phaseA ∧ b ≠ old.phaseB
    let time : Timebase := { old with
      phaseA := a, phaseB := b, illegal := if both then min 65535 (old.illegal + 1) else old.illegal
      position := if forward then old.position + 1 else if backward then old.position - 1 else old.position }
    let encoder := x.cycle ≠ .stopped ∧ (x.active.map (·.header.source)) = some .encoder
    let reaches := (old.position - x.nextStart).toInt < 0 ∧ 0 ≤ (time.position - x.nextStart).toInt
    let line := (x.active.map (·.header.source)) = some .line
    (¬ (encoder ∧ reaches) → happens (.encoderEdge a b) s { s.toHub with time := time }) ∧
    (∀ tb, encoder → reaches → x.active = some tb →
      let h : Hub := { s.toHub with
        time := time, shot := { x with nextStart := x.nextStart + BitVec.ofNat 32 tb.header.pitch } }
      ∃ t, exec (.encoderEdge a b) s = .next t ∧ t.pending = s.pending ∧ t.time = time ∧
        t.shot.nextStart = x.nextStart + BitVec.ofNat 32 tb.header.pitch ∧
        (x.cycle = .armed → cycleBegun tb h t.toHub) ∧ (x.cycle = .running → startMissed .encoder h t.toHub)) ∧
    (¬ line ∨ x.cycle = .stopped → happens .triggerLineEdge s s.toHub) ∧
    (∀ tb, line → x.active = some tb → x.cycle ≠ .stopped →
      ∃ t, exec .triggerLineEdge s = .next t ∧ t.pending = s.pending ∧ t.time = old ∧
        (x.cycle = .armed → cycleBegun tb s.toHub t.toHub) ∧ (x.cycle = .running → startMissed .line s.toHub t.toHub))

/-- R85, R90 to R95, R100, R103 to R105: a slot opens, as `slotOpened` says: the four checks in order, and what a slot that fails one or
passes them all brings. Slots with equal offsets open in run order: while an earlier one is NOT_OPEN the event cannot occur. (Time has run
on by what the opening timer had left, log 2; a guard of 0 expires within the opening, log 18.) An event that cannot occur in the state
changes nothing (log 28). -/
def Obligations.SlotOpensByItsChecks : Prop :=
  ∀ (i : SlotIx) (tb : ShotTable) (left : Nat) (s : State),
    s.shot.active = some tb →
    let early := ∃ j, j < i ∧ (tb.slots.get j).enabled = true ∧ (tb.slots.get j).offset = (tb.slots.get i).offset ∧
      (s.shot.opening.get j).isSome = true
    (s.shot.cycle ≠ .running ∨ s.shot.opening.get i = none ∨ early → ignored (.slotOpen i) s) ∧
    (s.shot.cycle = .running → s.shot.opening.get i = some left → ¬ early →
      ∃ u, slotOpened tb i (s.toHub.elapse left) u ∧ happens (.slotOpen i) s u)

/-- R91, R92: the guard timer's expiry offers the TRIGGER with the frame flagged LENS_LATE; the exposure end issues the lens move of the
next enabled slot of the port in run order, if it names a preset. (Time has run on by what the timer had left, log 2.) An event that
cannot occur in the state changes nothing (log 28). -/
def Obligations.GuardAndExposureTimersExpire : Prop :=
  ∀ (i : SlotIx) (s : State),
    (∀ (f : Flight) (left : Nat), s.slotsKept → f.stage = .waiting left →
      s.shot.flights.find? (fun x => x.slot == i && x.stage != .offered) = some f →
      ∃ t, exec (.guardExpire i) s = .next t ∧ t.pending = s.pending ∧ t.time = (s.toHub.elapse left).time ∧
        t.shot.flights = s.shot.flights.map (fun x =>
          if x.tag = f.tag then { x with stage := .offered, late := true } else x.pass left) ∧
        (∀ g ∈ t.store.frames, g.tag = f.tag → g.lensLate = true) ∧
        t.store.frames.map (·.tag) = s.store.frames.map (·.tag) ∧
        (t.links.get f.port).carries (.trigger f.tag f.exposure) ∧ t.shot.stats = s.shot.stats ∧
        (∀ q, (t.links.get q).state = (s.links.get q).state) ∧ t.power = (s.toHub.elapse left).power ∧
        t.lenses = (s.toHub.elapse left).lenses) ∧
    ((∀ x ∈ s.shot.flights, x.slot = i → x.stage = .offered) → ignored (.guardExpire i) s) ∧
    (∀ (tb : ShotTable) (left : Nat), s.shot.cycle = .running → s.shot.exposureEnds.get i = some left →
      s.shot.active = some tb →
      let h := (s.toHub.elapse left).modShot fun x => { x with exposureEnds := x.exposureEnds.set i none }
      (tb.nextOn i = none → happens (.exposureEnd i) s h) ∧
      (∀ j, tb.nextOn i = some j → ∃ u, slotMoveIssued (tb.slots.get j) h u ∧ happens (.exposureEnd i) s u)) ∧
    (s.shot.cycle ≠ .running ∨ s.shot.exposureEnds.get i = none → ignored (.exposureEnd i) s)

/-! ## Frame reception -/

/-- R110 to R113, R136, R137, R140, R142: a LINE word taken in UP. A stray, an overlong and a duplicate line is counted or flagged and
dropped; any other is placed: the bytes of its place in the frame's pages are the payload's, cut or zero-filled to the line bytes, and every
other byte of the DRAM is as it was; it joins the received lines, which stay in ascending order; it is counted in the bin of the port's
zone, where a bad line may make the bin suspect with cause RATE, for which ZONE_SUSPECT fires; with the last expected line the frame closes
COMPLETE and joins its port's delivery FIFO. -/
def Obligations.LineWordPlacedOrDropped : Prop :=
  ∀ (p : Port) (w : LineWord) (s : State),
    let n := w.line.toNat
    ((s.links.get p).state ≠ .up → ignored (.lineWord p w) s) ∧
    ((s.links.get p).state = .up →
      let stray := happens (.lineWord p w) s (s.toHub.modStore fun st =>
        { st with strays := st.strays.mod p fun k => min 65535 (k + 1) })
      (s.store.filling? p = none → stray) ∧
      (∀ f, s.store.filling? p = some f → f.exposedAt = none ∨ f.tag ≠ w.tag → stray) ∧
      (∀ f, s.store.filling? p = some f → f.exposedAt.isSome → f.tag = w.tag → f.lines ≤ n →
        happens (.lineWord p w) s (s.toHub.modFrame f.tag fun g => { g with overlong := true })) ∧
      (∀ f b, s.store.filling? p = some f → f.exposedAt.isSome → f.tag = w.tag → n < f.lines → (n, b) ∈ f.received →
        happens (.lineWord p w) s (s.toHub.modStore fun st =>
          { st with duplicates := st.duplicates.mod p fun k => min 65535 (k + 1) })) ∧
      (∀ f, s.store.filling? p = some f → f.exposedAt.isSome → f.tag = w.tag → n < f.lines →
        (∀ b, (n, b) ∉ f.received) → s.memoryKept → s.pagesKept →
        let bad := decide (w.payload.length ≠ f.lineBytes ∨ crc16 w.payload ≠ w.crc)
        let last := f.received.length + 1 = f.lines
        let z := (s.zones.get p).current
        let setup := (s.zones.get p).setup
        let old := (s.zones.get p).bins.get z
        let half := if old.lines = 4294967295 then 2 else 1
        let new : Bin := { old with lines := old.lines / half + 1, bad := old.bad / half + (if bad then 1 else 0) }
        let rate := new.bad * 1000000 / new.lines
        let suspect := bad = true ∧ old.suspect = none ∧ setup.minLines ≤ new.lines ∧ setup.rateThreshold ≤ rate
        let entry := s.router.entry (.ofPort p .zoneSuspect)
        ∃ (h : Hub) (l : List (Nat × Bool)), happens (.lineWord p w) s h ∧
          s.toHub.onlyIn [.store, .delivery, .zones, .router, .uplink, .draws] h ∧
          (∀ k a, k < f.lineBytes → pageAddress f.pages (n * f.lineBytes + k) = some a →
            h.store.dram.read a = w.payload.getD k 0) ∧
          (∀ a, (∀ k, k < f.lineBytes → pageAddress f.pages (n * f.lineBytes + k) ≠ some a) →
            h.store.dram.read a = s.store.dram.read a) ∧
          (∀ q, q ∈ l ↔ q = (n, bad) ∨ q ∈ f.received) ∧ l.length = f.received.length + 1 ∧
          ((f.received.map (·.1)).Pairwise (· < ·) → (l.map (·.1)).Pairwise (· < ·)) ∧
          h.store = { s.store with
            dram := h.store.dram
            frames := s.store.frames.map fun g =>
              if g.tag = f.tag then
                { g with
                  received := l, badLines := f.badLines || bad
                  badList := if bad ∧ f.badList.length < 64 then f.badList ++ [n] else f.badList
                  window := if last then none else f.window
                  closeStatus := if last then some .complete else f.closeStatus
                  closeTime := if last then some s.time.cellTime else f.closeTime
                  state := if last then .queued else .filling }
              else g } ∧
          h.delivery = s.delivery.mod p (fun d => { d with fifo := if last then d.fifo ++ [f.tag] else d.fifo }) ∧
          (suspect → h.zones = s.zones.mod p fun m =>
            { m with bins := m.bins.set z { new with suspect := some (.rate, s.time.cellTime) } }) ∧
          (¬ suspect → h.zones = s.zones.mod p fun m => { m with bins := m.bins.set z new }) ∧
          (suspect → fired (.ofPort p .zoneSuspect) (w1 z.val ++ w1 0 ++ w4 new.lines ++ w4 new.bad ++ w2 new.drops ++ w4 rate ++
            w6 s.time.cellTime.toNat) s.toHub h) ∧
          (¬ suspect ∨ entry.masked = true → h.router = s.router ∧ h.uplink = s.uplink)))

/-- R107, R114, R115: an EOF word for the port's triggered FILLING frame closes it EOF_SHORT with its line count; the frame window's
expiry closes it TIMEOUT (time has run on by what it had left, log 2). A closed frame is QUEUED and joins the tail of its port's delivery
FIFO; the other frames are as they were. Any other EOF is dropped and counts nowhere. An event that cannot occur in the state changes
nothing (log 28). -/
def Obligations.EofAndWindowCloseFrames : Prop :=
  ∀ (p : Port) (w : EofWord) (s : State),
    let closed (f : Frame) (h : Hub) (status : CloseStatus) (eof : Option Nat) : Hub := { h with
      delivery := h.delivery.mod p fun d => { d with fifo := d.fifo ++ [f.tag] }
      store := { h.store with
        frames := h.store.frames.map fun g =>
          if g.tag = f.tag then
            { g with
              state := .queued, window := none, closeStatus := some status, closeTime := some h.time.cellTime
              eofCount := eof.or g.eofCount }
          else g } }
    ((s.links.get p).state ≠ .up → ignored (.eofWord p w) s) ∧
    (∀ f, (s.links.get p).state = .up → s.store.filling? p = some f → f.exposedAt.isSome → f.tag = w.tag →
      happens (.eofWord p w) s (closed f s.toHub .eofShort (some w.lines.toNat))) ∧
    ((s.links.get p).state = .up → (∀ f, s.store.filling? p = some f → f.exposedAt = none ∨ f.tag ≠ w.tag) →
      happens (.eofWord p w) s s.toHub) ∧
    (∀ f left, s.store.filling? p = some f → f.window = some left →
      happens (.frameWindowExpire p) s (closed f (s.toHub.elapse left) .timeout none)) ∧
    ((∀ f, s.store.filling? p = some f → f.window = none) → ignored (.frameWindowExpire p) s)

/-! ## Echo location -/

/-- R42, R154, R164: BASELINE_LEARN and HUNT check in order and queue a job for the port, answering its place. A HUNT takes the port into
HUNT: from ON or PRECHARGE with its switch open and the restore flag as asked, from OFF or LOCKED_OUT with the restore flag clear and the
discharged flag kept. From ON the link goes DOWN without camera record or words, LINK_CHANGE fires (R4, R16, R17), the FILLING frame closes
POWER_LOST (R109, R117; a port has at most one, R101) and a slot in GUARD or OFFERED ends SKIPPED(HUNT) (R94, R95). A claim not kept and a
surge released prompt a serving (R35, R55, log 35). With the job on the queue an idle sampler looks for one (R148, R149). (The place in the
reply is the job's as it joins the queue, log 26.) -/
def Obligations.EchoJobsQueued : Prop :=
  ∀ (c : Cmd) (p : Port) (s : State), s.ready → addresses c p →
    let w := s.power.get p
    let place := w1 (s.echo.queue.length + 1)
    (c.payload = [] →
      (w.state ∉ [.off, .lockedOut] → completes (.baselineLearn c) s s.toHub 0x73 c 6 []) ∧
      (w.state ∈ [.off, .lockedOut] → s.echo.busy p = true → completes (.baselineLearn c) s s.toHub 0x73 c 7 []) ∧
      (w.state ∈ [.off, .lockedOut] → s.echo.busy p = false →
        ∃ h, completes (.baselineLearn c) s h 0x73 c 0 place ∧ s.toHub.onlyIn [.echo] h ∧ h.echo.kind? p = some .learn ∧
          h.echo.ports = s.echo.ports ∧ looksForJob { s.echo with queue := s.echo.queue ++ [(p, .learn)] } h)) ∧
    (∀ restore : Bool, c.payload = [if restore then 1 else 0] →
      ((s.echo.ports.get p).baseline = none → completes (.hunt c) s s.toHub 0x77 c 10 []) ∧
      ((s.echo.ports.get p).baseline.isSome → s.echo.busy p = true → completes (.hunt c) s s.toHub 0x77 c 7 []) ∧
      ((s.echo.ports.get p).baseline.isSome → s.echo.busy p = false → w.state ∈ [.cooldown, .hunt] →
        completes (.hunt c) s s.toHub 0x77 c 7 []) ∧
      ((s.echo.ports.get p).baseline.isSome → s.echo.busy p = false → w.state ∉ [.cooldown, .hunt] →
        ∃ t, exec (.hunt c) s = .next t ∧ t.pending = s.pending ∧
          s.toHub.onlyIn [.links, .power, .lenses, .deferred, .shot, .store, .delivery, .echo, .router, .uplink, .draws]
            t.toHub ∧
          t.power.get p =
            { w with
              state := .hunt
              restore := if w.switchClosed then restore else false
              discharged := if w.switchClosed then false else w.discharged
              dischargeTimer := if w.switchClosed then some 20000 else w.dischargeTimer
              inrushTimer := if w.switchClosed then none else w.inrushTimer
              onTimer := if w.switchClosed then none else w.onTimer
              heldSurge := (t.power.get p).heldSurge } ∧
          t.echo.kind? p = some .hunt ∧ t.echo.ports = s.echo.ports ∧
          looksForJob { s.echo with queue := s.echo.queue ++ [(p, .hunt)] } t.toHub ∧
          (w.state = .on → (t.links.get p).state = .down ∧ (t.lenses.get p).record = none ∧
            ((s.links.get p).state ≠ .down →
              (t.links.get p).camera = none ∧ (t.links.get p).words = [] ∧ (t.links.get p).cable = none ∧
                fired (.ofPort p .linkChange) (linkFields .down (s.links.get p).rate .powerOff) s.toHub t.toHub) ∧
            (∀ x ∈ t.shot.flights, x.port ≠ p) ∧ (s.fillingKept → fillingDropped p .powerLost s.toHub t.toHub) ∧
            slotsSkipped p .hunt s.toHub t.toHub ∧
            (s.toHub.slotsOwn p → portFreed p (s.deferred.filter (· != p)) s.toHub t.toHub)) ∧
          (w.state ≠ .on → portFreed p s.deferred s.toHub t.toHub) ∧
          (w.state ≠ .on ∨ (s.links.get p).state = .down → quiet (.ofPort p .linkChange) s.toHub t.toHub) ∧
          (∀ q, q ≠ p → (t.power.get q).state = (s.power.get q).state ∧ (t.links.get q).state = (s.links.get q).state) ∧
          t.store.dram = s.store.dram ∧ replyOf 0x77 c 0 place ∈ t.uplink.queue))

/-- R149, R150, R155, R165, R33: each shot adds its 256 samples to the sums; after the last the job completes. Its result is stored; a
LEARN stores floor(sum / 16) as the baseline; a HUNT ends in PRECHARGE with restore set, else in OFF; an AUTO that places a SHORT on the
cable of a port in COOLDOWN locks it out, and the claim released prompts a serving (R35, R55, log 35). HUNT_DONE fires with the result
just stored (R169), and the sampler, idle again, looks for a job (R148, R149). (Time has run on by what the sampler had left, log 2.) An
event that cannot occur in the state changes nothing (log 28). -/
def Obligations.SamplerRunsJobs : Prop :=
  ∀ (j : EchoJob) (s : State), s.echo.sampler = some j →
    let p := j.port
    let h := s.toHub.elapse j.due
    let w := h.power.get p
    let result := j.result h.time.cellTime
    (∀ samples, j.shots < j.settings.averaging →
      exec (.echoShot samples) s = .next (s.withHub (h.modEcho fun e =>
        { e with
          sampler := some { j with sums := vzip (fun a b => a + b.toInt) j.sums samples, shots := j.shots + 1, due := 1000 } }))) ∧
    (∀ samples, j.settings.averaging ≤ j.shots → ignored (.echoShot samples) s) ∧
    (j.shots ≠ j.settings.averaging → ignored .echoJobComplete s) ∧
    (j.shots = j.settings.averaging → (∀ q ∈ s.echo.queue, q.1 ≠ p) →
      ∃ t, exec .echoJobComplete s = .next t ∧ t.pending = s.pending ∧ t.time = h.time ∧
        t.echo.ports = s.echo.ports.mod p (fun e =>
          { e with
            last := some result
            baseline := if j.kind = .learn then some (vmap (fun x => x.fdiv 16) j.sums) else e.baseline }) ∧
        t.echo.busy p = false ∧ looksForJob { s.echo with sampler := none, ports := t.echo.ports } t.toHub ∧
        fired (.ofPort p .huntDone) (huntFields result) s.toHub t.toHub ∧ portFreed p s.deferred h t.toHub ∧
        (j.kind = .learn → t.power = h.power) ∧
        (j.kind = .hunt → w.state = .hunt → w.restore = true →
          t.power.get p =
            { w with
              state := .precharge, restore := false, discharged := false, dischargeTimer := none, overCount := 0
              inrushTimer := some (w.setup.inrush * 1000) }) ∧
        (j.kind = .hunt → w.state = .hunt → w.restore = false → t.power.get p = { w with state := .off }) ∧
        (j.kind = .auto → w.state = .cooldown → result.outcome = .shortFault →
          (result.finding.map (·.place)) ≠ some .beyondMap →
          t.power.get p = { w with state := .lockedOut, cooldownTimer := none, cause := .shortLocated }) ∧
        (j.kind = .auto → w.state ≠ .cooldown → t.power = h.power) ∧
        (j.kind = .auto → w.state = .cooldown → w.cooldownTimer.isSome →
          result.outcome ≠ .shortFault ∨ (result.finding.map (·.place)) = some .beyondMap → t.power = h.power) ∧
        (j.kind = .auto → w.state = .cooldown → w.cooldownTimer = none →
          result.outcome ≠ .shortFault ∨ (result.finding.map (·.place)) = some .beyondMap →
          (t.power.get p).state = .precharge ∧ (t.power.get p).retriesUsed = w.retriesUsed + 1) ∧
        (∀ q, q ≠ p → (t.power.get q).state = (s.power.get q).state) ∧ t.zones = s.zones ∧ t.store.dram = s.store.dram)

/-- R155, R157, R162: the result of a job has the job's kind and averaging and the time of its completion. A LEARN's is NO_FAULT, without a
crossing and without differences. Any other holds the 256 differences of the trace, floor(sum / averaging), from the baseline. R158, R159,
R160: the crossing is the least sample at or past the blanking whose difference reaches the threshold; its sign is the outcome; the fraction
places it between two samples; distance, magnitude and clipped flag follow, and the place is that of the distance on the job's own cable map
by its joint window. Without a crossing the outcome is NO_FAULT and nothing of these is held. -/
def Obligations.CrossingGivesDelayAndDistance : Prop :=
  (∀ (j : EchoJob) (now : CellTime), j.kind = .learn →
    j.result now =
      { kind := .learn, outcome := .noFault, finding := none, averaging := j.settings.averaging, differences := none
        time := now }) ∧
  ∀ (j : EchoJob) (base : Trace) (now : CellTime), j.kind ≠ .learn → j.baseline = some base →
    let x := j.settings
    let t (i : Fin 256) : Int := (j.sums.get i).fdiv x.averaging
    let d (i : Fin 256) : Int := t i - base.get i
    let size (i : Fin 256) : Nat := (d i).natAbs
    let r := j.result now
    (r.kind = j.kind ∧ r.averaging = x.averaging ∧ r.time = now ∧
      ∃ differences, r.differences = some differences ∧ ∀ i, differences.get i = d i) ∧
    ((∀ i, x.blanking ≤ i.val → size i < x.threshold) → r.outcome = .noFault ∧ r.finding = none) ∧
    (∀ i, 16 ≤ x.threshold → x.blanking ≤ i.val → x.threshold ≤ size i →
      (∀ k, x.blanking ≤ k.val → k.val < i.val → size k < x.threshold) →
      d i ≠ 0 ∧ (0 < d i → r.outcome = .openFault) ∧ (d i < 0 → r.outcome = .shortFault) ∧
      ∃ g, r.finding = some g ∧ g.crossing = i.val ∧
        (i.val = 0 → g.delay = 0) ∧
        (∀ k, k.val + 1 = i.val → x.threshold ≤ size k → g.delay = 16 * k.val ∧ k.val < x.blanking) ∧
        (∀ k, k.val + 1 = i.val → size k < x.threshold →
          g.delay = 16 * k.val + min 15 (16 * (x.threshold - size k) / (size i - size k)) ∧
          16 * (x.threshold - size k) / (size i - size k) ≤ 16 ∧
          (16 * (x.threshold - size k) / (size i - size k) = 16 → size i = x.threshold)) ∧
        g.delay ≤ 4079 ∧
        g.distance = g.delay * x.velocity / 32 ∧ g.place = placeOn j.map x.jointWindow g.distance ∧
        (x.velocity ≤ 300 → g.distance ≤ 38240) ∧
        (∀ m, i.val ≤ m.val → m.val ≤ min (i.val + 7) 255 → size m ≤ g.magnitude) ∧
        (∃ m, i.val ≤ m.val ∧ m.val ≤ min (i.val + 7) 255 ∧ size m = g.magnitude) ∧ x.threshold ≤ g.magnitude ∧
        ((∀ m, size m ≤ 4095) → g.magnitude ≤ 4095) ∧
        (g.clipped = true ↔ ∃ m, i.val - 1 ≤ m.val ∧ m.val ≤ min (i.val + 7) 255 ∧ (t m = -2048 ∨ t m = 2047)))

/-- R161: the distance is placed on the cable map: UNMAPPED on an empty map, else the nearest joint within the joint window, the lower of
two equally near, else the segment it lies in with its offset, else BEYOND_MAP. -/
def Obligations.DistancePlacedOnMap : Prop :=
  ∀ (m : List Segment) (window dist : Nat),
    let bound (k : Nat) : Nat := ((m.take k).map (·.length)).sum
    let off (k : Nat) : Nat := max dist (bound k) - min dist (bound k)
    (m = [] → placeOn m window dist = .unmapped) ∧
    (∀ k, m ≠ [] → k ≤ m.length → off k ≤ window → (∀ i, i < k → off k < off i) → (∀ i, i ≤ m.length → off k ≤ off i) →
      placeOn m window dist = .joint k) ∧
    (∀ k, m ≠ [] → (∀ i, i ≤ m.length → window < off i) → k < m.length → bound k ≤ dist → dist < bound (k + 1) →
      dist < bound m.length ∧ placeOn m window dist = .segment k (dist - bound k)) ∧
    (m ≠ [] → (∀ i, i ≤ m.length → window < off i) → bound m.length ≤ dist → placeOn m window dist = .beyondMap)

/-! ## Resets -/

/-- R21, R46, R73, R99, R122, R132, R167: PORT_RESET in every state of every block: the port's link DOWN at FULL with its counts 0, its
power OFF, its lens record invalid and its stack empty, its FILLING frame and its QUEUED frames gone and a SENDING frame marked for an
ABORTED close, its slots in GUARD and OFFERED SKIPPED(POWER), with SLOT_SKIPPED fired (R95, R99), its echo job ABORTED, with HUNT_DONE
(R169) and, unless the link was DOWN, LINK_CHANGE with cause RESET (R17) fired; claim and surge released prompt a serving (R35, R55, log
35); a sampler whose job it stopped looks for another (R148, R149); settings, echo settings, cable map, baseline, tables, zones, the other
ports' states, frames and slots and the DRAM are kept. -/
def Obligations.PortResetReturnsPort : Prop :=
  ∀ (c : Cmd) (p : Port) (s : State), s.ready → addresses c p → c.payload = [] →
    let mine : List Flight := s.shot.flights.filter (·.port == p)
    let released : List FrameTag := ((s.store.filling? p).map (·.tag)).toList ++ mine.map (·.tag) ++
      (if (s.delivery.get p).progress.isSome then (s.delivery.get p).fifo.drop 1 else (s.delivery.get p).fifo)
    ∃ t, exec (.portReset c) s = .next t ∧ t.pending = s.pending ∧
      t.links.get p =
        { s.links.get p with
          state := .down, rate := .full, sinceUp := 0, total := 0, wordErrors := 0, lastChange := s.time.cellTime
          camera := none, locked := false, acquireTimer := none, relockWindow := none, words := [], cable := none } ∧
      t.power.get p =
        { s.power.get p with
          state := .off, retriesUsed := 0, heldSurge := 0, overCount := 0, restore := false
          inrushTimer := none, onTimer := none, cooldownTimer := none
          discharged := if (s.power.get p).switchClosed then false else (s.power.get p).discharged
          dischargeTimer := if (s.power.get p).switchClosed then some 20000 else (s.power.get p).dischargeTimer } ∧
      t.lenses.get p = { s.lenses.get p with record := none, stack := [], overflow := false } ∧ p ∉ t.deferred ∧
      t.store.strays = s.store.strays.set p 0 ∧ t.store.duplicates = s.store.duplicates.set p 0 ∧
      (s.fillingKept → ∀ f ∈ t.store.frames, f.port = p → f.state ≠ .filling) ∧
      t.store.frames = s.store.frames.filter (fun f => decide (f.tag ∉ released)) ∧
      (∀ x ∈ t.shot.flights, x.port ≠ p) ∧
      t.shot = { s.shot with
        flights := s.shot.flights.filter fun x => decide (x.tag ∉ mine.map (·.tag))
        stats := mine.foldl (fun v x => vmod v x.slot fun y =>
          { y with skipped := min 65535 (y.skipped + 1), last := some (.skipped .power, x.cycle) }) s.shot.stats } ∧
      (∀ x, mine = [x] →
        fired (.ofHub .slotSkipped) (w1 x.slot.val ++ w1 p.val ++ w4 x.cycle.toNat ++ w1 0) s.toHub t.toHub) ∧
      (mine = [] → quiet (.ofHub .slotSkipped) s.toHub t.toHub) ∧
      t.delivery.get p =
        { s.delivery.get p with
          fifo := if (s.delivery.get p).progress.isSome then (s.delivery.get p).fifo.take 1 else []
          progress := (s.delivery.get p).progress.map fun g => { g with abort := true }
          hold := false, delivered := 0, aborted := 0, lost := 0 } ∧
      t.echo.busy p = false ∧
      (∀ q, q ≠ p → t.delivery.get q = s.delivery.get q ∧ t.echo.ports.get q = s.echo.ports.get q ∧
        (t.links.get q).state = (s.links.get q).state ∧ (t.power.get q).state = (s.power.get q).state) ∧
      (s.echo.busy p = false → t.echo = s.echo) ∧
      (s.echo.busy p = true → ∃ r, t.echo.ports.get p = { s.echo.ports.get p with last := some r } ∧
        (s.echo.samplingKind p).or (s.echo.queuedKind p) = some r.kind ∧ r.outcome = .aborted ∧ r.finding = none ∧ r.differences = none ∧
        (∀ j, s.echo.sampler = some j → j.port = p → r.averaging = j.settings.averaging) ∧
        (s.echo.samplingKind p = none → r.averaging = if r.kind = .learn then 16 else (s.echo.ports.get p).settings.averaging) ∧
        r.time = s.time.cellTime ∧ fired (.ofPort p .huntDone) (huntFields r) s.toHub t.toHub) ∧
      (s.echo.busy p = false → quiet (.ofPort p .huntDone) s.toHub t.toHub) ∧
      (s.echo.busy p = true → looksForJob { s.echo with
        queue := s.echo.queue.filter (·.1 != p), sampler := s.echo.sampler.filter (·.port != p), ports := t.echo.ports } t.toHub) ∧
      (s.toHub.slotsOwn p → (∀ x ∈ s.shot.flights, x.port ≠ p) ∨ 0 < (s.power.get p).claim →
        portFreed p (s.deferred.filter (· != p)) s.toHub t.toHub) ∧
      ((s.links.get p).state ≠ .down →
        fired (.ofPort p .linkChange) (linkFields .down .full .reset) s.toHub t.toHub) ∧
      ((s.links.get p).state = .down → quiet (.ofPort p .linkChange) s.toHub t.toHub) ∧
      quiet (.ofPort p .lensDone) s.toHub t.toHub ∧
      t.zones = s.zones ∧ t.time = s.time ∧ t.budget = s.budget ∧ t.rotation = s.rotation ∧
      t.store.dram = s.store.dram ∧ t.store.lowMark = s.store.lowMark ∧ t.store.tagCounter = s.store.tagCounter ∧
      replyOf 0x13 c 0 [] ∈ t.uplink.queue

/-- R34, R45, R72, R98, R121, R133, R168, R182, R190: HUB_RESET empties the shot scheduler, the deferred list, the frame store, the delivery
FIFOs, the echo queue and the routing entries, abandons every lens move, which leaves each valid lens record IDLE with its targets at the
actuals (R59), and ends every hunt; a retry that waited for an AUTO job goes on (R34). It keeps what those rules keep, and its reply is the
next control record (a record in transmission keeps its place until it ends, log 20). -/
def Obligations.HubResetKeepsWhatItKeeps : Prop :=
  ∀ (c : Cmd) (s : State), s.ready → c.payload = [] →
    ∃ t, exec (.hubReset c) s = .next t ∧ t.pending = s.pending ∧ t.shot = {} ∧ t.deferred = [] ∧
      t.store = { s.store with frames := [] } ∧ t.rotation = [0, 1, 2, 3, 4, 5] ∧
      (∀ p, t.delivery.get p = { s.delivery.get p with fifo := [], progress := none, hold := false }) ∧
      t.echo.queue = [] ∧ t.echo.sampler = none ∧
      (∀ p, (t.echo.ports.get p) = { s.echo.ports.get p with last := (t.echo.ports.get p).last } ∧
        (s.echo.busy p = false → t.echo.ports.get p = s.echo.ports.get p) ∧
        (s.echo.busy p = true → ∃ r, (t.echo.ports.get p).last = some r ∧ r.outcome = .aborted)) ∧
      (∀ p, (s.power.get p).state ∉ [.hunt, .cooldown] → t.power.get p = { s.power.get p with heldSurge := 0 }) ∧
      (∀ p, (s.power.get p).state = .hunt →
        t.power.get p = { s.power.get p with heldSurge := 0, state := .off, restore := false }) ∧
      (∀ p, (s.power.get p).state = .cooldown →
        (s.power.get p).cooldownTimer.isSome ∨ s.echo.autoBusy p = false →
        t.power.get p = { s.power.get p with heldSurge := 0 }) ∧
      (∀ p, s.echoKept → (s.power.get p).state = .cooldown → (s.power.get p).cooldownTimer = none → s.echo.autoBusy p = true →
        t.power.get p =
          { s.power.get p with
            heldSurge := 0, state := .precharge, retriesUsed := (s.power.get p).retriesUsed + 1, discharged := false
            dischargeTimer := none, overCount := 0, inrushTimer := some ((s.power.get p).setup.inrush * 1000) }) ∧
      (∀ p, t.links.get p = { s.links.get p with words := (t.links.get p).words } ∧
        (∀ w ∈ (t.links.get p).words, ∃ r, w = .retrain r)) ∧
      (∀ p, moveAbandoned p s.toHub t.toHub) ∧
      t.time = s.time ∧ t.budget = s.budget ∧ t.zones = s.zones ∧
      (∀ src, t.router.entry src = {}) ∧ t.router.order = [] ∧
      s.uplink.sameCounts t.uplink ∧
      t.uplink.queue = (if s.uplink.tx = some .control then s.uplink.queue.take 1 else []) ++ [replyOf 0x80 c 0 []]

/-- R23, R71: after a pin reset every switch is open, every power record is at its defaults with its discharge timer started and its
discharged flag clear, budget and reserved sum are 0; every lens record is invalid, the deferred list is empty, and presets, stacks and
setups are at their defaults. The other blocks are at their pin-reset values too (R98, R121, R133, R146, R168, R181, R190). (The command is
the whole pulse, and the commands that wait are the sender's and stay: the model's choice, log 22. Encoder levels, DRAM and the counter of
free values are not stated: logs 15, 14 and 25.) -/
def Obligations.PinResetLeavesDefaults : Prop :=
  ∀ s : State, ∃ t, exec .pinReset s = .next t ∧ t.pending = s.pending ∧
    (∀ p,
      (t.power.get p).switchClosed = false ∧ (t.power.get p).state = .off ∧
      (t.power.get p).setup = ⟨500, 20, 5, 3, 500, 0, false⟩ ∧ (t.power.get p).retriesUsed = 0 ∧
      (t.power.get p).heldSurge = 0 ∧ (t.power.get p).overCount = 0 ∧ (t.power.get p).last = 0 ∧
      (t.power.get p).peak = 0 ∧ (t.power.get p).cause = .none ∧ (t.power.get p).trips = 0 ∧
      (t.power.get p).restore = false ∧ (t.power.get p).inrushTimer = none ∧ (t.power.get p).cooldownTimer = none ∧
      (t.power.get p).onTimer = none ∧ (t.power.get p).dischargeTimer = some 20000 ∧ (t.power.get p).discharged = false) ∧
    t.budget = 0 ∧ t.reservedSum = 0 ∧
    (∀ p, (t.links.get p).camera = none ∧ (t.lenses.get p).record = none ∧ (t.lenses.get p).moveState = .idle ∧
      (∀ k, (t.lenses.get p).presets.get k = ⟨none, none, none⟩) ∧ (t.lenses.get p).stack = [] ∧
      (t.lenses.get p).overflow = false ∧ (t.lenses.get p).setup = ⟨4, 3, 1000⟩) ∧
    t.deferred = [] ∧
    (∀ p, t.links.get p = ⟨.down, .full, 4, 0, 0, 0, 0, none, false, none, none, [], none⟩) ∧
    t.time.cellTime = 0 ∧ t.time.position = 0 ∧ t.time.illegal = 0 ∧ t.shot = {} ∧
    t.store.frames = [] ∧ t.store.tagCounter = 0 ∧ t.store.lowMark = 512 ∧ t.store.strays = PerPort.all 0 ∧
    t.store.duplicates = PerPort.all 0 ∧ t.delivery = PerPort.all ⟨[], none, false, 0, 0, 0⟩ ∧
    t.rotation = [0, 1, 2, 3, 4, 5] ∧ t.zones = PerPort.all {} ∧ t.echo = {} ∧ t.router = {} ∧ t.uplink = {}
end

