-- ==== Sys2Proof/Laws/State.lean ====
section
/-! SUPPORT. What each named update of the hub does to each part, what reading a port after a write gives, and what `next` keeps. -/

namespace Sys2Proof.Machine

/-! ## Ports -/

@[simp] theorem PerPort.get_set_same {α : Type} (v : PerPort α) (p : Port) (a : α) : (v.set p a).get p = a := by
  fin_cases p <;> rfl

@[simp] theorem PerPort.get_set_ne {α : Type} (v : PerPort α) (p q : Port) (a : α) (h : q ≠ p) :
    (v.set p a).get q = v.get q := by
  fin_cases p <;> fin_cases q <;> first | rfl | exact absurd rfl h

theorem PerPort.get_set {α : Type} (v : PerPort α) (p q : Port) (a : α) :
    (v.set p a).get q = if q = p then a else v.get q := by
  by_cases h : q = p
  · subst h; simp
  · simp [h]

@[simp] theorem PerPort.get_mod_same {α : Type} (v : PerPort α) (p : Port) (f : α → α) :
    (v.mod p f).get p = f (v.get p) := by simp [PerPort.mod]

@[simp] theorem PerPort.get_mod_ne {α : Type} (v : PerPort α) (p q : Port) (f : α → α) (h : q ≠ p) :
    (v.mod p f).get q = v.get q := by simp [PerPort.mod, h]

theorem PerPort.get_mod {α : Type} (v : PerPort α) (p q : Port) (f : α → α) :
    (v.mod p f).get q = if q = p then f (v.get p) else v.get q := by
  simp [PerPort.mod, PerPort.get_set]

@[simp] theorem PerPort.get_map {α β : Type} (f : α → β) (v : PerPort α) (p : Port) :
    (v.map f).get p = f (v.get p) := by fin_cases p <;> rfl

@[simp] theorem PerPort.get_all {α : Type} (a : α) (p : Port) : (PerPort.all a).get p = a := by fin_cases p <;> rfl

/-- Two values per port that agree at every port are equal. -/
theorem PerPort.ext_get {α : Type} {v w : PerPort α} (h : ∀ p, v.get p = w.get p) : v = w := by
  have h0 := h 0; have h1 := h 1; have h2 := h 2; have h3 := h 3; have h4 := h 4; have h5 := h 5
  cases v; cases w
  simp_all [PerPort.get]

/-! ## Updates of the hub -/

@[simp] theorem modTime_time (f : Timebase → Timebase) (h : Hub) : (h.modTime f).time = f h.time := rfl
@[simp] theorem modTime_links (f : Timebase → Timebase) (h : Hub) : (h.modTime f).links = h.links := rfl
@[simp] theorem modTime_power (f : Timebase → Timebase) (h : Hub) : (h.modTime f).power = h.power := rfl
@[simp] theorem modTime_budget (f : Timebase → Timebase) (h : Hub) : (h.modTime f).budget = h.budget := rfl
@[simp] theorem modTime_lenses (f : Timebase → Timebase) (h : Hub) : (h.modTime f).lenses = h.lenses := rfl
@[simp] theorem modTime_deferred (f : Timebase → Timebase) (h : Hub) : (h.modTime f).deferred = h.deferred := rfl
@[simp] theorem modTime_shot (f : Timebase → Timebase) (h : Hub) : (h.modTime f).shot = h.shot := rfl
@[simp] theorem modTime_store (f : Timebase → Timebase) (h : Hub) : (h.modTime f).store = h.store := rfl
@[simp] theorem modTime_delivery (f : Timebase → Timebase) (h : Hub) : (h.modTime f).delivery = h.delivery := rfl
@[simp] theorem modTime_rotation (f : Timebase → Timebase) (h : Hub) : (h.modTime f).rotation = h.rotation := rfl
@[simp] theorem modTime_zones (f : Timebase → Timebase) (h : Hub) : (h.modTime f).zones = h.zones := rfl
@[simp] theorem modTime_echo (f : Timebase → Timebase) (h : Hub) : (h.modTime f).echo = h.echo := rfl
@[simp] theorem modTime_router (f : Timebase → Timebase) (h : Hub) : (h.modTime f).router = h.router := rfl
@[simp] theorem modTime_uplink (f : Timebase → Timebase) (h : Hub) : (h.modTime f).uplink = h.uplink := rfl
@[simp] theorem modTime_draws (f : Timebase → Timebase) (h : Hub) : (h.modTime f).draws = h.draws := rfl

@[simp] theorem modLink_time (p : Port) (f : Link → Link) (h : Hub) : (h.modLink p f).time = h.time := rfl
@[simp] theorem modLink_links (p : Port) (f : Link → Link) (h : Hub) : (h.modLink p f).links = h.links.mod p f := rfl
@[simp] theorem modLink_power (p : Port) (f : Link → Link) (h : Hub) : (h.modLink p f).power = h.power := rfl
@[simp] theorem modLink_budget (p : Port) (f : Link → Link) (h : Hub) : (h.modLink p f).budget = h.budget := rfl
@[simp] theorem modLink_lenses (p : Port) (f : Link → Link) (h : Hub) : (h.modLink p f).lenses = h.lenses := rfl
@[simp] theorem modLink_deferred (p : Port) (f : Link → Link) (h : Hub) : (h.modLink p f).deferred = h.deferred := rfl
@[simp] theorem modLink_shot (p : Port) (f : Link → Link) (h : Hub) : (h.modLink p f).shot = h.shot := rfl
@[simp] theorem modLink_store (p : Port) (f : Link → Link) (h : Hub) : (h.modLink p f).store = h.store := rfl
@[simp] theorem modLink_delivery (p : Port) (f : Link → Link) (h : Hub) : (h.modLink p f).delivery = h.delivery := rfl
@[simp] theorem modLink_rotation (p : Port) (f : Link → Link) (h : Hub) : (h.modLink p f).rotation = h.rotation := rfl
@[simp] theorem modLink_zones (p : Port) (f : Link → Link) (h : Hub) : (h.modLink p f).zones = h.zones := rfl
@[simp] theorem modLink_echo (p : Port) (f : Link → Link) (h : Hub) : (h.modLink p f).echo = h.echo := rfl
@[simp] theorem modLink_router (p : Port) (f : Link → Link) (h : Hub) : (h.modLink p f).router = h.router := rfl
@[simp] theorem modLink_uplink (p : Port) (f : Link → Link) (h : Hub) : (h.modLink p f).uplink = h.uplink := rfl
@[simp] theorem modLink_draws (p : Port) (f : Link → Link) (h : Hub) : (h.modLink p f).draws = h.draws := rfl

@[simp] theorem modPower_time (p : Port) (f : Power → Power) (h : Hub) : (h.modPower p f).time = h.time := rfl
@[simp] theorem modPower_links (p : Port) (f : Power → Power) (h : Hub) : (h.modPower p f).links = h.links := rfl
@[simp] theorem modPower_power (p : Port) (f : Power → Power) (h : Hub) : (h.modPower p f).power = h.power.mod p f := rfl
@[simp] theorem modPower_budget (p : Port) (f : Power → Power) (h : Hub) : (h.modPower p f).budget = h.budget := rfl
@[simp] theorem modPower_lenses (p : Port) (f : Power → Power) (h : Hub) : (h.modPower p f).lenses = h.lenses := rfl
@[simp] theorem modPower_deferred (p : Port) (f : Power → Power) (h : Hub) : (h.modPower p f).deferred = h.deferred := rfl
@[simp] theorem modPower_shot (p : Port) (f : Power → Power) (h : Hub) : (h.modPower p f).shot = h.shot := rfl
@[simp] theorem modPower_store (p : Port) (f : Power → Power) (h : Hub) : (h.modPower p f).store = h.store := rfl
@[simp] theorem modPower_delivery (p : Port) (f : Power → Power) (h : Hub) : (h.modPower p f).delivery = h.delivery := rfl
@[simp] theorem modPower_rotation (p : Port) (f : Power → Power) (h : Hub) : (h.modPower p f).rotation = h.rotation := rfl
@[simp] theorem modPower_zones (p : Port) (f : Power → Power) (h : Hub) : (h.modPower p f).zones = h.zones := rfl
@[simp] theorem modPower_echo (p : Port) (f : Power → Power) (h : Hub) : (h.modPower p f).echo = h.echo := rfl
@[simp] theorem modPower_router (p : Port) (f : Power → Power) (h : Hub) : (h.modPower p f).router = h.router := rfl
@[simp] theorem modPower_uplink (p : Port) (f : Power → Power) (h : Hub) : (h.modPower p f).uplink = h.uplink := rfl
@[simp] theorem modPower_draws (p : Port) (f : Power → Power) (h : Hub) : (h.modPower p f).draws = h.draws := rfl

@[simp] theorem setBudget_time (n : Nat) (h : Hub) : (h.setBudget n).time = h.time := rfl
@[simp] theorem setBudget_links (n : Nat) (h : Hub) : (h.setBudget n).links = h.links := rfl
@[simp] theorem setBudget_power (n : Nat) (h : Hub) : (h.setBudget n).power = h.power := rfl
@[simp] theorem setBudget_budget (n : Nat) (h : Hub) : (h.setBudget n).budget = n := rfl
@[simp] theorem setBudget_lenses (n : Nat) (h : Hub) : (h.setBudget n).lenses = h.lenses := rfl
@[simp] theorem setBudget_deferred (n : Nat) (h : Hub) : (h.setBudget n).deferred = h.deferred := rfl
@[simp] theorem setBudget_shot (n : Nat) (h : Hub) : (h.setBudget n).shot = h.shot := rfl
@[simp] theorem setBudget_store (n : Nat) (h : Hub) : (h.setBudget n).store = h.store := rfl
@[simp] theorem setBudget_delivery (n : Nat) (h : Hub) : (h.setBudget n).delivery = h.delivery := rfl
@[simp] theorem setBudget_rotation (n : Nat) (h : Hub) : (h.setBudget n).rotation = h.rotation := rfl
@[simp] theorem setBudget_zones (n : Nat) (h : Hub) : (h.setBudget n).zones = h.zones := rfl
@[simp] theorem setBudget_echo (n : Nat) (h : Hub) : (h.setBudget n).echo = h.echo := rfl
@[simp] theorem setBudget_router (n : Nat) (h : Hub) : (h.setBudget n).router = h.router := rfl
@[simp] theorem setBudget_uplink (n : Nat) (h : Hub) : (h.setBudget n).uplink = h.uplink := rfl
@[simp] theorem setBudget_draws (n : Nat) (h : Hub) : (h.setBudget n).draws = h.draws := rfl

@[simp] theorem modLens_time (p : Port) (f : Lens → Lens) (h : Hub) : (h.modLens p f).time = h.time := rfl
@[simp] theorem modLens_links (p : Port) (f : Lens → Lens) (h : Hub) : (h.modLens p f).links = h.links := rfl
@[simp] theorem modLens_power (p : Port) (f : Lens → Lens) (h : Hub) : (h.modLens p f).power = h.power := rfl
@[simp] theorem modLens_budget (p : Port) (f : Lens → Lens) (h : Hub) : (h.modLens p f).budget = h.budget := rfl
@[simp] theorem modLens_lenses (p : Port) (f : Lens → Lens) (h : Hub) : (h.modLens p f).lenses = h.lenses.mod p f := rfl
@[simp] theorem modLens_deferred (p : Port) (f : Lens → Lens) (h : Hub) : (h.modLens p f).deferred = h.deferred := rfl
@[simp] theorem modLens_shot (p : Port) (f : Lens → Lens) (h : Hub) : (h.modLens p f).shot = h.shot := rfl
@[simp] theorem modLens_store (p : Port) (f : Lens → Lens) (h : Hub) : (h.modLens p f).store = h.store := rfl
@[simp] theorem modLens_delivery (p : Port) (f : Lens → Lens) (h : Hub) : (h.modLens p f).delivery = h.delivery := rfl
@[simp] theorem modLens_rotation (p : Port) (f : Lens → Lens) (h : Hub) : (h.modLens p f).rotation = h.rotation := rfl
@[simp] theorem modLens_zones (p : Port) (f : Lens → Lens) (h : Hub) : (h.modLens p f).zones = h.zones := rfl
@[simp] theorem modLens_echo (p : Port) (f : Lens → Lens) (h : Hub) : (h.modLens p f).echo = h.echo := rfl
@[simp] theorem modLens_router (p : Port) (f : Lens → Lens) (h : Hub) : (h.modLens p f).router = h.router := rfl
@[simp] theorem modLens_uplink (p : Port) (f : Lens → Lens) (h : Hub) : (h.modLens p f).uplink = h.uplink := rfl
@[simp] theorem modLens_draws (p : Port) (f : Lens → Lens) (h : Hub) : (h.modLens p f).draws = h.draws := rfl

@[simp] theorem setDeferred_time (l : List Port) (h : Hub) : (h.setDeferred l).time = h.time := rfl
@[simp] theorem setDeferred_links (l : List Port) (h : Hub) : (h.setDeferred l).links = h.links := rfl
@[simp] theorem setDeferred_power (l : List Port) (h : Hub) : (h.setDeferred l).power = h.power := rfl
@[simp] theorem setDeferred_budget (l : List Port) (h : Hub) : (h.setDeferred l).budget = h.budget := rfl
@[simp] theorem setDeferred_lenses (l : List Port) (h : Hub) : (h.setDeferred l).lenses = h.lenses := rfl
@[simp] theorem setDeferred_deferred (l : List Port) (h : Hub) : (h.setDeferred l).deferred = l := rfl
@[simp] theorem setDeferred_shot (l : List Port) (h : Hub) : (h.setDeferred l).shot = h.shot := rfl
@[simp] theorem setDeferred_store (l : List Port) (h : Hub) : (h.setDeferred l).store = h.store := rfl
@[simp] theorem setDeferred_delivery (l : List Port) (h : Hub) : (h.setDeferred l).delivery = h.delivery := rfl
@[simp] theorem setDeferred_rotation (l : List Port) (h : Hub) : (h.setDeferred l).rotation = h.rotation := rfl
@[simp] theorem setDeferred_zones (l : List Port) (h : Hub) : (h.setDeferred l).zones = h.zones := rfl
@[simp] theorem setDeferred_echo (l : List Port) (h : Hub) : (h.setDeferred l).echo = h.echo := rfl
@[simp] theorem setDeferred_router (l : List Port) (h : Hub) : (h.setDeferred l).router = h.router := rfl
@[simp] theorem setDeferred_uplink (l : List Port) (h : Hub) : (h.setDeferred l).uplink = h.uplink := rfl
@[simp] theorem setDeferred_draws (l : List Port) (h : Hub) : (h.setDeferred l).draws = h.draws := rfl

@[simp] theorem modShot_time (f : Shot → Shot) (h : Hub) : (h.modShot f).time = h.time := rfl
@[simp] theorem modShot_links (f : Shot → Shot) (h : Hub) : (h.modShot f).links = h.links := rfl
@[simp] theorem modShot_power (f : Shot → Shot) (h : Hub) : (h.modShot f).power = h.power := rfl
@[simp] theorem modShot_budget (f : Shot → Shot) (h : Hub) : (h.modShot f).budget = h.budget := rfl
@[simp] theorem modShot_lenses (f : Shot → Shot) (h : Hub) : (h.modShot f).lenses = h.lenses := rfl
@[simp] theorem modShot_deferred (f : Shot → Shot) (h : Hub) : (h.modShot f).deferred = h.deferred := rfl
@[simp] theorem modShot_shot (f : Shot → Shot) (h : Hub) : (h.modShot f).shot = f h.shot := rfl
@[simp] theorem modShot_store (f : Shot → Shot) (h : Hub) : (h.modShot f).store = h.store := rfl
@[simp] theorem modShot_delivery (f : Shot → Shot) (h : Hub) : (h.modShot f).delivery = h.delivery := rfl
@[simp] theorem modShot_rotation (f : Shot → Shot) (h : Hub) : (h.modShot f).rotation = h.rotation := rfl
@[simp] theorem modShot_zones (f : Shot → Shot) (h : Hub) : (h.modShot f).zones = h.zones := rfl
@[simp] theorem modShot_echo (f : Shot → Shot) (h : Hub) : (h.modShot f).echo = h.echo := rfl
@[simp] theorem modShot_router (f : Shot → Shot) (h : Hub) : (h.modShot f).router = h.router := rfl
@[simp] theorem modShot_uplink (f : Shot → Shot) (h : Hub) : (h.modShot f).uplink = h.uplink := rfl
@[simp] theorem modShot_draws (f : Shot → Shot) (h : Hub) : (h.modShot f).draws = h.draws := rfl

@[simp] theorem modStore_time (f : Store → Store) (h : Hub) : (h.modStore f).time = h.time := rfl
@[simp] theorem modStore_links (f : Store → Store) (h : Hub) : (h.modStore f).links = h.links := rfl
@[simp] theorem modStore_power (f : Store → Store) (h : Hub) : (h.modStore f).power = h.power := rfl
@[simp] theorem modStore_budget (f : Store → Store) (h : Hub) : (h.modStore f).budget = h.budget := rfl
@[simp] theorem modStore_lenses (f : Store → Store) (h : Hub) : (h.modStore f).lenses = h.lenses := rfl
@[simp] theorem modStore_deferred (f : Store → Store) (h : Hub) : (h.modStore f).deferred = h.deferred := rfl
@[simp] theorem modStore_shot (f : Store → Store) (h : Hub) : (h.modStore f).shot = h.shot := rfl
@[simp] theorem modStore_store (f : Store → Store) (h : Hub) : (h.modStore f).store = f h.store := rfl
@[simp] theorem modStore_delivery (f : Store → Store) (h : Hub) : (h.modStore f).delivery = h.delivery := rfl
@[simp] theorem modStore_rotation (f : Store → Store) (h : Hub) : (h.modStore f).rotation = h.rotation := rfl
@[simp] theorem modStore_zones (f : Store → Store) (h : Hub) : (h.modStore f).zones = h.zones := rfl
@[simp] theorem modStore_echo (f : Store → Store) (h : Hub) : (h.modStore f).echo = h.echo := rfl
@[simp] theorem modStore_router (f : Store → Store) (h : Hub) : (h.modStore f).router = h.router := rfl
@[simp] theorem modStore_uplink (f : Store → Store) (h : Hub) : (h.modStore f).uplink = h.uplink := rfl
@[simp] theorem modStore_draws (f : Store → Store) (h : Hub) : (h.modStore f).draws = h.draws := rfl

@[simp] theorem modDelivery_time (p : Port) (f : Delivery → Delivery) (h : Hub) : (h.modDelivery p f).time = h.time := rfl
@[simp] theorem modDelivery_links (p : Port) (f : Delivery → Delivery) (h : Hub) : (h.modDelivery p f).links = h.links := rfl
@[simp] theorem modDelivery_power (p : Port) (f : Delivery → Delivery) (h : Hub) : (h.modDelivery p f).power = h.power := rfl
@[simp] theorem modDelivery_budget (p : Port) (f : Delivery → Delivery) (h : Hub) : (h.modDelivery p f).budget = h.budget := rfl
@[simp] theorem modDelivery_lenses (p : Port) (f : Delivery → Delivery) (h : Hub) : (h.modDelivery p f).lenses = h.lenses := rfl
@[simp] theorem modDelivery_deferred (p : Port) (f : Delivery → Delivery) (h : Hub) : (h.modDelivery p f).deferred = h.deferred := rfl
@[simp] theorem modDelivery_shot (p : Port) (f : Delivery → Delivery) (h : Hub) : (h.modDelivery p f).shot = h.shot := rfl
@[simp] theorem modDelivery_store (p : Port) (f : Delivery → Delivery) (h : Hub) : (h.modDelivery p f).store = h.store := rfl
@[simp] theorem modDelivery_delivery (p : Port) (f : Delivery → Delivery) (h : Hub) : (h.modDelivery p f).delivery = h.delivery.mod p f := rfl
@[simp] theorem modDelivery_rotation (p : Port) (f : Delivery → Delivery) (h : Hub) : (h.modDelivery p f).rotation = h.rotation := rfl
@[simp] theorem modDelivery_zones (p : Port) (f : Delivery → Delivery) (h : Hub) : (h.modDelivery p f).zones = h.zones := rfl
@[simp] theorem modDelivery_echo (p : Port) (f : Delivery → Delivery) (h : Hub) : (h.modDelivery p f).echo = h.echo := rfl
@[simp] theorem modDelivery_router (p : Port) (f : Delivery → Delivery) (h : Hub) : (h.modDelivery p f).router = h.router := rfl
@[simp] theorem modDelivery_uplink (p : Port) (f : Delivery → Delivery) (h : Hub) : (h.modDelivery p f).uplink = h.uplink := rfl
@[simp] theorem modDelivery_draws (p : Port) (f : Delivery → Delivery) (h : Hub) : (h.modDelivery p f).draws = h.draws := rfl

@[simp] theorem setRotation_time (l : List Port) (h : Hub) : (h.setRotation l).time = h.time := rfl
@[simp] theorem setRotation_links (l : List Port) (h : Hub) : (h.setRotation l).links = h.links := rfl
@[simp] theorem setRotation_power (l : List Port) (h : Hub) : (h.setRotation l).power = h.power := rfl
@[simp] theorem setRotation_budget (l : List Port) (h : Hub) : (h.setRotation l).budget = h.budget := rfl
@[simp] theorem setRotation_lenses (l : List Port) (h : Hub) : (h.setRotation l).lenses = h.lenses := rfl
@[simp] theorem setRotation_deferred (l : List Port) (h : Hub) : (h.setRotation l).deferred = h.deferred := rfl
@[simp] theorem setRotation_shot (l : List Port) (h : Hub) : (h.setRotation l).shot = h.shot := rfl
@[simp] theorem setRotation_store (l : List Port) (h : Hub) : (h.setRotation l).store = h.store := rfl
@[simp] theorem setRotation_delivery (l : List Port) (h : Hub) : (h.setRotation l).delivery = h.delivery := rfl
@[simp] theorem setRotation_rotation (l : List Port) (h : Hub) : (h.setRotation l).rotation = l := rfl
@[simp] theorem setRotation_zones (l : List Port) (h : Hub) : (h.setRotation l).zones = h.zones := rfl
@[simp] theorem setRotation_echo (l : List Port) (h : Hub) : (h.setRotation l).echo = h.echo := rfl
@[simp] theorem setRotation_router (l : List Port) (h : Hub) : (h.setRotation l).router = h.router := rfl
@[simp] theorem setRotation_uplink (l : List Port) (h : Hub) : (h.setRotation l).uplink = h.uplink := rfl
@[simp] theorem setRotation_draws (l : List Port) (h : Hub) : (h.setRotation l).draws = h.draws := rfl

@[simp] theorem modZone_time (p : Port) (f : ZoneMap → ZoneMap) (h : Hub) : (h.modZone p f).time = h.time := rfl
@[simp] theorem modZone_links (p : Port) (f : ZoneMap → ZoneMap) (h : Hub) : (h.modZone p f).links = h.links := rfl
@[simp] theorem modZone_power (p : Port) (f : ZoneMap → ZoneMap) (h : Hub) : (h.modZone p f).power = h.power := rfl
@[simp] theorem modZone_budget (p : Port) (f : ZoneMap → ZoneMap) (h : Hub) : (h.modZone p f).budget = h.budget := rfl
@[simp] theorem modZone_lenses (p : Port) (f : ZoneMap → ZoneMap) (h : Hub) : (h.modZone p f).lenses = h.lenses := rfl
@[simp] theorem modZone_deferred (p : Port) (f : ZoneMap → ZoneMap) (h : Hub) : (h.modZone p f).deferred = h.deferred := rfl
@[simp] theorem modZone_shot (p : Port) (f : ZoneMap → ZoneMap) (h : Hub) : (h.modZone p f).shot = h.shot := rfl
@[simp] theorem modZone_store (p : Port) (f : ZoneMap → ZoneMap) (h : Hub) : (h.modZone p f).store = h.store := rfl
@[simp] theorem modZone_delivery (p : Port) (f : ZoneMap → ZoneMap) (h : Hub) : (h.modZone p f).delivery = h.delivery := rfl
@[simp] theorem modZone_rotation (p : Port) (f : ZoneMap → ZoneMap) (h : Hub) : (h.modZone p f).rotation = h.rotation := rfl
@[simp] theorem modZone_zones (p : Port) (f : ZoneMap → ZoneMap) (h : Hub) : (h.modZone p f).zones = h.zones.mod p f := rfl
@[simp] theorem modZone_echo (p : Port) (f : ZoneMap → ZoneMap) (h : Hub) : (h.modZone p f).echo = h.echo := rfl
@[simp] theorem modZone_router (p : Port) (f : ZoneMap → ZoneMap) (h : Hub) : (h.modZone p f).router = h.router := rfl
@[simp] theorem modZone_uplink (p : Port) (f : ZoneMap → ZoneMap) (h : Hub) : (h.modZone p f).uplink = h.uplink := rfl
@[simp] theorem modZone_draws (p : Port) (f : ZoneMap → ZoneMap) (h : Hub) : (h.modZone p f).draws = h.draws := rfl

@[simp] theorem modEcho_time (f : Echo → Echo) (h : Hub) : (h.modEcho f).time = h.time := rfl
@[simp] theorem modEcho_links (f : Echo → Echo) (h : Hub) : (h.modEcho f).links = h.links := rfl
@[simp] theorem modEcho_power (f : Echo → Echo) (h : Hub) : (h.modEcho f).power = h.power := rfl
@[simp] theorem modEcho_budget (f : Echo → Echo) (h : Hub) : (h.modEcho f).budget = h.budget := rfl
@[simp] theorem modEcho_lenses (f : Echo → Echo) (h : Hub) : (h.modEcho f).lenses = h.lenses := rfl
@[simp] theorem modEcho_deferred (f : Echo → Echo) (h : Hub) : (h.modEcho f).deferred = h.deferred := rfl
@[simp] theorem modEcho_shot (f : Echo → Echo) (h : Hub) : (h.modEcho f).shot = h.shot := rfl
@[simp] theorem modEcho_store (f : Echo → Echo) (h : Hub) : (h.modEcho f).store = h.store := rfl
@[simp] theorem modEcho_delivery (f : Echo → Echo) (h : Hub) : (h.modEcho f).delivery = h.delivery := rfl
@[simp] theorem modEcho_rotation (f : Echo → Echo) (h : Hub) : (h.modEcho f).rotation = h.rotation := rfl
@[simp] theorem modEcho_zones (f : Echo → Echo) (h : Hub) : (h.modEcho f).zones = h.zones := rfl
@[simp] theorem modEcho_echo (f : Echo → Echo) (h : Hub) : (h.modEcho f).echo = f h.echo := rfl
@[simp] theorem modEcho_router (f : Echo → Echo) (h : Hub) : (h.modEcho f).router = h.router := rfl
@[simp] theorem modEcho_uplink (f : Echo → Echo) (h : Hub) : (h.modEcho f).uplink = h.uplink := rfl
@[simp] theorem modEcho_draws (f : Echo → Echo) (h : Hub) : (h.modEcho f).draws = h.draws := rfl

@[simp] theorem modRouter_time (f : Router → Router) (h : Hub) : (h.modRouter f).time = h.time := rfl
@[simp] theorem modRouter_links (f : Router → Router) (h : Hub) : (h.modRouter f).links = h.links := rfl
@[simp] theorem modRouter_power (f : Router → Router) (h : Hub) : (h.modRouter f).power = h.power := rfl
@[simp] theorem modRouter_budget (f : Router → Router) (h : Hub) : (h.modRouter f).budget = h.budget := rfl
@[simp] theorem modRouter_lenses (f : Router → Router) (h : Hub) : (h.modRouter f).lenses = h.lenses := rfl
@[simp] theorem modRouter_deferred (f : Router → Router) (h : Hub) : (h.modRouter f).deferred = h.deferred := rfl
@[simp] theorem modRouter_shot (f : Router → Router) (h : Hub) : (h.modRouter f).shot = h.shot := rfl
@[simp] theorem modRouter_store (f : Router → Router) (h : Hub) : (h.modRouter f).store = h.store := rfl
@[simp] theorem modRouter_delivery (f : Router → Router) (h : Hub) : (h.modRouter f).delivery = h.delivery := rfl
@[simp] theorem modRouter_rotation (f : Router → Router) (h : Hub) : (h.modRouter f).rotation = h.rotation := rfl
@[simp] theorem modRouter_zones (f : Router → Router) (h : Hub) : (h.modRouter f).zones = h.zones := rfl
@[simp] theorem modRouter_echo (f : Router → Router) (h : Hub) : (h.modRouter f).echo = h.echo := rfl
@[simp] theorem modRouter_router (f : Router → Router) (h : Hub) : (h.modRouter f).router = f h.router := rfl
@[simp] theorem modRouter_uplink (f : Router → Router) (h : Hub) : (h.modRouter f).uplink = h.uplink := rfl
@[simp] theorem modRouter_draws (f : Router → Router) (h : Hub) : (h.modRouter f).draws = h.draws := rfl

@[simp] theorem modUplink_time (f : Uplink → Uplink) (h : Hub) : (h.modUplink f).time = h.time := rfl
@[simp] theorem modUplink_links (f : Uplink → Uplink) (h : Hub) : (h.modUplink f).links = h.links := rfl
@[simp] theorem modUplink_power (f : Uplink → Uplink) (h : Hub) : (h.modUplink f).power = h.power := rfl
@[simp] theorem modUplink_budget (f : Uplink → Uplink) (h : Hub) : (h.modUplink f).budget = h.budget := rfl
@[simp] theorem modUplink_lenses (f : Uplink → Uplink) (h : Hub) : (h.modUplink f).lenses = h.lenses := rfl
@[simp] theorem modUplink_deferred (f : Uplink → Uplink) (h : Hub) : (h.modUplink f).deferred = h.deferred := rfl
@[simp] theorem modUplink_shot (f : Uplink → Uplink) (h : Hub) : (h.modUplink f).shot = h.shot := rfl
@[simp] theorem modUplink_store (f : Uplink → Uplink) (h : Hub) : (h.modUplink f).store = h.store := rfl
@[simp] theorem modUplink_delivery (f : Uplink → Uplink) (h : Hub) : (h.modUplink f).delivery = h.delivery := rfl
@[simp] theorem modUplink_rotation (f : Uplink → Uplink) (h : Hub) : (h.modUplink f).rotation = h.rotation := rfl
@[simp] theorem modUplink_zones (f : Uplink → Uplink) (h : Hub) : (h.modUplink f).zones = h.zones := rfl
@[simp] theorem modUplink_echo (f : Uplink → Uplink) (h : Hub) : (h.modUplink f).echo = h.echo := rfl
@[simp] theorem modUplink_router (f : Uplink → Uplink) (h : Hub) : (h.modUplink f).router = h.router := rfl
@[simp] theorem modUplink_uplink (f : Uplink → Uplink) (h : Hub) : (h.modUplink f).uplink = f h.uplink := rfl
@[simp] theorem modUplink_draws (f : Uplink → Uplink) (h : Hub) : (h.modUplink f).draws = h.draws := rfl

@[simp] theorem draw_time (n : Nat) (h : Hub) : (h.draw n).time = h.time := rfl
@[simp] theorem draw_links (n : Nat) (h : Hub) : (h.draw n).links = h.links := rfl
@[simp] theorem draw_power (n : Nat) (h : Hub) : (h.draw n).power = h.power := rfl
@[simp] theorem draw_budget (n : Nat) (h : Hub) : (h.draw n).budget = h.budget := rfl
@[simp] theorem draw_lenses (n : Nat) (h : Hub) : (h.draw n).lenses = h.lenses := rfl
@[simp] theorem draw_deferred (n : Nat) (h : Hub) : (h.draw n).deferred = h.deferred := rfl
@[simp] theorem draw_shot (n : Nat) (h : Hub) : (h.draw n).shot = h.shot := rfl
@[simp] theorem draw_store (n : Nat) (h : Hub) : (h.draw n).store = h.store := rfl
@[simp] theorem draw_delivery (n : Nat) (h : Hub) : (h.draw n).delivery = h.delivery := rfl
@[simp] theorem draw_rotation (n : Nat) (h : Hub) : (h.draw n).rotation = h.rotation := rfl
@[simp] theorem draw_zones (n : Nat) (h : Hub) : (h.draw n).zones = h.zones := rfl
@[simp] theorem draw_echo (n : Nat) (h : Hub) : (h.draw n).echo = h.echo := rfl
@[simp] theorem draw_router (n : Nat) (h : Hub) : (h.draw n).router = h.router := rfl
@[simp] theorem draw_uplink (n : Nat) (h : Hub) : (h.draw n).uplink = h.uplink := rfl
@[simp] theorem draw_draws (n : Nat) (h : Hub) : (h.draw n).draws = h.draws + n := rfl

/-! ## The answer of a meaning -/

@[simp] theorem State.withHub_toHub (s : State) (h : Hub) : (s.withHub h).toHub = h := rfl

@[simp] theorem State.withHub_pending (s : State) (h : Hub) : (s.withHub h).pending = s.pending := rfl

/-- What `next` answers: the hub given, and the queue as it was. -/
theorem State.next_eq {s t : State} {h : Hub} : s.next h = .next t ↔ t.toHub = h ∧ t.pending = s.pending := by
  cases s; cases t
  simp only [State.next, State.withHub, Host.Outcome.next.injEq, State.mk.injEq]
  constructor <;> rintro ⟨rfl, rfl⟩ <;> exact ⟨rfl, rfl⟩

/-- Every meaning of this form answers a next state. -/
theorem State.next_answers (s : State) (h : Hub) : ∃ t, s.next h = .next t ∧ t.toHub = h ∧ t.pending = s.pending :=
  ⟨s.withHub h, rfl, rfl, rfl⟩

end Sys2Proof.Machine
end

