-- ==== Sys2Proof/Laws/Echo.lean ====
section
/-! SUPPORT. What the idle sampler's look for a job can do: the operation meets the relation of the claims. -/

namespace Sys2Proof.Machine

/-- The first element of a list that passes, by its place. -/
theorem find?_of_split {α : Type} {f : α → Bool} {l before after : List α} {a : α} (split : l = before ++ a :: after)
    (fails : ∀ x ∈ before, f x = false) (pass : f a = true) : l.find? f = some a := by
  subst split
  rw [List.find?_append, List.find?_eq_none.mpr (by simpa using fails)]
  simp [pass]

/-- R148: looking for a job changes no power record. -/
@[simp] theorem lookForJob_power (h : Hub) : h.lookForJob.power = h.power := by
  unfold Hub.lookForJob
  split
  · rfl
  · split <;> rfl

/-- R148: an idle sampler takes the job that the search of the queue finds. -/
theorem lookForJob_echo (h : Hub) (idle : h.echo.sampler = none) :
    h.lookForJob.echo = match h.echo.queue.find? (fun q => (h.power.get q.1).discharged) with
      | none => h.echo
      | some (p, k) =>
        { h.echo with queue := h.echo.queue.filter (·.1 != p), sampler := some (EchoJob.ofTake p k (h.echo.ports.get p)) } := by
  simp only [Hub.lookForJob, idle]
  cases h.echo.queue.find? (fun q => (h.power.get q.1).discharged) <;> rfl

/-- R148, R149: an idle sampler's look for a job. -/
theorem looksForJob_lookForJob (h : Hub) : looksForJob h.echo h.lookForJob := by
  refine ⟨fun busy => ?_, fun idle dry => ?_, fun before p k after idle split dry wet alone => ?_⟩
  · obtain ⟨j, hj⟩ := Option.isSome_iff_exists.mp busy
    simp [Hub.lookForJob, hj]
  · rw [lookForJob_power] at dry
    rw [lookForJob_echo h idle, List.find?_eq_none.mpr (by simpa using dry)]
  · rw [lookForJob_power] at dry wet
    rw [lookForJob_echo h idle, find?_of_split split dry wet, split]
    have others : ∀ q ∈ before ++ after, (q.1 != p) = true := by
      intro q hq
      rw [bne_iff_ne]
      rintro same
      rcases List.mem_append.mp hq with hb | ha
      · have no := dry q hb
        rw [same, wet] at no
        exact Bool.noConfusion no
      · exact alone q ha same
    have rest : (before ++ (p, k) :: after).filter (·.1 != p) = before ++ after := by
      rw [← List.filter_eq_self.mpr others]
      simp
    simp only [rest, EchoJob.ofTake, Trace.zero]
    split <;> simp_all

end Sys2Proof.Machine
end

