-- ==== Sys2Proof/Laws/Frames.lean ====
section
/-! SUPPORT. What each shared operation can change: `Hub.hide l` blanks the parts listed, and an operation that changes those parts
only leaves the rest as it was. -/

set_option linter.unnecessarySeqFocus false
set_option linter.unusedTactic false
set_option linter.unreachableTactic false
set_option linter.unusedSimpArgs false

namespace Sys2Proof.Machine

/-- A hub with the parts listed blanked. -/
def Hub.hide (l : List Part) (h : Hub) : Hub where
  time := if .time ∈ l then {} else h.time
  links := if .links ∈ l then PerPort.all {} else h.links
  power := if .power ∈ l then PerPort.all {} else h.power
  budget := if .budget ∈ l then 0 else h.budget
  lenses := if .lenses ∈ l then PerPort.all {} else h.lenses
  deferred := if .deferred ∈ l then [] else h.deferred
  shot := if .shot ∈ l then {} else h.shot
  store := if .store ∈ l then {} else h.store
  delivery := if .delivery ∈ l then PerPort.all {} else h.delivery
  rotation := if .rotation ∈ l then [] else h.rotation
  zones := if .zones ∈ l then PerPort.all {} else h.zones
  echo := if .echo ∈ l then {} else h.echo
  router := if .router ∈ l then {} else h.router
  uplink := if .uplink ∈ l then {} else h.uplink
  draws := if .draws ∈ l then 0 else h.draws

/-- Two hubs differ only in the parts listed when they are one hub once those are blanked. -/
theorem Hub.onlyIn_of_hide {l : List Part} {a b : Hub} (e : b.hide l = a.hide l) : a.onlyIn l b := by
  intro x hx
  cases x <;> simp only [Hub.hide, Hub.mk.injEq] at e <;> simp_all [Hub.sameIn]

theorem Hub.hide_of_onlyIn {l : List Part} {a b : Hub} (e : a.onlyIn l b) : b.hide l = a.hide l := by
  have same : ∀ x : Part, x ∈ l ∨ a.sameIn b x := fun x => (em (x ∈ l)).imp_right (e x)
  simp only [Hub.hide, Hub.mk.injEq]
  refine ⟨?_, ?_, ?_, ?_, ?_, ?_, ?_, ?_, ?_, ?_, ?_, ?_, ?_, ?_, ?_⟩
  · cases same .time <;> simp_all [Hub.sameIn]
  · cases same .links <;> simp_all [Hub.sameIn]
  · cases same .power <;> simp_all [Hub.sameIn]
  · cases same .budget <;> simp_all [Hub.sameIn]
  · cases same .lenses <;> simp_all [Hub.sameIn]
  · cases same .deferred <;> simp_all [Hub.sameIn]
  · cases same .shot <;> simp_all [Hub.sameIn]
  · cases same .store <;> simp_all [Hub.sameIn]
  · cases same .delivery <;> simp_all [Hub.sameIn]
  · cases same .rotation <;> simp_all [Hub.sameIn]
  · cases same .zones <;> simp_all [Hub.sameIn]
  · cases same .echo <;> simp_all [Hub.sameIn]
  · cases same .router <;> simp_all [Hub.sameIn]
  · cases same .uplink <;> simp_all [Hub.sameIn]
  · cases same .draws <;> simp_all [Hub.sameIn]

theorem Hub.onlyIn_iff_hide {l : List Part} {a b : Hub} : a.onlyIn l b ↔ b.hide l = a.hide l :=
  ⟨Hub.hide_of_onlyIn, Hub.onlyIn_of_hide⟩

theorem Hub.onlyIn_refl (l : List Part) (a : Hub) : a.onlyIn l a := Hub.onlyIn_of_hide rfl

theorem Hub.onlyIn_trans {l : List Part} {a b c : Hub} (h1 : a.onlyIn l b) (h2 : b.onlyIn l c) : a.onlyIn l c :=
  Hub.onlyIn_of_hide ((Hub.hide_of_onlyIn h2).trans (Hub.hide_of_onlyIn h1))

theorem Hub.onlyIn_mono {l m : List Part} {a b : Hub} (hlm : l ⊆ m)
    (h1 : a.onlyIn l b) : a.onlyIn m b := by
  exact fun x hx => h1 x fun hl => hx (hlm hl)

/-! ## Named updates -/

@[simp] theorem hide_modTime (l : List Part) (f : Timebase → Timebase) (h : Hub) (h1 : Part.time ∈ l) :
    (h.modTime f).hide l = h.hide l := by simp [Hub.hide, h1]

@[simp] theorem hide_modLink (l : List Part) (p : Port) (f : Link → Link) (h : Hub) (h1 : Part.links ∈ l) :
    (h.modLink p f).hide l = h.hide l := by simp [Hub.hide, h1]

@[simp] theorem hide_modPower (l : List Part) (p : Port) (f : Power → Power) (h : Hub) (h1 : Part.power ∈ l) :
    (h.modPower p f).hide l = h.hide l := by simp [Hub.hide, h1]

@[simp] theorem hide_setBudget (l : List Part) (n : Nat) (h : Hub) (h1 : Part.budget ∈ l) :
    (h.setBudget n).hide l = h.hide l := by simp [Hub.hide, h1]

@[simp] theorem hide_modLens (l : List Part) (p : Port) (f : Lens → Lens) (h : Hub) (h1 : Part.lenses ∈ l) :
    (h.modLens p f).hide l = h.hide l := by simp [Hub.hide, h1]

@[simp] theorem hide_setDeferred (l : List Part) (d : List Port) (h : Hub) (h1 : Part.deferred ∈ l) :
    (h.setDeferred d).hide l = h.hide l := by simp [Hub.hide, h1]

@[simp] theorem hide_modShot (l : List Part) (f : Shot → Shot) (h : Hub) (h1 : Part.shot ∈ l) :
    (h.modShot f).hide l = h.hide l := by simp [Hub.hide, h1]

@[simp] theorem hide_modStore (l : List Part) (f : Store → Store) (h : Hub) (h1 : Part.store ∈ l) :
    (h.modStore f).hide l = h.hide l := by simp [Hub.hide, h1]

@[simp] theorem hide_modDelivery (l : List Part) (p : Port) (f : Delivery → Delivery) (h : Hub) (h1 : Part.delivery ∈ l) :
    (h.modDelivery p f).hide l = h.hide l := by simp [Hub.hide, h1]

@[simp] theorem hide_setRotation (l : List Part) (d : List Port) (h : Hub) (h1 : Part.rotation ∈ l) :
    (h.setRotation d).hide l = h.hide l := by simp [Hub.hide, h1]

@[simp] theorem hide_modZone (l : List Part) (p : Port) (f : ZoneMap → ZoneMap) (h : Hub) (h1 : Part.zones ∈ l) :
    (h.modZone p f).hide l = h.hide l := by simp [Hub.hide, h1]

@[simp] theorem hide_modEcho (l : List Part) (f : Echo → Echo) (h : Hub) (h1 : Part.echo ∈ l) :
    (h.modEcho f).hide l = h.hide l := by simp [Hub.hide, h1]

@[simp] theorem hide_modRouter (l : List Part) (f : Router → Router) (h : Hub) (h1 : Part.router ∈ l) :
    (h.modRouter f).hide l = h.hide l := by simp [Hub.hide, h1]

@[simp] theorem hide_modUplink (l : List Part) (f : Uplink → Uplink) (h : Hub) (h1 : Part.uplink ∈ l) :
    (h.modUplink f).hide l = h.hide l := by simp [Hub.hide, h1]

@[simp] theorem hide_draw (l : List Part) (n : Nat) (h : Hub) (h1 : Part.draws ∈ l) :
    (h.draw n).hide l = h.hide l := by simp [Hub.hide, h1]

/-! ## The router and the uplink -/

@[simp] theorem hide_modEntry (l : List Part) (src : Source) (f : Entry → Entry) (h : Hub)
    (h0 : Part.router ∈ l) :
    (h.modEntry src f).hide l = h.hide l := by
  unfold Hub.modEntry
  try dsimp only
  (repeat' split) <;> simp [*]

@[simp] theorem hide_sendReport (l : List Part) (src : Source) (h : Hub)
    (h0 : Part.router ∈ l) (h1 : Part.uplink ∈ l) (h2 : Part.draws ∈ l) :
    (h.sendReport src).hide l = h.hide l := by
  unfold Hub.sendReport
  try dsimp only
  (repeat' split) <;> simp [*]

@[simp] theorem hide_offerReport (l : List Part) (src : Source) (again : Bool) (h : Hub)
    (h0 : Part.router ∈ l) (h1 : Part.uplink ∈ l) (h2 : Part.draws ∈ l) :
    (h.offerReport src again).hide l = h.hide l := by
  unfold Hub.offerReport
  try dsimp only
  (repeat' split) <;> simp [*]

@[simp] theorem hide_fire (l : List Part) (src : Source) (d : List Byte) (h : Hub)
    (h0 : Part.router ∈ l) (h1 : Part.uplink ∈ l) (h2 : Part.draws ∈ l) :
    (h.fire src d).hide l = h.hide l := by
  unfold Hub.fire
  try dsimp only
  (repeat' split) <;> simp [*]

@[simp] theorem hide_activate (l : List Part) (src : Source) (h : Hub)
    (h0 : Part.router ∈ l) (h1 : Part.uplink ∈ l) (h2 : Part.draws ∈ l) :
    (h.activate src).hide l = h.hide l := by
  unfold Hub.activate
  try dsimp only
  (repeat' split) <;> simp [*]

@[simp] theorem hide_clearStale (l : List Part) (q : List Source) (h : Hub)
    (h0 : Part.router ∈ l) :
    (Hub.clearStale q h).hide l = h.hide l := by
  induction q generalizing h with
  | nil => rfl
  | cons a q ih => unfold Hub.clearStale; (repeat' split) <;> simp [*]

@[simp] theorem hide_reportLost (l : List Part) (src : Source) (n : Nat) (h : Hub)
    (h0 : Part.router ∈ l) :
    (h.reportLost src n).hide l = h.hide l := by
  unfold Hub.reportLost
  try dsimp only
  (repeat' split) <;> simp [*]

@[simp] theorem hide_repend (l : List Part) (src : Source) (h : Hub)
    (h0 : Part.router ∈ l) :
    (h.repend src).hide l = h.hide l := by
  unfold Hub.repend
  try dsimp only
  (repeat' split) <;> simp [*]

@[simp] theorem hide_grantCredit (l : List Part)  (h : Hub)
    (h0 : Part.uplink ∈ l) :
    (h.grantCredit).hide l = h.hide l := by
  unfold Hub.grantCredit
  try dsimp only
  (repeat' split) <;> simp [*]

@[simp] theorem hide_fillPlaces (l : List Part) (n : Nat) (h : Hub)
    (h0 : Part.router ∈ l) (h1 : Part.uplink ∈ l) (h2 : Part.draws ∈ l) :
    (Hub.fillPlaces n h).hide l = h.hide l := by
  induction n generalizing h with
  | zero => rfl
  | succ n ih => unfold Hub.fillPlaces; dsimp only; (repeat' split) <;> simp [*]

@[simp] theorem hide_modFrame (l : List Part) (t : FrameTag) (f : Frame → Frame) (h : Hub)
    (h0 : Part.store ∈ l) :
    (h.modFrame t f).hide l = h.hide l := by
  unfold Hub.modFrame
  try dsimp only
  (repeat' split) <;> simp [*]

@[simp] theorem hide_grant (l : List Part) (p : Port) (h : Hub)
    (h0 : Part.store ∈ l) (h1 : Part.delivery ∈ l) (h2 : Part.rotation ∈ l) (h3 : Part.uplink ∈ l) :
    (h.grant p).hide l = h.hide l := by
  unfold Hub.grant
  try dsimp only
  (repeat' split) <;> simp [*]

@[simp] theorem hide_arbitrate (l : List Part)  (h : Hub)
    (h0 : Part.store ∈ l) (h1 : Part.delivery ∈ l) (h2 : Part.rotation ∈ l) (h3 : Part.uplink ∈ l) :
    (h.arbitrate).hide l = h.hide l := by
  unfold Hub.arbitrate
  try dsimp only
  (repeat' split) <;> simp [*]

@[simp] theorem hide_finish (l : List Part)  (h : Hub)
    (h0 : Part.router ∈ l) (h1 : Part.uplink ∈ l) (h2 : Part.draws ∈ l) (h3 : Part.store ∈ l) (h4 : Part.delivery ∈ l) (h5 : Part.rotation ∈ l) :
    (h.finish).hide l = h.hide l := by
  unfold Hub.finish
  try dsimp only
  (repeat' split) <;> simp [*]

@[simp] theorem hide_discard (l : List Part) (c : DiscardCause) (h : Hub)
    (h0 : Part.router ∈ l) (h1 : Part.uplink ∈ l) (h2 : Part.draws ∈ l) :
    (h.discard c).hide l = h.hide l := by
  unfold Hub.discard
  try dsimp only
  (repeat' split) <;> simp [*]

@[simp] theorem hide_sendReply (l : List Part) (k : Nat) (c : Cmd) (st : Status) (data : List Byte) (h : Hub)
    (h0 : Part.uplink ∈ l) :
    (h.sendReply k c st data).hide l = h.hide l := by
  unfold Hub.sendReply
  try dsimp only
  (repeat' split) <;> simp [*]

/-! ## Frame store, delivery, zones -/

@[simp] theorem hide_reviewLow (l : List Part) (b : Bool) (h : Hub)
    (h0 : Part.router ∈ l) (h1 : Part.uplink ∈ l) (h2 : Part.draws ∈ l) :
    (h.reviewLow b).hide l = h.hide l := by
  unfold Hub.reviewLow
  try dsimp only
  (repeat' split) <;> simp [*]

@[simp] theorem hide_releaseFrame (l : List Part) (t : FrameTag) (h : Hub)
    (h0 : Part.router ∈ l) (h1 : Part.uplink ∈ l) (h2 : Part.draws ∈ l) (h3 : Part.store ∈ l) :
    (h.releaseFrame t).hide l = h.hide l := by
  unfold Hub.releaseFrame
  try dsimp only
  (repeat' split) <;> simp [*]

@[simp] theorem hide_openFrame (l : List Part) (i : SlotIx) (r : SlotRecord) (h : Hub)
    (h0 : Part.router ∈ l) (h1 : Part.uplink ∈ l) (h2 : Part.draws ∈ l) (h3 : Part.store ∈ l) :
    (h.openFrame i r).hide l = h.hide l := by
  unfold Hub.openFrame
  try dsimp only
  (repeat' split) <;> simp [*]

@[simp] theorem hide_closeFrame (l : List Part) (t : FrameTag) (p : Port) (st : CloseStatus) (h : Hub)
    (h0 : Part.store ∈ l) (h1 : Part.delivery ∈ l) :
    (h.closeFrame t p st).hide l = h.hide l := by
  unfold Hub.closeFrame
  try dsimp only
  (repeat' split) <;> simp [*]

@[simp] theorem hide_frameDelivered (l : List Part) (f : Frame) (st : DeliveryStatus) (h : Hub)
    (h0 : Part.router ∈ l) (h1 : Part.uplink ∈ l) (h2 : Part.draws ∈ l) (h3 : Part.store ∈ l) (h4 : Part.delivery ∈ l) :
    (h.frameDelivered f st).hide l = h.hide l := by
  unfold Hub.frameDelivered
  try dsimp only
  (repeat' split) <;> simp [*]

@[simp] theorem hide_loseSending (l : List Part) (p : Port) (h : Hub)
    (h0 : Part.router ∈ l) (h1 : Part.uplink ∈ l) (h2 : Part.draws ∈ l) (h3 : Part.store ∈ l) (h4 : Part.delivery ∈ l) :
    (h.loseSending p).hide l = h.hide l := by
  unfold Hub.loseSending
  try dsimp only
  (repeat' split) <;> simp [*]

@[simp] theorem hide_putBin (l : List Part) (p : Port) (z : Zone) (b : Bin) (x : Bool) (c : SuspectCause) (h : Hub)
    (h0 : Part.router ∈ l) (h1 : Part.uplink ∈ l) (h2 : Part.draws ∈ l) (h3 : Part.zones ∈ l) :
    (h.putBin p z b x c).hide l = h.hide l := by
  unfold Hub.putBin
  try dsimp only
  (repeat' split) <;> simp [*]

@[simp] theorem hide_countLine (l : List Part) (p : Port) (b : Bool) (h : Hub)
    (h0 : Part.router ∈ l) (h1 : Part.uplink ∈ l) (h2 : Part.draws ∈ l) (h3 : Part.zones ∈ l) :
    (h.countLine p b).hide l = h.hide l := by
  unfold Hub.countLine
  try dsimp only
  (repeat' split) <;> simp [*]

@[simp] theorem hide_countDrop (l : List Part) (p : Port) (h : Hub)
    (h0 : Part.router ∈ l) (h1 : Part.uplink ∈ l) (h2 : Part.draws ∈ l) (h3 : Part.zones ∈ l) :
    (h.countDrop p).hide l = h.hide l := by
  unfold Hub.countDrop
  try dsimp only
  (repeat' split) <;> simp [*]

@[simp] theorem hide_placeLine (l : List Part) (p : Port) (f : Frame) (w : LineWord) (h : Hub)
    (h0 : Part.router ∈ l) (h1 : Part.uplink ∈ l) (h2 : Part.draws ∈ l) (h3 : Part.zones ∈ l) (h4 : Part.store ∈ l) (h5 : Part.delivery ∈ l) :
    (h.placeLine p f w).hide l = h.hide l := by
  unfold Hub.placeLine
  try dsimp only
  (repeat' split) <;> simp [*]

@[simp] theorem hide_takeLine (l : List Part) (p : Port) (w : LineWord) (h : Hub)
    (h0 : Part.router ∈ l) (h1 : Part.uplink ∈ l) (h2 : Part.draws ∈ l) (h3 : Part.zones ∈ l) (h4 : Part.store ∈ l) (h5 : Part.delivery ∈ l) :
    (h.takeLine p w).hide l = h.hide l := by
  unfold Hub.takeLine
  try dsimp only
  (repeat' split) <;> simp [*]

@[simp] theorem hide_takeEof (l : List Part) (p : Port) (w : EofWord) (h : Hub)
    (h0 : Part.store ∈ l) (h1 : Part.delivery ∈ l) :
    (h.takeEof p w).hide l = h.hide l := by
  unfold Hub.takeEof
  try dsimp only
  (repeat' split) <;> simp [*]

/-! ## Lens moves -/

@[simp] theorem hide_offerWord (l : List Part) (p : Port) (w : DownWord) (h : Hub)
    (h0 : Part.links ∈ l) :
    (h.offerWord p w).hide l = h.hide l := by
  unfold Hub.offerWord
  try dsimp only
  (repeat' split) <;> simp [*]

@[simp] theorem hide_holdSurge (l : List Part) (p : Port) (h : Hub)
    (h0 : Part.power ∈ l) :
    (h.holdSurge p).hide l = h.hide l := by
  unfold Hub.holdSurge
  try dsimp only
  (repeat' split) <;> simp [*]

@[simp] theorem hide_modRecord (l : List Part) (p : Port) (f : LensRecord → LensRecord) (h : Hub)
    (h0 : Part.lenses ∈ l) :
    (h.modRecord p f).hide l = h.hide l := by
  unfold Hub.modRecord
  try dsimp only
  (repeat' split) <;> simp [*]

@[simp] theorem hide_offerLensMove (l : List Part) (p : Port) (h : Hub)
    (h0 : Part.links ∈ l) :
    (h.offerLensMove p).hide l = h.hide l := by
  unfold Hub.offerLensMove
  try dsimp only
  (repeat' split) <;> simp [*]

@[simp] theorem hide_startMove (l : List Part) (p : Port) (h : Hub)
    (h0 : Part.power ∈ l) (h1 : Part.lenses ∈ l) (h2 : Part.links ∈ l) :
    (h.startMove p).hide l = h.hide l := by
  unfold Hub.startMove
  try dsimp only
  (repeat' split) <;> simp [*]

@[simp] theorem hide_actMove (l : List Part) (p : Port) (r : PerAxis Bool) (h : Hub)
    (h0 : Part.power ∈ l) (h1 : Part.lenses ∈ l) (h2 : Part.links ∈ l) (h3 : Part.deferred ∈ l) :
    (h.actMove p r).hide l = h.hide l := by
  unfold Hub.actMove
  try dsimp only
  (repeat' split) <;> simp [*]

@[simp] theorem hide_issueMove (l : List Part) (p : Port) (t : Targets) (h : Hub)
    (h0 : Part.power ∈ l) (h1 : Part.lenses ∈ l) (h2 : Part.links ∈ l) (h3 : Part.deferred ∈ l) :
    ((h.issueMove p t).hub).hide l = h.hide l := by
  unfold Hub.issueMove
  try dsimp only
  (repeat' split) <;> simp [*]

@[simp] theorem hide_serveList (l : List Part) (q : List Port) (h : Hub)
    (h0 : Part.power ∈ l) (h1 : Part.lenses ∈ l) (h2 : Part.links ∈ l) (h3 : Part.deferred ∈ l) :
    (Hub.serveList q h).hide l = h.hide l := by
  induction q generalizing h with
  | nil => rfl
  | cons a q ih => unfold Hub.serveList; (repeat' split) <;> simp [*]

@[simp] theorem hide_serve (l : List Part)  (h : Hub)
    (h0 : Part.power ∈ l) (h1 : Part.lenses ∈ l) (h2 : Part.links ∈ l) (h3 : Part.deferred ∈ l) :
    (h.serve).hide l = h.hide l := by
  unfold Hub.serve
  try dsimp only
  (repeat' split) <;> simp [*]

@[simp] theorem hide_serveIfBelow (l : List Part) (n : Nat) (h : Hub)
    (h0 : Part.power ∈ l) (h1 : Part.lenses ∈ l) (h2 : Part.links ∈ l) (h3 : Part.deferred ∈ l) :
    (h.serveIfBelow n).hide l = h.hide l := by
  unfold Hub.serveIfBelow
  try dsimp only
  (repeat' split) <;> simp [*]

@[simp] theorem hide_releaseSurge (l : List Part) (p : Port) (h : Hub)
    (h0 : Part.power ∈ l) (h1 : Part.lenses ∈ l) (h2 : Part.links ∈ l) (h3 : Part.deferred ∈ l) :
    (h.releaseSurge p).hide l = h.hide l := by
  unfold Hub.releaseSurge
  try dsimp only
  (repeat' split) <;> simp [*]

/-! ## The shot cycle -/

@[simp] theorem hide_recordOutcome (l : List Part) (i : SlotIx) (x : SlotOutcome) (n : BitVec 32) (h : Hub)
    (h0 : Part.shot ∈ l) :
    (h.recordOutcome i x n).hide l = h.hide l := by
  unfold Hub.recordOutcome
  try dsimp only
  (repeat' split) <;> simp [*]

@[simp] theorem hide_issueSlotMove (l : List Part) (i : SlotIx) (h : Hub)
    (h0 : Part.power ∈ l) (h1 : Part.lenses ∈ l) (h2 : Part.links ∈ l) (h3 : Part.deferred ∈ l) :
    (h.issueSlotMove i).hide l = h.hide l := by
  unfold Hub.issueSlotMove
  try dsimp only
  (repeat' split) <;> simp [*]

@[simp] theorem hide_issueNext (l : List Part) (i : SlotIx) (n : BitVec 32) (h : Hub)
    (h0 : Part.power ∈ l) (h1 : Part.lenses ∈ l) (h2 : Part.links ∈ l) (h3 : Part.deferred ∈ l) :
    (h.issueNext i n).hide l = h.hide l := by
  unfold Hub.issueNext
  try dsimp only
  (repeat' split) <;> simp [*]

@[simp] theorem hide_skipSlot (l : List Part) (i : SlotIx) (p : Port) (n : BitVec 32) (r : SkipReason) (h : Hub)
    (h0 : Part.router ∈ l) (h1 : Part.uplink ∈ l) (h2 : Part.draws ∈ l) (h3 : Part.power ∈ l) (h4 : Part.lenses ∈ l) (h5 : Part.links ∈ l) (h6 : Part.deferred ∈ l) (h7 : Part.shot ∈ l) :
    (h.skipSlot i p n r).hide l = h.hide l := by
  unfold Hub.skipSlot
  try dsimp only
  (repeat' split) <;> simp [*]

@[simp] theorem hide_modFlight (l : List Part) (t : FrameTag) (f : Flight → Flight) (h : Hub)
    (h0 : Part.shot ∈ l) :
    (h.modFlight t f).hide l = h.hide l := by
  unfold Hub.modFlight
  try dsimp only
  (repeat' split) <;> simp [*]

@[simp] theorem hide_dropFlight (l : List Part) (t : FrameTag) (h : Hub)
    (h0 : Part.shot ∈ l) :
    (h.dropFlight t).hide l = h.hide l := by
  unfold Hub.dropFlight
  try dsimp only
  (repeat' split) <;> simp [*]

@[simp] theorem hide_endFlight (l : List Part) (f : Flight) (r : SkipReason) (h : Hub)
    (h0 : Part.router ∈ l) (h1 : Part.uplink ∈ l) (h2 : Part.draws ∈ l) (h3 : Part.power ∈ l) (h4 : Part.lenses ∈ l) (h5 : Part.links ∈ l) (h6 : Part.deferred ∈ l) (h7 : Part.shot ∈ l) (h8 : Part.store ∈ l) :
    (h.endFlight f r).hide l = h.hide l := by
  unfold Hub.endFlight
  try dsimp only
  (repeat' split) <;> simp [*]

theorem hide_foldl_endFlight (l : List Part) (r : SkipReason) (q : List Flight) (h : Hub)
    (h0 : Part.router ∈ l) (h1 : Part.uplink ∈ l) (h2 : Part.draws ∈ l) (h3 : Part.power ∈ l) (h4 : Part.lenses ∈ l) (h5 : Part.links ∈ l) (h6 : Part.deferred ∈ l) (h7 : Part.shot ∈ l) (h8 : Part.store ∈ l) :
    (q.foldl (fun h x => h.endFlight x r) h).hide l = h.hide l := by
  induction q generalizing h with
  | nil => rfl
  | cons a q ih => simp only [List.foldl_cons]; rw [ih]; simp [*]

@[simp] theorem hide_endFlights (l : List Part) (p : Port) (r : SkipReason) (h : Hub)
    (h0 : Part.router ∈ l) (h1 : Part.uplink ∈ l) (h2 : Part.draws ∈ l) (h3 : Part.power ∈ l) (h4 : Part.lenses ∈ l) (h5 : Part.links ∈ l) (h6 : Part.deferred ∈ l) (h7 : Part.shot ∈ l) (h8 : Part.store ∈ l) :
    (h.endFlights p r).hide l = h.hide l := by
  unfold Hub.endFlights; exact hide_foldl_endFlight l r _ h h0 h1 h2 h3 h4 h5 h6 h7 h8

@[simp] theorem hide_triggerNotSent (l : List Part) (t : FrameTag) (h : Hub)
    (h0 : Part.router ∈ l) (h1 : Part.uplink ∈ l) (h2 : Part.draws ∈ l) (h3 : Part.power ∈ l) (h4 : Part.lenses ∈ l) (h5 : Part.links ∈ l) (h6 : Part.deferred ∈ l) (h7 : Part.shot ∈ l) (h8 : Part.store ∈ l) :
    (h.triggerNotSent t).hide l = h.hide l := by
  unfold Hub.triggerNotSent
  try dsimp only
  (repeat' split) <;> simp [*]

@[simp] theorem hide_offerTrigger (l : List Part) (f : Flight) (b : Bool) (h : Hub)
    (h0 : Part.router ∈ l) (h1 : Part.uplink ∈ l) (h2 : Part.draws ∈ l) (h3 : Part.power ∈ l) (h4 : Part.lenses ∈ l) (h5 : Part.links ∈ l) (h6 : Part.deferred ∈ l) (h7 : Part.shot ∈ l) (h8 : Part.store ∈ l) :
    (h.offerTrigger f b).hide l = h.hide l := by
  unfold Hub.offerTrigger; try dsimp only; (repeat' split) <;> simp [*]

@[simp] theorem hide_triggerSent (l : List Part) (t : FrameTag) (h : Hub)
    (h0 : Part.shot ∈ l) (h1 : Part.store ∈ l) :
    (h.triggerSent t).hide l = h.hide l := by
  unfold Hub.triggerSent; try dsimp only; (repeat' split) <;> simp [*]

theorem hide_foldl_offerTrigger (l : List Part) (b : Bool) (q : List Flight) (h : Hub)
    (h0 : Part.router ∈ l) (h1 : Part.uplink ∈ l) (h2 : Part.draws ∈ l) (h3 : Part.power ∈ l) (h4 : Part.lenses ∈ l) (h5 : Part.links ∈ l) (h6 : Part.deferred ∈ l) (h7 : Part.shot ∈ l) (h8 : Part.store ∈ l) :
    (q.foldl (fun h x => h.offerTrigger x b) h).hide l = h.hide l := by
  induction q generalizing h with
  | nil => rfl
  | cons a q ih => simp only [List.foldl_cons]; rw [ih]; simp [*]

@[simp] theorem hide_lensReady (l : List Part) (p : Port) (h : Hub)
    (h0 : Part.router ∈ l) (h1 : Part.uplink ∈ l) (h2 : Part.draws ∈ l) (h3 : Part.power ∈ l) (h4 : Part.lenses ∈ l) (h5 : Part.links ∈ l) (h6 : Part.deferred ∈ l) (h7 : Part.shot ∈ l) (h8 : Part.store ∈ l) :
    (h.lensReady p).hide l = h.hide l := by
  unfold Hub.lensReady; exact hide_foldl_offerTrigger l false _ h h0 h1 h2 h3 h4 h5 h6 h7 h8

@[simp] theorem hide_lensAbandoned (l : List Part) (p : Port) (h : Hub)
    (h0 : Part.router ∈ l) (h1 : Part.uplink ∈ l) (h2 : Part.draws ∈ l) (h3 : Part.power ∈ l) (h4 : Part.lenses ∈ l) (h5 : Part.links ∈ l) (h6 : Part.deferred ∈ l) (h7 : Part.shot ∈ l) (h8 : Part.store ∈ l) :
    (h.lensAbandoned p).hide l = h.hide l := by
  unfold Hub.lensAbandoned
  try dsimp only
  (repeat' split) <;> simp [*]

@[simp] theorem hide_openSlot (l : List Part) (i : SlotIx) (h : Hub)
    (h0 : Part.router ∈ l) (h1 : Part.uplink ∈ l) (h2 : Part.draws ∈ l) (h3 : Part.power ∈ l) (h4 : Part.lenses ∈ l) (h5 : Part.links ∈ l) (h6 : Part.deferred ∈ l) (h7 : Part.shot ∈ l) (h8 : Part.store ∈ l) :
    (h.openSlot i).hide l = h.hide l := by
  unfold Hub.openSlot; try dsimp only; (repeat' split) <;> simp [*]

theorem hide_foldl_issueSlotMove (l : List Part)  (q : List SlotIx) (h : Hub)
    (h0 : Part.power ∈ l) (h1 : Part.lenses ∈ l) (h2 : Part.links ∈ l) (h3 : Part.deferred ∈ l) :
    (q.foldl (fun h x => h.issueSlotMove x) h).hide l = h.hide l := by
  induction q generalizing h with
  | nil => rfl
  | cons a q ih => simp only [List.foldl_cons]; rw [ih]; simp [*]

theorem hide_foldl_openSlot (l : List Part)  (q : List SlotIx) (h : Hub)
    (h0 : Part.router ∈ l) (h1 : Part.uplink ∈ l) (h2 : Part.draws ∈ l) (h3 : Part.power ∈ l) (h4 : Part.lenses ∈ l) (h5 : Part.links ∈ l) (h6 : Part.deferred ∈ l) (h7 : Part.shot ∈ l) (h8 : Part.store ∈ l) :
    (q.foldl (fun h x => h.openSlot x) h).hide l = h.hide l := by
  induction q generalizing h with
  | nil => rfl
  | cons a q ih => simp only [List.foldl_cons]; rw [ih]; simp [*]

@[simp] theorem hide_beginCycle (l : List Part)  (h : Hub)
    (h0 : Part.router ∈ l) (h1 : Part.uplink ∈ l) (h2 : Part.draws ∈ l) (h3 : Part.power ∈ l) (h4 : Part.lenses ∈ l) (h5 : Part.links ∈ l) (h6 : Part.deferred ∈ l) (h7 : Part.shot ∈ l) (h8 : Part.store ∈ l) :
    (h.beginCycle).hide l = h.hide l := by
  unfold Hub.beginCycle
  split
  · rfl
  · dsimp only
    rw [hide_foldl_openSlot, hide_foldl_issueSlotMove] <;> simp [*]

@[simp] theorem hide_overrun (l : List Part) (k : StartSource) (h : Hub)
    (h0 : Part.router ∈ l) (h1 : Part.uplink ∈ l) (h2 : Part.draws ∈ l) (h3 : Part.shot ∈ l) :
    (h.overrun k).hide l = h.hide l := by
  unfold Hub.overrun
  try dsimp only
  (repeat' split) <;> simp [*]

@[simp] theorem hide_start (l : List Part) (k : StartSource) (h : Hub)
    (h0 : Part.router ∈ l) (h1 : Part.uplink ∈ l) (h2 : Part.draws ∈ l) (h3 : Part.power ∈ l) (h4 : Part.lenses ∈ l) (h5 : Part.links ∈ l) (h6 : Part.deferred ∈ l) (h7 : Part.shot ∈ l) (h8 : Part.store ∈ l) :
    (h.start k).hide l = h.hide l := by
  unfold Hub.start
  try dsimp only
  (repeat' split) <;> simp [*]

/-! ## Links -/

@[simp] theorem hide_endMove (l : List Part) (p : Port) (st : MoveState) (c : DoneCause) (h : Hub)
    (h0 : Part.router ∈ l) (h1 : Part.uplink ∈ l) (h2 : Part.draws ∈ l) (h3 : Part.power ∈ l) (h4 : Part.lenses ∈ l) (h5 : Part.links ∈ l) (h6 : Part.deferred ∈ l) (h7 : Part.shot ∈ l) (h8 : Part.store ∈ l) :
    (h.endMove p st c).hide l = h.hide l := by
  unfold Hub.endMove; try dsimp only; (repeat' split) <;> simp [*]

@[simp] theorem hide_abandon (l : List Part) (p : Port) (h : Hub)
    (h0 : Part.router ∈ l) (h1 : Part.uplink ∈ l) (h2 : Part.draws ∈ l) (h3 : Part.power ∈ l) (h4 : Part.lenses ∈ l) (h5 : Part.links ∈ l) (h6 : Part.deferred ∈ l) (h7 : Part.shot ∈ l) (h8 : Part.store ∈ l) :
    (h.abandon p).hide l = h.hide l := by
  unfold Hub.abandon
  try dsimp only
  (repeat' split) <;> simp [*]

@[simp] theorem hide_takeLensStatus (l : List Part) (p : Port) (w : LensStatusWord) (h : Hub)
    (h0 : Part.router ∈ l) (h1 : Part.uplink ∈ l) (h2 : Part.draws ∈ l) (h3 : Part.power ∈ l) (h4 : Part.lenses ∈ l) (h5 : Part.links ∈ l) (h6 : Part.deferred ∈ l) (h7 : Part.shot ∈ l) (h8 : Part.store ∈ l) :
    (h.takeLensStatus p w).hide l = h.hide l := by
  unfold Hub.takeLensStatus; try dsimp only; (repeat' split) <;> simp [*]

@[simp] theorem hide_dropFilling (l : List Part) (p : Port) (st : CloseStatus) (w : SkipReason) (h : Hub)
    (h0 : Part.router ∈ l) (h1 : Part.uplink ∈ l) (h2 : Part.draws ∈ l) (h3 : Part.power ∈ l) (h4 : Part.lenses ∈ l) (h5 : Part.links ∈ l) (h6 : Part.deferred ∈ l) (h7 : Part.shot ∈ l) (h8 : Part.store ∈ l) (h9 : Part.delivery ∈ l) :
    (h.dropFilling p st w).hide l = h.hide l := by
  unfold Hub.dropFilling; try dsimp only; (repeat' split) <;> simp [*]

@[simp] theorem hide_linkChange (l : List Part) (p : Port) (c : LinkCause) (h : Hub)
    (h0 : Part.router ∈ l) (h1 : Part.uplink ∈ l) (h2 : Part.draws ∈ l) :
    (h.linkChange p c).hide l = h.hide l := by
  unfold Hub.linkChange
  try dsimp only
  (repeat' split) <;> simp [*]

@[simp] theorem hide_reportUnsent (l : List Part) (q : List FrameTag) (h : Hub)
    (h0 : Part.router ∈ l) (h1 : Part.uplink ∈ l) (h2 : Part.draws ∈ l) (h3 : Part.power ∈ l) (h4 : Part.lenses ∈ l) (h5 : Part.links ∈ l) (h6 : Part.deferred ∈ l) (h7 : Part.shot ∈ l) (h8 : Part.store ∈ l) :
    (h.reportUnsent q).hide l = h.hide l := by
  unfold Hub.reportUnsent
  induction q generalizing h with
  | nil => rfl
  | cons a q ih => simp only [List.foldl_cons]; rw [ih]; simp [*]

@[simp] theorem hide_enterAcquire (l : List Part) (p : Port) (r : Rate) (c : LinkCause) (h : Hub)
    (h0 : Part.router ∈ l) (h1 : Part.uplink ∈ l) (h2 : Part.draws ∈ l) (h3 : Part.power ∈ l) (h4 : Part.lenses ∈ l) (h5 : Part.links ∈ l) (h6 : Part.deferred ∈ l) (h7 : Part.shot ∈ l) (h8 : Part.store ∈ l) :
    (h.enterAcquire p r c).hide l = h.hide l := by
  unfold Hub.enterAcquire
  try dsimp only
  (repeat' split) <;> simp [*]

@[simp] theorem hide_linkStart (l : List Part) (p : Port) (h : Hub)
    (h0 : Part.links ∈ l) (h1 : Part.router ∈ l) (h2 : Part.uplink ∈ l) (h3 : Part.draws ∈ l) :
    (h.linkStart p).hide l = h.hide l := by
  unfold Hub.linkStart; try dsimp only; (repeat' split) <;> simp [*]

@[simp] theorem hide_linkStop (l : List Part) (p : Port) (h : Hub)
    (h0 : Part.router ∈ l) (h1 : Part.uplink ∈ l) (h2 : Part.draws ∈ l) (h3 : Part.power ∈ l) (h4 : Part.lenses ∈ l) (h5 : Part.links ∈ l) (h6 : Part.deferred ∈ l) (h7 : Part.shot ∈ l) (h8 : Part.store ∈ l) (h9 : Part.delivery ∈ l) :
    (h.linkStop p).hide l = h.hide l := by
  unfold Hub.linkStop; try dsimp only; (repeat' split) <;> simp [*]

@[simp] theorem hide_lockLostUp (l : List Part) (p : Port) (h : Hub)
    (h0 : Part.router ∈ l) (h1 : Part.uplink ∈ l) (h2 : Part.draws ∈ l) (h3 : Part.power ∈ l) (h4 : Part.lenses ∈ l) (h5 : Part.links ∈ l) (h6 : Part.deferred ∈ l) (h7 : Part.shot ∈ l) (h8 : Part.store ∈ l) (h9 : Part.delivery ∈ l) (h10 : Part.zones ∈ l) :
    (h.lockLostUp p).hide l = h.hide l := by
  unfold Hub.lockLostUp; try dsimp only; (repeat' split) <;> simp [*]

@[simp] theorem hide_countWordError (l : List Part) (p : Port) (h : Hub)
    (h0 : Part.links ∈ l) :
    (h.countWordError p).hide l = h.hide l := by
  unfold Hub.countWordError
  try dsimp only
  (repeat' split) <;> simp [*]

@[simp] theorem hide_buildLens (l : List Part) (p : Port) (c : CameraRecord) (h : Hub)
    (h0 : Part.lenses ∈ l) :
    (h.buildLens p c).hide l = h.hide l := by
  unfold Hub.buildLens
  try dsimp only
  (repeat' split) <;> simp [*]

@[simp] theorem hide_helloAcquire (l : List Part) (p : Port) (c : CameraRecord) (h : Hub)
    (h0 : Part.links ∈ l) (h1 : Part.lenses ∈ l) (h2 : Part.router ∈ l) (h3 : Part.uplink ∈ l) (h4 : Part.draws ∈ l) :
    (h.helloAcquire p c).hide l = h.hide l := by
  unfold Hub.helloAcquire
  try dsimp only
  (repeat' split) <;> simp [*]

@[simp] theorem hide_helloRestart (l : List Part) (p : Port) (c : CameraRecord) (h : Hub)
    (h0 : Part.router ∈ l) (h1 : Part.uplink ∈ l) (h2 : Part.draws ∈ l) (h3 : Part.power ∈ l) (h4 : Part.lenses ∈ l) (h5 : Part.links ∈ l) (h6 : Part.deferred ∈ l) (h7 : Part.shot ∈ l) (h8 : Part.store ∈ l) :
    (h.helloRestart p c).hide l = h.hide l := by
  unfold Hub.helloRestart
  try dsimp only
  (repeat' split) <;> simp [*]

@[simp] theorem hide_takeHello (l : List Part) (p : Port) (w : HelloWord) (h : Hub)
    (h0 : Part.router ∈ l) (h1 : Part.uplink ∈ l) (h2 : Part.draws ∈ l) (h3 : Part.power ∈ l) (h4 : Part.lenses ∈ l) (h5 : Part.links ∈ l) (h6 : Part.deferred ∈ l) (h7 : Part.shot ∈ l) (h8 : Part.store ∈ l) :
    (h.takeHello p w).hide l = h.hide l := by
  unfold Hub.takeHello; try dsimp only; (repeat' split) <;> simp [*]

@[simp] theorem hide_wordEnd (l : List Part) (p : Port) (c : OnCable) (h : Hub)
    (h0 : Part.router ∈ l) (h1 : Part.uplink ∈ l) (h2 : Part.draws ∈ l) (h3 : Part.power ∈ l) (h4 : Part.lenses ∈ l) (h5 : Part.links ∈ l) (h6 : Part.deferred ∈ l) (h7 : Part.shot ∈ l) (h8 : Part.store ∈ l) :
    (h.wordEnd p c).hide l = h.hide l := by
  unfold Hub.wordEnd; try dsimp only; (repeat' split) <;> simp [*]

/-! ## Echo and power -/

@[simp] theorem hide_lookForJob (l : List Part)  (h : Hub)
    (h0 : Part.echo ∈ l) :
    (h.lookForJob).hide l = h.hide l := by
  unfold Hub.lookForJob
  try dsimp only
  (repeat' split) <;> simp [*]

@[simp] theorem hide_queueJob (l : List Part) (p : Port) (k : EchoKind) (h : Hub)
    (h0 : Part.echo ∈ l) :
    (h.queueJob p k).hide l = h.hide l := by
  unfold Hub.queueJob
  try dsimp only
  (repeat' split) <;> simp [*]

@[simp] theorem hide_requestAuto (l : List Part) (p : Port) (h : Hub)
    (h0 : Part.echo ∈ l) :
    (h.requestAuto p).hide l = h.hide l := by
  unfold Hub.requestAuto
  try dsimp only
  (repeat' split) <;> simp [*]

@[simp] theorem hide_modEchoPort (l : List Part) (p : Port) (f : EchoPort → EchoPort) (h : Hub)
    (h0 : Part.echo ∈ l) :
    (h.modEchoPort p f).hide l = h.hide l := by
  unfold Hub.modEchoPort
  try dsimp only
  (repeat' split) <;> simp [*]

@[simp] theorem hide_storeResult (l : List Part) (p : Port) (r : EchoResult) (h : Hub)
    (h0 : Part.echo ∈ l) :
    (h.storeResult p r).hide l = h.hide l := by
  unfold Hub.storeResult
  try dsimp only
  (repeat' split) <;> simp [*]

@[simp] theorem hide_huntDone (l : List Part) (p : Port) (r : EchoResult) (h : Hub)
    (h0 : Part.router ∈ l) (h1 : Part.uplink ∈ l) (h2 : Part.draws ∈ l) :
    (h.huntDone p r).hide l = h.hide l := by
  unfold Hub.huntDone
  try dsimp only
  (repeat' split) <;> simp [*]

@[simp] theorem hide_trip (l : List Part) (p : Port) (c : TripCause) (h : Hub)
    (h0 : Part.router ∈ l) (h1 : Part.uplink ∈ l) (h2 : Part.draws ∈ l) (h3 : Part.power ∈ l) (h4 : Part.lenses ∈ l) (h5 : Part.links ∈ l) (h6 : Part.deferred ∈ l) (h7 : Part.shot ∈ l) (h8 : Part.store ∈ l) (h9 : Part.delivery ∈ l) (h10 : Part.echo ∈ l) :
    (h.trip p c).hide l = h.hide l := by
  unfold Hub.trip; try dsimp only; (repeat' split) <;> simp [*]

@[simp] theorem hide_sample (l : List Part) (p : Port) (n : Nat) (h : Hub)
    (h0 : Part.router ∈ l) (h1 : Part.uplink ∈ l) (h2 : Part.draws ∈ l) (h3 : Part.power ∈ l) (h4 : Part.lenses ∈ l) (h5 : Part.links ∈ l) (h6 : Part.deferred ∈ l) (h7 : Part.shot ∈ l) (h8 : Part.store ∈ l) (h9 : Part.delivery ∈ l) (h10 : Part.echo ∈ l) :
    (h.sample p n).hide l = h.hide l := by
  unfold Hub.sample
  try dsimp only
  (repeat' split) <;> simp [*]

@[simp] theorem hide_enterOn (l : List Part) (p : Port) (h : Hub)
    (h0 : Part.power ∈ l) (h1 : Part.links ∈ l) (h2 : Part.router ∈ l) (h3 : Part.uplink ∈ l) (h4 : Part.draws ∈ l) :
    (h.enterOn p).hide l = h.hide l := by
  unfold Hub.enterOn
  try dsimp only
  (repeat' split) <;> simp [*]

@[simp] theorem hide_retry (l : List Part) (p : Port) (h : Hub)
    (h0 : Part.power ∈ l) :
    (h.retry p).hide l = h.hide l := by
  unfold Hub.retry
  try dsimp only
  (repeat' split) <;> simp [*]

@[simp] theorem hide_leaveOn (l : List Part) (p : Port) (b : Bool) (h : Hub)
    (h0 : Part.router ∈ l) (h1 : Part.uplink ∈ l) (h2 : Part.draws ∈ l) (h3 : Part.power ∈ l) (h4 : Part.lenses ∈ l) (h5 : Part.links ∈ l) (h6 : Part.deferred ∈ l) (h7 : Part.shot ∈ l) (h8 : Part.store ∈ l) (h9 : Part.delivery ∈ l) :
    (h.leaveOn p b).hide l = h.hide l := by
  unfold Hub.leaveOn
  try dsimp only
  (repeat' split) <;> simp [*]

@[simp] theorem hide_turnOff (l : List Part) (p : Port) (h : Hub)
    (h0 : Part.router ∈ l) (h1 : Part.uplink ∈ l) (h2 : Part.draws ∈ l) (h3 : Part.power ∈ l) (h4 : Part.lenses ∈ l) (h5 : Part.links ∈ l) (h6 : Part.deferred ∈ l) (h7 : Part.shot ∈ l) (h8 : Part.store ∈ l) (h9 : Part.delivery ∈ l) :
    (h.turnOff p).hide l = h.hide l := by
  unfold Hub.turnOff
  try dsimp only
  (repeat' split) <;> simp [*]

@[simp] theorem hide_enterHunt (l : List Part) (p : Port) (b : Bool) (h : Hub)
    (h0 : Part.router ∈ l) (h1 : Part.uplink ∈ l) (h2 : Part.draws ∈ l) (h3 : Part.power ∈ l) (h4 : Part.lenses ∈ l) (h5 : Part.links ∈ l) (h6 : Part.deferred ∈ l) (h7 : Part.shot ∈ l) (h8 : Part.store ∈ l) (h9 : Part.delivery ∈ l) :
    (h.enterHunt p b).hide l = h.hide l := by
  unfold Hub.enterHunt
  try dsimp only
  (repeat' split) <;> simp [*]

@[simp] theorem hide_endHunt (l : List Part) (p : Port) (h : Hub)
    (h0 : Part.power ∈ l) :
    (h.endHunt p).hide l = h.hide l := by
  unfold Hub.endHunt
  try dsimp only
  (repeat' split) <;> simp [*]

@[simp] theorem hide_lockOutLocated (l : List Part) (p : Port) (h : Hub)
    (h0 : Part.power ∈ l) (h1 : Part.lenses ∈ l) (h2 : Part.links ∈ l) (h3 : Part.deferred ∈ l) :
    (h.lockOutLocated p).hide l = h.hide l := by
  unfold Hub.lockOutLocated
  try dsimp only
  (repeat' split) <;> simp [*]

@[simp] theorem hide_autoResult (l : List Part) (p : Port) (b : Bool) (h : Hub)
    (h0 : Part.power ∈ l) (h1 : Part.lenses ∈ l) (h2 : Part.links ∈ l) (h3 : Part.deferred ∈ l) :
    (h.autoResult p b).hide l = h.hide l := by
  unfold Hub.autoResult
  try dsimp only
  (repeat' split) <;> simp [*]

@[simp] theorem hide_completeJob (l : List Part) (j : EchoJob) (h : Hub)
    (h0 : Part.router ∈ l) (h1 : Part.uplink ∈ l) (h2 : Part.draws ∈ l) (h3 : Part.power ∈ l) (h4 : Part.lenses ∈ l) (h5 : Part.links ∈ l) (h6 : Part.deferred ∈ l) (h7 : Part.echo ∈ l) :
    (h.completeJob j).hide l = h.hide l := by
  unfold Hub.completeJob; try dsimp only; (repeat' split) <;> simp [*]

@[simp] theorem hide_elapse (l : List Part) (n : Nat) (h : Hub)
    (h0 : Part.time ∈ l) (h1 : Part.links ∈ l) (h2 : Part.power ∈ l) (h3 : Part.lenses ∈ l) (h4 : Part.shot ∈ l) (h5 : Part.store ∈ l) (h6 : Part.echo ∈ l) :
    (h.elapse n).hide l = h.hide l := by
  simp [Hub.elapse, Hub.hide, *]

/-! ## Whole commands -/

/-- What taking a command can change: what its block can change, and what the reply and the transmitter's choice bring. -/
theorem hide_takeCommand (l : List Part) (k : Nat) (c : Cmd) (ok : Bool) (body : Hub → Answer) (h : Hub)
    (hb : (body h).hub.hide l = h.hide l)
    (h0 : Part.router ∈ l) (h1 : Part.uplink ∈ l) (h2 : Part.draws ∈ l) (h3 : Part.store ∈ l) (h4 : Part.delivery ∈ l) (h5 : Part.rotation ∈ l) :
    (h.takeCommand k c ok body).hide l = h.hide l := by
  unfold Hub.takeCommand refuse
  dsimp only
  (repeat' split) <;> simp [*]

end Sys2Proof.Machine
end

