-- ==== Sys2Proof/Laws/Kept.lean ====
section
/-! SUPPORT. What no shared operation below the link and power states changes: reports, lens moves, served surges, slots and frames leave
every state, setting, count and timer that `Hub.kept` keeps as it was. -/

set_option linter.unnecessarySeqFocus false
set_option linter.unusedTactic false
set_option linter.unreachableTactic false
set_option linter.unusedSimpArgs false

namespace Sys2Proof.Machine

/-- A link record less its waiting words. -/
def Link.kept (l : Link) : Link := { l with words := [], cable := none }

/-- A power record less the surge it holds. -/
def Power.kept (w : Power) : Power := { w with heldSurge := 0 }

/-- A port's lens data less the lens record. -/
def Lens.kept (l : Lens) : Lens := { l with record := none }

/-- The scheduler's state less its slots. -/
def Shot.kept (x : Shot) : Shot :=
  { x with
    opening := Vector.replicate 16 none, exposureEnds := Vector.replicate 16 none, flights := []
    stats := Vector.replicate 16 {} }

/-- The frame store less its descriptors. -/
def Store.kept (st : Store) : Store := { st with frames := [], tagCounter := 0 }

/-- What reports, lens moves, slots and frames leave of a hub. -/
def Hub.kept (h : Hub) : Hub :=
  { h with
    links := h.links.map Link.kept, power := h.power.map Power.kept, lenses := h.lenses.map Lens.kept, deferred := []
    shot := h.shot.kept, store := h.store.kept, router := {}, uplink := {}, draws := 0 }

theorem PerPort.map_mod_kept {α β : Type} (g : α → β) (f : α → α) (v : PerPort α) (p : Port) (e : ∀ a, g (f a) = g a) :
    (v.mod p f).map g = v.map g := by
  refine PerPort.ext_get fun q => ?_
  simp only [PerPort.get_map, PerPort.get_mod]
  split
  · subst_vars; exact e _
  · rfl

/-! ## Updates -/

theorem kept_modLink (p : Port) (f : Link → Link) (h : Hub) (e : ∀ l, (f l).kept = l.kept) : (h.modLink p f).kept = h.kept := by
  simp [Hub.kept, PerPort.map_mod_kept _ _ _ _ e]

theorem kept_modPower (p : Port) (f : Power → Power) (h : Hub) (e : ∀ w, (f w).kept = w.kept) :
    (h.modPower p f).kept = h.kept := by
  simp [Hub.kept, PerPort.map_mod_kept _ _ _ _ e]

theorem kept_modLens (p : Port) (f : Lens → Lens) (h : Hub) (e : ∀ l, (f l).kept = l.kept) : (h.modLens p f).kept = h.kept := by
  simp [Hub.kept, PerPort.map_mod_kept _ _ _ _ e]

theorem kept_modShot (f : Shot → Shot) (h : Hub) (e : (f h.shot).kept = h.shot.kept) : (h.modShot f).kept = h.kept := by
  simp [Hub.kept, e]

theorem kept_modStore (f : Store → Store) (h : Hub) (e : (f h.store).kept = h.store.kept) : (h.modStore f).kept = h.kept := by
  simp [Hub.kept, e]

@[simp] theorem kept_setDeferred (l : List Port) (h : Hub) : (h.setDeferred l).kept = h.kept := rfl
@[simp] theorem kept_modRouter (f : Router → Router) (h : Hub) : (h.modRouter f).kept = h.kept := rfl
@[simp] theorem kept_modUplink (f : Uplink → Uplink) (h : Hub) : (h.modUplink f).kept = h.kept := rfl
@[simp] theorem kept_draw (n : Nat) (h : Hub) : (h.draw n).kept = h.kept := rfl
@[simp] theorem kept_modEntry (src : Source) (f : Entry → Entry) (h : Hub) : (h.modEntry src f).kept = h.kept := rfl

/-- The words that wait are all that putting the next one on the cable changes. -/
@[simp] theorem Link.kept_pump (l : Link) : l.pump.1.kept = l.kept := by
  unfold Link.pump
  split <;> rfl

@[simp] theorem Link.kept_offer (w : DownWord) (l : Link) : (l.offer w).1.kept = l.kept := by
  unfold Link.offer
  rw [Link.kept_pump]
  rfl


/-! ## Reports and places -/

@[simp] theorem kept_sendReport (src : Source) (h : Hub) : (h.sendReport src).kept = h.kept := by
  unfold Hub.sendReport
  try dsimp only
  (repeat' split) <;> simp [*]

@[simp] theorem kept_offerReport (src : Source) (again : Bool) (h : Hub) : (h.offerReport src again).kept = h.kept := by
  unfold Hub.offerReport
  try dsimp only
  (repeat' split) <;> simp [*]

@[simp] theorem kept_fire (src : Source) (d : List Byte) (h : Hub) : (h.fire src d).kept = h.kept := by
  unfold Hub.fire
  try dsimp only
  (repeat' split) <;> simp [*]

@[simp] theorem kept_activate (src : Source) (h : Hub) : (h.activate src).kept = h.kept := by
  unfold Hub.activate
  try dsimp only
  (repeat' split) <;> simp [*]

@[simp] theorem kept_clearStale (q : List Source) (h : Hub) : (Hub.clearStale q h).kept = h.kept := by
  induction q generalizing h with
  | nil => rfl
  | cons a q ih => unfold Hub.clearStale; (repeat' split) <;> simp [*]

@[simp] theorem kept_grantCredit (h : Hub) : (h.grantCredit).kept = h.kept := by
  unfold Hub.grantCredit
  try dsimp only
  (repeat' split) <;> simp [*]

@[simp] theorem kept_fillPlaces (n : Nat) (h : Hub) : (Hub.fillPlaces n h).kept = h.kept := by
  induction n generalizing h with
  | zero => rfl
  | succ n ih => unfold Hub.fillPlaces; dsimp only; (repeat' split) <;> simp [*]

@[simp] theorem kept_discard (c : DiscardCause) (h : Hub) : (h.discard c).kept = h.kept := by
  unfold Hub.discard
  try dsimp only
  (repeat' split) <;> simp [*]


/-! ## Frames -/

@[simp] theorem kept_modFrame (t : FrameTag) (f : Frame → Frame) (h : Hub) : (h.modFrame t f).kept = h.kept := by
  unfold Hub.modFrame
  exact kept_modStore _ _ rfl

@[simp] theorem kept_reviewLow (b : Bool) (h : Hub) : (h.reviewLow b).kept = h.kept := by
  unfold Hub.reviewLow
  try dsimp only
  (repeat' split) <;> simp [*]

@[simp] theorem kept_releaseFrame (t : FrameTag) (h : Hub) : (h.releaseFrame t).kept = h.kept := by
  unfold Hub.releaseFrame
  rw [kept_reviewLow]
  exact kept_modStore _ _ rfl

@[simp] theorem kept_openFrame (i : SlotIx) (r : SlotRecord) (h : Hub) : (h.openFrame i r).kept = h.kept := by
  unfold Hub.openFrame
  dsimp only
  rw [kept_reviewLow]
  exact kept_modStore _ _ rfl


/-! ## Lens moves -/

@[simp] theorem kept_offerWord (p : Port) (w : DownWord) (h : Hub) : (h.offerWord p w).kept = h.kept := by
  unfold Hub.offerWord
  exact kept_modLink _ _ _ fun l => by simp

@[simp] theorem kept_holdSurge (p : Port) (h : Hub) : (h.holdSurge p).kept = h.kept := by
  unfold Hub.holdSurge
  exact kept_modPower _ _ _ fun _ => rfl

@[simp] theorem kept_modRecord (p : Port) (f : LensRecord → LensRecord) (h : Hub) : (h.modRecord p f).kept = h.kept := by
  unfold Hub.modRecord
  exact kept_modLens _ _ _ fun _ => rfl

@[simp] theorem kept_offerLensMove (p : Port) (h : Hub) : (h.offerLensMove p).kept = h.kept := by
  unfold Hub.offerLensMove
  try dsimp only
  (repeat' split) <;> simp [*]

@[simp] theorem kept_startMove (p : Port) (h : Hub) : (h.startMove p).kept = h.kept := by
  unfold Hub.startMove
  try dsimp only
  (repeat' split) <;> simp [*]

@[simp] theorem kept_actMove (p : Port) (r : PerAxis Bool) (h : Hub) : (h.actMove p r).kept = h.kept := by
  unfold Hub.actMove
  try dsimp only
  (repeat' split) <;> simp [*]

@[simp] theorem kept_issueMove (p : Port) (t : Targets) (h : Hub) : ((h.issueMove p t).hub).kept = h.kept := by
  unfold Hub.issueMove
  try dsimp only
  (repeat' split) <;> simp [*]

@[simp] theorem kept_serveList (q : List Port) (h : Hub) : (Hub.serveList q h).kept = h.kept := by
  induction q generalizing h with
  | nil => rfl
  | cons a q ih => unfold Hub.serveList; (repeat' split) <;> simp [*]

@[simp] theorem kept_serve (h : Hub) : (h.serve).kept = h.kept := by
  unfold Hub.serve
  try dsimp only
  (repeat' split) <;> simp [*]

@[simp] theorem kept_serveIfBelow (n : Nat) (h : Hub) : (h.serveIfBelow n).kept = h.kept := by
  unfold Hub.serveIfBelow
  try dsimp only
  (repeat' split) <;> simp [*]

@[simp] theorem kept_releaseSurge (p : Port) (h : Hub) : (h.releaseSurge p).kept = h.kept := by
  unfold Hub.releaseSurge
  rw [kept_serveIfBelow]
  exact kept_modPower _ _ _ fun _ => rfl


/-! ## Slots -/

@[simp] theorem kept_recordOutcome (i : SlotIx) (x : SlotOutcome) (n : BitVec 32) (h : Hub) : (h.recordOutcome i x n).kept = h.kept := by
  unfold Hub.recordOutcome
  exact kept_modShot _ _ rfl

@[simp] theorem kept_modFlight (t : FrameTag) (f : Flight → Flight) (h : Hub) : (h.modFlight t f).kept = h.kept := by
  unfold Hub.modFlight
  exact kept_modShot _ _ rfl

@[simp] theorem kept_dropFlight (t : FrameTag) (h : Hub) : (h.dropFlight t).kept = h.kept := by
  unfold Hub.dropFlight
  exact kept_modShot _ _ rfl

@[simp] theorem kept_issueSlotMove (i : SlotIx) (h : Hub) : (h.issueSlotMove i).kept = h.kept := by
  unfold Hub.issueSlotMove
  try dsimp only
  (repeat' split) <;> simp [*]

@[simp] theorem kept_issueNext (i : SlotIx) (n : BitVec 32) (h : Hub) : (h.issueNext i n).kept = h.kept := by
  unfold Hub.issueNext
  try dsimp only
  (repeat' split) <;> simp [*]

@[simp] theorem kept_skipSlot (i : SlotIx) (p : Port) (n : BitVec 32) (r : SkipReason) (h : Hub) : (h.skipSlot i p n r).kept = h.kept := by
  unfold Hub.skipSlot
  try dsimp only
  (repeat' split) <;> simp [*]

@[simp] theorem kept_endFlight (f : Flight) (r : SkipReason) (h : Hub) : (h.endFlight f r).kept = h.kept := by
  unfold Hub.endFlight
  try dsimp only
  (repeat' split) <;> simp [*]

theorem kept_foldl_endFlight (r : SkipReason) (q : List Flight) (h : Hub) : (q.foldl (fun h x => h.endFlight x r) h).kept = h.kept := by
  induction q generalizing h with
  | nil => rfl
  | cons a q ih => simp only [List.foldl_cons]; rw [ih]; simp [*]

@[simp] theorem kept_endFlights (p : Port) (r : SkipReason) (h : Hub) : (h.endFlights p r).kept = h.kept := by
  unfold Hub.endFlights
  exact kept_foldl_endFlight r _ h

@[simp] theorem kept_triggerNotSent (t : FrameTag) (h : Hub) : (h.triggerNotSent t).kept = h.kept := by
  unfold Hub.triggerNotSent
  try dsimp only
  (repeat' split) <;> simp [*]

@[simp] theorem kept_offerTrigger (f : Flight) (b : Bool) (h : Hub) : (h.offerTrigger f b).kept = h.kept := by
  unfold Hub.offerTrigger
  try dsimp only
  (repeat' split) <;> simp [*]

@[simp] theorem kept_triggerSent (t : FrameTag) (h : Hub) : (h.triggerSent t).kept = h.kept := by
  unfold Hub.triggerSent
  split
  · rfl
  · dsimp only
    split
    · rw [kept_modShot _ _ rfl]; simp
    · simp

theorem kept_foldl_offerTrigger (b : Bool) (q : List Flight) (h : Hub) : (q.foldl (fun h x => h.offerTrigger x b) h).kept = h.kept := by
  induction q generalizing h with
  | nil => rfl
  | cons a q ih => simp only [List.foldl_cons]; rw [ih]; simp [*]

@[simp] theorem kept_lensReady (p : Port) (h : Hub) : (h.lensReady p).kept = h.kept := by
  unfold Hub.lensReady
  exact kept_foldl_offerTrigger false _ h

@[simp] theorem kept_lensAbandoned (p : Port) (h : Hub) : (h.lensAbandoned p).kept = h.kept := by
  unfold Hub.lensAbandoned
  try dsimp only
  (repeat' split) <;> simp [*]

@[simp] theorem kept_openSlot (i : SlotIx) (h : Hub) : (h.openSlot i).kept = h.kept := by
  have open_ : ∀ g : Hub, (g.modShot fun s => { s with opening := s.opening.set i none }).kept = g.kept :=
    fun g => kept_modShot _ _ rfl
  have flight : ∀ (f : Flight) (g : Hub), (g.modShot fun s => { s with flights := s.flights ++ [f] }).kept = g.kept :=
    fun f g => kept_modShot _ _ rfl
  unfold Hub.openSlot
  dsimp only
  (repeat' split) <;> simp [open_, flight]

@[simp] theorem kept_endMove (p : Port) (st : MoveState) (c : DoneCause) (h : Hub) : (h.endMove p st c).kept = h.kept := by
  unfold Hub.endMove
  try dsimp only
  (repeat' split) <;> simp [*]

@[simp] theorem kept_abandon (p : Port) (h : Hub) : (h.abandon p).kept = h.kept := by
  unfold Hub.abandon
  try dsimp only
  (repeat' split) <;> simp [*]

@[simp] theorem kept_takeLensStatus (p : Port) (w : LensStatusWord) (h : Hub) : (h.takeLensStatus p w).kept = h.kept := by
  unfold Hub.takeLensStatus
  try dsimp only
  (repeat' split) <;> simp [*]

@[simp] theorem kept_linkChange (p : Port) (c : LinkCause) (h : Hub) : (h.linkChange p c).kept = h.kept := by
  unfold Hub.linkChange
  try dsimp only
  (repeat' split) <;> simp [*]

@[simp] theorem kept_reportUnsent (q : List FrameTag) (h : Hub) : (h.reportUnsent q).kept = h.kept := by
  unfold Hub.reportUnsent
  induction q generalizing h with
  | nil => rfl
  | cons a q ih => simp only [List.foldl_cons]; rw [ih]; simp [*]

@[simp] theorem kept_buildLens (p : Port) (c : CameraRecord) (h : Hub) : (h.buildLens p c).kept = h.kept := by
  unfold Hub.buildLens
  exact kept_modLens _ _ _ fun _ => rfl

@[simp] theorem kept_wordEnd (p : Port) (c : OnCable) (h : Hub) : (h.wordEnd p c).kept = h.kept := by
  have free : ∀ g : Hub, (g.modLink p fun l => { l with cable := none }).kept = g.kept := fun g => kept_modLink _ _ _ fun _ => rfl
  have pump : ∀ g : Hub, (g.modLink p fun l => l.pump.1).kept = g.kept := fun g => kept_modLink _ _ _ Link.kept_pump
  unfold Hub.wordEnd
  dsimp only
  (repeat' split) <;> simp [free, pump]


/-! ## Reading what is kept -/

/-- Two hubs with the same `kept` agree in every link's state, rate and timers. -/
theorem links_of_kept {a b : Hub} (e : a.kept = b.kept) (p : Port) : (a.links.get p).kept = (b.links.get p).kept := by
  have := congrArg (fun h : Hub => h.links.get p) e
  simpa [Hub.kept] using this

/-- Two hubs with the same `kept` agree in every power record but for held surges. -/
theorem power_of_kept {a b : Hub} (e : a.kept = b.kept) (p : Port) : (a.power.get p).kept = (b.power.get p).kept := by
  have := congrArg (fun h : Hub => h.power.get p) e
  simpa [Hub.kept] using this

/-- Two hubs with the same `kept` agree in the DRAM. -/
theorem dram_of_kept {a b : Hub} (e : a.kept = b.kept) : a.store.dram = b.store.dram := by
  have := congrArg (fun h : Hub => h.store.dram) e
  simpa [Hub.kept, Store.kept] using this

end Sys2Proof.Machine
end

