-- ==== Sys2Proof/Laws/Lines.lean ====
section
/-! SUPPORT. The received-line set (R102, R112): what inserting a line number does to the list that keeps it. -/

namespace Sys2Proof.Machine

/-- R112: the list gains the line and no other. -/
theorem mem_insertLine {q : Nat × Bool} (n : Nat) (bad : Bool) (l : List (Nat × Bool)) :
    q ∈ insertLine n bad l ↔ q = (n, bad) ∨ q ∈ l := by
  induction l with
  | nil => simp [insertLine]
  | cons x rest ih =>
    obtain ⟨m, b⟩ := x
    unfold insertLine
    split
    · simp
    · simp [ih, or_left_comm]

/-- R112: the list is one longer. -/
theorem length_insertLine (n : Nat) (bad : Bool) (l : List (Nat × Bool)) : (insertLine n bad l).length = l.length + 1 := by
  induction l with
  | nil => rfl
  | cons x rest ih =>
    obtain ⟨m, b⟩ := x
    unfold insertLine
    split <;> simp [ih]

/-- R125: a list in strictly ascending order stays so when a line number that it does not hold joins it. -/
theorem insertLine_ascending (n : Nat) (bad : Bool) (l : List (Nat × Bool)) (new : ∀ q ∈ l, q.1 ≠ n)
    (ascending : (l.map (·.1)).Pairwise (· < ·)) : ((insertLine n bad l).map (·.1)).Pairwise (· < ·) := by
  rw [List.pairwise_map] at ascending ⊢
  induction l with
  | nil => exact List.pairwise_singleton _ _
  | cons x rest ih =>
    obtain ⟨m, b⟩ := x
    obtain ⟨below, ordered⟩ := List.pairwise_cons.mp ascending
    unfold insertLine
    split
    · rename_i less
      refine List.pairwise_cons.mpr ⟨fun q h => ?_, ascending⟩
      rcases List.mem_cons.mp h with rfl | h
      · exact less
      · exact less.trans (below q h)
    · rename_i notLess
      refine List.pairwise_cons.mpr ⟨fun q h => ?_, ih (fun q h => new q (List.mem_cons_of_mem _ h)) ordered⟩
      rcases (mem_insertLine n bad rest).mp h with rfl | h
      · exact lt_of_le_of_ne (Nat.le_of_not_lt notLess) (new (m, b) List.mem_cons_self)
      · exact below q h

end Sys2Proof.Machine
end

