-- ==== Sys2Proof/Laws/Memory.lean ====
section
/-! SUPPORT. The frame-store DRAM: every operation keeps the canonical form, and what a read gives after a write. -/

namespace Sys2Proof.Machine

/-- Every address a write leaves listed was listed before, or is the one written. -/
theorem Memory.mem_write {c : Host.Cell} (k : Nat) (v : Byte) :
    ∀ m : Memory, c ∈ m.write k v → c ∈ m ∨ c = (k, v) ∧ v ≠ 0
  | [], h => by
    unfold Memory.write at h
    split at h <;> simp_all
  | (a, b) :: m, h => by
    unfold Memory.write at h
    split_ifs at h with h1 h2 h3 h4
    · exact .inl h
    · rcases List.mem_cons.1 h with h | h
      · exact .inr ⟨h, h2⟩
      · exact .inl h
    · exact .inl (List.mem_cons_of_mem _ h)
    · rcases List.mem_cons.1 h with h | h
      · exact .inr ⟨h, h4⟩
      · exact .inl (List.mem_cons_of_mem _ h)
    · rcases List.mem_cons.1 h with h | h
      · exact .inl (h ▸ List.mem_cons_self)
      · rcases Memory.mem_write k v m h with h | h
        · exact .inl (List.mem_cons_of_mem _ h)
        · exact .inr h

/-- A write keeps the canonical form. -/
theorem Memory.wf_write (k : Nat) (v : Byte) : ∀ m : Memory, Memory.wf m → Memory.wf (m.write k v)
  | [], _ => by
    unfold Memory.write
    split <;> simp_all [Memory.wf]
  | (a, b) :: m, h => by
    obtain ⟨hs, hz⟩ := h
    have hs' := List.pairwise_cons.1 hs
    have hzm : ∀ c ∈ m, c.2 ≠ 0 := fun c hc => hz c (List.mem_cons_of_mem _ hc)
    have hb : b ≠ 0 := hz (a, b) List.mem_cons_self
    unfold Memory.write
    split_ifs with h1 h2 h3 h4
    · exact ⟨hs, hz⟩
    · refine ⟨List.pairwise_cons.2 ⟨?_, hs⟩, ?_⟩
      · intro c hc
        rcases List.mem_cons.1 hc with rfl | hc
        · exact h1
        · exact lt_trans h1 (hs'.1 c hc)
      · intro c hc
        rcases List.mem_cons.1 hc with rfl | hc
        · exact h2
        · exact hz c hc
    · exact ⟨hs'.2, hzm⟩
    · refine ⟨List.pairwise_cons.2 ⟨?_, hs'.2⟩, ?_⟩
      · intro c hc
        exact h3 ▸ hs'.1 c hc
      · intro c hc
        rcases List.mem_cons.1 hc with rfl | hc
        · exact h4
        · exact hzm c hc
    · have ih := Memory.wf_write k v m ⟨hs'.2, hzm⟩
      refine ⟨List.pairwise_cons.2 ⟨?_, ih.1⟩, ?_⟩
      · intro c hc
        rcases Memory.mem_write k v m hc with hc | ⟨rfl, -⟩
        · exact hs'.1 c hc
        · exact lt_of_le_of_ne (not_lt.1 h1) (Ne.symm h3)
      · intro c hc
        rcases List.mem_cons.1 hc with rfl | hc
        · exact hb
        · exact ih.2 c hc

/-- An address below every listed one reads as an unlisted byte. -/
theorem Memory.read_of_lt (k : Nat) : ∀ m : Memory, (∀ c ∈ m, k < c.1) → m.read k = 0
  | [], _ => rfl
  | (a, b) :: m, h => by
    have ha : k < a := h (a, b) List.mem_cons_self
    rw [Memory.read, if_neg (by omega)]
    exact Memory.read_of_lt k m fun c hc => h c (List.mem_cons_of_mem _ hc)

/-- A read after a write gives the byte written at its address, and the byte that was there at any other. -/
theorem Memory.read_write (k : Nat) (v : Byte) (a : Nat) :
    ∀ m : Memory, Memory.wf m → (m.write k v).read a = if a = k then v else m.read a
  | [], _ => by
    unfold Memory.write
    split <;> rename_i hv
    · simp [hv, Memory.read]
    · simp only [Memory.read]
      split_ifs <;> simp_all
  | (c, b) :: m, h => by
    obtain ⟨hs, hz⟩ := h
    have hs' := List.pairwise_cons.1 hs
    have wfm : Memory.wf m := ⟨hs'.2, fun x hx => hz x (List.mem_cons_of_mem _ hx)⟩
    have below : k < c → Memory.read ((c, b) :: m) k = 0 := fun hk =>
      Memory.read_of_lt k _ fun x hx => by
        rcases List.mem_cons.1 hx with rfl | hx
        · exact hk
        · exact lt_trans hk (hs'.1 x hx)
    have head : Memory.read m c = 0 := Memory.read_of_lt c m fun x hx => hs'.1 x hx
    unfold Memory.write
    split_ifs with h1 h2 h3 h4 h5 h6 h7 h8
    · subst h3; rw [below h1, h2]
    · rfl
    · simp [Memory.read, h4]
    · rw [Memory.read, if_neg (by omega)]
    · subst h5; subst h7; rw [head, h6]
    · subst h5
      rw [Memory.read, if_neg (by omega)]
    · simp [Memory.read, h8]
    · subst h5
      rw [Memory.read, if_neg (by omega), Memory.read, if_neg (by omega)]
    all_goals
      have ih := Memory.read_write k v a m wfm
      simp only [Memory.read]
      rw [ih]
      split_ifs <;> first | rfl | omega

/-- Writing a run of bytes keeps the canonical form. -/
theorem Memory.wf_writeRun (pages : List Nat) (bs : List Byte) :
    ∀ (m : Memory) (k : Nat), Memory.wf m → Memory.wf (Memory.writeRun pages m k bs) := by
  induction bs with
  | nil => intro m k h; exact h
  | cons b bs ih =>
    intro m k h
    rw [Memory.writeRun]
    split
    · exact ih _ _ (Memory.wf_write _ _ _ h)
    · exact ih _ _ h

/-- A run leaves every address that none of its places stands at. -/
theorem Memory.read_writeRun_other (pages : List Nat) (bs : List Byte) (a : Nat) :
    ∀ (m : Memory) (k : Nat), Memory.wf m → (∀ j, j < bs.length → pageAddress pages (k + j) ≠ some a) →
      (Memory.writeRun pages m k bs).read a = m.read a := by
  induction bs with
  | nil => intro m k _ _; rfl
  | cons b bs ih =>
    intro m k h hj
    have h0 : pageAddress pages k ≠ some a := hj 0 (by simp)
    have hs : ∀ j, j < bs.length → pageAddress pages (k + 1 + j) ≠ some a := fun j hlt => by
      have := hj (j + 1) (by simpa using hlt)
      rwa [show k + (j + 1) = k + 1 + j by omega] at this
    rw [Memory.writeRun]
    split
    · rename_i x hx
      rw [ih _ _ (Memory.wf_write _ _ _ h) hs, Memory.read_write _ _ _ _ h, if_neg]
      rintro rfl
      exact h0 hx
    · exact ih _ _ h hs

/-- Two places of a run of different pages stand at different addresses. -/
theorem pageAddress_inj {pages : List Nat} (hp : pages.Nodup) {j k a : Nat} (hj : pageAddress pages j = some a)
    (hk : pageAddress pages k = some a) : j = k := by
  unfold pageAddress at hj hk
  rw [Option.map_eq_some_iff] at hj hk
  obtain ⟨x, hx, ex⟩ := hj
  obtain ⟨y, hy, ey⟩ := hk
  have e1 := Nat.div_add_mod j Config.pageBytes
  have e2 := Nat.div_add_mod k Config.pageBytes
  have l1 := Nat.mod_lt j (show 0 < Config.pageBytes by decide)
  have l2 := Nat.mod_lt k (show 0 < Config.pageBytes by decide)
  have hxy : x = y := by simp only [Config.pageBytes] at *; omega
  subst hxy
  obtain ⟨hjl, hxj⟩ := List.getElem?_eq_some_iff.1 hx
  obtain ⟨hkl, hxk⟩ := List.getElem?_eq_some_iff.1 hy
  have hd : j / Config.pageBytes = k / Config.pageBytes := (List.Nodup.getElem_inj_iff hp).1 (hxj.trans hxk.symm)
  simp only [Config.pageBytes] at *
  omega

/-- A run reads back: at the address of a place of the run stands its byte. -/
theorem Memory.read_writeRun (pages : List Nat) (hp : pages.Nodup) (bs : List Byte) :
    ∀ (m : Memory) (k j a : Nat), Memory.wf m → j < bs.length → pageAddress pages (k + j) = some a →
      (Memory.writeRun pages m k bs).read a = bs.getD j 0 := by
  induction bs with
  | nil => intro m k j a _ hj; simp at hj
  | cons b bs ih =>
    intro m k j a h hj ha
    rw [Memory.writeRun]
    cases j with
    | zero =>
      rw [Nat.add_zero] at ha
      simp only [ha]
      rw [Memory.read_writeRun_other _ _ _ _ _ (Memory.wf_write _ _ _ h)]
      · rw [Memory.read_write _ _ _ _ h, if_pos rfl]; rfl
      · intro i _ hi
        have := pageAddress_inj hp hi ha
        omega
    | succ j =>
      have hj' : j < bs.length := by simpa using hj
      have ha' : pageAddress pages (k + 1 + j) = some a := by rwa [show k + 1 + j = k + (j + 1) by omega]
      split
      · exact ih _ _ _ _ (Memory.wf_write _ _ _ h) hj' ha'
      · exact ih _ _ _ _ h hj' ha'

/-- The DRAM right after reset lists nothing. -/
theorem reset_dram : State.reset.store.dram = [] := rfl

/-- The DRAM right after reset is in canonical form. -/
theorem wf_reset : Memory.wf State.reset.store.dram := by simp [reset_dram, Memory.wf]

/-- A pin reset keeps the DRAM (log 14). -/
theorem pinReset_dram (h : Hub) : h.pinReset.store.dram = h.store.dram := rfl

end Sys2Proof.Machine
end

