-- ==== Sys2Proof/Laws/Moves.lean ====
section
/-! SUPPORT. What offering a word, admitting a surge, serving the deferred move list and abandoning a move can do: the operations meet the
relations of the claims. -/

namespace Sys2Proof.Machine

/-! ## Words (R3) -/

/-- R3: a word that joins the list stands in it. -/
theorem mem_joinWords (w : DownWord) (ws : List DownWord) : w ∈ joinWords w ws := by
  unfold joinWords
  split
  · rename_i h
    obtain ⟨x, hx, same⟩ := List.any_eq_true.mp h
    exact List.mem_map.mpr ⟨x, hx, by simp [same]⟩
  · split <;> simp

/-- R3: a waiting word that the link state allows is sent or goes on waiting. -/
theorem pumpWords_keeps {s : LinkState} {w : DownWord} {ws : List DownWord} (mem : w ∈ ws) (ok : w.allowed s = true) :
    (pumpWords s ws).1 = some w ∨ w ∈ (pumpWords s ws).2.1 := by
  induction ws with
  | nil => simp at mem
  | cons x xs ih =>
    unfold pumpWords
    split
    · rcases List.mem_cons.mp mem with rfl | h
      · exact Or.inl rfl
      · exact Or.inr h
    · rename_i no
      rcases List.mem_cons.mp mem with rfl | h
      · exact absurd ok no
      · exact ih h

/-- R3: a word offered in a link state that allows it is on the cable or waits for it. -/
theorem Link.offer_carries (l : Link) (w : DownWord) (ok : w.allowed l.state = true) : (l.offer w).1.carries w := by
  unfold Link.offer Link.pump Link.carries
  cases hc : l.cable with
  | some c => exact Or.inl (by simpa [hc] using mem_joinWords w l.words)
  | none =>
    rcases pumpWords_keeps (s := l.state) (mem_joinWords w l.words) ok with h | h
    · exact Or.inr ⟨⟨w, wordTime, false⟩, by simp [h], rfl⟩
    · exact Or.inl (by simpa [hc] using h)

/-- Offering a word changes the list and the cable alone. -/
theorem Link.offer_eq (l : Link) (w : DownWord) :
    (l.offer w).1 = { l with words := (l.offer w).1.words, cable := (l.offer w).1.cable } := by
  unfold Link.offer Link.pump
  cases l.cable <;> simp

/-! ## Surges (R36) -/

/-- R36: the check is the relation of the claims. -/
theorem surgeFits_iff (p : Port) (h : Hub) : h.surgeFits p = true ↔ h.surgeAdmitted p := by
  simp [Hub.surgeFits, Hub.surgeAdmitted, Hub.admits]

/-! ## Serving (R55) -/

/-- R52, R55: an entry taken off the list whose move starts is admitted. -/
theorem entryAdmitted_startMove (p : Port) (h : Hub) :
    entryAdmitted p h ((h.setDeferred (h.deferred.filter (· != p))).startMove p) := by
  unfold Hub.startMove Hub.offerLensMove Hub.modRecord Hub.holdSurge Hub.offerWord
  cases hr : (h.lenses.get p).record with
  | none =>
    simp only [modLens_lenses, modPower_lenses, setDeferred_lenses, PerPort.get_mod_same, hr, Option.map_none]
    refine ⟨fun x hx => ?_, fun q hq => ?_, rfl, ?_, ?_, rfl, ?_⟩
    · cases x <;> first | rfl | simp at hx
    · simp [hq]
    · simp
    · simp [hr]
    · simp [hr]
  | some r =>
    simp only [modLens_lenses, modPower_lenses, setDeferred_lenses, PerPort.get_mod_same, hr, Option.map_some]
    refine ⟨fun x hx => ?_, fun q hq => ?_, rfl, ?_, ?_, ?_, ?_⟩
    · cases x <;> first | rfl | simp at hx
    · simp [hq]
    · simp
    · simp [hr, Lens.timeoutLength]
    · simpa using Link.offer_eq (h.links.get p) _
    · intro r' e carried
      obtain rfl : r = r' := Option.some.inj (hr.symm.trans e)
      simpa [LensRecord.targets, targetsOf] using
        Link.offer_carries (h.links.get p) (.lensMove (targetsOf r.axes)) (by
          rcases List.mem_pair.mp carried with e | e <;> simp [DownWord.allowed, e])

/-- R55: running through a list from the head is one serving of it. -/
theorem served_serveList (l : List Port) (h : Hub) : served l h (Hub.serveList l h) := by
  induction l generalizing h with
  | nil => rfl
  | cons p rest ih =>
    unfold Hub.serveList
    refine ⟨fun no => ?_, fun yes => ?_⟩
    · rw [if_neg fun e => no ((surgeFits_iff p h).mp e)]
    · rw [if_pos ((surgeFits_iff p h).mpr yes)]
      exact ⟨_, entryAdmitted_startMove p h, ih _⟩

/-- R55: one serving of the deferred list. -/
theorem served_serve (h : Hub) : served h.deferred h h.serve := served_serveList h.deferred h

/-- R35: a serving follows a fall of the reserved sum and nothing else. -/
theorem servedIfLess_serveIfBelow (a b : Hub) : servedIfLess a b (b.serveIfBelow a.reservedSum) := by
  unfold Hub.serveIfBelow
  refine ⟨fun less => ?_, fun notLess => ?_⟩
  · rw [if_pos less]; exact served_serve b
  · rw [if_neg (Nat.not_lt.mpr notLess)]

/-! ## Abandonment (R59) -/

/-- R59: the record an abandonment leaves is that of the claims. -/
theorem abandoned_eq (r : LensRecord) : r.abandoned = abandonedRecord r := by
  dsimp only [LensRecord.abandoned, abandonedRecord]
  congr 2
  funext a
  congr 1
  funext x
  obtain ⟨limits, target, actual, moving⟩ := x
  cases actual <;> rfl

end Sys2Proof.Machine
end

