-- ==== Sys2Proof/Laws/Replies.lean ====
section
/-! SUPPORT. The data of the status commands: what the meanings send is what the statements spell out, field by field. -/

namespace Sys2Proof.Machine

/-! ## Fields (R193) -/

/-- An on/off or presence byte. -/
theorem wFlag_eq (b : Bool) : wFlag b = [flagByte b] := by cases b <;> rfl

/-- An optional field whose absent value is `width` bytes 0. -/
theorem wOpt_eq {α : Type} (width : Nat) (zero : α) (w : α → List Byte) (zeros : w zero = List.replicate width 0) :
    ∀ o, wOpt zero w o = optionalField width w o
  | some _ => rfl
  | none => congrArg (wFlag false ++ ·) zeros

/-- An optional 2-byte field. -/
theorem wOpt2_eq (o : Option Nat) : wOpt2 o = optionalField 2 w2 o := wOpt_eq 2 0 w2 rfl o

/-- An optional field read from what holds it. -/
theorem optionalField_map {α β : Type} (width : Nat) (f : α → β) (w : β → List Byte) (o : Option α) :
    optionalField width w (o.map f) = optionalField width (fun a => w (f a)) o := by cases o <;> rfl

/-! ## Replies -/

/-- R20: PORT_INFO. -/
theorem portInfo_eq (p : Port) (h : Hub) :
    h.portInfo p =
      let l := h.links.get p
      w1 l.state.code ++ w1 l.rate.code ++ w1 l.threshold ++ w1 l.sinceUp ++ w2 l.total ++ w2 l.wordErrors ++
        w6 l.lastChange.toNat ++
        optionalField 26 (fun x : CameraRecord =>
          w2 x.model.toNat ++ w2 x.maxLine.toNat ++ wAxes (x.travel.map Option.isSome) ++
            x.travel.toList.flatMap (optionalField 4 fun m : Limits => w2 m.lo ++ w2 m.hi) ++ w6 x.receivedAt.toNat) l.camera ++
        w2 (h.store.strays.get p) ++ w2 (h.store.duplicates.get p) := by
  have limits : wLimits = optionalField 4 fun m : Limits => w2 m.lo ++ w2 m.hi := funext (wOpt_eq 4 _ _ rfl)
  have record : CameraRecord.bytes = fun x => w2 x.model.toNat ++ w2 x.maxLine.toNat ++ wAxes (x.travel.map Option.isSome) ++
      x.travel.toList.flatMap (optionalField 4 fun m : Limits => w2 m.lo ++ w2 m.hi) ++ w6 x.receivedAt.toNat := by
    funext x; rw [← limits]; rfl
  simp only [Hub.portInfo, wOpt_eq 26 ⟨0, 0, ⟨none, none, none⟩, 0⟩ CameraRecord.bytes rfl, wTime]
  rw [record]

/-- R41: POWER_STATUS. -/
theorem powerStatus_eq (p : Port) (h : Hub) :
    h.powerStatus p =
      let w := h.power.get p
      w1 w.state.code ++ [flagByte w.restore] ++ [flagByte w.discharged] ++ w2 w.setup.limit ++ w1 w.setup.inrush ++
        w1 w.setup.tripSamples ++ w1 w.setup.retries ++ w2 w.setup.cooldown ++ w2 w.setup.surge ++ [flagByte w.setup.autoHunt] ++
        w1 w.retriesUsed ++ w2 w.heldSurge ++ w2 w.last ++ w2 w.peak ++ w1 w.cause.code ++ w2 w.trips ++ w2 h.budget ++
        w2 h.reservedSum := by
  simp only [Hub.powerStatus, PowerSetup.bytes, wFlag_eq, List.append_assoc]

/-- R120: STORE_STATUS. -/
theorem storeStatus_eq (st : Store) : st.status = storeFields st := by
  have each (p : Port) : st.portStatus p =
      optionalField 7 (fun f : Frame => w2 f.tag.toNat ++ [flagByte f.exposedAt.isSome] ++ w2 f.received.length ++ w2 f.lines)
          (st.filling? p) ++
        w1 (st.frames.countP fun f => f.port == p && f.state == .queued) ++
        optionalField 2 (fun f : Frame => w2 f.tag.toNat) (st.frames.find? fun f => f.port == p && f.state == .sending) ++
        w2 (st.strays.get p) ++ w2 (st.duplicates.get p) := by
    unfold Store.portStatus
    rw [wOpt2_eq, optionalField_map]
    cases h : st.filling? p <;>
      simp [optionalField, wFlag_eq, flagByte, Frame.fillingBytes, Frame.triggered, Frame.receivedCount, Store.portCountIn,
        Store.sending?]
  unfold Store.status storeFields
  simp only [funext each, wFlag_eq]
  rfl

/-- R130: DELIVERY_STATUS. -/
theorem deliveryStatus_eq (h : Hub) : h.deliveryStatus = deliveryFields h := by
  have each (d : Delivery) : d.status =
      [flagByte d.hold] ++ w1 d.fifo.length ++ optionalField 2 (fun t : FrameTag => w2 t.toNat) d.fifo.head? ++
        optionalField 7 (fun g : Progress =>
          w1 (match g.next with | .frameOpen => 0 | .line => 1 | .close => 2) ++ optionalField 2 w2 g.nextLine ++
            w2 g.linesSent ++ [flagByte g.abort]) d.progress ++
        w2 d.delivered ++ w2 d.aborted ++ w2 d.lost := by
    unfold Delivery.status
    rw [wOpt2_eq, optionalField_map]
    cases hp : d.progress with
    | none => simp [optionalField, wFlag_eq, flagByte]
    | some g => simp [optionalField, wFlag_eq, flagByte, Progress.bytes, wOpt2_eq]; cases g.next <;> rfl
  unfold Hub.deliveryStatus deliveryFields
  rw [funext each]
  rfl

/-- R184: UPLINK_STATUS. -/
theorem uplinkStatus_eq (u : Uplink) : u.status = uplinkFields u := rfl

/-- R144: ZONE_READ. -/
theorem zoneRead_eq (m : ZoneMap) : m.bytes = zoneFields m := by
  have each (b : Bin) : b.bytes =
      w4 b.lines ++ w4 b.bad ++ w2 b.drops ++ w4 (b.bad * 1000000 / b.lines) ++ [flagByte b.suspect.isSome] ++
        optionalField 1 (fun x : SuspectCause × CellTime => w1 x.1.code) b.suspect ++
        optionalField 6 (fun x : SuspectCause × CellTime => w6 x.2.toNat) b.suspect := by
    unfold Bin.bytes
    rw [wOpt_eq 1 0 w1 rfl, wOpt_eq 6 0 wTime rfl, optionalField_map, optionalField_map, wFlag_eq]
    rfl
  unfold ZoneMap.bytes zoneFields ZoneSetup.bytes
  rw [funext each]
  simp only [List.append_assoc]

/-- R163: ECHO_RESULT. -/
theorem echoResult_eq (e : Echo) (p : Port) (trace : Bool) : e.resultBytes p trace = echoFields e p trace := by
  have each (r : EchoResult) : r.bytes =
      w1 r.kind.code ++ w1 r.outcome.code ++ optionalField 1 (fun g : Finding => w1 g.crossing) r.finding ++
        optionalField 2 (fun g : Finding => w2 g.delay) r.finding ++
        optionalField 2 (fun g : Finding => w2 g.distance) r.finding ++
        optionalField 4 (fun g : Finding => wPlace g.place) r.finding ++
        optionalField 2 (fun g : Finding => w2 g.magnitude) r.finding ++
        optionalField 1 (fun g : Finding => [flagByte g.clipped]) r.finding ++ w1 r.averaging ++ w6 r.time.toNat := by
    simp only [EchoResult.bytes, wOpt2_eq, wOpt_eq 1 0 w1 rfl, wOpt_eq 4 (.segment 0 0) wPlace rfl, wOpt_eq 1 false wFlag rfl,
      optionalField_map, wFlag_eq]
    rfl
  simp only [Echo.resultBytes, echoFields, Echo.kind?, Echo.place, Echo.stateCode, EchoSettings.bytes, wOpt_eq 1 0 w1 rfl,
    optionalField_map, wOpt_eq 27 EchoResult.blank EchoResult.bytes rfl,
    wOpt_eq 512 Trace.zero Trace.bytes (by decide +kernel), List.append_assoc]
  rw [show EchoResult.bytes = _ from funext each]
  simp only [List.append_assoc]
  rfl

/-- R80: TABLE_READ of a table. -/
theorem tableRead_eq (t : ShotTable) : t.bytes = tableFields t := by
  have each (r : SlotRecord) : r.bytes =
      [flagByte r.enabled] ++ w1 r.port.val ++ w4 r.offset ++ w4 r.exposure ++ w2 r.guardTime ++ w2 r.window ++
        optionalField 1 (fun k : Fin 16 => w1 k.val) r.preset ++ w2 r.lines ++ w2 r.lineBytes := by
    unfold SlotRecord.bytes
    rw [wOpt_eq 1 0 w1 rfl, optionalField_map, wFlag_eq]
  unfold ShotTable.bytes tableFields
  rw [funext each]
  rfl

/-- R189: ROUTE_READ. -/
theorem routeRead_eq (h : Hub) (src : Source) : h.routeData src = routeFields h src := by
  simp only [Hub.routeData, Router.entryBytes, routeFields, Router.place,
    wOpt_eq src.detailLength (List.replicate src.detailLength 0) id rfl, wFlag_eq]
  simp [w1]

/-- R69: LENS_STATUS of a valid lens record. -/
theorem lensStatus_eq (p : Port) (r : LensRecord) (h : Hub) (valid : (h.lenses.get p).record = some r) :
    h.lensStatus p = lensStatusFields h p r := by
  have each : AxisRecord.bytes = fun a =>
      optionalField 2 w2 a.target ++ optionalField 2 w2 a.actual ++ w2 a.limits.lo ++ w2 a.limits.hi ++ [flagByte a.moving] := by
    funext a
    simp only [AxisRecord.bytes, wOpt2_eq, wFlag_eq]
  have axis : wOpt ⟨⟨0, 0⟩, none, none, false⟩ AxisRecord.bytes = optionalField 11 AxisRecord.bytes := funext (wOpt_eq 11 _ _ rfl)
  unfold Hub.lensStatus lensStatusFields
  simp only [valid, LensRecord.bytes, axis]
  simp only [each, wFlag_eq, wPerAxis, Hub.deferredPlace, LensSetup.bytes, wTime, List.append_assoc]
  rfl

/-- R96: CYCLE_STATUS, the bytes of the header and of next-start given. -/
theorem cycleStatus_eq (h : Hub) : ∃ header next : List Byte, header.length = 7 ∧ next.length = 4 ∧
    (∀ t, h.shot.active = some t → header = w1 t.header.source.code ++ w2 t.header.pitch ++ w4 t.header.span) ∧
    (∀ t, h.shot.active = some t → t.header.source = .encoder → h.shot.cycle ≠ .stopped → next = w4 h.shot.nextStart.toNat) ∧
    h.cycleStatus.2 = cycleFields h header next := by
  have each (i : SlotIx) : h.shot.slotStatus i =
      let y := h.shot.stats.get i
      w2 y.fired ++ w2 y.late ++ w2 y.skipped ++ wOutcome (y.last.map (·.1)) ++
        w4 ((y.last.map fun o => o.2.toNat).getD 0) ++ optionalField 1 (fun z : SlotState => w1 z.code) (h.shot.slotState i) := by
    unfold Shot.slotStatus
    rw [wOpt_eq 1 0 w1 rfl, optionalField_map]
    cases hl : (h.shot.stats.get i).last <;> simp [hl]
  have drawn (n : Nat) (x : Hub) : (x.openBytes n).length = n := by
    have run (a : Nat) : (countFrom a n).length = n := by
      induction n generalizing a with
      | zero => rfl
      | succ n ih => simp [countFrom, ih]
    simp [Hub.openBytes, run]
  cases ha : h.shot.active with
  | none =>
    refine ⟨h.openBytes 7, (h.draw 7).openBytes 4, drawn _ _, drawn _ _, by simp, by simp, ?_⟩
    simp only [Hub.cycleStatus, cycleFields, ha, Shot.nextStartMeans, funext each, wFlag_eq, wTime]
    cases h.shot.cycle <;> simp [CycleState.code]
  | some t =>
    refine ⟨t.header.bytes, if h.shot.nextStartMeans then w4 h.shot.nextStart.toNat else h.openBytes 4, rfl, ?_, ?_, ?_, ?_⟩
    · split
      · rfl
      · exact drawn _ _
    · rintro _ ⟨⟩; rfl
    · rintro _ ⟨⟩ source runs
      rw [if_pos (by simp [Shot.nextStartMeans, ha, source, runs])]
    · simp only [Hub.cycleStatus, cycleFields, ha, funext each, wFlag_eq, wTime]
      by_cases m : h.shot.nextStartMeans <;> cases h.shot.cycle <;> simp [m, CycleState.code]

end Sys2Proof.Machine
end

