-- ==== Sys2Proof/Laws/Router.lean ====
section
/-! SUPPORT. The routing entries: what reading an entry after a change gives, and what each operation of the event router keeps. -/

namespace Sys2Proof.Machine

/-! ## One entry -/

theorem PortEntries.get_mod (e : PortEntries) (k j : PortSource) (f : Entry → Entry) :
    (e.mod k f).get j = if j = k then f (e.get k) else e.get j := by
  cases k <;> cases j <;> rfl

/-- Reading an entry after one was changed. -/
theorem Router.entry_modEntry (r : Router) (src other : Source) (f : Entry → Entry) :
    (r.modEntry src f).entry other = if other = src then f (r.entry src) else r.entry other := by
  cases src with
  | ofPort p k =>
    cases other with
    | ofPort q j =>
      simp only [Router.modEntry, Router.entry, PerPort.get_mod, Source.ofPort.injEq]
      by_cases hq : q = p
      · subst hq; simp [PortEntries.get_mod]
      · simp [hq]
    | ofHub g => cases g <;> simp [Router.modEntry, Router.entry]
  | ofHub g =>
    cases other with
    | ofPort q j => cases g <;> simp [Router.modEntry, Router.entry]
    | ofHub g' => cases g <;> cases g' <;> simp [Router.modEntry, Router.entry]

@[simp] theorem Router.entry_modEntry_same (r : Router) (src : Source) (f : Entry → Entry) :
    (r.modEntry src f).entry src = f (r.entry src) := by simp [Router.entry_modEntry]

@[simp] theorem Router.entry_modEntry_ne (r : Router) {src other : Source} (f : Entry → Entry) (h : other ≠ src) :
    (r.modEntry src f).entry other = r.entry other := by simp [Router.entry_modEntry, h]

@[simp] theorem Router.order_modEntry (r : Router) (src : Source) (f : Entry → Entry) : (r.modEntry src f).order = r.order := by
  cases src with
  | ofPort p k => rfl
  | ofHub g => cases g <;> rfl

@[simp] theorem Router.entry_enqueue (r : Router) (src other : Source) : (r.enqueue src).entry other = r.entry other := by
  unfold Router.enqueue
  split
  · rfl
  · cases other with
    | ofPort p k => rfl
    | ofHub g => cases g <;> rfl

@[simp] theorem Router.entry_dequeue (r : Router) (src other : Source) : (r.dequeue src).entry other = r.entry other := by
  cases other with
  | ofPort p k => rfl
  | ofHub g => cases g <;> rfl

/-- Setting an entry pending puts it at the tail unless it is pending already. -/
theorem Router.order_enqueue (r : Router) (src : Source) :
    (r.enqueue src).order = if r.pending src then r.order else r.order ++ [src] := by
  unfold Router.enqueue
  split <;> rfl

@[simp] theorem Router.pending_enqueue_same (r : Router) (src : Source) : (r.enqueue src).pending src = true := by
  unfold Router.enqueue Router.pending
  split <;> simp_all

@[simp] theorem Router.pending_dequeue_same (r : Router) (src : Source) : (r.dequeue src).pending src = false := by
  simp [Router.dequeue, Router.pending]

/-! ## Masks, tags and details stay (R186) -/

theorem Router.sameSetup_refl (r : Router) : r.sameSetup r := fun _ => ⟨rfl, rfl, rfl⟩

theorem Router.sameSetup_trans {a b c : Router} (h1 : a.sameSetup b) (h2 : b.sameSetup c) : a.sameSetup c := fun src =>
  ⟨(h2 src).1.trans (h1 src).1, (h2 src).2.1.trans (h1 src).2.1, (h2 src).2.2.trans (h1 src).2.2⟩

/-- A change of one entry that keeps its mask, tag and last detail. -/
theorem Router.sameSetup_modEntry (r : Router) (src : Source) (f : Entry → Entry)
    (h : ∀ e, (f e).masked = e.masked ∧ (f e).tag = e.tag ∧ (f e).detail = e.detail) : r.sameSetup (r.modEntry src f) := by
  intro other
  rw [Router.entry_modEntry]
  split
  · subst_vars; exact h _
  · exact ⟨rfl, rfl, rfl⟩

theorem Router.sameSetup_enqueue (r : Router) (src : Source) : r.sameSetup (r.enqueue src) := fun _ => by simp

theorem Router.sameSetup_dequeue (r : Router) (src : Source) : r.sameSetup (r.dequeue src) := fun _ => by simp

theorem Router.sameSetup_clear (r : Router) (src : Source) :
    r.sameSetup ((r.modEntry src fun e => { e with count := 0 }).dequeue src) :=
  Router.sameSetup_trans (Router.sameSetup_modEntry r src (fun e => { e with count := 0 }) fun _ => ⟨rfl, rfl, rfl⟩)
    (Router.sameSetup_dequeue _ src)

theorem Hub.router_sendReport (src : Source) (h : Hub) :
    (h.sendReport src).router =
      (h.router.modEntry src fun e => { e with count := 0, awaiting := e.awaiting || e.tag != 0 }).dequeue src := rfl

theorem Hub.sameSetup_sendReport (src : Source) (h : Hub) : h.router.sameSetup (h.sendReport src).router := by
  rw [Hub.router_sendReport]
  exact Router.sameSetup_trans
    (Router.sameSetup_modEntry h.router src (fun e => { e with count := 0, awaiting := e.awaiting || e.tag != 0 })
      fun _ => ⟨rfl, rfl, rfl⟩)
    (Router.sameSetup_dequeue _ src)

theorem Hub.sameSetup_offerReport (src : Source) (again : Bool) (h : Hub) : h.router.sameSetup (h.offerReport src again).router := by
  unfold Hub.offerReport
  split
  · exact Hub.sameSetup_sendReport src h
  · exact Router.sameSetup_trans (Router.sameSetup_enqueue _ _) (Router.sameSetup_modEntry _ _ _ fun _ => ⟨rfl, rfl, rfl⟩)

theorem Hub.sameSetup_activate (src : Source) (h : Hub) : h.router.sameSetup (h.activate src).router := by
  unfold Hub.activate
  dsimp only
  split_ifs
  · exact Router.sameSetup_refl _
  · exact Router.sameSetup_modEntry _ _ _ fun _ => ⟨rfl, rfl, rfl⟩
  · exact Hub.sameSetup_offerReport _ _ _

theorem Hub.sameSetup_clearStale (l : List Source) : ∀ h : Hub, h.router.sameSetup (Hub.clearStale l h).router := by
  induction l with
  | nil => exact fun h => Router.sameSetup_refl _
  | cons src rest ih =>
    intro h
    unfold Hub.clearStale
    split_ifs
    · exact Router.sameSetup_trans (Router.sameSetup_clear h.router src) (ih _)
    · exact Router.sameSetup_refl _
    · exact ih _

theorem Hub.entry_offerReport_ne {src other : Source} (hne : other ≠ src) (again : Bool) (h : Hub) :
    (h.offerReport src again).router.entry other = h.router.entry other := by
  unfold Hub.offerReport
  split
  · rw [Hub.router_sendReport, Router.entry_dequeue, Router.entry_modEntry_ne _ _ hne]
  · simp [hne]

/-- A firing leaves every other entry whole. -/
theorem Hub.entry_fire_ne {src other : Source} (hne : other ≠ src) (d : List Byte) (h : Hub) :
    (h.fire src d).router.entry other = h.router.entry other := by
  unfold Hub.fire
  dsimp only
  split_ifs
  · rfl
  · simp [Hub.modEntry, hne]
  · simp [Hub.modEntry, hne]
  · rw [Hub.entry_offerReport_ne hne]
    simp [Hub.modEntry, hne]

/-- A firing keeps the entry's mask and tag. -/
theorem Hub.entry_fire_same (src : Source) (d : List Byte) (h : Hub) :
    ((h.fire src d).router.entry src).masked = (h.router.entry src).masked ∧
      ((h.fire src d).router.entry src).tag = (h.router.entry src).tag := by
  unfold Hub.fire
  dsimp only
  split_ifs
  · exact ⟨rfl, rfl⟩
  · simp [Hub.modEntry]
  · simp [Hub.modEntry]
  · have e := Hub.sameSetup_offerReport src false (h.modEntry src fun e => { e with detail := some d }) src
    rw [e.1, e.2.1]
    simp [Hub.modEntry]

/-- R187: firings of a masked entry are discarded. -/
theorem Hub.fire_masked (src : Source) (d : List Byte) (h : Hub) (hm : (h.router.entry src).masked = true) :
    h.fire src d = h := by simp [Hub.fire, hm]

/-- R187: an unmasked entry takes the detail of the firing. -/
theorem Hub.detail_fire (src : Source) (d : List Byte) (h : Hub) (hm : (h.router.entry src).masked = false) :
    ((h.fire src d).router.entry src).detail = some d := by
  unfold Hub.fire
  simp only [hm, Bool.false_eq_true, if_false]
  split_ifs
  · simp [Hub.modEntry]
  · simp [Hub.modEntry]
  · rw [(Hub.sameSetup_offerReport src false _ src).2.2]
    simp [Hub.modEntry]

@[simp] theorem Router.pending_modEntry (r : Router) (src other : Source) (f : Entry → Entry) :
    (r.modEntry src f).pending other = r.pending other := by simp [Router.pending]

/-- R186: an offered report enters the control queue, or its entry is pending. -/
theorem Hub.report_or_pending_offerReport (src : Source) (again : Bool) (h : Hub) :
    (∃ n r, CtrlRec.report src n r ∈ (h.offerReport src again).uplink.queue) ∨
      (h.offerReport src again).router.pending src = true := by
  unfold Hub.offerReport
  split
  · exact Or.inl ⟨(h.router.entry src).reportCount, h.reportRec src, by simp [Hub.sendReport]⟩
  · exact Or.inr (by simp)

/-- R186, R187: one firing is what the claims call one. -/
theorem fired_fire (src : Source) (d : List Byte) (h : Hub) : fired src d h (h.fire src d) := by
  refine ⟨fun hm => by rw [Hub.fire_masked src d h hm], fun hm => ⟨Hub.detail_fire src d h hm, fun held => ?_, ?_⟩⟩
  all_goals
    unfold Hub.fire
    simp only [hm, Bool.false_eq_true, if_false]
    split_ifs with waits pending
  · simp [Hub.modEntry, satInc]
  · simp_all [Hub.modEntry, satInc]
  · have down : h.uplink.up = false := held.resolve_left waits
    simp_all [Hub.offerReport, Hub.placeForReport, Hub.modEntry, satInc]
  · exact Or.inr (by simp)
  · exact Or.inr (by simpa [Hub.modEntry] using pending)
  · exact Hub.report_or_pending_offerReport src false _

/-- Nothing fires where nothing changes. -/
theorem quiet_refl (src : Source) (h : Hub) : quiet src h h := ⟨rfl, fun _ => rfl⟩

end Sys2Proof.Machine
end

