-- ==== Sys2Proof/Laws/Uplink.lean ====
section
/-! SUPPORT. What the end of a step does (places filled, the transmitter's choice) and what every command that is taken answers. -/

namespace Sys2Proof.Machine

/-! ## `repliedTo` and `settledTo` -/

theorem Uplink.sameCounts_refl (u : Uplink) : u.sameCounts u := ⟨rfl, rfl, rfl, rfl, rfl⟩

theorem Uplink.sameCounts_trans {a b c : Uplink} (h1 : a.sameCounts b) (h2 : b.sameCounts c) : a.sameCounts c :=
  ⟨h2.1.trans h1.1, h2.2.1.trans h1.2.1, h2.2.2.1.trans h1.2.2.1, h2.2.2.2.1.trans h1.2.2.2.1, h2.2.2.2.2.trans h1.2.2.2.2⟩

theorem Hub.repliedTo_refl (h : Hub) : h.repliedTo h :=
  ⟨Hub.onlyIn_refl _ _, Router.sameSetup_refl _, Uplink.sameCounts_refl _⟩

theorem Hub.repliedTo_trans {a b c : Hub} (h1 : a.repliedTo b) (h2 : b.repliedTo c) : a.repliedTo c :=
  ⟨Hub.onlyIn_trans h1.1 h2.1, Router.sameSetup_trans h1.2.1 h2.2.1, Uplink.sameCounts_trans h1.2.2 h2.2.2⟩

theorem Hub.settledTo_of_repliedTo {a b : Hub} (h : a.repliedTo b) : a.settledTo b :=
  ⟨Hub.onlyIn_mono (by decide) h.1, h.2.1, h.2.2,
    .inl ⟨h.1 .store (by decide), h.1 .delivery (by decide), h.1 .rotation (by decide)⟩⟩

theorem Hub.settledTo_refl (h : Hub) : h.settledTo h := Hub.settledTo_of_repliedTo (Hub.repliedTo_refl h)

/-- A reply's effects before at most one grant. -/
theorem Hub.settledTo_after {a b c : Hub} (h1 : a.repliedTo b) (h2 : b.settledTo c) : a.settledTo c := by
  have es : b.store = a.store := h1.1 .store (by decide)
  have ed : b.delivery = a.delivery := h1.1 .delivery (by decide)
  have er : b.rotation = a.rotation := h1.1 .rotation (by decide)
  refine ⟨Hub.onlyIn_trans (Hub.onlyIn_mono (by decide) h1.1) h2.1, Router.sameSetup_trans h1.2.1 h2.2.1,
    Uplink.sameCounts_trans h1.2.2 h2.2.2.1, ?_⟩
  rcases h2.2.2.2 with h | ⟨p, h⟩
  · exact .inl (by rwa [es, ed, er] at h)
  · exact .inr ⟨p, by unfold imageGranted at h ⊢; rwa [es, ed, er] at h⟩

/-! ## Reports, credits and places -/

@[simp] theorem Hub.uplink_sendReport (src : Source) (h : Hub) :
    (h.sendReport src).uplink =
      { h.uplink with
        queue := h.uplink.queue ++ [.report src (h.router.entry src).reportCount (h.reportRec src)] } := rfl

theorem Hub.repliedTo_sendReport (src : Source) (h : Hub) : h.repliedTo (h.sendReport src) :=
  ⟨Hub.onlyIn_of_hide (by simp), Hub.sameSetup_sendReport _ _, ⟨rfl, rfl, rfl, rfl, rfl⟩⟩

/-- An offer enters one report at the tail of the control queue while a place is free, and none otherwise. -/
theorem Hub.uplink_offerReport (src : Source) (again : Bool) (h : Hub) :
    (h.offerReport src again).uplink = if h.placeForReport then (h.sendReport src).uplink else h.uplink := by
  unfold Hub.offerReport
  split <;> rfl

theorem Hub.repliedTo_offerReport (src : Source) (again : Bool) (h : Hub) : h.repliedTo (h.offerReport src again) := by
  refine ⟨Hub.onlyIn_of_hide (by simp), Hub.sameSetup_offerReport _ _ _, ?_⟩
  rw [Hub.uplink_offerReport]
  split <;> exact ⟨rfl, rfl, rfl, rfl, rfl⟩

/-- An activation of a level source is like a reply's effects: it enters at most a report. -/
theorem Hub.repliedTo_activate (src : Source) (h : Hub) : h.repliedTo (h.activate src) := by
  refine ⟨Hub.onlyIn_of_hide (by simp), Hub.sameSetup_activate _ _, ?_⟩
  unfold Hub.activate
  dsimp only
  split_ifs
  · exact Uplink.sameCounts_refl _
  · exact Uplink.sameCounts_refl _
  · exact (Hub.repliedTo_offerReport _ _ _).2.2

theorem Hub.repliedTo_grantCredit (h : Hub) : h.repliedTo h.grantCredit :=
  ⟨Hub.onlyIn_of_hide (by simp), Router.sameSetup_refl _, ⟨rfl, rfl, rfl, rfl, rfl⟩⟩

theorem Hub.repliedTo_draw (n : Nat) (h : Hub) : h.repliedTo (h.draw n) :=
  ⟨Hub.onlyIn_of_hide (by simp), Router.sameSetup_refl _, ⟨rfl, rfl, rfl, rfl, rfl⟩⟩

@[simp] theorem Hub.uplink_clearStale (l : List Source) : ∀ h : Hub, (Hub.clearStale l h).uplink = h.uplink := by
  induction l with
  | nil => exact fun _ => rfl
  | cons src rest ih =>
    intro h
    unfold Hub.clearStale
    split_ifs
    · exact (ih _).trans rfl
    · rfl
    · exact ih _

theorem Hub.repliedTo_clearStale (l : List Source) (h : Hub) : h.repliedTo (Hub.clearStale l h) := by
  refine ⟨Hub.onlyIn_of_hide (by simp), Hub.sameSetup_clearStale _ _, ?_⟩
  rw [Hub.uplink_clearStale]
  exact Uplink.sameCounts_refl _

/-- What filling the places does: reports at the tail of the queue, credits, and no more of either than there are places. -/
theorem Hub.fillPlaces_spec (n : Nat) : ∀ h : Hub,
    h.repliedTo (Hub.fillPlaces n h) ∧ h.uplink.queue <+: (Hub.fillPlaces n h).uplink.queue ∧
      (Hub.fillPlaces n h).uplink.tx = h.uplink.tx ∧ h.uplink.credits ≤ (Hub.fillPlaces n h).uplink.credits ∧
      (Hub.fillPlaces n h).uplink.credits ≤ max h.uplink.credits Config.maxCredits ∧
      (Hub.fillPlaces n h).uplink.queue.length + (Hub.fillPlaces n h).uplink.credits ≤
        max (h.uplink.queue.length + h.uplink.credits) Config.queuePlaces := by
  induction n with
  | zero => intro h; exact ⟨Hub.repliedTo_refl _, List.prefix_rfl, rfl, le_rfl, le_max_left _ _, le_max_left _ _⟩
  | succ n ih =>
    intro h
    have stop : h.repliedTo h ∧ h.uplink.queue <+: h.uplink.queue ∧ h.uplink.tx = h.uplink.tx ∧
        h.uplink.credits ≤ h.uplink.credits ∧ h.uplink.credits ≤ max h.uplink.credits Config.maxCredits ∧
        h.uplink.queue.length + h.uplink.credits ≤ max (h.uplink.queue.length + h.uplink.credits) Config.queuePlaces :=
      ⟨Hub.repliedTo_refl _, List.prefix_rfl, rfl, le_rfl, le_max_left _ _, le_max_left _ _⟩
    unfold Hub.fillPlaces
    split_ifs with hp
    swap
    · exact stop
    set c := Hub.clearStale h.router.order h with hc
    have rc : h.repliedTo c := Hub.repliedTo_clearStale _ _
    have uc : c.uplink = h.uplink := Hub.uplink_clearStale _ _
    have room : h.uplink.queue.length + h.uplink.credits < Config.queuePlaces := by
      have hf := ((Bool.and_eq_true _ _).mp hp).2
      have hf : 0 < h.uplink.free := of_decide_eq_true hf
      unfold Uplink.free at hf
      omega
    have viaCredit : ∀ d : Hub, h.repliedTo d → d.uplink = h.uplink → 0 < Config.maxCredits - h.uplink.credits →
        let r := Hub.fillPlaces n d.grantCredit
        h.repliedTo r ∧ h.uplink.queue <+: r.uplink.queue ∧ r.uplink.tx = h.uplink.tx ∧ h.uplink.credits ≤ r.uplink.credits ∧
          r.uplink.credits ≤ max h.uplink.credits Config.maxCredits ∧
          r.uplink.queue.length + r.uplink.credits ≤ max (h.uplink.queue.length + h.uplink.credits) Config.queuePlaces := by
      intro d hd ud hw r
      obtain ⟨a1, a2, a3, a4, a5, a6⟩ := ih d.grantCredit
      have e : d.grantCredit.uplink = { h.uplink with credits := h.uplink.credits + 1 } := by
        simp [Hub.grantCredit, ud]
      rw [e] at a2 a3 a4 a5 a6
      dsimp only at a2 a3 a4 a5 a6
      refine ⟨Hub.repliedTo_trans (Hub.repliedTo_trans hd (Hub.repliedTo_grantCredit d)) a1, a2, a3, (Nat.le_succ _).trans a4, ?_, ?_⟩
      · refine le_trans a5 ?_; omega
      · refine le_trans a6 ?_; omega
    have viaReport : ∀ (d : Hub) (src : Source), h.repliedTo d → d.uplink = h.uplink →
        let r := Hub.fillPlaces n (d.sendReport src)
        h.repliedTo r ∧ h.uplink.queue <+: r.uplink.queue ∧ r.uplink.tx = h.uplink.tx ∧ h.uplink.credits ≤ r.uplink.credits ∧
          r.uplink.credits ≤ max h.uplink.credits Config.maxCredits ∧
          r.uplink.queue.length + r.uplink.credits ≤ max (h.uplink.queue.length + h.uplink.credits) Config.queuePlaces := by
      intro d src hd ud r
      obtain ⟨a1, a2, a3, a4, a5, a6⟩ := ih (d.sendReport src)
      rw [Hub.uplink_sendReport, ud] at a2 a3 a4 a5 a6
      dsimp only at a2 a3 a4 a5 a6
      refine ⟨Hub.repliedTo_trans (Hub.repliedTo_trans hd (Hub.repliedTo_sendReport src d)) a1,
        (List.prefix_append _ _).trans a2, a3, a4, a5, ?_⟩
      refine le_trans a6 ?_
      rw [List.length_append, List.length_singleton]
      omega
    have stopC : h.repliedTo c ∧ h.uplink.queue <+: c.uplink.queue ∧ c.uplink.tx = h.uplink.tx ∧
        h.uplink.credits ≤ c.uplink.credits ∧ c.uplink.credits ≤ max h.uplink.credits Config.maxCredits ∧
        c.uplink.queue.length + c.uplink.credits ≤ max (h.uplink.queue.length + h.uplink.credits) Config.queuePlaces := by
      rw [uc]; exact ⟨rc, stop.2⟩
    dsimp only
    rw [uc]
    cases hn : c.nextOffer with
    | none =>
      dsimp only
      split_ifs with hw
      · exact viaCredit c rc uc hw
      · exact stopC
    | some src =>
      dsimp only
      split_ifs with h0 h1 h2
      · exact viaReport c src rc uc
      · exact viaCredit c rc uc (Nat.pos_of_ne_zero h0)
      · exact viaCredit (c.draw 1) (Hub.repliedTo_trans rc (Hub.repliedTo_draw 1 c)) uc (Nat.pos_of_ne_zero h0)
      · exact viaReport (c.draw 1) src (Hub.repliedTo_trans rc (Hub.repliedTo_draw 1 c)) uc

/-- R176, R177, R186: filling leaves a place free only when no report is to be offered and 4 credits are outstanding. -/
theorem Hub.fillPlaces_full (n : Nat) : ∀ h : Hub, h.uplink.free ≤ n → (Hub.fillPlaces n h).placeForReport = true →
    (Hub.fillPlaces n h).nextOffer = none ∧ Config.maxCredits ≤ (Hub.fillPlaces n h).uplink.credits := by
  induction n with
  | zero =>
    intro h enough room
    have some : 0 < h.uplink.free := of_decide_eq_true ((Bool.and_eq_true _ _).mp room).2
    omega
  | succ n ih =>
    intro h enough
    unfold Hub.fillPlaces
    split_ifs with hp
    swap
    · exact fun room => absurd room hp
    have uc : (Hub.clearStale h.router.order h).uplink = h.uplink := Hub.uplink_clearStale _ _
    have room : 0 < h.uplink.free := of_decide_eq_true ((Bool.and_eq_true _ _).mp hp).2
    have viaCredit : ∀ d : Hub, d.uplink = h.uplink → d.grantCredit.uplink.free ≤ n := by
      intro d ud
      simp only [Hub.grantCredit, Hub.modUplink, ud, Uplink.free] at room enough ⊢
      omega
    have viaReport : ∀ (d : Hub) (src : Source), d.uplink = h.uplink → (d.sendReport src).uplink.free ≤ n := by
      intro d src ud
      simp only [Hub.uplink_sendReport, ud, Uplink.free, List.length_append, List.length_singleton] at room enough ⊢
      omega
    dsimp only
    cases hn : (Hub.clearStale h.router.order h).nextOffer with
    | none =>
      dsimp only
      split_ifs with hw
      · exact ih _ (viaCredit _ uc)
      · exact fun _ => ⟨hn, by omega⟩
    | some src =>
      dsimp only
      split_ifs
      · exact ih _ (viaReport _ src uc)
      · exact ih _ (viaCredit _ uc)
      · exact ih _ (viaCredit _ uc)
      · exact ih _ (viaReport _ src uc)

/-! ## The transmitter -/

theorem countFrom_eq (n : Nat) : ∀ k, countFrom k n = List.range' k n := by
  induction n with
  | zero => exact fun _ => rfl
  | succ n ih => exact fun k => congrArg (k :: ·) (ih (k + 1))

/-- R125 to R128, R195: the record of a grant, as the claims put it. -/
theorem Store.imageRec_spec (st : Store) (f : Frame) (g : Progress) :
    imageRecordOf st.dram f g (st.imageRec f g).1 (st.imageRec f g).2.1 (st.imageRec f g).2.2 := by
  obtain ⟨next, nextLine, linesSent, abort, inTx⟩ := g
  unfold imageRecordOf Store.imageRec
  cases abort with
  | true => simp [portByte, closePayload, w1, DeliveryStatus.code]
  | false =>
    cases next with
    | frameOpen => simp [portByte, Frame.openPayload, openFields, wTime, wPerAxis, Frame.receivedCount, Frame.badCount]
    | close => simp [portByte, closePayload, w1, DeliveryStatus.code]
    | line =>
      cases nextLine with
      | none => simp [portByte]
      | some n =>
        refine ⟨rfl, rfl, by simp, by simp, ?_, by simp⟩
        intro m _ _ hm
        obtain rfl : n = m := Option.some.inj hm
        refine ⟨rfl, rfl, ⟨(countFrom (n * f.lineBytes) f.lineBytes).map (Memory.readRun f.pages st.dram), ?_, ?_, ?_⟩, ?_, ?_⟩
        · simp [countFrom_eq]
        · cases hr : f.received.find? (·.1 == n) with
          | none => simp [Frame.linePayload, hr, wFlag, w1]
          | some q =>
            obtain ⟨m, b⟩ := q
            have : m = n := by simpa using List.find?_some hr
            subst this
            cases b <;> simp [Frame.linePayload, hr, wFlag, w1]
        · intro k a hk ha
          simp [countFrom_eq, hk, Memory.readRun, ha]
        · intro m hr
          simp [hr]
        · intro hr
          simp [hr]

/-- R124: a port that is granted a record is not held. -/
theorem Hub.hold_of_grantee {h : Hub} {p : Port} (e : h.grantee = some p) : (h.delivery.get p).hold = false := by
  have := List.find?_some e
  simp [Delivery.eligible] at this
  exact this.2

/-- A grant changes the granted frame's state, its progress, the rotation order and the transmitter. -/
theorem Hub.settledTo_grant (p : Port) (h : Hub) (hp : (h.delivery.get p).hold = false) : h.settledTo (h.grant p) := by
  refine ⟨Hub.onlyIn_of_hide (by simp), ?_⟩
  unfold Hub.grant
  split
  · exact ⟨Router.sameSetup_refl _, Uplink.sameCounts_refl _, .inl ⟨rfl, rfl, rfl⟩⟩
  · rename_i f hf
    obtain ⟨tag, hh, hs⟩ := Option.bind_eq_some_iff.1 hf
    obtain ⟨rest, hl⟩ := List.head?_eq_some_iff.1 hh
    have ht : f.tag = tag := by simpa using List.find?_some hs
    refine ⟨Router.sameSetup_refl _, ⟨rfl, rfl, rfl, rfl, rfl⟩, .inr ⟨p, tag, rest, f, _, _, _, hl, hp, hs,
      Store.imageRec_spec _ _ _, ?_, rfl, rfl, ?_⟩⟩
    · rw [← ht]; rfl
    · simp [Hub.modFrame, ht]

/-- R178: the transmitter's choice. With a record waiting in the control queue it is no more than a reply's effects. -/
theorem Hub.arbitrate_spec (h : Hub) :
    h.settledTo h.arbitrate ∧ h.arbitrate.uplink.queue = h.uplink.queue ∧ h.arbitrate.uplink.credits = h.uplink.credits ∧
      (h.uplink.queue ≠ [] → h.repliedTo h.arbitrate) := by
  unfold Hub.arbitrate
  split_ifs with h1 h2
  · split
    · rename_i p _
      refine ⟨Hub.settledTo_grant p h (Hub.hold_of_grantee ‹_›), ?_, ?_, fun hq => absurd (List.isEmpty_iff.1 h2) hq⟩ <;>
      · unfold Hub.grant
        split <;> rfl
    · exact ⟨Hub.settledTo_refl _, rfl, rfl, fun _ => Hub.repliedTo_refl _⟩
  · have r : h.repliedTo (h.modUplink fun u => { u with tx := some .control }) :=
      ⟨Hub.onlyIn_of_hide (by simp), Router.sameSetup_refl _, ⟨rfl, rfl, rfl, rfl, rfl⟩⟩
    exact ⟨Hub.settledTo_of_repliedTo r, rfl, rfl, fun _ => r⟩
  · exact ⟨Hub.settledTo_refl _, rfl, rfl, fun _ => Hub.repliedTo_refl _⟩

/-- R178: the transmitter is left free while the uplink is UP only with the control queue empty and no frame to grant. -/
theorem Hub.arbitrate_free {h : Hub} (up : h.uplink.up = true) (idle : h.arbitrate.uplink.tx = none) :
    h.uplink.queue = [] ∧ ∀ p, h.grantee = some p → (h.delivery.get p).fifo.head?.bind h.store.frame? = none := by
  unfold Hub.arbitrate at idle
  split_ifs at idle with busy dry
  · refine ⟨List.isEmpty_iff.1 dry, fun p hp => ?_⟩
    rw [hp] at idle
    dsimp only at idle
    unfold Hub.grant at idle
    split at idle
    · assumption
    · exact absurd idle (by simp)
  · exact absurd idle (by simp)
  · rw [up, Bool.true_and] at busy
    exact absurd (by rw [idle]; rfl) busy

/-- What the end of a step does: records join the control queue behind those that stand there, and one image record may be granted; with a
record standing in the queue, none is. -/
theorem Hub.finish_spec (h : Hub) :
    h.settledTo h.finish ∧ h.uplink.queue <+: h.finish.uplink.queue ∧ (h.uplink.queue ≠ [] → h.repliedTo h.finish) := by
  obtain ⟨a1, a2, -⟩ := Hub.fillPlaces_spec Config.queuePlaces h
  obtain ⟨b1, b2, -, b4⟩ := Hub.arbitrate_spec (Hub.fillPlaces Config.queuePlaces h)
  refine ⟨Hub.settledTo_after a1 b1, ?_, fun hq => ?_⟩
  · unfold Hub.finish; rw [b2]; exact a2
  · exact Hub.repliedTo_trans a1 (b4 fun e => hq (List.prefix_nil.1 (e ▸ a2)))

/-- An event that answers through `finish` happens. -/
theorem happens_finish {i : Instr} {s : State} {h : Hub} (e : exec i s = s.next h.finish) : happens i s h :=
  ⟨s.withHub h.finish, e, rfl, (Hub.finish_spec h).1⟩

/-! ## Commands -/

/-- R173, R177: what a command that is taken answers: its block's effects, its reply behind the records that its block left in the control
queue, and what the end of a step brings. -/
theorem Hub.takeCommand_spec (kind : Nat) (c : Cmd) (ok : Bool) (body : Hub → Answer) (h : Hub) (hr : h.ready) :
    let a := if ok then body h else refuse .badLength h
    a.hub.repliedTo (h.takeCommand kind c ok body) ∧
      a.hub.uplink.queue ++ [.reply (replyRec kind c a.status a.data)] <+: (h.takeCommand kind c ok body).uplink.queue := by
  intro a
  have e : h.takeCommand kind c ok body = (a.hub.sendReply kind c a.status a.data).finish := by
    unfold Hub.takeCommand
    rw [hr.1, if_neg (by simp), if_neg (Nat.pos_iff_ne_zero.1 hr.2)]
  have r : a.hub.repliedTo (a.hub.sendReply kind c a.status a.data) :=
    ⟨Hub.onlyIn_of_hide (by simp), Router.sameSetup_refl _, ⟨rfl, rfl, rfl, rfl, rfl⟩⟩
  obtain ⟨-, f2, f3⟩ := Hub.finish_spec (a.hub.sendReply kind c a.status a.data)
  rw [e]
  exact ⟨Hub.repliedTo_trans r (f3 (by simp [Hub.sendReply])), f2⟩

/-- A command whose block answers without a record of its own completes. -/
theorem completes_takeCommand {i : Instr} {s : State} {kind : Nat} {c : Cmd} {ok : Bool} {body : Hub → Answer}
    (e : exec i s = s.next (s.toHub.takeCommand kind c ok body)) (hr : s.toHub.ready)
    (hq : (if ok then body s.toHub else refuse .badLength s.toHub).hub.uplink.queue = s.uplink.queue) :
    let a := if ok then body s.toHub else refuse .badLength s.toHub
    completes i s a.hub kind c a.status.code a.data := by
  intro a
  obtain ⟨h1, h2⟩ := Hub.takeCommand_spec kind c ok body s.toHub hr
  refine ⟨s.withHub (s.toHub.takeCommand kind c ok body), e, rfl, h1, ?_⟩
  rw [hq] at h2
  exact h2

/-- With the uplink DOWN no command is taken. -/
theorem Hub.takeCommand_down (kind : Nat) (c : Cmd) (ok : Bool) (body : Hub → Answer) (h : Hub) (hd : h.uplink.up = false) :
    h.takeCommand kind c ok body = h := by simp [Hub.takeCommand, hd]

/-- R171: with no credit a command is discarded, whatever it is. -/
theorem Hub.takeCommand_noCredit (kind : Nat) (c : Cmd) (ok : Bool) (body : Hub → Answer) (h : Hub) (hu : h.uplink.up = true)
    (hc : h.uplink.credits = 0) : h.takeCommand kind c ok body = (h.discard .noCredit).finish := by
  simp [Hub.takeCommand, hu, hc]

end Sys2Proof.Machine
end

