-- ==== Sys2Proof/Tests/Slice0.lean ====
section
/-! SUPPORT. Tests: ill-formed terms refused, figures the manual states, one step of each kind of command on small states, and for every
statement with hypotheses a state and operands that meet them. -/

open Sys2Proof Sys2Proof.Machine

namespace Sys2Proof.Tests

-- a kernel evaluation at a time: each takes a thread with a large stack
set_option Elab.async false

/-! ## Small states -/

/-- A command record's port byte and payload. -/
def cmd (port : Nat) (payload : List Nat) : Cmd := ⟨BitVec.ofNat 8 port, 0x55AA, payload.map (BitVec.ofNat 8)⟩

/-- A state with its hub changed. -/
def edit (s : State) (f : Hub → Hub) : State := s.withHub (f s.toHub)

/-- Uplink UP with 4 credits, all else as reset. -/
def ready : State := edit State.reset fun h => { h with uplink := { up := true, credits := 4 } }

/-- The state after a command. -/
def after (i : Instr) (s : State) : State :=
  match exec i s with
  | .next t => t
  | _ => s

/-- The payload of the first record a command puts in an empty control queue. -/
def reply (i : Instr) (s : State) : List Nat :=
  ((after i s).uplink.queue.head?.map fun r => r.record.payload.map (·.toNat)).getD []

def camera : CameraRecord := ⟨0x1234, 2048, ⟨some ⟨100, 4000⟩, some ⟨0, 4095⟩, none⟩, 5⟩

/-- A lens with FOCUS and IRIS. -/
def lens (m : MoveState) : LensRecord where
  axes := ⟨some ⟨⟨100, 4000⟩, some 200, some 201, false⟩, some ⟨⟨0, 4095⟩, some 10, some 10, false⟩, none⟩
  moveState := m
  moved := ⟨true, false, false⟩
  progress := 0
  doneCause := .none
  doneTime := 0
  timeout := if m = .moving then some 40 else none

/-- Port 2 in a power state and a link state, with a camera, a lens and 9000 mA of budget. -/
def port (w : PowerState) (l : LinkState) : State :=
  edit ready fun h =>
    (((h.setBudget 9000).modPower 2 fun x =>
      { x with
        state := w, dischargeTimer := none
        inrushTimer := if w = .precharge then some 30 else none
        onTimer := if w = .on then some 60 else none
        cooldownTimer := if w = .cooldown then some 70 else none }).modLink 2 fun x =>
      { x with
        state := l, camera := some camera, locked := true
        acquireTimer := if l = .acquire then some 80 else none
        relockWindow := if l = .relock then some 90 else none }).modLens 2 fun x => { x with record := some (lens .idle) }

def up : State := port .on .up

/-- A table whose slot 3 opens port 2 at 500 µs with preset 1, and whose slot 4 opens it at 200,500 µs. -/
def table (source : StartSource) : ShotTable where
  header := ⟨source, 10, 400000⟩
  slots := ((Vector.replicate 16 {}).set 3 ⟨true, 2, 500, 1000, 50, 100, some 1, 2, 64⟩).set 4
    ⟨true, 2, 200500, 1000, 0, 100, some 1, 2, 64⟩

/-- `up` with the table active. -/
def cycle (x : CycleState) (source : StartSource) : State :=
  edit up fun h => h.modShot fun s =>
    { s with
      cycle := x, active := some (table source), number := 7
      span := if x = .running then some 1000 else none
      opening := if x = .running then (Vector.replicate 16 none).set 3 (some 20) else Vector.replicate 16 none }

/-- A frame of two lines of 64 bytes at port 2, exposed. -/
def frame : Frame :=
  { tag := 9, port := 2, slot := 3, cycle := 7, lines := 2, lineBytes := 64, pages := [5], windowMs := 100
    exposedAt := some 3, zone := some 0, window := some 55 }

/-- `up` with a frame FILLING. -/
def filling : State := edit up fun h => { h with store := { h.store with frames := [frame], tagCounter := 10 } }

/-- A job of port 2 in the sampler, with so many shots taken. -/
def echoJob (k : EchoKind) (shots : Nat) : EchoJob :=
  { port := 2, kind := k, settings := { averaging := 4 }, map := [], baseline := some (Vector.replicate 256 0), shots := shots
    sums := Vector.replicate 256 0, due := 6 }

/-- Port 2 in a power state with its switch open, discharged, and the sampler on its job. -/
def sampling (w : PowerState) (k : EchoKind) (shots : Nat) : State :=
  edit (port w .down) fun h =>
    (h.modPower 2 fun x => { x with discharged := true }).modEcho fun e =>
      { e with sampler := some (echoJob k shots), ports := e.ports.mod 2 fun x => { x with baseline := some (Vector.replicate 256 0) } }

/-- An unmasked routing entry. -/
def unmasked (s : State) (src : Source) (tag : Byte) : State :=
  edit s fun h => h.modEntry src fun e => { e with masked := false, tag := tag }

/-! ## Ill-formed terms are refused -/

theorem test_wf_payload_too_long : (Instr.identify ⟨0, 0, List.replicate 16449 0⟩).wf = false := by decide +kernel
theorem test_wf_payload_longest : (Instr.identify ⟨0, 0, List.replicate 16448 0⟩).wf = true := by decide +kernel
theorem test_wf_bad_kind_of_a_command_kind : (Instr.badKindRecord 0x85 (cmd 0 [])).wf = false := by decide +kernel
theorem test_wf_bad_kind : (Instr.badKindRecord 0x86 (cmd 0 [])).wf = true := by decide +kernel
theorem test_wf_record_without_header : (Instr.recordDiscard [1, 2, 3, 4, 5]).wf = false := by decide +kernel
theorem test_wf_line_too_long : (Instr.lineWord 0 ⟨0, 0, List.replicate 65536 0, 0⟩).wf = false := by decide +kernel
theorem test_wf_word_that_decodes : (Instr.undecodableWord 0 [0x83, 1, 0, 2, 0]).wf = false := by decide +kernel
theorem test_wf_word_cut_short : (Instr.undecodableWord 0 [0x83, 1, 0, 2]).wf = true := by decide +kernel

/-! ## Figures the manual states -/

/-- R191: the check value of this CRC. -/
theorem test_crc_of_digits : crc16 [0x31, 0x32, 0x33, 0x34, 0x35, 0x36, 0x37, 0x38, 0x39] = 0x29B1 := by decide +kernel

/-- R24, R25: readings of codes. -/
theorem test_current_readings :
    ([640, 641, 642, 3839, 3840, 3900, 4095].map fun n =>
      ((after (.currentSample 0 n) ready).power.get 0).last) = [500, 500, 501, 2999, 3000, 3046, 3199] := by decide +kernel

/-- 08, worked example: an open in the drag chain. -/
theorem test_fraction_delay_distance :
    fraction {} ((List.replicate 39 0) ++ [20, 138]) 40 = 10 ∧ delay16 {} ((List.replicate 39 0) ++ [20, 138]) 40 = 634 ∧
    distanceMm {} 634 = 3922 ∧ fraction {} ((List.replicate 7 0) ++ [-150, -180]) 8 = 0 ∧
    fraction {} ((List.replicate 7 0) ++ [-40, -96]) 8 = 15 := by decide +kernel

/-- 08, worked example: the places of a distance. -/
theorem test_places :
    placeOn [⟨1500, 0⟩, ⟨3000, 0⟩, ⟨2000, 0⟩] 100 3922 = .segment 1 2422 ∧
    placeOn [⟨1500, 0⟩, ⟨3000, 0⟩, ⟨2000, 0⟩] 600 3922 = .joint 2 ∧ placeOn [⟨3500, 0⟩] 100 3922 = .beyondMap ∧
    placeOn [] 100 3922 = .unmapped ∧ placeOn [⟨1500, 0⟩, ⟨3000, 0⟩, ⟨2000, 0⟩] 100 693 = .segment 0 693 := by decide +kernel

/-- R78: check 1 at its boundary, and check 2. -/
theorem test_table_checks :
    (table .command).fault? = none ∧
    (ShotTable.mk ⟨.command, 10, 301500⟩ (table .command).slots).fault? = none ∧
    (ShotTable.mk ⟨.command, 10, 301499⟩ (table .command).slots).fault? = some (4, 1) ∧
    (ShotTable.mk ⟨.command, 10, 400000⟩ ((table .command).slots.set 4 ⟨true, 2, 101549, 1, 0, 1, none, 1, 64⟩)).fault?
      = some (4, 2) := by decide +kernel

/-- R196: upstream words by type byte and length. -/
theorem test_words_decode :
    decodeUpWord [0x83, 0x34, 0x12, 0x05, 0x00] = some (.eof ⟨0x1234, 5⟩) ∧
    decodeUpWord [0x82, 9, 0, 1, 0, 2, 0, 7, 8, 0xCD, 0xAB] = some (.line ⟨9, 1, [7, 8], 0xABCD⟩) ∧
    decodeUpWord [0x82, 9, 0, 1, 0, 2, 0, 7, 8, 0xCD] = none ∧ decodeUpWord [0x85, 0, 0, 0, 0] = none := by decide +kernel

/-- R192: a reply on the wire ends in its CRC, and its bytes give the command back. -/
theorem test_record_wire :
    Rec.wire ⟨0x01, 2, 0x55AA, [0x20, 0]⟩ = [1, 2, 0xAA, 0x55, 2, 0, 0x20, 0, 0xCF, 0xAC] := by decide +kernel

/-! ## Commands -/

theorem test_identify : reply (.identify (cmd 0xFF [])) ready = [0x81, 0, 0x58, 2, 1, 6, 0, 16, 24, 16] := by decide +kernel
theorem test_uplink_status :
    reply (.uplinkStatus (cmd 0xFF [0])) ready = [0x82, 0, 0, 0, 0, 0, 0, 0, 0, 0, 1, 3, 28, 3] := by decide +kernel
theorem test_bad_kind : reply (.badKindRecord 0x14 (cmd 0 [])) ready = [0x14, 2] := by decide +kernel
theorem test_bad_length : reply (.identify (cmd 0 [0])) ready = [0x81, 3] := by decide +kernel
theorem test_bad_port : reply (.powerOn (cmd 6 [])) ready = [0x20, 4] := by decide +kernel
theorem test_reply_takes_a_credit_and_the_hub_grants_another :
    (after (.identify (cmd 0 [])) ready).uplink.credits = 4 ∧ (after (.identify (cmd 0 [])) ready).uplink.tx = some .control := by
  decide +kernel
theorem test_record_with_bad_crc_is_counted :
    (after (.recordDiscard [0x81, 0xFF, 0, 0, 0, 0, 0, 0]) ready).uplink.badCrc = 1 := by decide +kernel
theorem test_uplink_up_and_down :
    (after .uplinkUp State.reset).uplink.credits = 4 ∧ (after .uplinkUp State.reset).uplink.linkUps = 1 ∧
    (after .uplinkDown ready).uplink.credits = 0 := by decide +kernel
theorem test_control_record_sent :
    (after .controlRecordSent (after (.identify (cmd 0 [])) ready)).uplink.queue = [] := by decide +kernel
theorem test_pin_reset : after .pinReset (after (.timeSet (cmd 0 [1, 0, 0, 0, 0, 0])) ready) = State.reset := by decide +kernel

/-- 09, worked example, steps 1 and 2: 28 held and 3 reserved; the report takes the last free place. -/
theorem test_report_takes_last_place :
    let s := unmasked (edit up fun h => { h with
      uplink := { up := true, credits := 3, queue := List.replicate 28 (.reply ⟨1, 0, 0, [0, 0]⟩), tx := some .control } })
      (.ofPort 2 .lensDone) 5
    let t := s.toHub.fire (.ofPort 2 .lensDone) [1]
    t.uplink.queue.length = 29 ∧ t.uplink.free = 0 ∧ (t.router.entry (.ofPort 2 .lensDone)).awaiting = true ∧
      (t.fire (.ofPort 2 .lensDone) [2]).router.order = [.ofPort 2 .lensDone] := by decide +kernel

theorem test_route_set : reply (.routeSet (cmd 2 [2, 0, 9, 0])) ready = [0x83, 0, 0, 9, 0, 0, 0] ++ List.replicate 27 0 ∧
    ((after (.routeSet (cmd 2 [2, 0, 9, 0])) ready).router.entry (.ofPort 2 .lensDone)).masked = false ∧
    reply (.routeSet (cmd 2 [5, 0, 9, 0])) ready = [0x83, 4] := by decide +kernel
theorem test_route_read : (reply (.routeRead (cmd 0xFF [5])) ready).take 6 = [0x84, 0, 1, 0, 0, 0] := by decide +kernel
theorem test_event_ack : reply (.eventAck (cmd 0xFF [7, 0])) ready = [0x85, 0, 0] := by decide +kernel

theorem test_link_setup_clamps : reply (.linkSetup (cmd 2 [16])) ready = [0x11, 1, 15] := by decide +kernel
theorem test_link_retrain : ((after (.linkRetrain (cmd 2 [])) up).links.get 2).state = .acquire ∧
    ((after (.linkRetrain (cmd 2 [])) up).links.get 2).words = [] ∧
    ((after (.linkRetrain (cmd 2 [])) up).links.get 2).cable = some ⟨.retrain .full, 10, false⟩ ∧
    reply (.linkRetrain (cmd 2 [])) ready = [0x10, 6] := by decide +kernel
theorem test_port_info : (reply (.portInfo (cmd 2 [])) up).take 3 = [0x12, 0, 2] := by decide +kernel
theorem test_port_reset : ((after (.portReset (cmd 2 [])) up).links.get 2).state = .down ∧
    ((after (.portReset (cmd 2 [])) up).power.get 2).dischargeTimer = some 20000 ∧
    ((after (.portReset (cmd 2 [])) (unmasked (after (.slotOpen 3) (cycle .running .command)) (.ofHub .slotSkipped) 1)).router.entry
      (.ofHub .slotSkipped)).detail = some [3, 2, 7, 0, 0, 0, 0] := by decide +kernel
theorem test_lock_gained_and_lost :
    ((after (.lockGained 2) (port .on .relock)).links.get 2).state = .up ∧
    ((after (.lockLost 2) up).links.get 2).state = .relock ∧
    ((after (.lockLost 2) (edit up fun h => h.modLink 2 fun l => { l with sinceUp := 3 })).links.get 2).rate = .half := by
  decide +kernel
/-- R17, R70, R169, R194: the details of the three sources that the link unit, the lens controller and the echo locator fire. -/
theorem test_details_fired :
    let detail (i : Instr) (s : State) (src : PortSource) : Option (List Nat) :=
      (((after i (unmasked s (.ofPort 2 src) 1)).router.entry (.ofPort 2 src)).detail).map fun d => d.map (·.toNat)
    detail (.linkRetrain (cmd 2 [])) up .linkChange = some [1, 0, 7] ∧
    detail (.lockLost 2) (edit up fun h => h.modLink 2 fun l => { l with sinceUp := 3 }) .linkChange = some [1, 1, 3] ∧
    detail (.lockLost 2) up .linkChange = none ∧ detail (.powerOff (cmd 2 [])) up .linkChange = some [0, 0, 6] ∧
    detail (.moveTimeout 2) (edit up fun h => h.modLens 2 fun l => { l with record := some (lens .moving) }) .lensDone =
      some [2, 1, 1, 200, 0, 1, 201, 0, 1, 10, 0, 1, 10, 0, 0, 0, 0, 0, 0, 0, 40, 0, 0, 0, 0, 0] ∧
    detail .echoJobComplete (sampling .hunt .hunt 4) .huntDone =
      some [1, 0, 0, 0, 0, 0, 0, 0, 0, 0, 0, 4, 6, 0, 0, 0, 0, 0] := by decide +kernel

/-- R59, R91: LINK_RETRAIN leaves the record IDLE with its targets at the actuals; a fallback also keeps the next slot's target of an axis
that has no actual. -/
theorem test_abandoned_record :
    let moving := edit (cycle .running .command) fun h => h.modLens 2 fun l => { l with record := some (lens .moving) }
    let blind : LensRecord := { lens .idle with axes := ⟨some ⟨⟨100, 4000⟩, some 200, some 201, false⟩, some ⟨⟨5, 70⟩, none, none, false⟩, none⟩ }
    let falling := edit (after (.slotOpen 3) (cycle .running .command)) fun h =>
      (h.modLink 2 fun l => { l with sinceUp := 3 }).modLens 2 fun l =>
        { l with record := some blind, presets := l.presets.set 1 ⟨some 900, some 77, some 5⟩ }
    ((after (.linkRetrain (cmd 2 [])) moving).lenses.get 2).record = some
      { lens .idle with
        axes := ⟨some ⟨⟨100, 4000⟩, some 201, some 201, false⟩, some ⟨⟨0, 4095⟩, some 10, some 10, false⟩, none⟩
        moved := ⟨false, false, false⟩ } ∧
    ((after (.lockLost 2) falling).lenses.get 2).record = some
      { lens .idle with
        axes := ⟨some ⟨⟨100, 4000⟩, some 201, some 201, false⟩, some ⟨⟨5, 70⟩, some 70, none, false⟩, none⟩
        moved := ⟨false, false, false⟩ } := by decide +kernel
theorem test_lock_lost_by_link_state :
    ((after (.lockLost 2) (port .on .acquire)).links.get 2).locked = false ∧
    ((after (.lockLost 2) (port .on .acquire)).links.get 2).total = 0 ∧
    ((after (.lockLost 2) (port .on .relock)).links.get 2).relockWindow = some 90 ∧
    (let words (n : Nat) : State := edit up fun h => h.modLink 2 fun l =>
       { l with
         sinceUp := n, cable := some ⟨.retrain .full, 4, false⟩
         words := [.trigger 1 5, .lensMove ⟨some 7, none, none⟩, .retrain .full] }
     ((after (.lockLost 2) (words 0)).links.get 2).words = [.lensMove ⟨some 7, none, none⟩, .retrain .full] ∧
       ((after (.lockLost 2) (words 3)).links.get 2).words = [.retrain .half]) := by decide +kernel
theorem test_link_loss_closes_or_releases_the_frame :
    (after (.lockLost 2) filling).store.frames.map (fun f => (f.tag, f.closeStatus)) = [(9, some .linkLost)] ∧
    (after (.powerOff (cmd 2 [])) filling).store.frames.map (fun f => (f.tag, f.closeStatus)) = [(9, some .powerLost)] ∧
    (after (.lockLost 2) (after (.slotOpen 3) (cycle .running .command))).store.frames = [] ∧
    ((after (.lockLost 2) (after (.slotOpen 3) (cycle .running .command))).shot.stats.get 3).last =
      some (.skipped .link, 7) := by decide +kernel
theorem test_link_timers : ((after (.acquireTimeout 2) (port .on .acquire)).links.get 2).state = .failed ∧
    ((after (.relockExpire 2) (port .on .relock)).links.get 2).state = .acquire ∧
    (after (.relockExpire 2) (port .on .relock)).time.cellTime = 90 := by decide +kernel

def hello : HelloWord := ⟨0x77, 64, 1, ⟨⟨10, 4095⟩, ⟨9, 3⟩, ⟨0, 0⟩⟩⟩

theorem test_hello : ((after (.helloWord 2 hello) (port .on .acquire)).links.get 2).state = .up ∧
    ((after (.helloWord 2 { hello with maxLine := 63 }) (port .on .acquire)).links.get 2).wordErrors = 1 := by decide +kernel
theorem test_undecodable_word : ((after (.undecodableWord 2 [0x99]) up).links.get 2).wordErrors = 1 := by decide +kernel

theorem test_power_on : ((after (.powerOn (cmd 2 [])) (port .off .down)).power.get 2).state = .precharge ∧
    reply (.powerOn (cmd 2 [])) ready = [0x20, 8] := by decide +kernel
theorem test_power_off : ((after (.powerOff (cmd 2 [])) up).power.get 2).dischargeTimer = some 20000 ∧
    ((after (.powerOff (cmd 2 [])) up).links.get 2).state = .down := by decide +kernel
theorem test_power_setup : reply (.powerSetup (cmd 2 [99, 0, 0, 0, 9, 255, 255, 15, 0, 0])) ready =
    [0x22, 1, 100, 0, 1, 1, 7, 246, 9, 10, 0, 0] := by decide +kernel
theorem test_budget_set : (after (.budgetSet (cmd 0 [0x29, 0x23])) ready).budget = 9000 ∧
    reply (.budgetSet (cmd 0 [0x29, 0x23])) ready = [0x23, 1, 0x28, 0x23] ∧
    reply (.budgetSet (cmd 0 [0xF3, 1])) up = [0x23, 6] := by decide +kernel
theorem test_power_status_clears_peak :
    ((after (.powerStatus (cmd 2 [])) (edit up fun h => h.modPower 2 fun w => { w with peak := 9 })).power.get 2).peak = 0 := by
  decide +kernel
theorem test_short_trips : ((after (.currentSample 2 3840) up).power.get 2).state = .cooldown ∧
    ((after (.currentSample 2 3840) up).power.get 2).cause = .short ∧
    ((after (.currentSample 2 3839) up).power.get 2).overCount = 1 := by decide +kernel
theorem test_power_timers : ((after (.inrushExpire 2) (port .precharge .down)).power.get 2).state = .on ∧
    ((after (.inrushExpire 2) (port .precharge .down)).links.get 2).state = .acquire ∧
    ((after (.cooldownExpire 2) (port .cooldown .down)).power.get 2).retriesUsed = 1 ∧
    ((after (.onTimerExpire 2) up).power.get 2).onTimer = none ∧
    ((after (.dischargeExpire 2) ready).power.get 2).discharged = true := by decide +kernel

theorem test_preset_write_and_read :
    reply (.presetWrite (cmd 2 [1, 1, 0, 0x10, 0, 0, 0, 1, 5, 0])) ready = [0x30, 1, 1, 1, 255, 15, 0, 0, 0, 1, 5, 0] ∧
    reply (.presetRead (cmd 2 [15])) ready = [0x31, 0, 0, 0, 0, 0, 0, 0, 0, 0, 0] := by decide +kernel
theorem test_lens_move : reply (.lensMove (cmd 2 [1, 50, 0, 0, 0, 0, 0, 0, 0])) up =
      [0x35, 1, 2, 1, 100, 0, 1, 10, 0, 0, 0, 0, 1] ∧
    ((after (.lensMove (cmd 2 [1, 50, 0, 0, 0, 0, 0, 0, 0])) up).links.get 2).cable =
      some ⟨.lensMove ⟨some 100, some 10, none⟩, 10, false⟩ := by decide +kernel
theorem test_lens_stack : reply (.lensPush (cmd 2 [])) up = [0x33, 0, 1] ∧ reply (.lensPop (cmd 2 [])) up = [0x34, 9] := by
  decide +kernel
theorem test_preset_go : reply (.presetGo (cmd 2 [0])) up = [0x32, 0, 0] := by decide +kernel
theorem test_lens_setup : reply (.lensSetup (cmd 2 [64, 0, 9, 0])) ready = [0x36, 1, 63, 1, 10, 0] := by decide +kernel
theorem test_lens_status : (reply (.lensStatus (cmd 2 [])) up).take 2 = [0x37, 0] := by decide +kernel

/-- 03, worked example: FOCUS 1797 is within tolerance of 1800, 1805 is not, and the third hit settles. -/
theorem test_settle_checks :
    let at1800 (progress : Nat) : State := edit up fun h => h.modLens 2 fun l =>
      { l with record := some { lens .moving with
        axes := ⟨some ⟨⟨100, 4000⟩, some 1800, some 1740, true⟩, none, none⟩, progress := progress } }
    let word (n : BitVec 16) : LensStatusWord := ⟨1, ⟨⟨n, 1, 100, 4000⟩, ⟨0, 0, 0, 0⟩, ⟨0, 0, 0, 0⟩⟩⟩
    let left (progress : Nat) (n : BitVec 16) : Option (Nat × MoveState) :=
      ((after (.lensStatusWord 2 (word n)) (at1800 progress)).lenses.get 2).record.map fun r => (r.progress, r.moveState)
    left 0 1797 = some (1, .moving) ∧ left 1 1805 = some (0, .moving) ∧ left 2 1800 = some (3, .settled) := by decide +kernel
theorem test_move_timeout :
    let s := edit up fun h => h.modLens 2 fun l => { l with record := some (lens .moving) }
    ((after (.moveTimeout 2) s).lenses.get 2).moveState = .stalled ∧ (after (.moveTimeout 2) s).time.cellTime = 40 := by
  decide +kernel

theorem test_slot_write : reply (.slotWrite (cmd 0 [3, 1, 2, 0, 0, 16, 0, 0, 0, 0, 0, 0, 0, 0, 0, 0, 9, 0, 0, 0, 0])) ready =
    [0x40, 1, 1, 2, 0x3F, 0x42, 15, 0, 1, 0, 0, 0, 0, 0, 1, 0, 0, 0, 1, 0, 64, 0] := by decide +kernel
theorem test_table_header : reply (.tableHeader (cmd 0 [0, 0, 0, 0, 0, 0, 0])) ready = [0x41, 1, 0, 1, 0, 0xE8, 3, 0, 0] := by
  decide +kernel
theorem test_table_commit : (after (.tableCommit (cmd 0 [])) ready).shot.active = some {} ∧
    (after (.tableCommit (cmd 0 [])) (cycle .running .command)).shot.pending = some {} := by decide +kernel
theorem test_table_read : (reply (.tableRead (cmd 0 [0])) ready).take 4 = [0x43, 0, 2, 0xE8] := by decide +kernel
theorem test_cycle_run : reply (.cycleRun (cmd 0 [])) ready = [0x44, 6] ∧
    (after (.cycleRun (cmd 0 [])) (cycle .stopped .encoder)).shot.nextStart = 10 := by decide +kernel
theorem test_cycle_fire : (after (.cycleFire (cmd 0 [])) (cycle .armed .command)).shot.opening.get 3 = some 500 ∧
    reply (.cycleFire (cmd 0 [])) (cycle .running .command) = [0x45, 7] := by decide +kernel
theorem test_cycle_stop : (after (.cycleStop (cmd 0 [1])) (cycle .running .command)).shot.cycle = .stopped ∧
    (after (.cycleStop (cmd 0 [0])) (cycle .running .command)).shot.stopAfter = true := by decide +kernel
theorem test_cycle_status : (reply (.cycleStatus (cmd 0 [0])) ready).take 3 = [0x47, 0, 0] := by decide +kernel
theorem test_span_expire : (after .spanExpire (cycle .running .command)).shot.cycle = .armed ∧
    (after .spanExpire (edit (cycle .running .command) fun h => { h with uplink := {} })).shot.cycle = .armed := by decide +kernel
theorem test_encoder_counts : (after (.encoderEdge true false) ready).time.position = 1 ∧
    (after (.encoderEdge false true) ready).time.position = 0xFFFFFFFF ∧ (after (.encoderEdge true true) ready).time.illegal = 1 := by
  decide +kernel
theorem test_trigger_line : (after .triggerLineEdge (cycle .armed .line)).shot.number = 8 ∧
    (after .triggerLineEdge (cycle .running .line)).shot.missed = 1 := by decide +kernel
theorem test_slot_open : ((after (.slotOpen 3) (cycle .running .command)).links.get 2).cable = some ⟨.trigger 0 1000, 10, false⟩ ∧
    (after (.slotOpen 3) (cycle .running .command)).store.freePages = 4095 := by decide +kernel
theorem test_equal_offsets_open_in_run_order :
    let first : SlotRecord := ⟨true, 1, 500, 1000, 0, 100, none, 1, 64⟩
    let s := edit (cycle .running .command) fun h => h.modShot fun x =>
      { x with active := some ⟨{}, (table .command).slots.set 2 first⟩, opening := x.opening.set 2 (some 20) }
    (after (.slotOpen 3) s).shot.opening.get 3 = some 20 ∧ (after (.slotOpen 2) s).shot.opening.get 2 = none ∧
      (after (.slotOpen 3) (after (.slotOpen 2) s)).shot.opening.get 3 = none := by decide +kernel
theorem test_trigger_sent :
    let s := after (.downstreamWordEnd 2) (after (.slotOpen 3) (cycle .running .command))
    s.store.frames.map (·.exposedAt) = [some 30] ∧ s.store.frames.map (·.window) = [some 100000] ∧
      (s.shot.stats.get 3).fired = 1 ∧ s.shot.exposureEnds.get 3 = some 1000 := by decide +kernel
theorem test_guard_expire :
    let s := edit (cycle .running .command) fun h => h.modLens 2 fun l => { l with record := some (lens .moving) }
    let t := after (.guardExpire 3) (after (.slotOpen 3) s)
    (after (.slotOpen 3) s).shot.flights.map (·.stage) = [.waiting 50] ∧ t.shot.flights.map (·.late) = [true] := by decide +kernel
theorem test_exposure_end :
    let s := edit (cycle .running .command) fun h =>
      (h.modShot fun x => { x with exposureEnds := x.exposureEnds.set 3 (some 4) }).modLens 2 fun l =>
        { l with presets := l.presets.set 1 ⟨some 900, none, none⟩ }
    ((after (.exposureEnd 3) s).lenses.get 2).moveState = .moving := by decide +kernel
theorem test_time_set_and_read :
    reply (.timeRead (cmd 0 [])) (edit ready fun h => h.modTime fun t => { t with cellTime := 0x060504030201 }) =
      [0x49, 0, 1, 2, 3, 4, 5, 6, 0, 0, 0, 0] ∧
    (after (.timeSet (cmd 0 [1, 2, 3, 4, 5, 6])) ready).time.cellTime = 0x060504030201 := by decide +kernel

theorem test_store_setup : (after (.storeSetup (cmd 0 [1, 16])) ready).store.lowMark = 4096 := by decide +kernel
theorem test_store_status : (reply (.storeStatus (cmd 0 [0])) ready).take 4 = [0x51, 0, 0, 16] := by decide +kernel
theorem test_hold_and_resume : ((after (.imageHold (cmd 2 [])) ready).delivery.get 2).hold = true ∧
    ((after (.imageResume (cmd 2 [])) (after (.imageHold (cmd 2 [])) ready)).delivery.get 2).hold = false := by decide +kernel
theorem test_delivery_status : (reply (.deliveryStatus (cmd 0 [0])) ready).take 2 = [0x54, 0] := by decide +kernel

/-- R111: a short payload is placed, zero-filled and marked bad. -/
theorem test_line_placed :
    let t := after (.lineWord 2 ⟨9, 1, [7, 8], 0⟩) filling
    t.store.dram = [(327744, 7), (327745, 8)] ∧ t.store.frames.map (·.received) = [[(1, true)]] ∧
      ((t.zones.get 2).bins.get 0).bad = 1 := by decide +kernel
theorem test_stray_line : (after (.lineWord 2 ⟨8, 1, [7, 8], 0⟩) filling).store.strays.get 2 = 1 := by decide +kernel
theorem test_eof_closes : (after (.eofWord 2 ⟨9, 1⟩) filling).store.frames.map (·.closeStatus) = [some .eofShort] ∧
    ((after (.eofWord 2 ⟨9, 1⟩) filling).delivery.get 2).fifo = [9] := by decide +kernel
theorem test_window_closes_and_frame_is_sent :
    let s := after (.frameWindowExpire 2) filling
    s.store.frames.map (·.closeStatus) = [some .timeout] ∧ s.store.frames.map (·.state) = [.sending] ∧
      ((after .imageRecordSent (after .imageRecordSent s)).delivery.get 2).delivered = 1 ∧
      (after .imageRecordSent (after .imageRecordSent s)).store.frames = [] := by decide +kernel

theorem test_pose : reply (.pose (cmd 0 [1, 3, 31])) ready = [0x60, 0, 0, 0, 0, 31, 0, 0] := by decide +kernel
theorem test_zone_setup : reply (.zoneSetup (cmd 2 [0, 0, 0, 0, 0, 0, 0, 0, 0])) ready =
    [0x61, 1, 0xE8, 3, 0, 0, 1, 0, 0, 0, 1] := by decide +kernel
theorem test_zone_read : (reply (.zoneRead (cmd 2 [])) ready).take 2 = [0x62, 0] := by decide +kernel
theorem test_zone_clear : reply (.zoneClear (cmd 2 [32])) ready = [0x63, 5] ∧ reply (.zoneClear (cmd 2 [255])) ready = [0x63, 0] := by
  decide +kernel

/-- 07, worked example: halving a full bin. -/
theorem test_full_bin_is_halved :
    let s := edit filling fun h => h.modZone 2 fun m =>
      { m with bins := m.bins.set 0 ⟨4294967295, 500000, 2, some (.rate, 1)⟩ }
    ((after (.lineWord 2 ⟨9, 1, [], 0⟩) s).zones.get 2).bins.get 0 = ⟨2147483648, 250001, 2, some (.rate, 1)⟩ := by decide +kernel

/-- 07, worked example, step 4: the bad line that makes the bin suspect. -/
theorem test_bin_becomes_suspect :
    let s := edit filling fun h => h.modZone 2 fun m =>
      { m with bins := m.bins.set 0 ⟨2000001, 37, 0, none⟩, setup := ⟨100000, 18, 3⟩ }
    ((after (.lineWord 2 ⟨9, 1, [], 0⟩) s).zones.get 2).bins.get 0 = ⟨2000002, 38, 0, some (.rate, 0)⟩ := by decide +kernel

theorem test_echo_setup : reply (.echoSetup (cmd 2 [4, 8, 0, 0, 255, 255, 0, 0])) ready =
    [0x70, 1, 4, 8, 16, 0, 44, 1, 0, 0] := by decide +kernel
theorem test_cable_map : reply (.cableMapWrite (cmd 2 [1, 99, 0, 0, 0, 7])) ready = [0x71, 1, 1, 100, 0, 0, 0, 7] ∧
    reply (.cableMapRead (cmd 2 [])) ready = [0x72, 0, 0] := by decide +kernel
theorem test_baseline_read : reply (.baselineRead (cmd 2 [])) ready = [0x75, 10] := by decide +kernel
theorem test_baseline_write :
    (reply (.baselineWrite ⟨2, 0, w2 256 ++ List.replicate 511 0 ++ [8]⟩) ready).take 4 = [0x74, 1, 0, 0] ∧
    ((after (.baselineWrite ⟨2, 0, w2 256 ++ List.replicate 511 0 ++ [8]⟩) ready).echo.ports.get 2).baseline.map (·.get 255) =
      some 2047 := by decide +kernel
theorem test_baseline_learn : reply (.baselineLearn (cmd 2 [])) (port .off .down) = [0x73, 0, 1] ∧
    reply (.baselineLearn (cmd 2 [])) up = [0x73, 6] := by decide +kernel
theorem test_hunt : reply (.hunt (cmd 2 [0])) up = [0x77, 10] ∧
    let s := edit up fun h => h.modEchoPort 2 fun e => { e with baseline := some (Vector.replicate 256 0) }
    ((after (.hunt (cmd 2 [1])) s).power.get 2).restore = true ∧ reply (.hunt (cmd 2 [1])) s = [0x77, 0, 1] := by decide +kernel
theorem test_echo_result : (reply (.echoResult (cmd 2 [0])) ready).take 3 = [0x76, 0, 0] := by decide +kernel
theorem test_echo_shot :
    (after (.echoShot (Vector.replicate 256 0xFFF)) (sampling .hunt .hunt 3)).echo.sampler.map (fun j => (j.shots, j.sums.get 255)) =
      some (4, -1) := by decide +kernel
theorem test_echo_job_completes : ((after .echoJobComplete (sampling .hunt .hunt 4)).power.get 2).state = .off ∧
    ((after .echoJobComplete (sampling .hunt .hunt 4)).echo.ports.get 2).last.map (·.outcome) = some .noFault := by decide +kernel
theorem test_hub_reset : (after (.hubReset (cmd 0 [])) (cycle .running .line)).shot = {} ∧
    reply (.hubReset (cmd 0 [])) (cycle .running .line) = [0x80, 0] := by decide +kernel

theorem test_step_takes_the_front_command :
    step { ready with pending := [.linkSetup (cmd 2 [3]), .pinReset] } =
      .next { after (.linkSetup (cmd 2 [3])) ready with pending := [.pinReset] } := rfl

/-! ## What a start, a retrain and the end of a lens move bring -/

theorem test_retrain_word_offered :
    ((after (.linkRetrain (cmd 2 [])) up).links.get 2).cable.map (·.word) = some (.retrain .full) := by decide +kernel

/-- The move timeout tells the slot in GUARD, whose TRIGGER goes onto the cable. -/
theorem test_stall_triggers_the_waiting_slot :
    let moving := edit (cycle .running .command) fun h => h.modLens 2 fun l => { l with record := some (lens .moving) }
    let s := after (.moveTimeout 2) (after (.slotOpen 3) moving)
    s.shot.flights.map (fun f => (f.stage, f.late)) = [(.offered, false)] ∧
      ((s.links.get 2).cable.map (·.word)) = some (.trigger 0 1000) := by decide +kernel

/-- A start issues the move of port 2's first slot; with that slot at offset 0 it opens in GUARD, since its lens is MOVING. -/
theorem test_start_issues_the_first_move :
    let tb : ShotTable := { table .command with slots := vmod (table .command).slots 3 fun r => { r with offset := 0 } }
    let s := edit (cycle .armed .command) fun h =>
      (h.modLens 2 fun l => { l with presets := l.presets.set 1 ⟨some 900, none, none⟩ }).modShot fun x => { x with active := some tb }
    let t := after (.cycleFire (cmd 0 [])) s
    (t.lenses.get 2).moveState = .moving ∧ ((t.links.get 2).cable.map (·.word)) = some (.lensMove ⟨some 900, some 10, none⟩) ∧
      t.shot.flights.map (·.stage) = [.waiting 50] := by decide +kernel

/-! ## States and operands that meet the hypotheses of the statements, clause by clause -/

/-- A state with some of everything: port 2 UP in a running cycle with a slot on offer, a frame FILLING, one SENDING, a job queued. -/
def busy : State :=
  { edit (after (.slotOpen 3) (cycle .running .command)) (fun h =>
      { h with
        store := { h.store with frames := { frame with tag := 9, port := 4, pages := [9], state := .sending } :: h.store.frames }
        delivery := h.delivery.mod 4 fun d => { d with fifo := [9], progress := some { inTx := true } }
        uplink := { h.uplink with tx := some (.image (some 9) none ⟨0x03, 4, 0, []⟩) }
        echo := { h.echo with queue := [(1, .learn)] } }) with
    pending := [.lockLost 2, .pinReset] }

/-- Port 4 held with a closed frame in its FIFO, port 2 with a slot in GUARD and its frame, the transmitter free. -/
def stored : State :=
  edit up fun h =>
    { h with
      shot := { h.shot with
        flights := [{ slot := 3, port := 2, tag := 3, cycle := 7, exposure := 9, late := false, stage := .waiting 50 }] }
      store := { h.store with
        frames := [{ frame with tag := 9, port := 4, pages := [9], state := .queued, window := none },
          { frame with tag := 3, exposedAt := none, window := none }] }
      delivery := h.delivery.mod 4 fun d => { d with fifo := [9], hold := true } }

theorem stored_deliveryKept : stored.deliveryKept := by
  have fifo : ∀ p, (stored.delivery.get p).fifo = if p = 4 then [9] else [] := by decide +kernel
  refine ⟨fun p => ⟨by revert p; decide +kernel, fun tag h => ?_⟩, by decide +kernel, by decide +kernel⟩
  rw [fifo] at h
  split_ifs at h with port
  · obtain rfl := List.mem_singleton.mp h
    subst port
    exact ⟨_, List.mem_cons_self, by decide +kernel⟩
  · exact absurd h List.not_mem_nil

theorem busy_steps : ∃ t, step busy = .next t := ⟨_, rfl⟩

theorem meets_IdleStepPassesOneMicrosecond : up.pending = [] := rfl
theorem meets_StepKeepsMemoryCanonical : busy.memoryKept ∧ ∃ t, step busy = .next t := by
  refine ⟨?_, busy_steps⟩; unfold State.memoryKept; decide +kernel
theorem meets_StepKeepsReservedSumWithinBudget : busy.budgetKept ∧ ∃ t, step busy = .next t := by
  refine ⟨?_, busy_steps⟩; unfold State.budgetKept; decide +kernel
theorem meets_StepKeepsUplinkLaws :
    busy.placesKept ∧ busy.creditsKept ∧ busy.transmitterKept ∧ busy.offersKept ∧ busy.pendingKept ∧
      (stored.rotationKept ∧ stored.pagesKept ∧ stored.deliveryKept ∧ stored.grantsKept) ∧ (∃ t, step busy = .next t) ∧
      ∃ t, step stored = .next t := by
  refine ⟨?_, ?_, ?_, ?_, ?_, ⟨?_, ?_, ?_, ?_⟩, busy_steps, ⟨_, rfl⟩⟩
  · unfold State.placesKept; decide +kernel
  · unfold State.creditsKept; decide +kernel
  · unfold State.transmitterKept; decide +kernel
  · unfold State.offersKept; decide +kernel
  · unfold State.pendingKept; decide +kernel
  · unfold State.rotationKept; decide +kernel
  · unfold State.pagesKept; decide +kernel
  · exact stored_deliveryKept
  · unfold State.grantsKept; decide +kernel
theorem meets_StepKeepsRotation : busy.rotationKept ∧ ∃ t, step busy = .next t := by
  refine ⟨?_, busy_steps⟩; unfold State.rotationKept; decide +kernel
theorem meets_StepKeepsBadWithinLines : busy.binsKept ∧ ∃ t, step busy = .next t := by
  refine ⟨?_, busy_steps⟩; unfold State.binsKept; decide +kernel
theorem meets_StepKeepsUnpoweredLinksDown : busy.linksKept ∧ ∃ t, step busy = .next t := by
  refine ⟨?_, busy_steps⟩; unfold State.linksKept; decide +kernel
theorem meets_StepKeepsStorePages :
    busy.pagesKept ∧ busy.fillingKept ∧ (stored.pagesKept ∧ stored.deliveryKept) ∧ (∃ t, step busy = .next t) ∧
      (∃ t, step stored = .next t) ∧
      let got := edit stored fun h => h.modFrame 9 fun f => { f with received := [(0, true), (1, false)] }
      got.pagesKept ∧ got.receivedKept ∧ ∃ t, step got = .next t := by
  refine ⟨?_, ?_, ⟨?_, ?_⟩, busy_steps, ⟨_, rfl⟩, ?_, ?_, ⟨_, rfl⟩⟩
  · unfold State.pagesKept; decide +kernel
  · unfold State.fillingKept; decide +kernel
  · unfold State.pagesKept; decide +kernel
  · exact stored_deliveryKept
  · unfold State.pagesKept; decide +kernel
  · unfold State.receivedKept; decide +kernel
theorem meets_StepKeepsSlotsOnUpLinks :
    busy.linksKept ∧ busy.slotsKept ∧ busy.shot.flights ≠ [] ∧ (∃ t, step busy = .next t) ∧
    let moving := edit (port .on .relock) fun h => h.modLink 2 fun l =>
      { l with cable := some ⟨.trigger 1 5, 4, true⟩, words := [.lensMove ⟨none, none, none⟩] }
    moving.linksKept ∧ moving.slotsKept ∧ moving.triggersKept ∧ ∃ t, step moving = .next t := by
  refine ⟨?_, ?_, ?_, busy_steps, ?_, ?_, ?_, ⟨_, rfl⟩⟩
  · unfold State.linksKept; decide +kernel
  · unfold State.slotsKept; decide +kernel
  · decide +kernel
  · unfold State.linksKept; decide +kernel
  · unfold State.slotsKept; decide +kernel
  · unfold State.triggersKept; decide +kernel
theorem meets_StepKeepsEchoPortsOpen : busy.echoKept ∧ ∃ t, step busy = .next t := by
  refine ⟨?_, busy_steps⟩; unfold State.echoKept State.dischargeKept; decide +kernel
theorem meets_SettingsChangeOnlyByTheirCommands :
    (∃ t, exec .uplinkUp busy = .next t) ∧ Instr.uplinkUp ≠ .pinReset ∧ (∀ c, Instr.uplinkUp ≠ .recordDiscard c) ∧
    (∀ k c, Instr.uplinkUp ≠ .badKindRecord k c) ∧
    (∀ c, Instr.uplinkUp ≠ .budgetSet c) ∧ (∀ c, Instr.uplinkUp ≠ .powerSetup c) ∧ (∀ c, Instr.uplinkUp ≠ .linkSetup c) ∧
    (∀ c, Instr.uplinkUp ≠ .presetWrite c) ∧ (∀ c, Instr.uplinkUp ≠ .lensSetup c) ∧ (∀ c, Instr.uplinkUp ≠ .zoneSetup c) ∧
    (∀ c, Instr.uplinkUp ≠ .pose c) ∧ (∀ c, Instr.uplinkUp ≠ .echoSetup c) ∧ (∀ c, Instr.uplinkUp ≠ .cableMapWrite c) ∧
    (∀ c, Instr.uplinkUp ≠ .storeSetup c) ∧ (∀ c, Instr.uplinkUp ≠ .slotWrite c) ∧ (∀ c, Instr.uplinkUp ≠ .tableHeader c) ∧
    (∀ c, Instr.uplinkUp ≠ .routeSet c) ∧ (∀ c, Instr.uplinkUp ≠ .hubReset c) :=
  ⟨⟨_, rfl⟩, nofun, nofun, nofun, nofun, nofun, nofun, nofun, nofun, nofun, nofun, nofun, nofun, nofun, nofun, nofun, nofun, nofun⟩

/-- An UP uplink with no credit outstanding. -/
def noCredit : State := edit ready fun h => h.modUplink fun u => { u with credits := 0 }

theorem meets_CommandNeedsUplinkAndCredit :
    isRecord (.identify (cmd 2 [])) ∧ isRecord (.badKindRecord 0x14 (cmd 2 [])) ∧ isRecord (.badKindRecord 0x81 (cmd 2 [])) ∧
    isRecord (.recordDiscard [0x81, 0xFF, 0, 0, 0, 0, 0]) ∧ State.reset.uplink.up = false ∧
    noCredit.uplink.up = true ∧ noCredit.uplink.credits = 0 ∧
    ((unmasked noCredit (.ofHub .uplinkError) 1).router.entry (.ofHub .uplinkError)).masked = false :=
  ⟨.inl rfl, .inr (.inl ⟨_, _, rfl⟩), .inr (.inl ⟨_, _, rfl⟩), .inr (.inr ⟨_, rfl⟩), by decide +kernel⟩

theorem meets_RefusedBeforeTheBlock :
    ready.ready ∧ isCommandKind 0x14 = false ∧ hostCommand (.powerOn (cmd 2 [0])) = some (0x20, cmd 2 [0]) ∧
    ¬ payloadFits 0x20 (cmd 2 [0]).payload ∧ hostCommand (.powerOn (cmd 6 [])) = some (0x20, cmd 6 []) ∧
    payloadFits 0x20 (cmd 6 []).payload ∧ namesPort 0x20 = true ∧ 5 < (cmd 6 []).port.toNat := by
  unfold Hub.ready payloadFits; decide +kernel

theorem meets_FaultyRecordDiscarded :
    ready.ready ∧
    (let raw : List Byte := [0x81, 0xFF, 0, 0, 0x41, 0x40, 0, 0]
     16448 < u16At raw 4) ∧
    (let raw : List Byte := [0x81, 0xFF, 0, 0, 0, 0, 0]
     raw.length ≠ u16At raw 4 + 8) ∧
    (let raw : List Byte := [0x81, 0xFF, 0, 0, 0, 0, 0, 0]
     ¬ (16448 < u16At raw 4 ∨ raw.length ≠ u16At raw 4 + 8) ∧
       (crc16 (raw.take (u16At raw 4 + 6))).toNat ≠ u16At raw (u16At raw 4 + 6)) ∧
    ((unmasked ready (.ofHub .uplinkError) 1).router.entry (.ofHub .uplinkError)).masked = false := by
  unfold Hub.ready; decide +kernel

theorem meets_WholeRecordIsItsCommand :
    hostCommand (.baselineWrite ⟨2, 0, List.replicate 16448 1⟩) = some (0x74, ⟨2, 0, List.replicate 16448 1⟩) ∧
    (⟨2, 0, List.replicate 16448 1⟩ : Cmd).wf = true := ⟨rfl, by decide +kernel⟩

theorem meets_IdentifyRepliesFixedValues : ready.ready ∧ (cmd 2 []).payload = [] := by unfold Hub.ready; decide +kernel

theorem meets_PortQueriesChangeNothing :
    ready.ready ∧ addresses (cmd 5 []) 5 ∧ (cmd 5 []).payload = [] ∧ addresses (cmd 5 [15]) 5 ∧
    (cmd 5 [15]).payload = [BitVec.ofNat 8 (15 : Fin 16).val] ∧ (ready.echo.ports.get 5).baseline = none ∧
    (sampling .off .learn 0).ready ∧ addresses (cmd 2 []) 2 ∧
    (((sampling .off .learn 0).echo.ports.get 2).baseline).isSome = true ∧
    (cmd 5 [1]).payload = [if true then 1 else 0] ∧ (cmd 5 [0]).payload = [if false then 1 else 0] := by
  unfold Hub.ready addresses; decide +kernel

theorem meets_HubQueriesChangeNothing :
    ready.ready ∧ (cmd 9 [0]).payload = [BitVec.ofNat 8 (0 : Fin 3).val] ∧
    [some ready.shot.staged, ready.shot.active, ready.shot.pending][0]? = some (some ({} : ShotTable)) ∧
    (cmd 9 [1]).payload = [BitVec.ofNat 8 (1 : Fin 3).val] ∧
    [some up.shot.staged, (cycle .armed .line).shot.active, up.shot.pending][1]? = some (some (table .line)) ∧
    [some ready.shot.staged, ready.shot.active, ready.shot.pending][1]? = some none ∧
    (cmd 9 [2]).payload = [BitVec.ofNat 8 (2 : Fin 3).val] ∧
    [some ready.shot.staged, ready.shot.active, ready.shot.pending][2]? = some none ∧
    (cmd 9 []).payload = [] ∧ (cmd 9 [0]).payload = [0] ∧
    (cmd 5 [4]).payload = [BitVec.ofNat 8 (Source.ofPort 5 .zoneSuspect).code] ∧
    (cmd 5 [4]).port = (Source.ofPort 5 .zoneSuspect).portByte ∧
    (cmd 255 [8]).payload = [BitVec.ofNat 8 (Source.ofHub .uplinkError).code] ∧
    (cmd 255 [8]).port = (Source.ofHub .uplinkError).portByte := by unfold Hub.ready; decide +kernel

theorem meets_StatusClearsAfterReply :
    ready.ready ∧ (cmd 5 [1]).payload = [1] ∧ (cmd 5 [0]).payload = [if false then 1 else 0] ∧
    (cmd 5 [1]).payload = [if true then 1 else 0] ∧ addresses (cmd 5 []) 5 ∧ (cmd 5 []).payload = [] ∧
    (let s := cycle .armed .encoder
     s.ready ∧ s.shot.active = some (table .encoder) ∧ (table .encoder).header.source = .encoder ∧ s.shot.cycle ≠ .stopped) ∧
    (up.ready ∧ addresses (cmd 2 []) 2 ∧ (up.lenses.get 2).record = some (lens .idle)) ∧ (ready.lenses.get 5).record = none := by
  unfold Hub.ready addresses; decide +kernel

theorem meets_BadArgumentsRefused :
    let slot (index enabled port preset number : Nat) : List Byte :=
      (cmd 0xFF ([index, enabled, port] ++ List.replicate 12 0 ++ [preset, number, 0, 0, 0, 0])).payload
    let portOk (c : Cmd) : Bool := if byteAt c.payload 0 < 5 then c.port.toNat ≤ 5 else c.port = 0xFF
    ready.ready ∧
    (hostCommand (.cycleStatus (cmd 0xFF [2])) = some (0x47, cmd 0xFF [2]) ∧ 0x47 ∈ [0x47, 0x51, 0x54, 0x82] ∧
      (cmd 0xFF [2]).payload.length = 1 ∧ 1 < byteAt (cmd 0xFF [2]).payload 0) ∧
    ((slot 16 0 0 0 0).length = 21 ∧ 15 < byteAt (slot 16 0 0 0 0) 0 ∧ 1 < byteAt (slot 0 2 0 0 0) 1 ∧
      5 < byteAt (slot 0 0 6 0 0) 2 ∧ 1 < byteAt (slot 0 0 0 2 0) 15 ∧ byteAt (slot 0 0 0 1 16) 15 = 1 ∧
      15 < byteAt (slot 0 0 0 1 16) 16) ∧
    (let bs := (cmd 0xFF [3, 0, 0, 0, 0, 0, 0]).payload
     bs.length = 7 ∧ 2 < byteAt bs 0) ∧
    (let bs := (cmd 0xFF [3]).payload
     bs.length = 1 ∧ 2 < byteAt bs 0 ∧ 1 < byteAt bs 0) ∧
    (let bs := (cmd 0xFF [0]).payload
     bs.length = 1 + 2 * byteAt bs 0 ∧ byteAt bs 0 = 0) ∧
    (let bs := (cmd 0xFF ([7] ++ List.replicate 14 0)).payload
     bs.length = 1 + 2 * byteAt bs 0 ∧ 6 < byteAt bs 0) ∧
    (let bs := (cmd 0xFF [2, 5, 32, 6, 31]).payload
     bs.length = 1 + 2 * byteAt bs 0 ∧ 0 < byteAt bs 0 ∧ 31 < byteAt bs (2 + 2 * 0) ∧ 1 < byteAt bs 0 ∧ 5 < byteAt bs (1 + 2 * 1)) ∧
    (let bs := (cmd 0xFF [0, 0]).payload
     bs.length = 2 ∧ u16At bs 0 = 0) ∧
    (let bs := (cmd 0xFF [0, 1]).payload
     bs.length = 2 ∧ 255 < u16At bs 0) ∧
    ((cmd 5 [9, 0, 0, 0]).payload.length = 4 ∧ 8 < byteAt (cmd 5 [9, 0, 0, 0]).payload 0 ∧ 1 < byteAt (cmd 5 [4, 2, 0, 0]).payload 1) ∧
    ((cmd 5 [9]).payload.length = 1 ∧ 8 < byteAt (cmd 5 [9]).payload 0) ∧
    (¬ portOk (cmd 6 [4, 1, 0, 0]) ∧ ¬ portOk (cmd 5 [8, 1, 0, 0]) ∧ ¬ portOk (cmd 5 [5]) ∧ ¬ portOk (cmd 0xFF [0]) ∧
      portOk (cmd 5 [4, 1, 0, 1]) ∧ portOk (cmd 0xFF [8, 1, 0, 1]) ∧ 255 < u16At (cmd 5 [4, 1, 0, 1]).payload 2) := by
  unfold Hub.ready; decide +kernel

/-- The commands of a port: its clauses of BadArgumentsRefused. -/
theorem meets_BadArgumentsRefused_of_a_port :
    ready.ready ∧ addresses (cmd 5 [2]) 5 ∧
    (hostCommand (.hunt (cmd 5 [2])) = some (0x77, cmd 5 [2]) ∧ 0x77 ∈ [0x76, 0x77]) ∧
    (let bs := (cmd 5 [16, 0, 0, 0, 0, 0, 0, 0, 0, 2]).payload
     bs.length = 10 ∧ 1 < byteAt bs 9 ∧ 15 < byteAt bs 0) ∧
    (let bs := (cmd 5 [15, 2, 0, 0, 2, 0, 0, 2, 0, 0]).payload
     bs.length = 10 ∧ 1 < byteAt bs 1 ∧ 1 < byteAt bs 4 ∧ 1 < byteAt bs 7) ∧
    (let bs := (cmd 5 [16]).payload
     bs.length = 1 ∧ 15 < byteAt bs 0) ∧
    (let bs := (cmd 5 [2, 0, 0, 2, 0, 0, 2, 0, 0]).payload
     bs.length = 9 ∧ 1 < byteAt bs 0 ∧ 1 < byteAt bs 3 ∧ 1 < byteAt bs 6) ∧
    (let bs := (cmd 5 [32]).payload
     bs.length = 1 ∧ 31 < byteAt bs 0 ∧ byteAt bs 0 ≠ 255) ∧
    (let bs := (cmd 5 [2, 0, 0, 0, 0, 0, 0, 0]).payload
     bs.length = 8 ∧ byteAt bs 0 ∉ [1, 4, 16]) ∧
    (let bs := (cmd 5 ([9] ++ List.replicate 45 0)).payload
     bs.length = 1 + 5 * byteAt bs 0 ∧ 8 < byteAt bs 0) ∧
    (let bs := (cmd 5 [0, 0]).payload
     bs.length = 2 + 2 * u16At bs 0 ∧ u16At bs 0 ≠ 256) := by unfold Hub.ready addresses; decide +kernel

theorem meets_UplinkUpGrantsCredits :
    State.reset.uplink.up = false ∧ State.reset.uplink.queue = [] ∧ State.reset.uplink.credits = 0 ∧
    State.reset.router.order = [] ∧
    (∀ src ∈ allSources, (State.reset.router.entry src).masked = true ∨ State.reset.levelActive src = false) := by
  decide +kernel

/-- A state with four entries in the pending order: one that awaits, a level entry whose source is inactive, and two that may be offered,
one of them a level entry. -/
def offering (s : State) : State :=
  edit (unmasked (unmasked (unmasked (unmasked s (.ofPort 1 .linkChange) 1) (.ofHub .storeLow) 1) (.ofPort 2 .powerFault) 1)
    (.ofPort 3 .lensDone) 0) fun h =>
      ((h.modPower 2 fun w => { w with state := .lockedOut }).modRouter fun r =>
        { r with order := [.ofPort 1 .linkChange, .ofHub .storeLow, .ofPort 2 .powerFault, .ofPort 3 .lensDone] }).modRouter fun r =>
        (r.modEntry (.ofPort 1 .linkChange) fun e => { e with awaiting := true, count := 2 }).modEntry (.ofPort 3 .lensDone) fun e =>
          { e with count := 3, detail := some [1] }

/-- The clauses of `placesFilled` and of the laws it keeps: entries of each kind, with places for all, for one of a credit and two reports,
and for none. -/
theorem meets_placesFilled :
    let free (s : State) (n : Nat) : State := edit s fun h => h.modUplink fun u =>
      { u with credits := 3, queue := List.replicate (29 - n) (.reply ⟨1, 2, 0, [0x20, 0]⟩) }
    let s := offering ready
    s.pendingKept ∧ s.router.order.filter s.toHub.mayOffer = [.ofPort 2 .powerFault, .ofPort 3 .lensDone] ∧
    s.router.order.filter s.toHub.mayClear = [.ofHub .storeLow] ∧ (s.router.entry (.ofPort 1 .linkChange)).awaiting = true ∧
    (s.router.entry (.ofPort 3 .lensDone)).detail.isSome = true ∧ (s.router.entry (.ofPort 2 .powerFault)).tag ≠ 0 ∧
    32 - (free s 1).uplink.queue.length - (free s 1).uplink.credits = 1 ∧
    32 - (free s 0).uplink.queue.length - (free s 0).uplink.credits = 0 ∧ 32 - s.uplink.queue.length - s.uplink.credits = 28 := by
  unfold State.pendingKept; decide +kernel

/-- R180: link up with an active level source that is not pending yet, behind an entry that is: both are reported, beside 4 credits. -/
theorem test_link_up_offers :
    let s := edit (unmasked (offering State.reset) (.ofPort 5 .powerFault) 0) fun h => h.modPower 5 fun w => { w with state := .cooldown }
    let t := after .uplinkUp s
    t.uplink.queue.map (fun r => match r with | .report src n _ => some (src, n) | .reply _ => none) =
        [some (.ofPort 2 .powerFault, 1), some (.ofPort 3 .lensDone, 3), some (.ofPort 5 .powerFault, 1)] ∧
      t.uplink.credits = 4 ∧ t.uplink.tx = some .control ∧ t.router.order = [.ofPort 1 .linkChange] := by decide +kernel

/-- The clauses of `activated`: an unmasked entry that awaits, one that does not with the uplink DOWN, and one that listens. -/
theorem meets_activated :
    let src : Source := .ofPort 2 .powerFault
    let s := unmasked up src 1
    let waits := edit s fun h => h.modEntry src fun e => { e with awaiting := true, count := 255 }
    let down := edit s fun h => { h with uplink := {} }
    ((s.router.entry src).masked = false ∧ (s.router.entry src).awaiting = false ∧ s.uplink.up = true) ∧
    ((waits.router.entry src).masked = false ∧ (waits.router.entry src).awaiting = true) ∧
    ((down.router.entry src).masked = false ∧ (down.router.entry src).awaiting = false ∧ down.uplink.up = false) := by decide +kernel

/-- The uplink with a report of port 2's LINK_CHANGE at its head and a frame of port 4 SENDING. -/
def sending : State :=
  edit (unmasked busy (.ofPort 2 .linkChange) 3) fun h =>
    { h with uplink := { h.uplink with
        tx := some .control
        queue := [.report (.ofPort 2 .linkChange) 1 ⟨2, 2, 3, []⟩, .reply ⟨1, 2, 0, [0x20, 0]⟩] } }

theorem meets_UplinkDownDiscards :
    let level : Source := .ofPort 2 .powerFault
    let s := edit (unmasked sending level 4) fun h => h.modUplink fun u =>
      { u with queue := u.queue ++ [.report level 1 ⟨2, 2, 4, []⟩, .report (.ofPort 5 .lensDone) 1 ⟨2, 5, 0, []⟩] }
    sending.uplink.up = true ∧ (sending.delivery.get 4).progress = some { inTx := true } ∧ (sending.delivery.get 4).fifo = [9] ∧
    (sending.delivery.get 3).progress = none ∧ (∀ r ∈ (sending.uplink.queue.drop 1), r = .reply ⟨1, 2, 0, [0x20, 0]⟩) ∧
    CtrlRec.report (.ofPort 2 .linkChange) 1 ⟨2, 2, 3, []⟩ ∈ sending.uplink.queue ∧
    (sending.router.entry (.ofPort 2 .linkChange)).masked = false ∧ (Source.ofPort 2 .linkChange).isLevel = false ∧
    s.uplink.up = true ∧ CtrlRec.report level 1 ⟨2, 2, 4, []⟩ ∈ s.uplink.queue ∧ level.isLevel = true ∧
    CtrlRec.report (.ofPort 5 .lensDone) 1 ⟨2, 5, 0, []⟩ ∈ s.uplink.queue ∧ (s.router.entry (.ofPort 5 .lensDone)).masked = true := by
  decide +kernel

theorem meets_ControlRecordSentFreesPlace :
    sending.uplink.up = true ∧ sending.uplink.tx = some .control ∧
    sending.uplink.queue = [.report (.ofPort 2 .linkChange) 1 ⟨2, 2, 3, []⟩, .reply ⟨1, 2, 0, [0x20, 0]⟩] := by decide +kernel

theorem meets_ImageRecordSentAdvancesDelivery :
    let closing (tag : Option FrameTag) (st : Option DeliveryStatus) : State := edit busy fun h =>
      { h with uplink := { h.uplink with tx := some (.image tag st ⟨0x05, 4, 0, []⟩) } }
    (busy.store.frame? 9).isSome = true ∧
    (closing (some 9) (some .delivered)).uplink.tx = some (.image (some 9) (some .delivered) ⟨0x05, 4, 0, []⟩) ∧
    (closing (some 9) (some .aborted)).uplink.tx = some (.image (some 9) (some .aborted) ⟨0x05, 4, 0, []⟩) ∧
    (closing (some 9) none).uplink.tx = some (.image (some 9) none ⟨0x05, 4, 0, []⟩) ∧
    (closing none none).uplink.tx = some (.image none none ⟨0x05, 4, 0, []⟩) ∧ ready.uplink.tx = none ∧
    sending.uplink.tx = some .control := ⟨by decide +kernel, rfl, rfl, rfl, rfl, rfl, rfl⟩

/-- Port 4's frame QUEUED, the transmitter free, port 3 held and first in the rotation order. -/
def grantable : Hub :=
  let h := busy.toHub
  { h with
    rotation := [3, 4, 0, 1, 2, 5]
    delivery := (h.delivery.mod 4 fun d => { d with progress := none }).mod 3 fun d => { d with fifo := [1], hold := true }
    store := { h.store with frames := [{ frame with tag := 9, port := 4, state := .queued }] }
    uplink := { h.uplink with tx := none } }

theorem meets_GrantServesHighestRankedPort :
    let got : Frame := { frame with received := [(0, true), (1, false)] }
    grantable.rotation = [3] ++ 4 :: [0, 1, 2, 5] ∧ (4 : Port) ∉ ([3] : List Port) ∧ (4 : Port) ∉ ([0, 1, 2, 5] : List Port) ∧
    grantable.uplink.up = true ∧ grantable.uplink.tx = none ∧ grantable.uplink.queue = [] ∧
    (∀ q ∈ ([3] : List Port), (grantable.delivery.get q).fifo = [] ∨ (grantable.delivery.get q).hold = true) ∧
    (grantable.delivery.get 4).fifo = [9] ∧ (grantable.delivery.get 4).hold = false ∧
    grantable.store.frame? 9 = some { frame with tag := 9, port := 4, state := .queued } ∧
    (((grantable.delivery.get 4).progress.getD {}).abort = false ∧ ((grantable.delivery.get 4).progress.getD {}).next = .frameOpen) ∧
    got.received.find? (·.1 == 0) = some (0, true) ∧ got.received.find? (·.1 == 1) ≠ some (1, true) ∧
    (got.received.find? (0 < ·.1)).map (·.1) = some 1 ∧ got.received.find? (1 < ·.1) = none ∧ 63 < got.lineBytes ∧
    pageAddress got.pages (1 * got.lineBytes + 63) = some 327807 := by decide +kernel

theorem meets_FiringsActByEntryState :
    let src : Source := .ofPort 2 .lensDone
    let shown : Hub := (unmasked ready src 5).toHub
    let full (h : Hub) : Hub := { h with uplink := { h.uplink with queue := List.replicate 28 (.reply ⟨1, 0, 0, [0, 0]⟩) } }
    let waits (awaiting pending : Bool) : Hub :=
      (shown.modEntry src fun e => { e with awaiting := awaiting, count := 255 }).modRouter fun r =>
        { r with order := if pending then [src] else [] }
    let level : Source := .ofPort 2 .powerFault
    let low : Source := .ofHub .storeLow
    src.isLevel = false ∧ level.isLevel = true ∧ low.isLevel = true ∧ (ready.router.entry src).masked = true ∧
    (shown.listens src ∧ shown.roomFor 1) ∧ ((full shown).listens src ∧ ¬ (full shown).roomFor 1) ∧
    ((unmasked State.reset src 5).toHub.listens src ∧ ¬ (unmasked State.reset src 5).toHub.roomFor 1) ∧
    ((unmasked up level 0).toHub.listens level ∧ (unmasked up level 0).toHub.roomFor 1) ∧
    ((unmasked up low 1).toHub.listens low ∧ ¬ (full (unmasked up low 1).toHub).roomFor 1) ∧
    (((waits false true).router.entry src).masked = false ∧ (waits false true).router.pending src = true ∧
      ((waits false true).router.entry src).awaiting = false) ∧
    (((waits true false).router.entry src).awaiting = true ∧ (waits true false).router.pending src = false) ∧
    (((waits true true).router.entry src).awaiting = true ∧ (waits true true).router.pending src = true) := by
  unfold Hub.listens Hub.roomFor; decide +kernel

theorem meets_RouteSetWritesEntry :
    let shown : State := unmasked ready (.ofPort 5 .zoneSuspect) 1
    let level : Source := .ofPort 2 .powerFault
    let locked : State := port .lockedOut .down
    let full : State := edit locked fun h => h.modUplink fun u => { u with queue := List.replicate 28 (.reply ⟨1, 0, 0, [0, 0]⟩) }
    ready.ready ∧ (cmd 5 [4, 1, 0, 0]).port = (Source.ofPort 5 .zoneSuspect).portByte ∧
    (cmd 5 [4, 1, 0, 0]).payload = [BitVec.ofNat 8 (Source.ofPort 5 .zoneSuspect).code, if true then 1 else 0, 0, 0] ∧
    (cmd 255 [8, 0, 255, 0]).port = (Source.ofHub .uplinkError).portByte ∧
    (cmd 255 [8, 0, 255, 0]).payload = [BitVec.ofNat 8 (Source.ofHub .uplinkError).code, if false then 1 else 0, 255, 0] ∧
    (shown.ready ∧ (shown.router.entry (.ofPort 5 .zoneSuspect)).masked = false) ∧
    (locked.ready ∧ (locked.router.entry level).masked = true ∧ (locked.router.entry level).awaiting = false ∧
      locked.levelActive level = true ∧ locked.toHub.roomFor 1) ∧
    (full.ready ∧ (full.router.entry level).masked = true ∧ (full.router.entry level).awaiting = false ∧
      full.levelActive level = true ∧ ¬ full.toHub.roomFor 1) := by
  unfold Hub.ready Hub.roomFor; decide +kernel

theorem meets_EventAckClearsAwaiting :
    let src : Source := .ofPort 2 .powerFault
    let edge : Source := .ofPort 2 .lensDone
    let awaits (s : State) : State := edit (unmasked s src 255) fun h => h.modEntry src fun e => { e with awaiting := true, count := 3 }
    let s := awaits ready
    let t := edit (unmasked (awaits (port .lockedOut .down)) edge 255) fun h =>
      (h.modEntry edge fun e => { e with awaiting := true, detail := some [1] }).modRouter fun r => { r with order := [edge] }
    s.ready ∧ (255 : Byte) ≠ 0 ∧ (cmd 0 [255, 0]).payload = [255, 0] ∧ (s.router.entry src).awaiting = true ∧
    (s.router.entry src).tag = 255 ∧ s.router.pending src = false ∧ s.levelActive src = false ∧
    (s.router.entry src).tag ≠ 254 ∧
    (t.ready ∧ t.levelActive src = true ∧ t.router.pending edge = true ∧ t.toHub.roomFor 2 ∧
      (t.router.entry edge).detail.isSome = true ∧
      (allSources.filter fun x => (t.router.entry x).awaiting && (t.router.entry x).tag == 255) = [src, edge]) := by
  unfold Hub.ready Hub.roomFor; decide +kernel

theorem meets_LinkRetrainForcesAcquire :
    ready.ready ∧ addresses (cmd 2 []) 2 ∧ (cmd 2 []).payload = [] ∧ (ready.links.get 2).state = .down ∧ up.ready ∧
    (up.links.get 2).state ≠ .down ∧ (port .on .failed).ready ∧ ((port .on .failed).links.get 2).state ≠ .down := by
  unfold Hub.ready addresses; decide +kernel

theorem meets_HelloWordActsByLinkState :
    (((port .on .acquire).links.get 2).state = .acquire ∧ ((port .on .acquire).links.get 2).locked = true ∧ hello.ok = true) ∧
    ((up.links.get 2).state = .up ∧ up.linksKept ∧ hello.ok = true) ∧
    ((up.links.get 2).state = .up ∧ { hello with maxLine := 16385 }.ok = false) ∧
    (((port .on .acquire).links.get 2).locked = true ∧ { hello with axisSet := 2 }.ok = false) ∧
    (ready.links.get 2).state = .down ∧ ((port .on .relock).links.get 2).state = .relock ∧
    ((port .on .failed).links.get 2).state = .failed ∧
    (let s := edit (port .on .acquire) fun h => h.modLink 2 fun l => { l with locked := false }
     (s.links.get 2).state = .acquire ∧ (s.links.get 2).locked = false) := by unfold State.linksKept; decide +kernel

theorem meets_LockLostActsByLinkState :
    let losses (n threshold : Nat) : State := edit up fun h => h.modLink 2 fun l => { l with sinceUp := n, threshold := threshold }
    let falls (s : State) : Prop := (s.links.get 2).threshold ≠ 0 ∧
      (s.links.get 2).threshold ≤ min 255 ((s.links.get 2).sinceUp + 1) ∧ (s.links.get 2).rate = .full
    let drops (n : Nat) : State := edit (unmasked up (.ofPort 2 .zoneSuspect) 1) fun h => h.modZone 2 fun m =>
      { m with setup := { m.setup with dropThreshold := 3 }, bins := m.bins.set 0 ⟨10, 1, n, none⟩ }
    let suspect (s : State) : Prop := ((s.zones.get 2).bins.get 0).suspect = none ∧
      (s.zones.get 2).setup.dropThreshold ≤ min 65535 (((s.zones.get 2).bins.get 0).drops + 1)
    (up.links.get 2).state = .up ∧ falls (losses 3 4) ∧ ¬ falls (losses 2 4) ∧ ¬ falls (losses 255 0) ∧
    ((drops 2).links.get 2).state = .up ∧ ((drops 2).zones.get 2).current = 0 ∧ suspect (drops 2) ∧ ¬ suspect (drops 1) ∧
    ((drops 2).router.entry (.ofPort 2 .zoneSuspect)).masked = false ∧
    (up.router.entry (.ofPort 2 .zoneSuspect)).masked = true ∧
    ((port .on .acquire).links.get 2).state = .acquire ∧ ((port .on .relock).links.get 2).state ∉ [.up, .acquire] ∧
    (ready.links.get 2).state ∉ [.up, .acquire] := by decide +kernel

/-- The clauses of `fillingDropped`: a port with power ON and the link UP, with a triggered frame that no open slot holds, with an
untriggered one, and with none. -/
theorem meets_fillingDropped :
    let opened := after (.slotOpen 3) (cycle .running .command)
    filling.fillingKept ∧ opened.fillingKept ∧ up.fillingKept ∧
    (filling.ready ∧ (filling.power.get 2).state = .on ∧ (filling.links.get 2).state = .up ∧
      filling.store.filling? 2 = some frame ∧ frame.exposedAt.isSome = true ∧ (∀ x ∈ filling.shot.flights, x.tag ≠ frame.tag)) ∧
    (opened.ready ∧ (opened.power.get 2).state = .on ∧ (opened.links.get 2).state = .up ∧
      (opened.store.filling? 2).map (·.exposedAt) = some none ∧ opened.shot.flights.map (·.port) = [2]) ∧
    up.ready ∧ up.store.filling? 2 = none := by unfold Hub.ready State.fillingKept; decide +kernel

/-- Port 2 with its slot 3 in GUARD: the slot has opened while the lens was MOVING to preset 1. -/
def waiting : State :=
  after (.slotOpen 3) (edit (cycle .running .command) fun h => h.modLens 2 fun l => { l with record := some (lens .moving) })

/-- Where all open slots are port 2's, they are its own. -/
theorem slotsOwn_of_ports {s : State} (ports : ∀ x ∈ s.shot.flights, x.port = 2)
    (slots : ∀ x ∈ s.shot.flights, ((table .command).slots.get x.slot).port = 2) (active : s.shot.active = some (table .command)) :
    s.toHub.slotsOwn 2 :=
  ⟨fun _ _ _ x hx _ => ports x hx, fun x hx _ _ _ h => Option.some.inj (active.symm.trans h) ▸ slots x hx⟩

/-- Port 2 with its slot 3 in OFFERED and its TRIGGER on the cable. -/
def offered : State := after (.slotOpen 3) (cycle .running .command)

/-- The clauses of `slotsSkipped`: a port with a slot in OFFERED, with one in GUARD, and with none. -/
theorem meets_slotsSkipped :
    (offered.toHub.slotsOwn 2 ∧ offered.ready ∧ offered.linksKept ∧ offered.shot.flights.map (·.stage) = [.offered] ∧
      (offered.links.get 2).cable.map (·.word) = some (.trigger 0 1000) ∧
      (offered.shot.flights.filter (·.port == 2)).map (·.tag) = [0]) ∧
    (waiting.toHub.slotsOwn 2 ∧ waiting.ready ∧ (waiting.shot.flights.filter (·.port == 2)).map (·.stage) = [.waiting 50]) ∧
    (cycle .armed .command).toHub.slotsOwn 2 ∧ (cycle .armed .command).shot.flights = [] := by
  refine ⟨⟨slotsOwn_of_ports ?_ ?_ ?_, ?_⟩, ⟨slotsOwn_of_ports ?_ ?_ ?_, ?_⟩, slotsOwn_of_ports ?_ ?_ ?_, ?_⟩ <;>
    (try unfold Hub.ready) <;> (try unfold State.linksKept) <;> decide +kernel

/-- The clauses of a fallback: a fourth lock loss at FULL with slot 3 in OFFERED, whose end issues slot 4's move to preset 1, and with none;
and those of a RELOCK with none. -/
theorem meets_fallback :
    let losing (s : State) : State := edit s fun h => h.modLink 2 fun l => { l with sinceUp := 3 }
    ((losing offered).toHub.slotsOwn 2 ∧ ((losing offered).links.get 2).state = .up ∧ ((losing offered).links.get 2).threshold = 4 ∧
      ((losing offered).links.get 2).rate = .full ∧ (losing offered).shot.flights.map (fun x => (x.slot, x.port, x.cycle)) = [(3, 2, 7)] ∧
      (losing offered).shot.cycle = .running ∧ (losing offered).shot.number = 7 ∧ (table .command).nextOn 3 = some 4 ∧
      ((table .command).slots.get 4).preset = some 1) ∧
    (let s := losing (cycle .running .command)
     s.toHub.slotsOwn 2 ∧ (s.links.get 2).state = .up ∧ (∀ x ∈ s.shot.flights, x.port ≠ 2)) ∧
    ((cycle .running .command).links.get 2).sinceUp = 0 := by
  refine ⟨⟨slotsOwn_of_ports ?_ ?_ ?_, ?_⟩, ⟨slotsOwn_of_ports ?_ ?_ ?_, ?_⟩, ?_⟩ <;> decide +kernel

/-- The clauses of `waitersTriggered`: a slot in GUARD at a port whose move settles, stalls or is abandoned, and no such slot. -/
theorem meets_waitersTriggered :
    (waiting.shot.flights.filter fun x => x.port == 2 && x.stage != .offered).map (·.tag) = [0] ∧ waiting.slotsKept ∧
    waiting.linksKept ∧ (waiting.links.get 2).state = .up ∧
    (waiting.lenses.get 2).record.map (fun r => (r.moveState, r.timeout)) = some (.moving, some 20) ∧
    2 ∉ waiting.deferred ∧ hello.ok = true ∧
    (up.shot.flights.filter fun x => x.port == 2 && x.stage != .offered) = [] := by
  unfold State.slotsKept State.linksKept; decide +kernel

/-- The clauses of `portFreed`: port 2 holds a claim and a surge, port 3 waits on the list behind it, and without both the sum is less. -/
theorem meets_portFreed :
    let s := edit up fun h =>
      { (h.modPower 2 fun w => { w with heldSurge := 100 }).modPower 3 fun w =>
          { w with state := .on, setup := { w.setup with surge := 300 } } with
        budget := 1200, deferred := [2, 3] }
    let freed := s.toHub.modPower 2 fun w => { w with state := .off, heldSurge := 0 }
    s.deferred.filter (· != 2) = [3] ∧ s.reservedSum = 1100 ∧ ¬ s.toHub.surgeAdmitted 3 ∧ freed.reservedSum < s.reservedSum ∧
    freed.surgeAdmitted 3 ∧ s.shot.flights = [] ∧ (s.links.get 2).words = [] ∧ (s.links.get 2).cable = none ∧
    up.reservedSum ≤ (up.toHub.modPower 2 fun w => { w with heldSurge := 0 }).reservedSum := by
  unfold Hub.surgeAdmitted; decide +kernel

/-- The clauses of `looksForJob`: a busy sampler, an idle one with no port ready, and one with a ready port behind one that is not. -/
theorem meets_looksForJob :
    let queue : List (Port × EchoKind) := [(1, .learn), (2, .hunt), (3, .learn)]
    let idle := edit (port .hunt .down) fun h => h.modEcho fun e => { e with queue := queue }
    let ready2 := edit idle fun h => h.modPower 2 fun w => { w with discharged := true }
    ((sampling .off .learn 0).echo.sampler.isSome = true) ∧
    (idle.echo.sampler = none ∧ ∀ q ∈ idle.echo.queue, (idle.power.get q.1).discharged = false) ∧
    (ready2.echo.sampler = none ∧ ready2.echo.queue = [(1, .learn)] ++ (2, .hunt) :: [(3, .learn)] ∧
      (ready2.power.get 1).discharged = false ∧ (ready2.power.get 2).discharged = true) := by decide +kernel

/-- The clauses of `slotMoveIssued` and `firstMovesIssued`: slot 3 starts port 2 and names preset 1, which names a present axis or none; no
other port has a slot; a port without a record, and a link that carries no move. -/
theorem meets_firstMovesIssued :
    let tb := table .command
    let s := edit (cycle .armed .command) fun h => h.modLens 2 fun l => { l with presets := l.presets.set 1 ⟨some 900, none, none⟩ }
    tb.startsPort 3 ∧ ¬ tb.startsPort 4 ∧ (tb.slots.get 3).port = 2 ∧ (tb.slots.get 3).preset = some 1 ∧
    (∀ i, (tb.slots.get i).enabled = true → (tb.slots.get i).port ≠ 1) ∧
    (s.shot.cycle = .armed ∧ s.shot.active = some tb ∧ (s.lenses.get 2).record = some (lens .idle) ∧ (s.links.get 2).state = .up ∧
      (axesAsked (lens .idle).axes ((s.lenses.get 2).presets.get 1)).any = true) ∧
    (axesAsked (lens .idle).axes ⟨none, none, some 1⟩).any = false ∧ (ready.lenses.get 2).record = none ∧
    ((port .on .acquire).links.get 2).state ∉ [.up, .relock] := by unfold ShotTable.startsPort; decide +kernel

/-- The clauses of `fired` and `quiet`: an entry masked, unmasked, awaiting, and with the uplink DOWN. -/
theorem meets_fired :
    let src : Source := .ofPort 2 .linkChange
    let waits := edit (unmasked up src 1) fun h => h.modEntry src fun e => { e with awaiting := true, count := 255 }
    let down := edit (unmasked up src 1) fun h => { h with uplink := {} }
    (up.router.entry src).masked = true ∧ ((unmasked up src 1).router.entry src).masked = false ∧
    ((waits.router.entry src).masked = false ∧ (waits.router.entry src).awaiting = true) ∧
    ((down.router.entry src).masked = false ∧ down.uplink.up = false) := by decide +kernel

theorem meets_LockGainedAndLinkTimers :
    (let s := port .on .acquire
     (s.links.get 2).state = .acquire ∧ (s.links.get 2).acquireTimer = some 80 ∧ (s.links.get 2).state ≠ .relock) ∧
    (let s := port .on .relock
     (s.links.get 2).state = .relock ∧ (s.links.get 2).relockWindow = some 90 ∧ (s.links.get 2).state ≠ .acquire) ∧
    (up.links.get 2).state ∉ [.acquire, .relock] := by decide +kernel

theorem meets_UndecodableWordCounted :
    (Instr.undecodableWord 2 []).wf = true ∧ (up.links.get 2).state = .up ∧ ((port .on .acquire).links.get 2).state = .acquire ∧
    ((port .on .acquire).links.get 2).locked = true ∧ (ready.links.get 2).state ∉ [.up, .acquire] := by decide +kernel

theorem meets_DownstreamWordEnds :
    let words (l : LinkState) (c : OnCable) (ws : List DownWord) : State :=
      edit (port .on l) fun h => h.modLink 2 fun x => { x with cable := some c, words := ws }
    (up.links.get 2).cable = none ∧
    (let s := words .relock ⟨.retrain .half, 0, false⟩ [.lensMove ⟨none, none, none⟩]
     (s.links.get 2).cable = some ⟨.retrain .half, 0, false⟩ ∧ (DownWord.retrain .half).triggerTag? = none ∧
       (∀ x ∈ (s.links.get 2).words, x.triggerTag? = none) ∧
       (s.links.get 2).words.find? (DownWord.allowed (s.links.get 2).state) = some (.lensMove ⟨none, none, none⟩)) ∧
    (let s := words .acquire ⟨.retrain .half, 0, false⟩ ([.lensMove ⟨none, none, none⟩] ++ .retrain .full :: [.retrain .half])
     (∀ x ∈ (s.links.get 2).words, x.triggerTag? = none) ∧
       (∀ x ∈ [DownWord.lensMove ⟨none, none, none⟩], x.allowed (s.links.get 2).state = false) ∧
       (DownWord.retrain .full).allowed (s.links.get 2).state = true) ∧
    (let s := words .up ⟨.trigger 1 5, 10, true⟩ [.retrain .full]
     (s.links.get 2).cable = some ⟨.trigger 1 5, 10, true⟩ ∧ (s.links.get 2).state = .up ∧
       (s.links.get 2).words.find? (DownWord.allowed (s.links.get 2).state) = none) ∧
    (let s := words .up ⟨.trigger 1 5, 10, false⟩ [.lensMove ⟨none, none, none⟩]
     (s.links.get 2).cable = some ⟨.trigger 1 5, 10, false⟩ ∧ (s.links.get 2).state = .up ∧ s.shot.flights = []) ∧
    (let s := edit offered fun h => h.modLink 2 fun l => { l with words := [.retrain .half, .lensMove ⟨none, none, none⟩] }
     (s.links.get 2).cable = some ⟨.trigger 0 1000, 10, false⟩ ∧ (s.links.get 2).state = .up ∧
       (s.links.get 2).words = [.retrain .half] ++ .lensMove ⟨none, none, none⟩ :: [] ∧
       (∀ x ∈ [DownWord.retrain .half], x.allowed (s.links.get 2).state = false) ∧
       (DownWord.lensMove ⟨none, none, none⟩).allowed (s.links.get 2).state = true ∧
       (s.shot.flights.find? (fun x => x.tag == 0 && x.stage == .offered)).map (fun x => (x.slot, x.late)) = some (3, false)) ∧
    (let s := after (.slotOpen 3) (cycle .running .command)
     (s.links.get 2).cable = some ⟨.trigger 0 1000, 10, false⟩ ∧ (s.links.get 2).words = [] ∧
       (s.shot.flights.find? (fun x => x.tag == 0 && x.stage == .offered)).map (fun x => (x.slot, x.cycle)) = some (3, 7) ∧
       s.shot.cycle = .running ∧ s.shot.number = 7 ∧ s.shot.active = some (table .command) ∧
       (table .command).nextOn 3 = some 4) := by decide +kernel

/-- A state with the budget set so that port 2's claim of 500 mA misses it by `short` mA. -/
def budget (s : State) (n : Nat) : State := edit s (Hub.setBudget n)

theorem meets_PowerOnAndOffActByState :
    up.ready ∧ addresses (cmd 2 []) 2 ∧ (cmd 2 []).payload = [] ∧
    (let s := sampling .off .learn 0
     s.ready ∧ (s.power.get 2).state ∈ [.off, .lockedOut] ∧ s.echo.busy 2 = true) ∧
    (let s := budget (port .lockedOut .down) 499
     s.ready ∧ (s.power.get 2).state ∈ [.off, .lockedOut] ∧ s.echo.busy 2 = false ∧
       s.budget < s.reservedSum + (s.power.get 2).setup.limit) ∧
    (let s := budget (port .off .down) 500
     s.ready ∧ (s.power.get 2).state = .off ∧ s.echo.busy 2 = false ∧ s.reservedSum + (s.power.get 2).setup.limit ≤ s.budget) ∧
    (up.power.get 2).state ∈ [.precharge, .on] ∧ ((port .precharge .down).power.get 2).state ∈ [.precharge, .on] ∧
    ((port .cooldown .down).power.get 2).state ∈ [.cooldown, .hunt] ∧ ((port .hunt .down).power.get 2).state = .hunt ∧
    ((port .lockedOut .down).power.get 2).state ∈ [.precharge, .cooldown, .lockedOut] ∧
    (let s := edit (port .cooldown .down) fun h => h.modPower 2 fun w => { w with cooldownTimer := none }
     (s.power.get 2).state ∈ [.precharge, .cooldown, .lockedOut] ∧ s.levelActive (.ofPort 2 .powerFault) = true) ∧
    (up.power.get 2).state ∉ [.off, .hunt] ∧ (up.power.get 2).state = .on ∧ (up.links.get 2).state ≠ .down ∧ up.fillingKept := by
  unfold Hub.ready addresses State.fillingKept; decide +kernel

theorem meets_PowerSetupAndBudgetSetWrite :
    let c (limit : Nat) : Cmd := cmd 2 [limit % 256, limit / 256, 20, 5, 3, 244, 1, 0, 0, 1]
    up.ready ∧ addresses (c 600) 2 ∧ (c 600).payload.length = 10 ∧ byteAt (c 600).payload 9 ≤ 1 ∧
    (up.power.get 2).holdsClaim = true ∧
    min 1500 (max 100 (u16At (c 600).payload 0)) / 10 * 10 = 600 ∧ min 1500 (max 100 (u16At (c 400).payload 0)) / 10 * 10 = 400 ∧
    min 1500 (max 100 (u16At (c 509).payload 0)) / 10 * 10 = 500 ∧
    ((up.power.get 2).setup.limit < 600 ∧ (budget up 599).budget < (budget up 599).reservedSum + (600 - 500)) ∧
    ((budget up 600).reservedSum + (600 - 500) ≤ (budget up 600).budget) ∧
    ((port .off .down).power.get 2).holdsClaim = false ∧ (up.power.get 2).setup.limit = 500 ∧
    400 < (up.power.get 2).setup.limit ∧
    (cmd 0 [243, 1]).payload.length = 2 ∧ min 9000 (u16At (cmd 0 [243, 1]).payload 0) = 499 ∧ 499 < up.reservedSum ∧
    min 9000 (u16At (cmd 0 [244, 1]).payload 0) = 500 ∧ up.reservedSum ≤ 500 ∧ 500 ≤ up.budget ∧
    min 9000 (u16At (cmd 0 [0x29, 0x23]).payload 0) = 9000 ∧ (budget up 8000).reservedSum ≤ 9000 ∧ (budget up 8000).budget < 9000 ∧
    (let s := edit (budget up 8000) fun h => { h with deferred := [2, 3] }
     s.deferred = [2, 3] ∧ s.toHub.surgeAdmitted 2 ∧ ¬ s.toHub.surgeAdmitted 3) := by
  unfold Hub.ready addresses Hub.surgeAdmitted; decide +kernel

theorem meets_CurrentSampleReadsAndTrips :
    let trips (s : State) (code : Nat) : Prop :=
      let w := s.power.get 2
      let r := code * 25 / 32
      let threshold := if w.state = .precharge then min (2 * w.setup.limit) 3000 else w.setup.limit + w.heldSurge
      w.state ∈ [.precharge, .on] ∧ (3000 ≤ r ∨ threshold < r ∧ w.setup.tripSamples ≤ w.overCount + 1)
    let counted (n : Nat) (s : State) : State := edit s fun h => h.modPower 2 fun w => { w with overCount := n }
    let hunting : State := edit up fun h => (h.modPower 2 fun w => { w with setup := { w.setup with autoHunt := true } }).modEchoPort 2
      fun e => { e with baseline := some (Vector.replicate 256 0) }
    ¬ trips up 3839 ∧ ¬ trips (port .cooldown .down) 4095 ∧ trips up 3840 ∧ ¬ trips (counted 3 up) 642 ∧
    trips (counted 4 up) 642 ∧ ¬ trips (counted 4 up) 641 ∧ trips (counted 4 (port .precharge .down)) 1282 ∧
    ¬ trips (counted 4 (port .precharge .down)) 1281 ∧ (up.power.get 2).state = .on ∧
    ((port .precharge .down).power.get 2).state = .precharge ∧
    (trips hunting 3840 ∧ (hunting.power.get 2).retriesUsed < (hunting.power.get 2).setup.retries ∧
      (hunting.power.get 2).setup.autoHunt = true ∧ ((hunting.echo.ports.get 2).baseline).isSome = true ∧
      hunting.echo.busy 2 = false) ∧
    (up.power.get 2).setup.autoHunt = false := by decide +kernel

/-- The trip of a port in PRECHARGE whose POWER_FAULT entry listens, with a place free and with the uplink DOWN. -/
theorem meets_CurrentSampleReports :
    let src : Source := .ofPort 2 .powerFault
    let s := unmasked (port .precharge .down) src 1
    let t := edit s fun h => { h with uplink := {} }
    s.toHub.listens src ∧ s.toHub.roomFor 1 ∧ (s.power.get 2).state = .precharge ∧ 3000 ≤ 3840 * 25 / 32 ∧
      t.toHub.listens src ∧ t.uplink.up = false ∧ (t.power.get 2).state ∈ [.precharge, .on] := by
  unfold Hub.listens Hub.roomFor; decide +kernel

theorem meets_PowerTimersExpire :
    (let s := port .precharge .down
     (s.power.get 2).state = .precharge ∧ (s.power.get 2).inrushTimer = some 30 ∧
       (s.power.get 2).last ≤ (s.power.get 2).setup.limit ∧ (s.power.get 2).state ≠ .on ∧ (s.power.get 2).state ≠ .cooldown) ∧
    (let s := edit (port .precharge .down) fun h => h.modPower 2 fun w => { w with last := 501 }
     (s.power.get 2).inrushTimer = some 30 ∧ (s.power.get 2).setup.limit < (s.power.get 2).last) ∧
    (let s := port .cooldown .down
     (s.power.get 2).state = .cooldown ∧ (s.power.get 2).cooldownTimer = some 70 ∧ s.echo.autoBusy 2 = false ∧
       (s.power.get 2).state ≠ .precharge) ∧
    (let s := sampling .cooldown .auto 0
     (s.power.get 2).state = .cooldown ∧ (s.power.get 2).cooldownTimer = some 70 ∧ s.echo.autoBusy 2 = true) ∧
    ((up.power.get 2).state = .on ∧ (up.power.get 2).onTimer = some 60) ∧
    (let s := edit ready fun h => h.modEcho fun e => { e with queue := [(1, .learn), (2, .learn), (3, .hunt)] }
     (s.power.get 2).dischargeTimer = some 20000 ∧ s.echo.sampler = none ∧
       s.echo.queue = [(1, .learn)] ++ (2, .learn) :: [(3, .hunt)] ∧
       (∀ q ∈ [((1 : Port), EchoKind.learn)], q.1 ≠ 2 ∧ (s.power.get q.1).discharged = false) ∧
       (∀ q ∈ [((3 : Port), EchoKind.hunt)], q.1 ≠ 2)) ∧
    ((ready.power.get 2).dischargeTimer = some 20000 ∧ ready.echo.sampler = none ∧
      (∀ q ∈ ready.echo.queue, q.1 ≠ 2 ∧ (ready.power.get q.1).discharged = false)) ∧
    (((sampling .off .learn 0).power.get 1).dischargeTimer = some 20000 ∧ ((sampling .off .learn 0).echo.sampler).isSome = true) ∧
    (up.power.get 2).dischargeTimer = none := by decide +kernel

theorem meets_LinkAndLensSettingsWritten :
    up.ready ∧ addresses (cmd 2 [16]) 2 ∧ (cmd 2 [16]).payload = [16] ∧
    (let bs := (cmd 2 [15, 1, 0, 16, 0, 0, 0, 1, 255, 15]).payload
     bs.length = 10 ∧ byteAt bs 0 = (15 : Fin 16).val ∧ byteAt bs 1 ≤ 1 ∧ byteAt bs 4 ≤ 1 ∧ byteAt bs 7 ≤ 1) ∧
    (cmd 2 [64, 0, 9, 0]).payload.length = 4 ∧ (cmd 2 []).payload = [] ∧
    (up.lenses.get 2).record = some (lens .idle) ∧
    (∀ a ∈ (lens .idle).axes.toList, (a.map fun x => x.target.isSome).getD true = true) ∧
    (let r : LensRecord := { lens .idle with axes := ⟨some ⟨⟨0, 9⟩, none, none, false⟩, none, none⟩ }
     some ⟨⟨0, 9⟩, none, none, false⟩ ∈ r.axes.toList) ∧
    (ready.lenses.get 2).record = none := by unfold Hub.ready addresses; decide +kernel

theorem meets_StoreAndZoneSettingsWritten :
    ready.ready ∧ addresses (cmd 5 []) 5 ∧ (cmd 5 [255, 255, 255, 255, 255, 255]).payload.length = 6 ∧
    (cmd 5 [0, 16]).payload.length = 2 ∧ min 4096 (u16At (cmd 5 [0, 16]).payload 0) ≤ ready.store.freePages ∧
    (edit filling fun h => h.modStore fun st => { st with lowMark := 4096 }).store.low = true ∧
    filling.store.freePages < min 4096 (u16At (cmd 5 [1, 16]).payload 0) ∧ (cmd 5 []).payload = [] ∧
    (let s := unmasked filling (.ofHub .storeLow) 1
     let full := edit s fun h => h.modUplink fun u => { u with queue := List.replicate 28 (.reply ⟨1, 0, 0, [0, 0]⟩) }
     s.store.lowMark ≤ s.store.freePages ∧ s.toHub.listens (.ofHub .storeLow) ∧ s.toHub.roomFor 1 ∧
       full.toHub.listens (.ofHub .storeLow) ∧ ¬ full.toHub.roomFor 1 ∧
       (filling.router.entry (.ofHub .storeLow)).masked = true) ∧
    (cmd 0xFF [1, 16]).payload.length = 2 ∧ (cmd 0xFF [0, 0, 0, 0, 0, 0]).payload.length = 6 ∧
    (cmd 0xFF [1, 5, 31]).payload = w1 1 ++ [((5 : Port), (31 : Zone))].flatMap (fun q => w1 q.1.val ++ w1 q.2.val) ∧
    (let l : List (Port × Zone) := [(5, 31), (5, 0), (0, 1), (1, 2), (2, 3), (3, 4)]
     1 ≤ l.length ∧ l.length ≤ 6 ∧
       (cmd 5 [6, 5, 31, 5, 0, 0, 1, 1, 2, 2, 3, 3, 4]).payload = w1 l.length ++ l.flatMap (fun q => w1 q.1.val ++ w1 q.2.val)) ∧
    (cmd 5 (List.replicate 9 0)).payload.length = 9 ∧ (cmd 5 [31]).payload = w1 (31 : Zone).val ∧
    (cmd 5 [255]).payload = [255] := by unfold Hub.ready addresses Hub.listens Hub.roomFor; decide +kernel

theorem meets_EchoSettingsWritten :
    ready.ready ∧ addresses (cmd 2 []) 2 ∧
    ((cmd 2 [16, 255, 0, 0, 0, 0, 255, 255]).payload.length = 8 ∧
      byteAt (cmd 2 [16, 255, 0, 0, 0, 0, 255, 255]).payload 0 ∈ [1, 4, 16]) ∧
    (let l : List Segment := [⟨99, 1⟩, ⟨100001, 2⟩]
     l.length ≤ 8 ∧ (∀ g ∈ l, g.length < 4294967296) ∧
       (cmd 2 [2, 99, 0, 0, 0, 1, 161, 134, 1, 0, 2]).payload =
         w1 l.length ++ l.flatMap fun g => w4 g.length ++ [g.label]) ∧
    (cmd 2 [0]).payload = w1 ([] : List Segment).length ∧
    (let t : Trace := (Vector.replicate 256 (-32768)).set 255 32767
     (∀ x ∈ t.toList, -32768 ≤ x ∧ x ≤ 32767) ∧
       w2 256 ++ (List.replicate 255 [0, 0x80]).flatten ++ [255, 0x7F] = w2 256 ++ t.toList.flatMap wInt) ∧
    ready.echo.busy 2 = false ∧
    ((w2 256 ++ List.replicate 512 0).length = 514 ∧ u16At (w2 256 ++ List.replicate 512 0) 0 = 256 ∧
      (sampling .off .learn 0).ready ∧ (sampling .off .learn 0).echo.busy 2 = true) := by
  unfold Hub.ready addresses; decide +kernel

theorem meets_LensCommandsIssueMoves :
    let stacked : State := edit (port .on .relock) fun h => h.modLens 2 fun l =>
      { l with stack := [⟨some 4095, none, some 1⟩], presets := l.presets.set 15 ⟨none, none, some 7⟩ }
    let move : Cmd := cmd 2 [1, 255, 255, 0, 0, 0, 0, 0, 0]
    stacked.ready ∧ addresses move 2 ∧ (stacked.links.get 2).state = .relock ∧ (up.links.get 2).state = .up ∧ up.ready ∧
    (cmd 2 [15]).payload = w1 (15 : Fin 16).val ∧ (cmd 2 []).payload = [] ∧
    (stacked.lenses.get 2).record = some (lens .idle) ∧
    (axesAsked (lens .idle).axes ((stacked.lenses.get 2).presets.get 15)).any = false ∧
    (stacked.lenses.get 2).stack = ⟨some 4095, none, some 1⟩ :: [] ∧
    (axesAsked (lens .idle).axes ⟨some 4095, none, some 1⟩).any = true ∧
    (move.payload.length = 9 ∧ byteAt move.payload 0 ≤ 1 ∧ byteAt move.payload 3 ≤ 1 ∧ byteAt move.payload 6 ≤ 1) ∧
    (up.lenses.get 2).stack = [] ∧
    ((edit up fun h => h.modLens 2 fun l => { l with record := none }).lenses.get 2).record = none ∧
    (let s := port .on .acquire
     s.ready ∧ (s.links.get 2).state ≠ .up ∧ (s.links.get 2).state ≠ .relock) ∧
    ((cmd 2 [15]).payload.length = 1 ∧ byteAt (cmd 2 [15]).payload 0 < 16) := by unfold Hub.ready addresses; decide +kernel

theorem meets_LensMovesSettleOrStall :
    let moving (n : Nat) : State := edit up fun h => h.modLens 2 fun l => { l with record := some { lens .moving with progress := n } }
    let dist (r : LensRecord) (n : BitVec 16) : Option Nat := r.axes.focus.bind fun x => x.target.map fun t => max n.toNat t - min n.toNat t
    (up.lenses.get 2).record = some (lens .idle) ∧ (up.links.get 2).state = .up ∧ (lens .idle).moveState ≠ .moving ∧
    ((port .on .relock).links.get 2).state ≠ .up ∧
    ((moving 2).lenses.get 2).record = some { lens .moving with progress := 2 } ∧ ((moving 2).links.get 2).state = .up ∧
    (lens .moving).moved = ⟨true, false, false⟩ ∧ ((moving 2).lenses.get 2).setup.tolerance = 4 ∧
    dist (lens .moving) 204 = some 4 ∧ dist (lens .moving) 205 = some 5 ∧
    1 + 1 < ((moving 1).lenses.get 2).setup.settleCount ∧ ((moving 2).lenses.get 2).setup.settleCount ≤ 2 + 1 ∧
    2 ∉ (moving 2).deferred ∧ (lens .moving).timeout = some 40 ∧ (moving 2).slotsKept ∧
    ((targetsOf (lens .moving).axes).focus = some 200 ∧ some (min 150 (max 100 200)) ≠ some 200) ∧
    (let s := edit (moving 2) fun h => { (h.modPower 2 fun w => { w with heldSurge := 9 }) with deferred := [3] }
     2 ∉ s.deferred ∧ s.slotsKept ∧
       (s.toHub.modPower 2 fun w => { w with heldSurge := 0 }).reservedSum < s.reservedSum ∧
       (moving 2).reservedSum ≤ ((moving 2).toHub.modPower 2 fun w => { w with heldSurge := 0 }).reservedSum) := by
  unfold State.slotsKept; decide +kernel

theorem meets_ShotTableWrittenAndCommitted :
    let staged (t : ShotTable) (s : State) : State := edit s fun h => h.modShot fun x => { x with staged := t }
    let bad : ShotTable := ⟨⟨.command, 10, 301499⟩, (table .command).slots⟩
    ready.ready ∧
    (let bs := (cmd 0 ([15, 1, 5, 63, 66, 15, 0] ++ List.replicate 8 0 ++ [1, 15, 0, 0, 0, 0])).payload
     bs.length = 21 ∧ byteAt bs 0 = (15 : SlotIx).val ∧ byteAt bs 1 ≤ 1 ∧ byteAt bs 2 = (5 : Port).val ∧ byteAt bs 15 = 1 ∧
       byteAt bs 16 = (15 : Fin 16).val) ∧
    (let bs := (cmd 0 (List.replicate 21 0)).payload
     bs.length = 21 ∧ byteAt bs 0 = (0 : SlotIx).val ∧ byteAt bs 1 ≤ 1 ∧ byteAt bs 2 = (0 : Port).val ∧ byteAt bs 15 = 0) ∧
    ((cmd 0 [2, 0, 0, 0, 0, 0, 0]).payload.length = 7 ∧
      byteAt (cmd 0 [2, 0, 0, 0, 0, 0, 0]).payload 0 = StartSource.command.code) ∧
    ((staged bad ready).ready ∧ (cmd 0 []).payload = [] ∧ (staged bad ready).shot.staged.fault? = some (4, 1)) ∧
    (let s := staged (table .line) (cycle .running .line)
     s.ready ∧ s.shot.staged.fault? = none ∧ s.shot.cycle = .running) ∧
    (let s := staged (table .encoder) (cycle .armed .line)
     s.ready ∧ s.shot.staged.fault? = none ∧ s.shot.cycle ≠ .running) ∧
    ((ShotTable.mk ⟨.command, 10, 301499⟩ (table .command).slots).fault? = some (4, 1) ∧
      (ShotTable.mk ⟨.command, 10, 400000⟩ ((table .command).slots.set 4 ⟨true, 2, 101549, 1, 0, 1, none, 1, 64⟩)).fault?
        = some (4, 2)) ∧
    ((table .line).fault? = none ∧ ((table .line).slots.get 3).enabled = true ∧ ((table .line).slots.get 4).enabled = true ∧
      ((table .line).slots.get 3).port = ((table .line).slots.get 4).port) := by unfold Hub.ready; decide +kernel

theorem meets_CycleCommandsActByState :
    ready.ready ∧ (cmd 0 []).payload = [] ∧ ready.shot.cycle = .stopped ∧ ready.shot.active = none ∧
    (let s := cycle .stopped .encoder
     s.ready ∧ s.shot.cycle = .stopped ∧ s.shot.active = some (table .encoder)) ∧
    (let s := cycle .armed .line
     s.ready ∧ s.shot.cycle = .armed ∧ s.shot.active = some (table .line)) ∧
    (let s := cycle .running .line
     s.ready ∧ s.shot.cycle = .running ∧ s.shot.span = some 1000) ∧
    (let s := edit (cycle .running .line) fun h => { h with uplink := {} }
     ¬ s.ready ∧ s.shot.cycle = .running ∧ s.shot.span = some 1000) ∧
    (cmd 0 [1]).payload = [if true then 1 else 0] ∧ (cmd 0 [0]).payload = [if false then 1 else 0] ∧
    (let s := after (.slotOpen 3) (edit (cycle .running .line) fun h => h.modLens 2 fun l => { l with record := some (lens .moving) })
     s.shot.cycle = .running ∧ (s.shot.flights.filter (·.stage != .offered)).map (·.stage) = [.waiting 50]) ∧
    (let s := after (.slotOpen 3) (cycle .running .line)
     s.shot.cycle = .running ∧ s.shot.flights.map (·.stage) = [.offered] ∧
       s.shot.flights.filter (·.stage != .offered) = []) := by unfold Hub.ready; decide +kernel

theorem meets_EncoderAndTriggerLineStartCycles :
    let at_ (x : CycleState) (next : BitVec 32) : State := edit (cycle x .encoder) fun h => h.modShot fun y => { y with nextStart := next }
    let reaches (s : State) (d : BitVec 32) : Prop :=
      (s.time.position - s.shot.nextStart).toInt < 0 ∧ 0 ≤ (s.time.position + d - s.shot.nextStart).toInt
    ((false, false, true, false) : Bool × Bool × Bool × Bool) =
      ((at_ .armed 1).time.phaseA, (at_ .armed 1).time.phaseB, true, false) ∧
    reaches (at_ .armed 1) 1 ∧ reaches (at_ .running 1) 1 ∧ ¬ reaches (at_ .armed 2) 1 ∧ ¬ reaches (at_ .armed 0) 1 ∧
    (at_ .armed 1).shot.cycle ≠ .stopped ∧ ((at_ .armed 1).shot.active.map (·.header.source)) = some .encoder ∧
    (at_ .armed 1).shot.active = some (table .encoder) ∧ (at_ .armed 1).shot.cycle = .armed ∧
    (at_ .running 1).shot.cycle = .running ∧
    ((cycle .armed .line).shot.active.map (·.header.source)) = some .line ∧ (cycle .armed .line).shot.cycle = .armed ∧
    (cycle .running .line).shot.cycle = .running ∧ (cycle .stopped .line).shot.cycle = .stopped := by decide +kernel

theorem meets_SlotOpensByItsChecks :
    let r := (table .command).slots.get 3
    let s := cycle .running .command
    s.shot.active = some (table .command) ∧ s.shot.cycle = .running ∧ s.shot.opening.get 3 = some 20 ∧
    s.shot.opening.get 4 = none ∧ (cycle .armed .command).shot.cycle ≠ .running ∧
    ((edit s fun h => h.modPower 2 fun w => { w with state := .hunt }).power.get r.port).state = .hunt ∧
    ((s.power.get r.port).state = .on ∧ (s.links.get r.port).state = .up) ∧
    ((edit s fun h => h.modLink 2 fun l => { l with state := .relock }).links.get r.port).state ≠ .up ∧
    (∃ f ∈ (edit s fun h => { h with store := filling.store }).store.frames, f.port = r.port ∧ f.state = .filling) ∧
    (¬ ∃ f ∈ s.store.frames, f.port = r.port ∧ f.state = .filling) ∧
    (let t := edit s fun h => { h with store := { h.store with frames := [{ frame with state := .queued, pages := List.range 4096 }] } }
     t.store.freePages < (r.lines * r.lineBytes + 65535) / 65536 ∧ ¬ ∃ f ∈ t.store.frames, f.port = r.port ∧ f.state = .filling) ∧
    ¬ (24 ≤ s.store.frames.length ∨ s.store.freePages < (r.lines * r.lineBytes + 65535) / 65536) ∧
    (∀ g ∈ s.store.frames, g.tag ≠ s.store.tagCounter) ∧
    ((s.router.entry (.ofHub .slotSkipped)).masked = true ∧
      ((unmasked s (.ofHub .slotSkipped) 1).router.entry (.ofHub .slotSkipped)).masked = false) ∧
    (r.preset.isSome = true ∧ (lens .moving).moveState ∈ [.deferred, .moving] ∧ r.guardTime ≠ 0 ∧
      ((table .command).slots.get 4).guardTime = 0) ∧
    (let first : SlotRecord := ⟨true, 1, 500, 1000, 0, 100, none, 1, 64⟩
     let t := edit s fun h => h.modShot fun x =>
       { x with active := some ⟨{}, (table .command).slots.set 2 first⟩, opening := x.opening.set 2 (some 20) }
     t.shot.active = some ⟨{}, (table .command).slots.set 2 first⟩ ∧ (2 : SlotIx) < 3 ∧ first.enabled = true ∧
       first.offset = r.offset ∧ (t.shot.opening.get 2).isSome = true) ∧
    (∀ j : SlotIx, j < 3 → ((table .command).slots.get j).enabled = false) ∧
    (let t := edit s fun h =>
      (h.modLink 2 fun l => { l with state := .relock }).modLens 2 fun l => { l with presets := l.presets.set 1 ⟨some 900, none, none⟩ }
     (table .command).nextOn 3 = some 4 ∧ ((table .command).slots.get 4).preset = some 1 ∧
       (t.lenses.get 2).record = some (lens .idle) ∧ (t.links.get r.port).state ∈ [.up, .relock] ∧
       (axesAsked (lens .idle).axes ((t.lenses.get 2).presets.get 1)).any = true) ∧
    (table .command).nextOn 4 = none := by decide +kernel

theorem meets_GuardAndExposureTimersExpire :
    let moving := edit (cycle .running .command) fun h => h.modLens 2 fun l => { l with record := some (lens .moving) }
    let s := after (.slotOpen 3) moving
    let ends (preset : Targets) (link : LinkState) : State := edit (cycle .running .command) fun h =>
      ((h.modShot fun x => { x with exposureEnds := (x.exposureEnds.set 3 (some 4)).set 4 (some 4) }).modLens 2 fun l =>
        { l with presets := l.presets.set 1 preset }).modLink 2 fun l => { l with state := link }
    s.slotsKept ∧ (s.shot.flights.find? (fun x => x.slot == 3 && x.stage != .offered)).map (·.stage) = some (.waiting 50) ∧
    (∀ x ∈ s.shot.flights, x.slot = 4 → x.stage = .offered) ∧
    (let t := ends ⟨some 900, none, none⟩ .up
     t.shot.cycle = .running ∧ t.shot.exposureEnds.get 3 = some 4 ∧ t.shot.active = some (table .command) ∧
       (table .command).nextOn 4 = none ∧ t.shot.exposureEnds.get 4 = some 4 ∧
       (table .command).nextOn 3 = some 4 ∧ ((table .command).slots.get 4).preset = some 1 ∧
       (t.lenses.get 2).presets.get 1 = ⟨some 900, none, none⟩ ∧ (t.lenses.get 2).record = some (lens .idle) ∧
       (axesAsked (lens .idle).axes ⟨some 900, none, none⟩).any = true ∧ (t.links.get 2).state ∈ [.up, .relock]) ∧
    (axesAsked (lens .idle).axes Targets.empty).any = false ∧
    ((ends ⟨some 900, none, none⟩ .acquire).links.get 2).state ∉ [.up, .relock] ∧
    (ShotTable.nextOn ⟨{}, ((table .command).slots.set 5 ⟨true, 2, 1000, 1, 0, 1, none, 1, 64⟩)⟩ 3 = some 5) ∧
    (cycle .armed .command).shot.cycle ≠ .running ∧ (cycle .running .command).shot.exposureEnds.get 3 = none := by
  unfold State.slotsKept; decide +kernel

theorem meets_LineWordPlacedOrDropped :
    let w (tag : FrameTag) (line : BitVec 16) : LineWord := ⟨tag, line, [], 0xFFFF⟩
    let got (l : List (Nat × Bool)) : State := edit filling fun h => h.modFrame 9 fun f => { f with received := l }
    (ready.links.get 2).state ≠ .up ∧ (up.links.get 2).state = .up ∧ up.store.filling? 2 = none ∧
    (filling.links.get 2).state = .up ∧ filling.store.filling? 2 = some frame ∧ frame.tag ≠ (w 8 0).tag ∧
    ((edit filling fun h => h.modFrame 9 fun f => { f with exposedAt := none }).store.filling? 2) =
      some { frame with exposedAt := none } ∧
    (frame.exposedAt.isSome = true ∧ frame.tag = (w 9 2).tag ∧ frame.lines ≤ (w 9 2).line.toNat) ∧
    ((got [(1, true)]).store.filling? 2 = some { frame with received := [(1, true)] } ∧ (w 9 1).line.toNat < frame.lines ∧
      (1, true) ∈ [(1, true)]) ∧
    ((got [(0, false)]).store.filling? 2 = some { frame with received := [(0, false)] } ∧
      (∀ q ∈ [(0, false)], q.1 ≠ (w 9 1).line.toNat) ∧ [(0, false)].length + 1 = frame.lines ∧
      ([(0, false)].map (·.1)).Pairwise (· < ·)) ∧
    (got []).store.filling? 2 = some frame ∧ ([] : List (Nat × Bool)).length + 1 ≠ frame.lines ∧
    filling.memoryKept ∧ filling.pagesKept ∧
    (let s := edit (unmasked filling (.ofPort 2 .zoneSuspect) 1) fun h => h.modZone 2 fun m =>
      { m with bins := m.bins.set 0 ⟨2000001, 37, 0, none⟩, setup := ⟨100000, 18, 3⟩ }
     let new : Bin := ⟨2000002, 38, 0, none⟩
     s.memoryKept ∧ s.pagesKept ∧ s.store.filling? 2 = some frame ∧ (w 9 1).payload.length ≠ frame.lineBytes ∧
       (s.zones.get 2).current = 0 ∧ 100000 ≤ new.lines ∧ 18 ≤ new.bad * 1000000 / new.lines ∧
       ¬ 19 ≤ new.bad * 1000000 / new.lines ∧ (s.router.entry (.ofPort 2 .zoneSuspect)).masked = false ∧
       (filling.router.entry (.ofPort 2 .zoneSuspect)).masked = true) := by
  unfold State.memoryKept State.pagesKept; decide +kernel

theorem meets_EofAndWindowCloseFrames :
    (ready.links.get 2).state ≠ .up ∧ (filling.links.get 2).state = .up ∧ filling.store.filling? 2 = some frame ∧
    frame.exposedAt.isSome = true ∧ frame.tag = (⟨9, 2⟩ : EofWord).tag ∧ frame.tag ≠ (⟨8, 2⟩ : EofWord).tag ∧
    frame.window = some 55 ∧ up.store.filling? 2 = none := by decide +kernel

theorem meets_EchoJobsQueued :
    let based (s : State) : State := edit s fun h => h.modEchoPort 2 fun e => { e with baseline := some (Vector.replicate 256 0) }
    up.ready ∧ addresses (cmd 2 []) 2 ∧ (cmd 2 []).payload = [] ∧ (up.power.get 2).state ∉ [.off, .lockedOut] ∧
    ((port .lockedOut .down).ready ∧ ((port .lockedOut .down).power.get 2).state ∈ [.off, .lockedOut] ∧
      (port .lockedOut .down).echo.busy 2 = false) ∧
    (let s := sampling .off .learn 0
     s.ready ∧ (s.power.get 2).state = .off ∧ s.echo.busy 2 = true ∧ ((s.echo.ports.get 2).baseline).isSome = true) ∧
    (edit (port .off .down) fun h =>
      h.modEcho fun e => { e with sampler := some { echoJob .hunt 0 with port := 1 } }).echo.sampler.isSome = true ∧
    (cmd 2 [1]).payload = [if true then 1 else 0] ∧ (cmd 2 [0]).payload = [if false then 1 else 0] ∧
    (up.echo.ports.get 2).baseline = none ∧
    (let s := based (port .cooldown .down)
     s.ready ∧ ((s.echo.ports.get 2).baseline).isSome = true ∧ s.echo.busy 2 = false ∧ (s.power.get 2).state ∈ [.cooldown, .hunt]) ∧
    (let s := based up
     s.ready ∧ ((s.echo.ports.get 2).baseline).isSome = true ∧ s.echo.busy 2 = false ∧ (s.power.get 2).state = .on) ∧
    ((based (port .off .down)).power.get 2).state ∉ [.cooldown, .hunt] ∧ (up.links.get 0).state = (ready.links.get 0).state := by
  unfold Hub.ready addresses; decide +kernel

theorem meets_SamplerRunsJobs :
    let shorted (s : State) (map : List Segment) : State := edit s fun h => h.modEcho fun e =>
      { e with sampler := e.sampler.map fun j => { j with sums := (Vector.replicate 256 0).set 40 (-800), map := map } }
    let result (s : State) : Option (EchoOutcome × Option Place) := s.echo.sampler.map fun j =>
      ((j.result 6).outcome, (j.result 6).finding.map (·.place))
    ((sampling .off .learn 3).echo.sampler = some (echoJob .learn 3) ∧ (echoJob .learn 3).shots < 4 ∧
      4 ≤ (echoJob .learn 4).shots ∧ (echoJob .learn 3).shots ≠ 4) ∧
    ((sampling .off .learn 4).echo.queue = [] ∧ (echoJob .learn 4).shots = (echoJob .learn 4).settings.averaging) ∧
    (let s := sampling .hunt .hunt 4
     (s.power.get 2).state = .hunt ∧ (s.power.get 2).restore = false) ∧
    (let s := edit (sampling .hunt .hunt 4) fun h => h.modPower 2 fun w => { w with restore := true }
     (s.power.get 2).state = .hunt ∧ (s.power.get 2).restore = true) ∧
    (let s := shorted (sampling .cooldown .auto 4) []
     (s.power.get 2).state = .cooldown ∧ result s = some (.shortFault, some .unmapped)) ∧
    ((sampling .lockedOut .auto 4).power.get 2).state ≠ .cooldown ∧
    (let s := sampling .cooldown .auto 4
     (s.power.get 2).cooldownTimer.isSome = true ∧ result s = some (.noFault, none)) ∧
    (let s := shorted (sampling .cooldown .auto 4) [⟨100, 1⟩]
     result s = some (.shortFault, some .beyondMap)) ∧
    (let s := edit (sampling .cooldown .auto 4) fun h => h.modPower 2 fun w => { w with cooldownTimer := none }
     (s.power.get 2).cooldownTimer = none) := by decide +kernel

theorem meets_CrossingGivesDelayAndDistance :
    let sizes (l : List (Fin 256 × Int)) : Trace := l.foldl (fun v q => v.set q.1 (4 * q.2)) (Vector.replicate 256 0)
    let job (l : List (Fin 256 × Int)) : EchoJob := { echoJob .hunt 4 with sums := sizes l }
    let x : EchoSettings := {}
    let size (l : List (Fin 256 × Int)) (i : Fin 256) : Nat := (((sizes l).get i).fdiv 4).natAbs
    (echoJob .learn 16).kind = .learn ∧ (job []).kind ≠ .learn ∧ (job []).baseline = some (Vector.replicate 256 0) ∧ 16 ≤ x.threshold ∧
    (∀ i : Fin 256, x.blanking ≤ i.val → size [(7, 2000), (40, 95)] i < x.threshold) ∧
    (let l : List (Fin 256 × Int) := [(39, 20), (40, 138), (255, -2048)]
     x.blanking ≤ 40 ∧ x.threshold ≤ size l 40 ∧ (∀ k : Fin 256, x.blanking ≤ k.val → k.val < 40 → size l k < x.threshold) ∧
       size l 39 < x.threshold) ∧
    (let l : List (Fin 256 × Int) := [(7, -150), (8, -180)]
     x.threshold ≤ size l 8 ∧ (∀ k : Fin 256, x.blanking ≤ k.val → k.val < 8 → size l k < x.threshold) ∧ x.threshold ≤ size l 7) ∧
    (let l : List (Fin 256 × Int) := [(255, 96)]
     x.threshold ≤ size l 255 ∧ (∀ k : Fin 256, x.blanking ≤ k.val → k.val < 255 → size l k < x.threshold) ∧
       16 * (x.threshold - size l 254) / (size l 255 - size l 254) = 16) ∧
    (let l : List (Fin 256 × Int) := [(0, -96)]
     ({ x with blanking := 0 } : EchoSettings).blanking ≤ 0 ∧ x.threshold ≤ size l 0) := by decide +kernel

theorem meets_DistancePlacedOnMap :
    let m : List Segment := [⟨1500, 0⟩, ⟨3000, 0⟩]
    let bound (k : Nat) : Nat := ((m.take k).map (·.length)).sum
    let off (dist k : Nat) : Nat := max dist (bound k) - min dist (bound k)
    m ≠ [] ∧ off 1600 1 ≤ 100 ∧ (∀ i < 1, off 1600 1 < off 1600 i) ∧ (∀ i ≤ m.length, off 1600 1 ≤ off 1600 i) ∧
    off 750 0 ≤ 750 ∧ (∀ i ≤ m.length, off 750 0 ≤ off 750 i) ∧
    (∀ i ≤ m.length, 100 < off 1601 i) ∧ 1 < m.length ∧ bound 1 ≤ 1601 ∧ 1601 < bound 2 ∧
    (∀ i ≤ m.length, 100 < off 4601 i) ∧ bound m.length ≤ 4601 := by decide +kernel

theorem meets_PortResetReturnsPort :
    up.ready ∧ addresses (cmd 2 []) 2 ∧ (cmd 2 []).payload = [] ∧ filling.fillingKept ∧ frame ∈ filling.store.frames ∧
    (sampling .off .learn 0).ready ∧ (sampling .off .learn 0).echo.busy 2 = true ∧ up.echo.busy 2 = false ∧
    addresses (cmd 4 []) 4 ∧ busy.ready ∧ (busy.delivery.get 4).progress.isSome = true ∧
    (busy.shot.flights.filter (·.port == 2)).map (fun x => (x.slot, x.tag, x.cycle)) = [(3, 0, 7)] ∧
    up.shot.flights.filter (·.port == 2) = [] ∧ (up.links.get 2).state ≠ .down ∧ (ready.links.get 1).state = .down ∧
    (addresses (cmd 1 []) 1 ∧ busy.echo.busy 1 = true ∧ busy.echo.samplingKind 1 = none) ∧
    ((sampling .off .learn 0).echo.sampler = some (echoJob .learn 0) ∧ (echoJob .learn 0).port = 2 ∧
      (echoJob .learn 0).port ≠ 1) := by
  unfold Hub.ready addresses State.fillingKept; decide +kernel

theorem meets_HubResetKeepsWhatItKeeps :
    busy.ready ∧ (cmd 0 []).payload = [] ∧ busy.echo.busy 1 = true ∧ busy.echo.busy 2 = false ∧
    (busy.power.get 2).state ∉ [.hunt, .cooldown] ∧ ((port .hunt .down).power.get 2).state = .hunt ∧
    (let s := port .cooldown .down
     (s.power.get 2).state = .cooldown ∧ (s.power.get 2).cooldownTimer.isSome = true) ∧
    (let s := edit (port .cooldown .down) fun h => h.modPower 2 fun w => { w with cooldownTimer := none }
     (s.power.get 2).state = .cooldown ∧ s.echo.autoBusy 2 = false) ∧
    (let s := edit (sampling .cooldown .auto 0) fun h => h.modPower 2 fun w => { w with cooldownTimer := none }
     s.ready ∧ s.echoKept ∧ (s.power.get 2).state = .cooldown ∧ (s.power.get 2).cooldownTimer = none ∧
       s.echo.autoBusy 2 = true) ∧
    sending.uplink.tx = some .control := by unfold Hub.ready State.echoKept State.dischargeKept; decide +kernel

end Sys2Proof.Tests
end

