-- ==== Sys2Proof/Proofs/Reports.lean ====
section
/-! PROOF. What an operation does at the event router, source by source: which sources it fires or activates (`Hub.Reports`), and that every
other entry, and what stands in the control queue of it, is as it was (`Undisturbed`). From these follow `fired`, `quiet` and `activated`. -/

namespace Sys2Proof.Machine

/-! ## Reading a part that an operation leaves alone -/

theorem Hub.onlyIn.time {l : List Part} {a b : Hub} (e : a.onlyIn l b) (h : Part.time ∉ l := by decide) : b.time = a.time := e .time h
theorem Hub.onlyIn.links {l : List Part} {a b : Hub} (e : a.onlyIn l b) (h : Part.links ∉ l := by decide) : b.links = a.links := e .links h
theorem Hub.onlyIn.power {l : List Part} {a b : Hub} (e : a.onlyIn l b) (h : Part.power ∉ l := by decide) : b.power = a.power := e .power h
theorem Hub.onlyIn.budget {l : List Part} {a b : Hub} (e : a.onlyIn l b) (h : Part.budget ∉ l := by decide) : b.budget = a.budget :=
  e .budget h
theorem Hub.onlyIn.lenses {l : List Part} {a b : Hub} (e : a.onlyIn l b) (h : Part.lenses ∉ l := by decide) : b.lenses = a.lenses :=
  e .lenses h
theorem Hub.onlyIn.deferred {l : List Part} {a b : Hub} (e : a.onlyIn l b) (h : Part.deferred ∉ l := by decide) :
    b.deferred = a.deferred := e .deferred h
theorem Hub.onlyIn.shot {l : List Part} {a b : Hub} (e : a.onlyIn l b) (h : Part.shot ∉ l := by decide) : b.shot = a.shot := e .shot h
theorem Hub.onlyIn.store {l : List Part} {a b : Hub} (e : a.onlyIn l b) (h : Part.store ∉ l := by decide) : b.store = a.store := e .store h
theorem Hub.onlyIn.delivery {l : List Part} {a b : Hub} (e : a.onlyIn l b) (h : Part.delivery ∉ l := by decide) :
    b.delivery = a.delivery := e .delivery h
theorem Hub.onlyIn.zones {l : List Part} {a b : Hub} (e : a.onlyIn l b) (h : Part.zones ∉ l := by decide) : b.zones = a.zones := e .zones h
theorem Hub.onlyIn.echo {l : List Part} {a b : Hub} (e : a.onlyIn l b) (h : Part.echo ∉ l := by decide) : b.echo = a.echo := e .echo h
theorem Hub.onlyIn.router {l : List Part} {a b : Hub} (e : a.onlyIn l b) (h : Part.router ∉ l := by decide) : b.router = a.router :=
  e .router h
theorem Hub.onlyIn.uplink {l : List Part} {a b : Hub} (e : a.onlyIn l b) (h : Part.uplink ∉ l := by decide) : b.uplink = a.uplink :=
  e .uplink h

/-- What a lens move can change. -/
abbrev moveParts : List Part := [.links, .power, .lenses, .deferred]

/-- What a report can change. -/
abbrev reportParts : List Part := [.router, .uplink, .draws]

/-- What the end of a slot can change. -/
abbrev slotParts : List Part := [.links, .power, .lenses, .deferred, .shot, .store, .router, .uplink, .draws]

theorem onlyIn_serveIfBelow (n : Nat) (h : Hub) : h.onlyIn moveParts (h.serveIfBelow n) := Hub.onlyIn_of_hide (by simp)

theorem onlyIn_issueNext (i : SlotIx) (n : BitVec 32) (h : Hub) : h.onlyIn moveParts (h.issueNext i n) := Hub.onlyIn_of_hide (by simp)

theorem onlyIn_issueSlotMove (i : SlotIx) (h : Hub) : h.onlyIn moveParts (h.issueSlotMove i) := Hub.onlyIn_of_hide (by simp)

theorem onlyIn_issueMove (p : Port) (t : Targets) (h : Hub) : h.onlyIn moveParts (h.issueMove p t).hub := Hub.onlyIn_of_hide (by simp)

theorem onlyIn_releaseSurge (p : Port) (h : Hub) : h.onlyIn moveParts (h.releaseSurge p) := Hub.onlyIn_of_hide (by simp)

theorem onlyIn_offerWord (p : Port) (w : DownWord) (h : Hub) : h.onlyIn [.links] (h.offerWord p w) := Hub.onlyIn_of_hide (by simp)

theorem onlyIn_fire (src : Source) (d : List Byte) (h : Hub) : h.onlyIn reportParts (h.fire src d) := Hub.onlyIn_of_hide (by simp)

theorem onlyIn_linkChange (p : Port) (c : LinkCause) (h : Hub) : h.onlyIn reportParts (h.linkChange p c) := Hub.onlyIn_of_hide (by simp)

theorem onlyIn_releaseFrame (t : FrameTag) (h : Hub) : h.onlyIn [.store, .router, .uplink, .draws] (h.releaseFrame t) :=
  Hub.onlyIn_of_hide (by simp)

theorem onlyIn_finish (h : Hub) : h.onlyIn [.router, .uplink, .draws, .store, .delivery, .rotation] h.finish := Hub.onlyIn_of_hide (by simp)

theorem onlyIn_endFlight (f : Flight) (r : SkipReason) (h : Hub) : h.onlyIn slotParts (h.endFlight f r) := Hub.onlyIn_of_hide (by simp)

theorem onlyIn_endFlights (p : Port) (r : SkipReason) (h : Hub) : h.onlyIn slotParts (h.endFlights p r) := Hub.onlyIn_of_hide (by simp)

theorem onlyIn_reportUnsent (q : List FrameTag) (h : Hub) : h.onlyIn slotParts (h.reportUnsent q) := Hub.onlyIn_of_hide (by simp)

theorem onlyIn_abandon (p : Port) (h : Hub) : h.onlyIn slotParts (h.abandon p) := Hub.onlyIn_of_hide (by simp)

theorem onlyIn_enterAcquire (p : Port) (r : Rate) (c : LinkCause) (h : Hub) : h.onlyIn slotParts (h.enterAcquire p r c) :=
  Hub.onlyIn_of_hide (by simp)

/-! ## Which sources an operation fires or activates -/

/-- From the first hub to the second the event router and the uplink changed by firings and activations of the sources of `S` alone. -/
inductive Hub.Reports (S : Source → Prop) : Hub → Hub → Prop
  | rest {a b : Hub} (router : b.router = a.router) (uplink : b.uplink = a.uplink) : Hub.Reports S a b
  | fire {a : Hub} (src : Source) (d : List Byte) (h : S src) : Hub.Reports S a (a.fire src d)
  | activate {a : Hub} (src : Source) (h : S src) : Hub.Reports S a (a.activate src)
  | trans {a b c : Hub} (ab : Hub.Reports S a b) (bc : Hub.Reports S b c) : Hub.Reports S a c

namespace Hub.Reports

variable {S : Source → Prop} {a h : Hub}

@[simp] theorem refl (h : Hub) : Hub.Reports S h h := .rest rfl rfl

/-- An operation on parts other than the router and the uplink reports nothing. -/
theorem other {l : List Part} {b : Hub} (r : Hub.Reports S a h) (e : h.onlyIn l b) (h1 : Part.router ∉ l := by decide)
    (h2 : Part.uplink ∉ l := by decide) : Hub.Reports S a b :=
  r.trans (.rest (e .router h1) (e .uplink h2))

@[simp] theorem modTime (f : Timebase → Timebase) (r : Hub.Reports S a h) : Hub.Reports S a (h.modTime f) := r.trans (.rest rfl rfl)
@[simp] theorem modLink (p : Port) (f : Link → Link) (r : Hub.Reports S a h) : Hub.Reports S a (h.modLink p f) := r.trans (.rest rfl rfl)
@[simp] theorem modPower (p : Port) (f : Power → Power) (r : Hub.Reports S a h) : Hub.Reports S a (h.modPower p f) :=
  r.trans (.rest rfl rfl)
@[simp] theorem modLens (p : Port) (f : Lens → Lens) (r : Hub.Reports S a h) : Hub.Reports S a (h.modLens p f) := r.trans (.rest rfl rfl)
@[simp] theorem setDeferred (l : List Port) (r : Hub.Reports S a h) : Hub.Reports S a (h.setDeferred l) := r.trans (.rest rfl rfl)
@[simp] theorem modShot (f : Shot → Shot) (r : Hub.Reports S a h) : Hub.Reports S a (h.modShot f) := r.trans (.rest rfl rfl)
@[simp] theorem modStore (f : Store → Store) (r : Hub.Reports S a h) : Hub.Reports S a (h.modStore f) := r.trans (.rest rfl rfl)
@[simp] theorem modDelivery (p : Port) (f : Delivery → Delivery) (r : Hub.Reports S a h) : Hub.Reports S a (h.modDelivery p f) :=
  r.trans (.rest rfl rfl)
@[simp] theorem modZone (p : Port) (f : ZoneMap → ZoneMap) (r : Hub.Reports S a h) : Hub.Reports S a (h.modZone p f) :=
  r.trans (.rest rfl rfl)
@[simp] theorem modEcho (f : Echo → Echo) (r : Hub.Reports S a h) : Hub.Reports S a (h.modEcho f) := r.trans (.rest rfl rfl)
@[simp] theorem elapse (n : Nat) (r : Hub.Reports S a h) : Hub.Reports S a (h.elapse n) := r.trans (.rest rfl rfl)
@[simp] theorem modFrame (t : FrameTag) (f : Frame → Frame) (r : Hub.Reports S a h) : Hub.Reports S a (h.modFrame t f) :=
  r.trans (.rest rfl rfl)
@[simp] theorem modFlight (t : FrameTag) (f : Flight → Flight) (r : Hub.Reports S a h) : Hub.Reports S a (h.modFlight t f) :=
  r.trans (.rest rfl rfl)
@[simp] theorem closeFrame (t : FrameTag) (p : Port) (st : CloseStatus) (r : Hub.Reports S a h) :
    Hub.Reports S a (h.closeFrame t p st) := r.trans (.rest rfl rfl)

/-! ### Lens moves report nothing -/

@[simp] theorem offerWord (p : Port) (w : DownWord) (r : Hub.Reports S a h) : Hub.Reports S a (h.offerWord p w) :=
  r.trans (.rest rfl rfl)
@[simp] theorem modRecord (p : Port) (f : LensRecord → LensRecord) (r : Hub.Reports S a h) : Hub.Reports S a (h.modRecord p f) :=
  r.trans (.rest rfl rfl)
@[simp] theorem serve (r : Hub.Reports S a h) : Hub.Reports S a h.serve := r.other (l := moveParts) (Hub.onlyIn_of_hide (by simp))
@[simp] theorem serveIfBelow (n : Nat) (r : Hub.Reports S a h) : Hub.Reports S a (h.serveIfBelow n) := r.other (onlyIn_serveIfBelow n h)
@[simp] theorem releaseSurge (p : Port) (r : Hub.Reports S a h) : Hub.Reports S a (h.releaseSurge p) := r.other (onlyIn_releaseSurge p h)
@[simp] theorem issueMove (p : Port) (t : Targets) (r : Hub.Reports S a h) : Hub.Reports S a (h.issueMove p t).hub :=
  r.other (onlyIn_issueMove p t h)
@[simp] theorem issueSlotMove (i : SlotIx) (r : Hub.Reports S a h) : Hub.Reports S a (h.issueSlotMove i) :=
  r.other (onlyIn_issueSlotMove i h)
@[simp] theorem issueNext (i : SlotIx) (n : BitVec 32) (r : Hub.Reports S a h) : Hub.Reports S a (h.issueNext i n) :=
  r.other (onlyIn_issueNext i n h)
@[simp] theorem offerLensMove (p : Port) (r : Hub.Reports S a h) : Hub.Reports S a (h.offerLensMove p) :=
  r.other (l := [.links]) (Hub.onlyIn_of_hide (by simp))

/-! ### The frame store and the slots -/

@[simp] theorem fire' (src : Source) (d : List Byte) (r : Hub.Reports S a h) (h0 : S src) : Hub.Reports S a (h.fire src d) :=
  r.trans (.fire src d h0)

@[simp] theorem activate' (src : Source) (r : Hub.Reports S a h) (h0 : S src) : Hub.Reports S a (h.activate src) :=
  r.trans (.activate src h0)

@[simp] theorem reviewLow (was : Bool) (r : Hub.Reports S a h) (h0 : S (.ofHub .storeLow)) : Hub.Reports S a (h.reviewLow was) := by
  unfold Hub.reviewLow
  split <;> simp [*]

@[simp] theorem releaseFrame (t : FrameTag) (r : Hub.Reports S a h) (h0 : S (.ofHub .storeLow)) : Hub.Reports S a (h.releaseFrame t) := by
  unfold Hub.releaseFrame
  exact (r.modStore _).reviewLow _ h0

@[simp] theorem skipSlot (i : SlotIx) (p : Port) (n : BitVec 32) (why : SkipReason) (r : Hub.Reports S a h)
    (h0 : S (.ofHub .slotSkipped)) : Hub.Reports S a (h.skipSlot i p n why) := by
  unfold Hub.skipSlot Hub.recordOutcome
  exact ((r.modShot _).fire' _ _ h0).issueNext _ _

@[simp] theorem endFlight (f : Flight) (why : SkipReason) (r : Hub.Reports S a h) (h0 : S (.ofHub .slotSkipped))
    (h1 : S (.ofHub .storeLow)) : Hub.Reports S a (h.endFlight f why) := by
  unfold Hub.endFlight Hub.dropFlight
  exact ((r.modShot _).releaseFrame _ h1).skipSlot _ _ _ _ h0

theorem foldl {α : Type} (op : Hub → α → Hub) (keeps : ∀ h x, Hub.Reports S a h → Hub.Reports S a (op h x)) (l : List α)
    (r : Hub.Reports S a h) : Hub.Reports S a (l.foldl op h) := by
  induction l generalizing h with
  | nil => exact r
  | cons x l ih => exact ih (keeps h x r)

@[simp] theorem endFlights (p : Port) (why : SkipReason) (r : Hub.Reports S a h) (h0 : S (.ofHub .slotSkipped))
    (h1 : S (.ofHub .storeLow)) : Hub.Reports S a (h.endFlights p why) :=
  foldl _ (fun _ x r => r.endFlight x why h0 h1) _ r

@[simp] theorem triggerNotSent (t : FrameTag) (r : Hub.Reports S a h) (h0 : S (.ofHub .slotSkipped)) (h1 : S (.ofHub .storeLow)) :
    Hub.Reports S a (h.triggerNotSent t) := by
  unfold Hub.triggerNotSent
  split
  · exact r.endFlight _ _ h0 h1
  · exact r

@[simp] theorem reportUnsent (l : List FrameTag) (r : Hub.Reports S a h) (h0 : S (.ofHub .slotSkipped)) (h1 : S (.ofHub .storeLow)) :
    Hub.Reports S a (h.reportUnsent l) :=
  foldl _ (fun _ t r => r.triggerNotSent t h0 h1) _ r

@[simp] theorem offerTrigger (f : Flight) (late : Bool) (r : Hub.Reports S a h) (h0 : S (.ofHub .slotSkipped))
    (h1 : S (.ofHub .storeLow)) : Hub.Reports S a (h.offerTrigger f late) := by
  unfold Hub.offerTrigger
  dsimp only
  have flagged : Hub.Reports S a
      (if late = true then
        (h.modFlight f.tag fun x => { x with stage := .offered, late := late }).modFrame f.tag fun x => { x with lensLate := true }
      else h.modFlight f.tag fun x => { x with stage := .offered, late := late }) := by
    split
    · exact (r.modFlight _ _).modFrame _ _
    · exact r.modFlight _ _
  split
  · exact (flagged.offerWord _ _).triggerNotSent _ h0 h1
  · exact flagged.offerWord _ _

@[simp] theorem lensReady (p : Port) (r : Hub.Reports S a h) (h0 : S (.ofHub .slotSkipped)) (h1 : S (.ofHub .storeLow)) :
    Hub.Reports S a (h.lensReady p) :=
  foldl _ (fun _ x r => r.offerTrigger x false h0 h1) _ r

@[simp] theorem lensAbandoned (p : Port) (r : Hub.Reports S a h) (h0 : S (.ofHub .slotSkipped)) (h1 : S (.ofHub .storeLow)) :
    Hub.Reports S a (h.lensAbandoned p) := by
  unfold Hub.lensAbandoned
  split <;> simp [*]

@[simp] theorem abandon (p : Port) (r : Hub.Reports S a h) (h0 : S (.ofHub .slotSkipped)) (h1 : S (.ofHub .storeLow)) :
    Hub.Reports S a (h.abandon p) := by
  unfold Hub.abandon
  exact (((r.setDeferred _).modRecord _ _).releaseSurge _).lensAbandoned _ h0 h1

@[simp] theorem dropFilling (p : Port) (st : CloseStatus) (why : SkipReason) (r : Hub.Reports S a h) (h0 : S (.ofHub .slotSkipped))
    (h1 : S (.ofHub .storeLow)) : Hub.Reports S a (h.dropFilling p st why) := by
  unfold Hub.dropFilling
  dsimp only
  (repeat' split) <;> simp [*]

@[simp] theorem putBin (p : Port) (z : Zone) (b : Bin) (x : Bool) (c : SuspectCause) (r : Hub.Reports S a h)
    (h0 : S (.ofPort p .zoneSuspect)) : Hub.Reports S a (h.putBin p z b x c) := by
  unfold Hub.putBin
  split <;> simp [*]

@[simp] theorem countDrop (p : Port) (r : Hub.Reports S a h) (h0 : S (.ofPort p .zoneSuspect)) : Hub.Reports S a (h.countDrop p) :=
  r.putBin _ _ _ _ _ h0

/-! ### Links -/

@[simp] theorem linkChange (p : Port) (c : LinkCause) (r : Hub.Reports S a h) (h0 : S (.ofPort p .linkChange)) :
    Hub.Reports S a (h.linkChange p c) := r.fire' _ _ h0

@[simp] theorem enterAcquire (p : Port) (rate : Rate) (c : LinkCause) (r : Hub.Reports S a h) (h0 : S (.ofPort p .linkChange))
    (h1 : S (.ofHub .slotSkipped)) (h2 : S (.ofHub .storeLow)) : Hub.Reports S a (h.enterAcquire p rate c) := by
  unfold Hub.enterAcquire
  exact ((((r.modLink _ _).offerWord _ _).reportUnsent _ h1 h2).linkChange _ _ h0).abandon _ h1 h2

end Hub.Reports

/-! ## Entries that nothing disturbs -/

/-- A report of a source stands in the control queue, or the source's entry is pending. -/
def Hub.shows (h : Hub) (src : Source) : Prop := (∃ n r, CtrlRec.report src n r ∈ h.uplink.queue) ∨ h.router.pending src = true

/-- No report of a source can be sent: its entry awaits, or the uplink is DOWN. -/
def Hub.holds (h : Hub) (src : Source) : Prop := (h.router.entry src).awaiting = true ∨ h.uplink.up = false

/-- Between two hubs a source neither fired nor became active; a report of it may have been sent. -/
structure Undisturbed (src : Source) (a b : Hub) : Prop where
  up : b.uplink.up = a.uplink.up
  masked : (b.router.entry src).masked = (a.router.entry src).masked
  detail : (b.router.entry src).detail = (a.router.entry src).detail
  awaiting : (a.router.entry src).awaiting = true → (b.router.entry src).awaiting = true
  count : a.holds src → (b.router.entry src).count = (a.router.entry src).count
  pending : a.holds src → a.router.pending src = true → b.router.pending src = true
  shows : a.shows src → b.shows src

namespace Undisturbed

variable {src : Source} {a b c : Hub}

theorem refl (src : Source) (h : Hub) : Undisturbed src h h := ⟨rfl, rfl, rfl, id, fun _ => rfl, fun _ => id, id⟩

theorem holds (u : Undisturbed src a b) : a.holds src → b.holds src := Or.imp u.awaiting fun down => u.up.trans down

theorem trans (u : Undisturbed src a b) (v : Undisturbed src b c) : Undisturbed src a c :=
  ⟨v.up.trans u.up, v.masked.trans u.masked, v.detail.trans u.detail, v.awaiting ∘ u.awaiting,
    fun k => (v.count (u.holds k)).trans (u.count k), fun k => v.pending (u.holds k) ∘ u.pending k, v.shows ∘ u.shows⟩

theorem quiet (u : Undisturbed src a b) : quiet src a b := ⟨u.detail, u.count⟩

/-- An entry and a pending flag that stay, with the uplink's state and the records in its queue. -/
theorem of_same (entry : b.router.entry src = a.router.entry src) (pending : b.router.pending src = a.router.pending src)
    (up : b.uplink.up = a.uplink.up) (queue : a.uplink.queue ⊆ b.uplink.queue) : Undisturbed src a b :=
  ⟨up, by rw [entry], by rw [entry], by rw [entry]; exact id, fun _ => by rw [entry], fun _ => by rw [pending]; exact id,
    Or.imp (fun ⟨n, r, m⟩ => ⟨n, r, queue m⟩) fun k => pending.trans k⟩

end Undisturbed

@[simp] theorem Router.pending_enqueue (r : Router) (src other : Source) :
    (r.enqueue src).pending other = (r.pending other || other == src) := by
  unfold Router.enqueue
  by_cases e : other = src
  · subst e
    split <;> simp_all [Router.pending]
  · split <;> simp [Router.pending, e]

theorem Router.pending_dequeue_ne (r : Router) {src other : Source} (ne : other ≠ src) :
    (r.dequeue src).pending other = r.pending other := by
  simp [Router.dequeue, Router.pending, ne]

@[simp] theorem Hub.up_sendReport (src : Source) (h : Hub) : (h.sendReport src).uplink.up = h.uplink.up := rfl

@[simp] theorem Hub.up_offerReport (src : Source) (again : Bool) (h : Hub) : (h.offerReport src again).uplink.up = h.uplink.up := by
  unfold Hub.offerReport
  split <;> rfl

@[simp] theorem Hub.up_fire (src : Source) (d : List Byte) (h : Hub) : (h.fire src d).uplink.up = h.uplink.up := by
  unfold Hub.fire
  dsimp only
  (repeat' split) <;> simp [Hub.modEntry]

/-- Sending a report of one source leaves the others' entries, and shows the source. -/
theorem undisturbed_sendReport_ne {src other : Source} (ne : other ≠ src) (h : Hub) : Undisturbed other h (h.sendReport src) :=
  .of_same (by simp [Hub.router_sendReport, ne]) (by simp [Hub.router_sendReport, Router.pending_dequeue_ne _ ne]) rfl
    (List.subset_append_left _ _)

theorem undisturbed_offerReport_ne {src other : Source} (ne : other ≠ src) (again : Bool) (h : Hub) :
    Undisturbed other h (h.offerReport src again) := by
  unfold Hub.offerReport
  split
  · exact undisturbed_sendReport_ne ne h
  · exact .of_same (by simp [ne]) (by simp [ne]) rfl (List.Subset.refl _)

theorem undisturbed_modEntry_ne {src other : Source} (ne : other ≠ src) (f : Entry → Entry) (h : Hub) :
    Undisturbed other h (h.modEntry src f) :=
  .of_same (by simp [Hub.modEntry, ne]) (by simp [Hub.modEntry]) rfl (List.Subset.refl _)

/-- A firing leaves every other source's entry. -/
theorem undisturbed_fire_ne {src other : Source} (ne : other ≠ src) (d : List Byte) (h : Hub) : Undisturbed other h (h.fire src d) := by
  unfold Hub.fire
  dsimp only
  have detail := undisturbed_modEntry_ne ne (fun e => { e with detail := some d }) h
  split_ifs
  · exact .refl _ _
  · exact detail.trans (.of_same (by simp [ne]) (by simp [ne]) rfl (List.Subset.refl _))
  · exact detail.trans (undisturbed_modEntry_ne ne _ _)
  · exact detail.trans (undisturbed_offerReport_ne ne _ _)

/-- An activation leaves every other source's entry. -/
theorem undisturbed_activate_ne {src other : Source} (ne : other ≠ src) (h : Hub) : Undisturbed other h (h.activate src) := by
  unfold Hub.activate
  dsimp only
  split_ifs
  · exact .refl _ _
  · exact undisturbed_modEntry_ne ne _ _
  · exact undisturbed_offerReport_ne ne _ _

/-- A source that an operation does not report is undisturbed by it. -/
theorem Hub.Reports.undisturbed {src : Source} {a b : Hub} (r : Hub.Reports (· ≠ src) a b) : Undisturbed src a b := by
  induction r with
  | rest router uplink => exact .of_same (by rw [router]) (by rw [router]) (by rw [uplink]) (by rw [uplink]; exact List.Subset.refl _)
  | fire other d ne => exact undisturbed_fire_ne ne.symm d _
  | activate other ne => exact undisturbed_activate_ne ne.symm _
  | trans _ _ u v => exact u.trans v

/-! ### The end of a step -/

/-- A level source that is active, or an edge source. -/
def Hub.live (h : Hub) (src : Source) : Prop := src.isLevel = true → h.levelActive src = true

theorem levelActive_of_onlyIn {l : List Part} {a b : Hub} (e : a.onlyIn l b) (src : Source) (h1 : Part.power ∉ l := by decide)
    (h2 : Part.store ∉ l := by decide) : b.levelActive src = a.levelActive src := by
  unfold Hub.levelActive
  rw [e .power h1, e .store h2]

theorem undisturbed_clearStale {src : Source} (l : List Source) (h : Hub) (live : h.live src) :
    Undisturbed src h (Hub.clearStale l h) := by
  induction l generalizing h with
  | nil => exact .refl _ _
  | cons x rest ih =>
    unfold Hub.clearStale
    split_ifs with stale
    · have ne : src ≠ x := by
        rintro rfl
        obtain ⟨⟨-, level⟩, inactive⟩ : (_ ∧ src.isLevel = true) ∧ h.levelActive src = false := by simpa [Hub.stale] using stale
        simp [live level] at inactive
      have step : Undisturbed src h (h.modRouter fun r => (r.modEntry x fun e => { e with count := 0 }).dequeue x) :=
        .of_same (by simp [ne]) (by simp [Router.pending_dequeue_ne _ ne]) rfl (List.Subset.refl _)
      exact step.trans (ih _ live)
    · exact .refl _ _
    · exact ih h live

theorem live_of_onlyIn {l : List Part} {a b : Hub} {src : Source} (live : a.live src) (e : a.onlyIn l b)
    (h1 : Part.power ∉ l := by decide) (h2 : Part.store ∉ l := by decide) : b.live src :=
  fun level => (levelActive_of_onlyIn e src h1 h2).trans (live level)

/-- A report that may be sent shows its source. -/
theorem undisturbed_sendReport (src other : Source) (h : Hub) (up : h.uplink.up = true) (idle : (h.router.entry other).awaiting = false) :
    Undisturbed src h (h.sendReport other) := by
  by_cases ne : src = other
  · subst ne
    have free : ¬ h.holds src := by simp [Hub.holds, up, idle]
    obtain ⟨masked, -, detail⟩ := Hub.sameSetup_sendReport src h src
    exact ⟨rfl, masked, detail, fun k => by simp [idle] at k, fun k => absurd k free, fun k => absurd k free,
      fun _ => .inl ⟨(h.router.entry src).reportCount, h.reportRec src, by simp⟩⟩
  · exact undisturbed_sendReport_ne ne h

theorem undisturbed_fillPlaces {src : Source} (n : Nat) (h : Hub) (live : h.live src) : Undisturbed src h (Hub.fillPlaces n h) := by
  induction n generalizing h with
  | zero => exact .refl _ _
  | succ n ih =>
    unfold Hub.fillPlaces
    split
    · rename_i place
      have up : h.uplink.up = true := ((Bool.and_eq_true _ _).mp place).1
      have cleared := undisturbed_clearStale h.router.order h live
      have clear : h.onlyIn reportParts (Hub.clearStale h.router.order h) := Hub.onlyIn_of_hide (by simp)
      generalize hc : Hub.clearStale h.router.order h = g at cleared clear
      have live' := live_of_onlyIn live clear
      have credit : ∀ k, Undisturbed src h (Hub.fillPlaces n (g.draw k).grantCredit) := fun k =>
        (cleared.trans (b := g) (c := (g.draw k).grantCredit) (.of_same rfl rfl rfl (List.Subset.refl _))).trans (ih _ live')
      dsimp only
      cases offer : g.nextOffer with
      | none =>
        dsimp only
        split
        · exact credit 0
        · exact cleared
      | some other =>
        have idle : (g.router.entry other).awaiting = false := by
          have := List.find?_some offer
          simp only [Hub.offerable, Bool.and_eq_true, Bool.not_eq_true'] at this
          exact this.1
        have report : ∀ k, Undisturbed src h (Hub.fillPlaces n ((g.draw k).sendReport other)) := fun k =>
          (cleared.trans ((Undisturbed.of_same (a := g) (b := g.draw k) rfl rfl rfl (List.Subset.refl _)).trans
            (undisturbed_sendReport src other (g.draw k) (cleared.up.trans up) idle))).trans
            (ih _ (live_of_onlyIn live' (l := reportParts) (Hub.onlyIn_of_hide (by simp))))
        dsimp only
        split_ifs
        · exact report 0
        · exact credit 0
        · exact credit 1
        · exact report 1
    · exact .refl _ _

theorem undisturbed_arbitrate (src : Source) (h : Hub) : Undisturbed src h h.arbitrate := by
  have router : h.arbitrate.router = h.router := (Hub.onlyIn_of_hide (l := [.store, .delivery, .rotation, .uplink]) (by simp)) .router (by decide)
  obtain ⟨settled, queue, -, -⟩ := Hub.arbitrate_spec h
  exact .of_same (by rw [router]) (by rw [router]) settled.2.2.1.1 (by rw [queue]; exact List.Subset.refl _)

/-- The end of a step disturbs no edge source, and no level source that is active. -/
theorem undisturbed_finish {src : Source} (h : Hub) (live : h.live src) : Undisturbed src h h.finish :=
  (undisturbed_fillPlaces _ h live).trans (undisturbed_arbitrate src _)

theorem undisturbed_sendReply (src : Source) (kind : Nat) (c : Cmd) (st : Status) (data : List Byte) (h : Hub) :
    Undisturbed src h (h.sendReply kind c st data) :=
  .of_same rfl rfl rfl (List.subset_append_left _ _)

/-! ## `fired` and `activated` -/

theorem awaiting_offerReport (src : Source) (again : Bool) (h : Hub) (k : (h.router.entry src).awaiting = true) :
    ((h.offerReport src again).router.entry src).awaiting = true := by
  unfold Hub.offerReport
  split
  · simp [Hub.router_sendReport, k]
  · simp [k]

/-- A firing leaves an entry awaiting that awaits. -/
theorem awaiting_fire (src : Source) (d : List Byte) (h : Hub) (k : (h.router.entry src).awaiting = true) :
    ((h.fire src d).router.entry src).awaiting = true := by
  unfold Hub.fire
  dsimp only
  split_ifs
  · exact k
  · simp [Hub.modEntry, k]

/-- One firing, with nothing of the source before it and after it. -/
theorem fired_of_fire {src : Source} {d : List Byte} {a m b : Hub} (before : Undisturbed src a m)
    (after : Undisturbed src (m.fire src d) b) : fired src d a b := by
  obtain ⟨maskedDetail, heard⟩ := fired_fire src d m
  refine ⟨fun k => ?_, fun k => ?_⟩
  · rw [after.detail, maskedDetail (before.masked.trans k), before.detail]
  · obtain ⟨detail, held, shown⟩ := heard (before.masked.trans k)
    refine ⟨after.detail.trans detail, fun w => ?_, after.shows shown⟩
    have w' : m.holds src := before.holds w
    have w'' : (m.fire src d).holds src := w'.imp (awaiting_fire src d m) fun down => by simpa using down
    obtain ⟨pending, count⟩ := held w'
    exact ⟨after.pending w'' pending, by rw [after.count w'', count, before.count w]⟩

theorem awaiting_activate (src : Source) (h : Hub) (k : (h.router.entry src).awaiting = true) :
    ((h.activate src).router.entry src).awaiting = true := by
  unfold Hub.activate
  dsimp only
  split_ifs
  · exact k
  · simp [Hub.modEntry, k]
  · exact awaiting_offerReport _ _ _ k

@[simp] theorem Hub.up_activate (src : Source) (h : Hub) : (h.activate src).uplink.up = h.uplink.up := by
  unfold Hub.activate
  dsimp only
  (repeat' split) <;> simp [Hub.modEntry]

/-- R187: one activation is what the claims call one. -/
theorem activated_activate (src : Source) (h : Hub) : activated src h (h.activate src) := by
  intro open_
  unfold Hub.activate
  simp only [open_, Bool.false_eq_true, if_false]
  refine ⟨fun waits => ?_, fun idle down => ?_, fun idle => ?_⟩
  · simp [waits, Hub.modEntry, satInc]
  · split_ifs with pending
    · simpa [Hub.modEntry, satInc, idle] using pending
    · simp_all [Hub.offerReport, Hub.placeForReport, satInc]
  · split_ifs with pending
    · exact Or.inr (by simpa [Hub.modEntry, idle] using pending)
    · exact Hub.report_or_pending_offerReport src false _

/-- One activation, with nothing of the source before it and after it. -/
theorem activated_of_activate {src : Source} {a m b : Hub} (same : m.router = a.router) (up : m.uplink.up = a.uplink.up)
    (after : Undisturbed src (m.activate src) b) : activated src a b := by
  intro open_
  rw [← same] at open_ ⊢
  obtain ⟨waits, down, shown⟩ := activated_activate src m open_
  refine ⟨fun k => ?_, fun k l => ?_, fun k => after.shows (shown k)⟩
  · rw [after.count (.inl (awaiting_activate src m k)), waits k]
  · have l' : m.uplink.up = false := up.trans l
    have held : (m.activate src).holds src := .inr (by simpa using l')
    obtain ⟨pending, count⟩ := down k l'
    exact ⟨after.pending held pending, by rw [after.count held, count]⟩

end Sys2Proof.Machine
end

