-- ==== Sys2Proof/Proofs/Serving.lean ====
section
/-! PROOF. Serving the deferred move list, port by port: a serving reads and changes the ports it admits, the list and the reserved sum, so
what any other port holds may be replaced before or after it (`portFreed_of_serve`). -/

namespace Sys2Proof.Machine

@[simp] theorem PerPort.set_get_self {α : Type} (v : PerPort α) (p : Port) : v.set p (v.get p) = v :=
  PerPort.ext_get fun q => by rw [PerPort.get_set]; split <;> simp_all

/-! ## The reserved sum (R35) -/

/-- R35: what a port's power record reserves of the budget: its claim and its held surge. -/
def Power.reserve (w : Power) : Nat := w.claim + w.heldSurge

theorem reservedSum_eq (h : Hub) : h.reservedSum = (allPorts.map fun q => (h.power.get q).reserve).sum := rfl

/-- R35: the reserved sum is one of the ports' reserves. -/
theorem reservedSum_congr {a b : Hub} (e : ∀ q, (b.power.get q).reserve = (a.power.get q).reserve) : b.reservedSum = a.reservedSum := by
  simp only [reservedSum_eq, e]

/-! ## One admission (R52, R55) -/

/-- The link of a port whose move starts: a LENS_MOVE is offered where the lens record is valid. -/
def Link.startMove (record : Option LensRecord) (l : Link) : Link :=
  match record with
  | some r => (l.offer (.lensMove r.targets)).1
  | none => l

/-- The lens of a port whose move starts. -/
def Lens.startMove (l : Lens) : Lens :=
  { l with record := l.record.map fun r => { r with moveState := .moving, progress := 0, timeout := some l.timeoutLength } }

/-- R52: the start of a move, block by block. -/
theorem startMove_eq (p : Port) (h : Hub) :
    h.startMove p =
      { h with
        links := h.links.mod p (Link.startMove (h.lenses.get p).record)
        power := h.power.mod p (fun w => { w with heldSurge := w.setup.surge })
        lenses := h.lenses.mod p Lens.startMove } := by
  unfold Hub.startMove Hub.offerLensMove Hub.modRecord Hub.holdSurge Hub.offerWord Link.startMove Lens.startMove
  cases e : (h.lenses.get p).record with
  | none => simp [e, PerPort.mod, Hub.modLens, Hub.modPower]
  | some r => simp [e, PerPort.mod, Hub.modLens, Hub.modPower, Hub.modLink, LensRecord.targets]

/-- R55: what is left of the hub as an entry is admitted. -/
theorem admit_eq (p : Port) (h : Hub) :
    (h.setDeferred (h.deferred.filter (· != p))).startMove p =
      { h with
        links := h.links.mod p (Link.startMove (h.lenses.get p).record)
        power := h.power.mod p (fun w => { w with heldSurge := w.setup.surge })
        lenses := h.lenses.mod p Lens.startMove
        deferred := h.deferred.filter (· != p) } := by
  rw [startMove_eq]
  rfl

/-! ## Hubs that differ at one port -/

/-- Two hubs agree in the links, the power and the lenses of every port but one. -/
structure Hub.sameBut (p : Port) (a b : Hub) : Prop where
  links : ∀ q, q ≠ p → b.links.get q = a.links.get q
  power : ∀ q, q ≠ p → b.power.get q = a.power.get q
  lenses : ∀ q, q ≠ p → b.lenses.get q = a.lenses.get q

/-- Two hubs agree in the link, the power and the lens of one port. -/
structure Hub.sameAt (p : Port) (a b : Hub) : Prop where
  links : b.links.get p = a.links.get p
  power : b.power.get p = a.power.get p
  lenses : b.lenses.get p = a.lenses.get p

theorem Hub.sameBut_refl (p : Port) (h : Hub) : h.sameBut p h := ⟨fun _ _ => rfl, fun _ _ => rfl, fun _ _ => rfl⟩

theorem Hub.sameBut_trans {p : Port} {a b c : Hub} (h1 : a.sameBut p b) (h2 : b.sameBut p c) : a.sameBut p c :=
  ⟨fun q k => (h2.links q k).trans (h1.links q k), fun q k => (h2.power q k).trans (h1.power q k),
    fun q k => (h2.lenses q k).trans (h1.lenses q k)⟩

theorem Hub.sameAt_refl (p : Port) (h : Hub) : h.sameAt p h := ⟨rfl, rfl, rfl⟩

theorem Hub.sameAt_trans {p : Port} {a b c : Hub} (h1 : a.sameAt p b) (h2 : b.sameAt p c) : a.sameAt p c :=
  ⟨h2.links.trans h1.links, h2.power.trans h1.power, h2.lenses.trans h1.lenses⟩

theorem Hub.onlyIn.sameAt {l : List Part} {a b : Hub} (e : a.onlyIn l b) (p : Port) (h1 : Part.links ∉ l := by decide)
    (h2 : Part.power ∉ l := by decide) (h3 : Part.lenses ∉ l := by decide) : a.sameAt p b :=
  ⟨by rw [e.links h1], by rw [e.power h2], by rw [e.lenses h3]⟩

theorem Hub.onlyIn.sameBut {l : List Part} {a b : Hub} (e : a.onlyIn l b) (p : Port) (h1 : Part.links ∉ l := by decide)
    (h2 : Part.power ∉ l := by decide) (h3 : Part.lenses ∉ l := by decide) : a.sameBut p b :=
  ⟨fun _ _ => by rw [e.links h1], fun _ _ => by rw [e.power h2], fun _ _ => by rw [e.lenses h3]⟩

/-- A serving of a list finds two hubs alike that differ at one port alone, which reserves as much in both and is not admitted in either:
it is not on the list, or its power is not ON (R36). -/
structure Hub.servesAs (p : Port) (l : List Port) (a b : Hub) : Prop where
  others : a.sameBut p b
  deferred : b.deferred = a.deferred
  budget : b.budget = a.budget
  reserve : (b.power.get p).reserve = (a.power.get p).reserve
  apart : p ∉ l ∨ (a.power.get p).state ≠ .on ∧ (b.power.get p).state ≠ .on

theorem Hub.servesAs.reservedSum {p : Port} {l : List Port} {a b : Hub} (e : a.servesAs p l b) : b.reservedSum = a.reservedSum :=
  reservedSum_congr fun q => by
    by_cases k : q = p
    · rw [k, e.reserve]
    · rw [e.others.power q k]

theorem surgeFits_of_off {p : Port} {h : Hub} (off : (h.power.get p).state ≠ .on) : h.surgeFits p = false := by
  simp [Hub.surgeFits, off]

/-- R55: the serving of a list leaves a port that is not on it, or whose power is not ON. -/
theorem sameAt_serveList (p : Port) (l : List Port) (h : Hub) (apart : p ∉ l ∨ (h.power.get p).state ≠ .on) :
    h.sameAt p (Hub.serveList l h) := by
  induction l generalizing h with
  | nil => exact Hub.sameAt_refl p h
  | cons q rest ih =>
    unfold Hub.serveList
    split
    · rename_i fits
      have ne : p ≠ q := by
        rintro rfl
        rcases apart with out | off
        · exact out List.mem_cons_self
        · simp [surgeFits_of_off off] at fits
      rw [admit_eq]
      refine Hub.sameAt_trans ⟨by simp [ne], by simp [ne], by simp [ne]⟩ (ih _ ?_)
      exact apart.imp (fun k m => k (List.mem_cons_of_mem _ m)) fun off => by simpa [ne] using off
    · exact Hub.sameAt_refl p h

/-- R55: the serving of a list takes entries off the deferred list and puts none on it. -/
theorem deferred_serveList_subset (l : List Port) (h : Hub) : (Hub.serveList l h).deferred ⊆ h.deferred := by
  induction l generalizing h with
  | nil => exact List.Subset.refl _
  | cons q rest ih =>
    unfold Hub.serveList
    split
    · rw [admit_eq]
      exact List.Subset.trans (ih _) (List.filter_subset_self _)
    · exact List.Subset.refl _

/-- R55: the serving of a list finds two such hubs alike. -/
theorem servesAs_serveList (p : Port) (l : List Port) (a b : Hub) (e : a.servesAs p l b) :
    (Hub.serveList l a).sameBut p (Hub.serveList l b) ∧ (Hub.serveList l b).deferred = (Hub.serveList l a).deferred := by
  induction l generalizing a b with
  | nil => exact ⟨e.others, e.deferred⟩
  | cons q rest ih =>
    unfold Hub.serveList
    have same : b.surgeFits q = a.surgeFits q := by
      by_cases k : q = p
      · subst k
        obtain out | ⟨offA, offB⟩ := e.apart
        · exact absurd List.mem_cons_self out
        · rw [surgeFits_of_off offA, surgeFits_of_off offB]
      · unfold Hub.surgeFits Hub.admits
        rw [e.others.power q k, e.reservedSum, e.budget]
    rw [same]
    split
    · rename_i fits
      have ne : p ≠ q := by
        rintro rfl
        obtain out | ⟨off, -⟩ := e.apart
        · exact absurd List.mem_cons_self out
        · simp [surgeFits_of_off off] at fits
      rw [admit_eq, admit_eq]
      refine ih _ _ ⟨⟨fun x k => ?_, fun x k => ?_, fun x k => ?_⟩, ?_, e.budget, ?_, ?_⟩
      · simp only [PerPort.get_mod, e.others.links _ k, e.others.links _ ne.symm, e.others.lenses _ ne.symm]
      · simp only [PerPort.get_mod, e.others.power _ k, e.others.power _ ne.symm]
      · simp only [PerPort.get_mod, e.others.lenses _ k, e.others.lenses _ ne.symm]
      · simp only [e.deferred]
      · simpa [ne] using e.reserve
      · exact e.apart.imp (fun k m => k (List.mem_cons_of_mem _ m)) fun off => by simpa [ne] using off
    · exact ⟨e.others, e.deferred⟩

/-! ## A port gives up what it held (R35, R55) -/

/-- What the first hub's port `p` is replaced by: its link, power and lens in the second, and the list left. -/
def Hub.freed (p : Port) (waiting : List Port) (a b : Hub) : Hub :=
  { a with
    links := a.links.set p (b.links.get p), power := a.power.set p (b.power.get p), lenses := a.lenses.set p (b.lenses.get p)
    deferred := waiting }

/-- The serving that a release prompts is the one that the claims speak of, whatever the operation does to the port before and after it. -/
theorem portFreed_of_serve {p : Port} {waiting : List Port} {a x b : Hub} (before : a.sameBut p x) (list : x.deferred = waiting)
    (budget : x.budget = a.budget) (after : (x.serveIfBelow a.reservedSum).sameBut p b)
    (listAfter : b.deferred = (x.serveIfBelow a.reservedSum).deferred)
    (reserve : (b.power.get p).reserve = (x.power.get p).reserve)
    (apart : p ∉ waiting ∨ (x.power.get p).state ≠ .on ∧ (b.power.get p).state ≠ .on) : portFreed p waiting a b := by
  have alike : x.servesAs p waiting (a.freed p waiting b) := by
    refine ⟨⟨fun q k => ?_, fun q k => ?_, fun q k => ?_⟩, list.symm, budget.symm, ?_, ?_⟩
    · simp [Hub.freed, k, before.links q k]
    · simp [Hub.freed, k, before.power q k]
    · simp [Hub.freed, k, before.lenses q k]
    · simpa [Hub.freed] using reserve
    · simpa [Hub.freed] using apart
  have served : (x.serveIfBelow a.reservedSum).sameBut p ((a.freed p waiting b).serveIfBelow a.reservedSum) ∧
      ((a.freed p waiting b).serveIfBelow a.reservedSum).deferred = (x.serveIfBelow a.reservedSum).deferred := by
    unfold Hub.serveIfBelow Hub.serve
    rw [alike.reservedSum]
    split
    · rw [alike.deferred, list]
      exact servesAs_serveList p waiting x _ alike
    · exact ⟨alike.others, alike.deferred⟩
  have stays : (a.freed p waiting b).sameAt p ((a.freed p waiting b).serveIfBelow a.reservedSum) := by
    unfold Hub.serveIfBelow
    split
    · exact sameAt_serveList p _ _ (apart.imp id fun off => by simpa [Hub.freed] using off.2)
    · exact Hub.sameAt_refl _ _
  refine ⟨(a.freed p waiting b).serveIfBelow a.reservedSum, servedIfLess_serveIfBelow a (a.freed p waiting b), ?_, ?_, ?_,
    listAfter.trans served.2.symm⟩
  · refine PerPort.ext_get fun q => ?_
    by_cases k : q = p
    · rw [k, stays.links]; simp [Hub.freed]
    · rw [after.links q k, served.1.links q k]
  · refine PerPort.ext_get fun q => ?_
    by_cases k : q = p
    · rw [k, stays.power]; simp [Hub.freed]
    · rw [after.power q k, served.1.power q k]
  · refine PerPort.ext_get fun q => ?_
    by_cases k : q = p
    · rw [k, stays.lenses]; simp [Hub.freed]
    · rw [after.lenses q k, served.1.lenses q k]

/-- R55: a serving leaves a port that is not on the list, or whose power is not ON. -/
theorem sameAt_serveIfBelow (p : Port) (n : Nat) (h : Hub) (apart : p ∉ h.deferred ∨ (h.power.get p).state ≠ .on) :
    h.sameAt p (h.serveIfBelow n) := by
  unfold Hub.serveIfBelow
  split
  · exact sameAt_serveList p _ _ apart
  · exact Hub.sameAt_refl _ _

theorem deferred_serveIfBelow_subset (n : Nat) (h : Hub) : (h.serveIfBelow n).deferred ⊆ h.deferred := by
  unfold Hub.serveIfBelow
  split
  · exact deferred_serveList_subset _ _
  · exact List.Subset.refl _

end Sys2Proof.Machine
end

