-- ==== Sys2Proof/Proofs/UnpoweredLinks.lean ====
section
/-! PROOF. O9: a port whose power is not ON has its link DOWN (R1, R22). Most operations keep every link's and every power record's state
(`Hub.sameStates`); the few that change one are gone through one by one. -/

namespace Sys2Proof.Machine

/-! ## Operations that keep the states of links and power -/

/-- Two hubs agree in every port's link state and power state. -/
def Hub.sameStates (a b : Hub) : Prop :=
  ∀ q, (b.links.get q).state = (a.links.get q).state ∧ (b.power.get q).state = (a.power.get q).state

/-- R1: the law of `State.linksKept`, of a hub. -/
def Hub.linksDown (h : Hub) : Prop := ∀ p, (h.power.get p).state ≠ .on → (h.links.get p).state = .down

theorem linksKept_iff (s : State) : s.linksKept ↔ s.toHub.linksDown := Iff.rfl

theorem Hub.sameStates_refl (h : Hub) : h.sameStates h := fun _ => ⟨rfl, rfl⟩

theorem Hub.sameStates_trans {a b c : Hub} (h1 : a.sameStates b) (h2 : b.sameStates c) : a.sameStates c := fun q =>
  ⟨(h2 q).1.trans (h1 q).1, (h2 q).2.trans (h1 q).2⟩

theorem Hub.sameStates.linksDown {a b : Hub} (e : a.sameStates b) (law : a.linksDown) : b.linksDown := fun p off => by
  rw [(e p).1]
  rw [(e p).2] at off
  exact law p off

theorem sameStates_of_kept {a b : Hub} (e : b.kept = a.kept) : a.sameStates b := fun q =>
  ⟨by simpa [Link.kept] using congrArg Link.state (links_of_kept e q), by simpa [Power.kept] using congrArg Power.state (power_of_kept e q)⟩

theorem Hub.onlyIn.sameStates {l : List Part} {a b : Hub} (e : a.onlyIn l b) (h1 : Part.links ∉ l := by decide)
    (h2 : Part.power ∉ l := by decide) : a.sameStates b := fun q => ⟨by rw [e.links h1], by rw [e.power h2]⟩

theorem sameStates_modPower (p : Port) (f : Power → Power) (h : Hub) (keeps : (f (h.power.get p)).state = (h.power.get p).state) :
    h.sameStates (h.modPower p f) := fun q => by
  refine ⟨rfl, ?_⟩
  rw [modPower_power, PerPort.get_mod]
  split
  · subst_vars; exact keeps
  · rfl

theorem sameStates_modLink (p : Port) (f : Link → Link) (h : Hub) (keeps : (f (h.links.get p)).state = (h.links.get p).state) :
    h.sameStates (h.modLink p f) := fun q => by
  refine ⟨?_, rfl⟩
  rw [modLink_links, PerPort.get_mod]
  split
  · subst_vars; exact keeps
  · rfl

theorem sameStates_elapse (n : Nat) (h : Hub) : h.sameStates (h.elapse n) := fun q => by simp [Hub.elapse, Link.pass, Power.pass]

theorem linksDown_serveIfBelow {h : Hub} (n : Nat) (law : h.linksDown) : (h.serveIfBelow n).linksDown :=
  (sameStates_of_kept (kept_serveIfBelow n h)).linksDown law

theorem linksDown_elapse {h : Hub} (n : Nat) (law : h.linksDown) : (h.elapse n).linksDown := (sameStates_elapse n h).linksDown law

/-! ## Operations that change a state -/

/-- A link may be in any state while its port's power is ON. -/
theorem linksDown_modLink_on {p : Port} {f : Link → Link} {h : Hub} (law : h.linksDown) (on : (h.power.get p).state = .on) :
    (h.modLink p f).linksDown := fun q off => by
  rw [modLink_links, PerPort.get_mod]
  split
  · subst_vars; exact absurd on off
  · exact law q off

/-- A power record may go to any state while its port's link is DOWN. -/
theorem linksDown_modPower_down {p : Port} {f : Power → Power} {h : Hub} (law : h.linksDown) (down : (h.links.get p).state = .down) :
    (h.modPower p f).linksDown := fun q off => by
  by_cases k : q = p
  · rw [k]; exact down
  · exact law q (by simpa [k] using off)

/-- R1: a port whose link is not DOWN has its power ON. -/
theorem Hub.linksDown.on {h : Hub} (law : h.linksDown) {p : Port} (live : (h.links.get p).state ≠ .down) :
    (h.power.get p).state = .on := by
  by_contra off
  exact live (law p off)

/-- R4, R12, R13, R18: the link record on entry to ACQUIRE. -/
def Link.toAcquire (rate : Rate) (now : CellTime) (l : Link) : Link :=
  { l.trimAll with state := .acquire, rate := rate, acquireTimer := some acquireTime, relockWindow := none, lastChange := now }

theorem enterAcquire_eq (p : Port) (rate : Rate) (cause : LinkCause) (h : Hub) :
    h.enterAcquire p rate cause =
      ((((h.modLink p (Link.toAcquire rate h.now)).offerWord p (.retrain rate)).reportUnsent (h.links.get p).unsent).linkChange p
        cause).abandon p := rfl

theorem linksDown_enterAcquire {p : Port} {rate : Rate} {cause : LinkCause} {h : Hub} (law : h.linksDown)
    (on : (h.power.get p).state = .on) : (h.enterAcquire p rate cause).linksDown := by
  rw [enterAcquire_eq]
  have entered := linksDown_modLink_on (f := Link.toAcquire rate h.now) law on
  exact (sameStates_of_kept (by simp)).linksDown entered

theorem sameStates_dropFilling (p : Port) (st : CloseStatus) (why : SkipReason) (h : Hub) : h.sameStates (h.dropFilling p st why) := by
  unfold Hub.dropFilling
  dsimp only
  refine Hub.sameStates_trans ?_ (sameStates_of_kept (kept_endFlights _ _ _))
  split
  · split
    · exact (Hub.onlyIn_of_hide (l := [.store, .delivery]) (by simp)).sameStates
    · exact (onlyIn_releaseFrame _ _).sameStates
  · exact Hub.sameStates_refl h

theorem linksDown_dropFilling {p : Port} {st : CloseStatus} {why : SkipReason} {h : Hub} (law : h.linksDown) :
    (h.dropFilling p st why).linksDown := (sameStates_dropFilling p st why h).linksDown law

theorem linksDown_abandon {p : Port} {h : Hub} (law : h.linksDown) : (h.abandon p).linksDown :=
  (sameStates_of_kept (kept_abandon p h)).linksDown law

theorem linksDown_modLens {p : Port} {f : Lens → Lens} {h : Hub} (law : h.linksDown) : (h.modLens p f).linksDown := law

/-- R16: a port leaves ON: its link is DOWN after it, and every other state is as it was. -/
theorem linksDown_linkStop {p : Port} {h : Hub} (others : ∀ q, q ≠ p → (h.power.get q).state ≠ .on → (h.links.get q).state = .down) :
    (h.linkStop p).linksDown := by
  have stopped : (if (h.links.get p).state == .down then h
      else ((h.modLink p (Link.toDown h.now)).linkChange p .powerOff).reportUnsent (h.links.get p).unsent).linksDown := by
    split
    · rename_i down
      intro q off
      by_cases k : q = p
      · rw [k]; simpa using down
      · exact others q k off
    · refine (sameStates_of_kept (by simp)).linksDown (a := h.modLink p (Link.toDown h.now)) fun q off => ?_
      by_cases k : q = p
      · rw [k]; simp [Link.toDown]
      · simpa [k] using others q k off
  unfold Hub.linkStop
  dsimp only
  exact linksDown_modLens (linksDown_abandon (linksDown_dropFilling stopped))

/-- R22: a power record leaves ON for another state. -/
theorem linksDown_leaveOn {p : Port} {f : Power → Power} {h : Hub} (law : h.linksDown) :
    ((h.modPower p f).leaveOn p ((h.power.get p).state == .on)).linksDown := by
  unfold Hub.leaveOn
  split
  · exact linksDown_linkStop fun q k off => law q (by simpa [k] using off)
  · rename_i off
    exact linksDown_modPower_down law (law p (by simpa using off))

theorem linksDown_trip {p : Port} {cause : TripCause} {h : Hub} (law : h.linksDown) : (h.trip p cause).linksDown := by
  have left := linksDown_leaveOn (p := p) (f := Power.trip cause) law
  unfold Hub.leaveOn at left
  have tripped := linksDown_serveIfBelow h.reservedSum
    ((sameStates_of_kept (kept_activate (.ofPort p .powerFault) _)).linksDown left)
  unfold Hub.trip
  dsimp only
  split
  · exact (Hub.onlyIn_of_hide (l := [.echo]) (by simp)).sameStates.linksDown tripped
  · exact tripped

theorem linksDown_sample {p : Port} {n : Nat} {h : Hub} (law : h.linksDown) : (h.sample p n).linksDown := by
  have sampled : (h.modPower p (Power.sampled n)).linksDown := by
    refine (sameStates_modPower _ _ _ ?_).linksDown law
    unfold Power.sampled
    dsimp only
    (repeat' split) <;> rfl
  unfold Hub.sample
  dsimp only
  split
  · exact linksDown_trip sampled
  · exact sampled

theorem linksDown_linkStart {p : Port} {h : Hub} (on : (h.power.get p).state = .on)
    (others : ∀ q, q ≠ p → (h.power.get q).state ≠ .on → (h.links.get q).state = .down) : (h.linkStart p).linksDown := by
  have started : (h.modLink p fun l =>
      { l with state := .acquire, acquireTimer := some acquireTime, locked := false, lastChange := h.now }).linksDown := fun q off => by
    by_cases k : q = p
    · exact absurd on (by rw [← k]; exact off)
    · simpa [k] using others q k off
  unfold Hub.linkStart
  dsimp only
  split <;> exact (sameStates_of_kept (by simp)).linksDown started

theorem linksDown_inrushEnd {p : Port} {h : Hub} (law : h.linksDown) : (h.inrushEnd p).linksDown := by
  unfold Hub.inrushEnd
  split
  · exact linksDown_linkStart (by simp) fun q k off => law q (by simpa [k] using off)
  · exact linksDown_trip law

/-- R31: a retry leaves COOLDOWN for PRECHARGE. -/
theorem linksDown_retry {p : Port} {h : Hub} (law : h.linksDown) (off : (h.power.get p).state = .cooldown) : (h.retry p).linksDown :=
  linksDown_modPower_down law (law p (by simp [off]))

theorem linksDown_autoResult {p : Port} {located : Bool} {h : Hub} (law : h.linksDown) : (h.autoResult p located).linksDown := by
  unfold Hub.autoResult Hub.lockOutLocated
  dsimp only
  split_ifs with off
  · exact law
  · exact linksDown_serveIfBelow _ (linksDown_modPower_down law (law p (by simpa using fun k => off (by simp [k]))))
  · exact linksDown_retry law (by simpa using off)
  · exact law

theorem linksDown_endHunt {p : Port} {h : Hub} (law : h.linksDown) : (h.endHunt p).linksDown := by
  unfold Hub.endHunt
  by_cases hunting : (h.power.get p).state = .hunt
  · exact linksDown_modPower_down law (law p (by simp [hunting]))
  · exact (sameStates_modPower _ _ _ (by simp [hunting])).linksDown law

theorem linksDown_lookForJob {h : Hub} (law : h.linksDown) : h.lookForJob.linksDown :=
  (Hub.onlyIn_of_hide (l := [.echo]) (by simp)).sameStates.linksDown law

theorem linksDown_huntDone {p : Port} {r : EchoResult} {h : Hub} (law : h.linksDown) : (h.huntDone p r).linksDown :=
  (onlyIn_fire _ _ h).sameStates.linksDown law

theorem linksDown_completeJob {j : EchoJob} {h : Hub} (law : h.linksDown) : (h.completeJob j).linksDown := by
  unfold Hub.completeJob
  dsimp only
  have stored : (((if j.kind = .learn then h.modEchoPort j.port fun e => { e with baseline := some j.learned } else h).storeResult j.port
      (j.result h.now)).modEcho fun e => { e with sampler := none }).linksDown := by
    refine (Hub.onlyIn_of_hide (l := [.echo]) ?_).sameStates.linksDown law
    split <;> simp
  refine linksDown_lookForJob (linksDown_huntDone ?_)
  split
  · exact linksDown_endHunt stored
  · exact linksDown_autoResult stored
  · exact stored

end Sys2Proof.Machine
end

