-- ==== Sys2Proof/Proofs/Settings.lean ====
section
/-! PROOF. What each operation keeps of the settings (O14) and of the states of links and power (O9): `Hub.Keeps` is carried through an
operation by one lemma, which the meanings of the commands and events then cite. -/

namespace Sys2Proof.Machine

/-- Two hubs agree in every setting that only its own command writes. -/
structure Hub.sameSettings (a b : Hub) : Prop where
  budget : b.budget = a.budget
  power : ∀ q, (b.power.get q).setup = (a.power.get q).setup
  threshold : ∀ q, (b.links.get q).threshold = (a.links.get q).threshold
  presets : ∀ q, (b.lenses.get q).presets = (a.lenses.get q).presets
  lens : ∀ q, (b.lenses.get q).setup = (a.lenses.get q).setup
  zone : ∀ q, (b.zones.get q).setup = (a.zones.get q).setup
  current : ∀ q, (b.zones.get q).current = (a.zones.get q).current
  echo : ∀ q, (b.echo.ports.get q).settings = (a.echo.ports.get q).settings
  map : ∀ q, (b.echo.ports.get q).map = (a.echo.ports.get q).map
  lowMark : b.store.lowMark = a.store.lowMark
  staged : b.shot.staged = a.shot.staged
  masks : ∀ src, (b.router.entry src).masked = (a.router.entry src).masked ∧ (b.router.entry src).tag = (a.router.entry src).tag

/-- Two hubs agree in the settings and, where `S` holds, in the states of links and power. -/
structure Hub.Keeps (S : Prop) (a b : Hub) : Prop where
  settings : a.sameSettings b
  states : S → a.sameStates b

/-- A change of one port's value, seen through a projection that the change keeps. -/
theorem PerPort.get_mod_attr {α β : Type} (g : α → β) (f : α → α) (v : PerPort α) (p q : Port) (e : g (f (v.get p)) = g (v.get p)) :
    g ((v.mod p f).get q) = g (v.get q) := by
  rw [PerPort.get_mod]
  split
  · subst_vars; exact e
  · rfl

namespace Hub.Keeps

variable {S : Prop} {a h : Hub}

theorem refl (h : Hub) : Hub.Keeps S h h :=
  ⟨⟨rfl, fun _ => rfl, fun _ => rfl, fun _ => rfl, fun _ => rfl, fun _ => rfl, fun _ => rfl, fun _ => rfl, fun _ => rfl, rfl, rfl,
    fun _ => ⟨rfl, rfl⟩⟩, fun _ => Hub.sameStates_refl h⟩

theorem trans {b c : Hub} (r : Hub.Keeps S a b) (t : Hub.Keeps S b c) : Hub.Keeps S a c where
  settings :=
    { budget := t.settings.budget.trans r.settings.budget
      power := fun q => (t.settings.power q).trans (r.settings.power q)
      threshold := fun q => (t.settings.threshold q).trans (r.settings.threshold q)
      presets := fun q => (t.settings.presets q).trans (r.settings.presets q)
      lens := fun q => (t.settings.lens q).trans (r.settings.lens q)
      zone := fun q => (t.settings.zone q).trans (r.settings.zone q)
      current := fun q => (t.settings.current q).trans (r.settings.current q)
      echo := fun q => (t.settings.echo q).trans (r.settings.echo q)
      map := fun q => (t.settings.map q).trans (r.settings.map q)
      lowMark := t.settings.lowMark.trans r.settings.lowMark
      staged := t.settings.staged.trans r.settings.staged
      masks := fun src => ⟨(t.settings.masks src).1.trans (r.settings.masks src).1, (t.settings.masks src).2.trans (r.settings.masks src).2⟩ }
  states := fun k => Hub.sameStates_trans (r.states k) (t.states k)

/-! ## Named updates -/

theorem modTime (f : Timebase → Timebase) (r : Hub.Keeps S a h) : Hub.Keeps S a (h.modTime f) := ⟨{ r.settings with }, r.states⟩
theorem setDeferred (l : List Port) (r : Hub.Keeps S a h) : Hub.Keeps S a (h.setDeferred l) := ⟨{ r.settings with }, r.states⟩
theorem modDelivery (p : Port) (f : Delivery → Delivery) (r : Hub.Keeps S a h) : Hub.Keeps S a (h.modDelivery p f) :=
  ⟨{ r.settings with }, r.states⟩
theorem setRotation (l : List Port) (r : Hub.Keeps S a h) : Hub.Keeps S a (h.setRotation l) := ⟨{ r.settings with }, r.states⟩
theorem modUplink (f : Uplink → Uplink) (r : Hub.Keeps S a h) : Hub.Keeps S a (h.modUplink f) := ⟨{ r.settings with }, r.states⟩
theorem draw (n : Nat) (r : Hub.Keeps S a h) : Hub.Keeps S a (h.draw n) := ⟨{ r.settings with }, r.states⟩

theorem modLink (p : Port) (f : Link → Link) (r : Hub.Keeps S a h)
    (e : (f (h.links.get p)).threshold = (h.links.get p).threshold) (k : S → (f (h.links.get p)).state = (h.links.get p).state) :
    Hub.Keeps S a (h.modLink p f) :=
  r.trans ⟨{ (refl (S := S) h).settings with threshold := fun q => PerPort.get_mod_attr Link.threshold f _ p q e },
    fun s => sameStates_modLink p f h (k s)⟩

theorem modPower (p : Port) (f : Power → Power) (r : Hub.Keeps S a h)
    (e : (f (h.power.get p)).setup = (h.power.get p).setup) (k : S → (f (h.power.get p)).state = (h.power.get p).state) :
    Hub.Keeps S a (h.modPower p f) :=
  r.trans ⟨{ (refl (S := S) h).settings with power := fun q => PerPort.get_mod_attr Power.setup f _ p q e },
    fun s => sameStates_modPower p f h (k s)⟩

theorem modLens (p : Port) (f : Lens → Lens) (r : Hub.Keeps S a h)
    (e1 : (f (h.lenses.get p)).presets = (h.lenses.get p).presets) (e2 : (f (h.lenses.get p)).setup = (h.lenses.get p).setup) :
    Hub.Keeps S a (h.modLens p f) :=
  r.trans ⟨{ (refl (S := S) h).settings with
      presets := fun q => PerPort.get_mod_attr Lens.presets f _ p q e1
      lens := fun q => PerPort.get_mod_attr Lens.setup f _ p q e2 }, fun _ => Hub.sameStates_refl h⟩

theorem modZone (p : Port) (f : ZoneMap → ZoneMap) (r : Hub.Keeps S a h)
    (e1 : (f (h.zones.get p)).setup = (h.zones.get p).setup) (e2 : (f (h.zones.get p)).current = (h.zones.get p).current) :
    Hub.Keeps S a (h.modZone p f) :=
  r.trans ⟨{ (refl (S := S) h).settings with
      zone := fun q => PerPort.get_mod_attr ZoneMap.setup f _ p q e1
      current := fun q => PerPort.get_mod_attr ZoneMap.current f _ p q e2 }, fun _ => Hub.sameStates_refl h⟩

theorem modShot (f : Shot → Shot) (r : Hub.Keeps S a h) (e : (f h.shot).staged = h.shot.staged) : Hub.Keeps S a (h.modShot f) :=
  r.trans ⟨{ (refl (S := S) h).settings with staged := e }, fun _ => Hub.sameStates_refl h⟩

theorem modStore (f : Store → Store) (r : Hub.Keeps S a h) (e : (f h.store).lowMark = h.store.lowMark) : Hub.Keeps S a (h.modStore f) :=
  r.trans ⟨{ (refl (S := S) h).settings with lowMark := e }, fun _ => Hub.sameStates_refl h⟩

theorem modEcho (f : Echo → Echo) (r : Hub.Keeps S a h) (e : (f h.echo).ports = h.echo.ports) : Hub.Keeps S a (h.modEcho f) :=
  r.trans ⟨{ (refl (S := S) h).settings with
      echo := fun q => by rw [modEcho_echo, e]
      map := fun q => by rw [modEcho_echo, e] }, fun _ => Hub.sameStates_refl h⟩

theorem modEchoPort (p : Port) (f : EchoPort → EchoPort) (r : Hub.Keeps S a h)
    (e1 : (f (h.echo.ports.get p)).settings = (h.echo.ports.get p).settings)
    (e2 : (f (h.echo.ports.get p)).map = (h.echo.ports.get p).map) : Hub.Keeps S a (h.modEchoPort p f) :=
  r.trans ⟨{ (refl (S := S) h).settings with
      echo := fun q => PerPort.get_mod_attr EchoPort.settings f _ p q e1
      map := fun q => PerPort.get_mod_attr EchoPort.map f _ p q e2 }, fun _ => Hub.sameStates_refl h⟩

theorem modRouter (f : Router → Router) (r : Hub.Keeps S a h)
    (e : ∀ src, ((f h.router).entry src).masked = (h.router.entry src).masked ∧ ((f h.router).entry src).tag = (h.router.entry src).tag) :
    Hub.Keeps S a (h.modRouter f) :=
  r.trans ⟨{ (refl (S := S) h).settings with masks := e }, fun _ => Hub.sameStates_refl h⟩

/-- An operation on the router, the uplink and the free values that keeps masks, tags and details. -/
theorem sameSetup {b : Hub} {l : List Part} (r : Hub.Keeps S a h) (e : h.onlyIn l b) (m : h.router.sameSetup b.router)
    (sub : l ⊆ reportParts := by decide) : Hub.Keeps S a b := by
  have e := Hub.onlyIn_mono sub e
  refine r.trans ⟨⟨e.budget, ?_, ?_, ?_, ?_, ?_, ?_, ?_, ?_, ?_, ?_, fun src => ⟨(m src).1, (m src).2.1⟩⟩, fun _ => e.sameStates⟩
  · rw [e.power]; exact fun _ => rfl
  · rw [e.links]; exact fun _ => rfl
  · rw [e.lenses]; exact fun _ => rfl
  · rw [e.lenses]; exact fun _ => rfl
  · rw [e.zones]; exact fun _ => rfl
  · rw [e.zones]; exact fun _ => rfl
  · rw [e.echo]; exact fun _ => rfl
  · rw [e.echo]; exact fun _ => rfl
  · rw [e.store]
  · rw [e.shot]

theorem fire (src : Source) (d : List Byte) (r : Hub.Keeps S a h) : Hub.Keeps S a (h.fire src d) := by
  have e := onlyIn_fire src d h
  refine r.trans ⟨⟨e.budget, ?_, ?_, ?_, ?_, ?_, ?_, ?_, ?_, ?_, ?_, fun other => ?_⟩, fun _ => e.sameStates⟩
  · rw [e.power]; exact fun _ => rfl
  · rw [e.links]; exact fun _ => rfl
  · rw [e.lenses]; exact fun _ => rfl
  · rw [e.lenses]; exact fun _ => rfl
  · rw [e.zones]; exact fun _ => rfl
  · rw [e.zones]; exact fun _ => rfl
  · rw [e.echo]; exact fun _ => rfl
  · rw [e.echo]; exact fun _ => rfl
  · rw [e.store]
  · rw [e.shot]
  · by_cases k : other = src
    · rw [k]; exact Hub.entry_fire_same src d h
    · rw [Hub.entry_fire_ne k]; exact ⟨rfl, rfl⟩

theorem activate (src : Source) (r : Hub.Keeps S a h) : Hub.Keeps S a (h.activate src) :=
  r.sameSetup (Hub.repliedTo_activate src h).1 (Hub.sameSetup_activate src h)

theorem elapse (n : Nat) (r : Hub.Keeps S a h) : Hub.Keeps S a (h.elapse n) :=
  r.trans ⟨⟨rfl, fun q => by simp [Hub.elapse, Power.pass], fun q => by simp [Hub.elapse, Link.pass],
    fun q => by simp [Hub.elapse, Lens.pass], fun q => by simp [Hub.elapse, Lens.pass], fun _ => rfl, fun _ => rfl, fun _ => rfl,
    fun _ => rfl, rfl, rfl, fun _ => ⟨rfl, rfl⟩⟩, fun _ => sameStates_elapse n h⟩

theorem foldl {α : Type} (op : Hub → α → Hub) (keeps : ∀ h x, Hub.Keeps S a h → Hub.Keeps S a (op h x)) (l : List α)
    (r : Hub.Keeps S a h) : Hub.Keeps S a (l.foldl op h) := by
  induction l generalizing h with
  | nil => exact r
  | cons x l ih => exact ih (keeps h x r)

/-! ## Lens moves -/

theorem modRecord (p : Port) (f : LensRecord → LensRecord) (r : Hub.Keeps S a h) : Hub.Keeps S a (h.modRecord p f) :=
  r.modLens _ _ rfl rfl

/-- A lens move keeps what `Hub.kept` keeps, and leaves the router. -/
theorem move {b : Hub} (r : Hub.Keeps S a h) (e : h.onlyIn moveParts b) (k : b.kept = h.kept) : Hub.Keeps S a b := by
  refine r.trans ⟨⟨e.budget, fun q => ?_, fun q => ?_, fun q => ?_, fun q => ?_, ?_, ?_, ?_, ?_, ?_, ?_, ?_⟩, fun _ => sameStates_of_kept k⟩
  · simpa [Power.kept] using congrArg Power.setup (power_of_kept k q)
  · simpa [Link.kept] using congrArg Link.threshold (links_of_kept k q)
  · simpa [Hub.kept, Lens.kept] using congrArg (fun x : Hub => (x.lenses.get q).presets) k
  · simpa [Hub.kept, Lens.kept] using congrArg (fun x : Hub => (x.lenses.get q).setup) k
  · rw [e.zones]; exact fun _ => rfl
  · rw [e.zones]; exact fun _ => rfl
  · rw [e.echo]; exact fun _ => rfl
  · rw [e.echo]; exact fun _ => rfl
  · rw [e.store]
  · rw [e.shot]
  · rw [e.router]; exact fun _ => ⟨rfl, rfl⟩

theorem serve (r : Hub.Keeps S a h) : Hub.Keeps S a h.serve := r.move (Hub.onlyIn_of_hide (by simp)) (kept_serve h)
theorem serveIfBelow (n : Nat) (r : Hub.Keeps S a h) : Hub.Keeps S a (h.serveIfBelow n) :=
  r.move (onlyIn_serveIfBelow n h) (kept_serveIfBelow n h)
theorem releaseSurge (p : Port) (r : Hub.Keeps S a h) : Hub.Keeps S a (h.releaseSurge p) :=
  r.move (onlyIn_releaseSurge p h) (kept_releaseSurge p h)
theorem offerWord (p : Port) (w : DownWord) (r : Hub.Keeps S a h) : Hub.Keeps S a (h.offerWord p w) :=
  r.move (Hub.onlyIn_mono (by decide) (onlyIn_offerWord p w h)) (kept_offerWord p w h)
theorem offerLensMove (p : Port) (r : Hub.Keeps S a h) : Hub.Keeps S a (h.offerLensMove p) :=
  r.move (Hub.onlyIn_of_hide (by simp)) (kept_offerLensMove p h)
theorem issueMove (p : Port) (t : Targets) (r : Hub.Keeps S a h) : Hub.Keeps S a (h.issueMove p t).hub :=
  r.move (onlyIn_issueMove p t h) (kept_issueMove p t h)
theorem issueSlotMove (i : SlotIx) (r : Hub.Keeps S a h) : Hub.Keeps S a (h.issueSlotMove i) :=
  r.move (onlyIn_issueSlotMove i h) (kept_issueSlotMove i h)
theorem issueNext (i : SlotIx) (n : BitVec 32) (r : Hub.Keeps S a h) : Hub.Keeps S a (h.issueNext i n) :=
  r.move (onlyIn_issueNext i n h) (kept_issueNext i n h)

/-! ## Frames, zones and slots -/

theorem modFrame (t : FrameTag) (f : Frame → Frame) (r : Hub.Keeps S a h) : Hub.Keeps S a (h.modFrame t f) := r.modStore _ rfl

theorem reviewLow (was : Bool) (r : Hub.Keeps S a h) : Hub.Keeps S a (h.reviewLow was) := by
  unfold Hub.reviewLow
  split
  · exact r.activate _
  · exact r

theorem releaseFrame (t : FrameTag) (r : Hub.Keeps S a h) : Hub.Keeps S a (h.releaseFrame t) := (r.modStore _ rfl).reviewLow _

theorem openFrame (i : SlotIx) (x : SlotRecord) (r : Hub.Keeps S a h) : Hub.Keeps S a (h.openFrame i x) := (r.modStore _ rfl).reviewLow _

theorem closeFrame (t : FrameTag) (p : Port) (st : CloseStatus) (r : Hub.Keeps S a h) : Hub.Keeps S a (h.closeFrame t p st) :=
  (r.modFrame _ _).modDelivery _ _

theorem frameDelivered (f : Frame) (st : DeliveryStatus) (r : Hub.Keeps S a h) : Hub.Keeps S a (h.frameDelivered f st) :=
  (r.modDelivery _ _).releaseFrame _

theorem loseSending (p : Port) (r : Hub.Keeps S a h) : Hub.Keeps S a (h.loseSending p) := by
  unfold Hub.loseSending
  split
  · exact (r.modDelivery _ _).releaseFrame _
  · exact r

theorem putBin (p : Port) (z : Zone) (b : Bin) (x : Bool) (c : SuspectCause) (r : Hub.Keeps S a h) :
    Hub.Keeps S a (h.putBin p z b x c) := by
  unfold Hub.putBin
  split
  · exact (r.modZone _ _ rfl rfl).fire _ _
  · exact r.modZone _ _ rfl rfl

theorem takeLine (p : Port) (w : LineWord) (r : Hub.Keeps S a h) : Hub.Keeps S a (h.takeLine p w) := by
  unfold Hub.takeLine
  dsimp only
  split
  · exact r.modStore _ rfl
  · split_ifs
    · exact r.modStore _ rfl
    · exact r.modFrame _ _
    · exact r.modStore _ rfl
    · unfold Hub.placeLine Hub.countLine
      dsimp only
      split
      · exact (((r.modStore _ rfl).modFrame _ _).putBin _ _ _ _ _).closeFrame _ _ _
      · exact ((r.modStore _ rfl).modFrame _ _).putBin _ _ _ _ _

theorem takeEof (p : Port) (w : EofWord) (r : Hub.Keeps S a h) : Hub.Keeps S a (h.takeEof p w) := by
  unfold Hub.takeEof
  split
  · exact r
  · split
    · exact (r.modFrame _ _).closeFrame _ _ _
    · exact r

theorem recordOutcome (i : SlotIx) (o : SlotOutcome) (n : BitVec 32) (r : Hub.Keeps S a h) : Hub.Keeps S a (h.recordOutcome i o n) :=
  r.modShot _ rfl
theorem modFlight (t : FrameTag) (f : Flight → Flight) (r : Hub.Keeps S a h) : Hub.Keeps S a (h.modFlight t f) := r.modShot _ rfl
theorem dropFlight (t : FrameTag) (r : Hub.Keeps S a h) : Hub.Keeps S a (h.dropFlight t) := r.modShot _ rfl

theorem skipSlot (i : SlotIx) (p : Port) (n : BitVec 32) (why : SkipReason) (r : Hub.Keeps S a h) :
    Hub.Keeps S a (h.skipSlot i p n why) := ((r.recordOutcome _ _ _).fire _ _).issueNext _ _

theorem endFlight (f : Flight) (why : SkipReason) (r : Hub.Keeps S a h) : Hub.Keeps S a (h.endFlight f why) :=
  ((r.dropFlight _).releaseFrame _).skipSlot _ _ _ _

theorem endFlights (p : Port) (why : SkipReason) (r : Hub.Keeps S a h) : Hub.Keeps S a (h.endFlights p why) :=
  foldl _ (fun _ x r => r.endFlight x why) _ r

theorem triggerNotSent (t : FrameTag) (r : Hub.Keeps S a h) : Hub.Keeps S a (h.triggerNotSent t) := by
  unfold Hub.triggerNotSent
  split
  · exact r.endFlight _ _
  · exact r

theorem reportUnsent (l : List FrameTag) (r : Hub.Keeps S a h) : Hub.Keeps S a (h.reportUnsent l) :=
  foldl _ (fun _ t r => r.triggerNotSent t) _ r

theorem offerTrigger (f : Flight) (late : Bool) (r : Hub.Keeps S a h) : Hub.Keeps S a (h.offerTrigger f late) := by
  unfold Hub.offerTrigger
  have flagged : Hub.Keeps S a
      (if late = true then
        (h.modFlight f.tag fun x => { x with stage := .offered, late := late }).modFrame f.tag fun x => { x with lensLate := true }
      else h.modFlight f.tag fun x => { x with stage := .offered, late := late }) := by
    split
    · exact (r.modFlight _ _).modFrame _ _
    · exact r.modFlight _ _
  dsimp only
  split
  · exact (flagged.offerWord _ _).triggerNotSent _
  · exact flagged.offerWord _ _

theorem triggerSent (t : FrameTag) (r : Hub.Keeps S a h) : Hub.Keeps S a (h.triggerSent t) := by
  unfold Hub.triggerSent
  split
  · exact r
  · dsimp only
    split
    · exact (((r.modFrame _ _).dropFlight _).recordOutcome _ _ _).modShot _ rfl
    · exact ((r.modFrame _ _).dropFlight _).recordOutcome _ _ _

theorem lensReady (p : Port) (r : Hub.Keeps S a h) : Hub.Keeps S a (h.lensReady p) := foldl _ (fun _ x r => r.offerTrigger x false) _ r

theorem lensAbandoned (p : Port) (r : Hub.Keeps S a h) : Hub.Keeps S a (h.lensAbandoned p) := by
  unfold Hub.lensAbandoned
  split
  · exact r.lensReady p
  · exact r.endFlights p _

theorem abandon (p : Port) (r : Hub.Keeps S a h) : Hub.Keeps S a (h.abandon p) :=
  (((r.setDeferred _).modRecord _ _).releaseSurge _).lensAbandoned _

theorem endMove (p : Port) (st : MoveState) (c : DoneCause) (r : Hub.Keeps S a h) : Hub.Keeps S a (h.endMove p st c) := by
  unfold Hub.endMove
  dsimp only
  split
  · exact (((r.modRecord _ _).releaseSurge _).lensReady _).fire _ _
  · exact ((r.modRecord _ _).releaseSurge _).lensReady _

theorem takeLensStatus (p : Port) (w : LensStatusWord) (r : Hub.Keeps S a h) : Hub.Keeps S a (h.takeLensStatus p w) := by
  unfold Hub.takeLensStatus
  dsimp only
  split
  · exact r
  · rename_i x _
    have taken : Hub.Keeps S a (if x.retargeted (x.take w) = true then (h.modRecord p fun _ => x.take w).offerLensMove p
        else h.modRecord p fun _ => x.take w) := by
      split
      · exact (r.modRecord _ _).offerLensMove _
      · exact r.modRecord _ _
    split
    · exact r.modRecord _ _
    · split
      · split
        · exact (taken.modRecord _ _).endMove _ _ _
        · exact taken.modRecord _ _
      · exact taken.modRecord _ _

theorem dropFilling (p : Port) (st : CloseStatus) (why : SkipReason) (r : Hub.Keeps S a h) : Hub.Keeps S a (h.dropFilling p st why) := by
  unfold Hub.dropFilling
  dsimp only
  split
  · split
    · exact (r.closeFrame _ _ _).endFlights _ _
    · exact (r.releaseFrame _).endFlights _ _
  · exact r.endFlights _ _

theorem openSlot (i : SlotIx) (r : Hub.Keeps S a h) : Hub.Keeps S a (h.openSlot i) := by
  unfold Hub.openSlot
  split
  · exact r
  · dsimp only
    split
    · exact (r.modShot _ rfl).skipSlot _ _ _ _
    · split_ifs
      · exact (((r.modShot _ rfl).openFrame _ _).modShot _ rfl).offerTrigger _ _
      · exact ((r.modShot _ rfl).openFrame _ _).modShot _ rfl
      · exact (((r.modShot _ rfl).openFrame _ _).modShot _ rfl).offerTrigger _ _

/-! ## The end of a step -/

theorem finish (r : Hub.Keeps S a h) : Hub.Keeps S a h.finish := by
  obtain ⟨⟨e, m, -, granted⟩, -, -⟩ := Hub.finish_spec h
  have lowMark : h.finish.store.lowMark = h.store.lowMark := by
    rcases granted with ⟨store, -, -⟩ | ⟨p, tag, rest, f, x, closing, g, -, -, -, -, -, -, -, store⟩ <;> rw [store]
  refine r.trans ⟨⟨e.budget, ?_, ?_, ?_, ?_, ?_, ?_, ?_, ?_, lowMark, ?_, fun src => ⟨(m src).1, (m src).2.1⟩⟩, fun _ => e.sameStates⟩
  · rw [e.power]; exact fun _ => rfl
  · rw [e.links]; exact fun _ => rfl
  · rw [e.lenses]; exact fun _ => rfl
  · rw [e.lenses]; exact fun _ => rfl
  · rw [e.zones]; exact fun _ => rfl
  · rw [e.zones]; exact fun _ => rfl
  · rw [e.echo]; exact fun _ => rfl
  · rw [e.echo]; exact fun _ => rfl
  · rw [e.shot]

end Hub.Keeps

end Sys2Proof.Machine
end

