-- ==== Sys2Proof/Proofs/Dispatch.lean ====
section
/-! PROOF. O9 and O14: what the meaning of every command and event does to the settings and to the states of links and power. -/

namespace Sys2Proof.Machine

/-! ## The operations behind the commands -/

namespace Hub.Keeps

variable {S : Prop} {a h : Hub}

theorem overrun (k : StartSource) (r : Hub.Keeps S a h) : Hub.Keeps S a (h.overrun k) := (r.modShot _ rfl).fire _ _

theorem beginCycle (r : Hub.Keeps S a h) : Hub.Keeps S a h.beginCycle := by
  unfold Hub.beginCycle
  split
  · exact r
  · exact foldl _ (fun _ i r => r.openSlot i) _ (foldl _ (fun _ i r => r.issueSlotMove i) _ (r.modShot _ rfl))

theorem start (k : StartSource) (r : Hub.Keeps S a h) : Hub.Keeps S a (h.start k) := by
  unfold Hub.start
  split
  · exact r.beginCycle
  · exact r.overrun k
  · exact r

theorem encoderEdge (x y : Bool) (r : Hub.Keeps S a h) : Hub.Keeps S a (h.encoderEdge x y) := by
  unfold Hub.encoderEdge
  dsimp only
  split
  · split
    · exact ((r.modTime _).modShot _ rfl).start _
    · exact r.modTime _
  · exact r.modTime _

theorem triggerLine (r : Hub.Keeps S a h) : Hub.Keeps S a h.triggerLine := by
  unfold Hub.triggerLine
  split
  · exact r.start _
  · exact r

theorem lookForJob (r : Hub.Keeps S a h) : Hub.Keeps S a h.lookForJob := by
  unfold Hub.lookForJob
  split
  · exact r
  · split
    · exact r
    · exact r.modEcho _ rfl

theorem queueJob (p : Port) (k : EchoKind) (r : Hub.Keeps S a h) : Hub.Keeps S a (h.queueJob p k) := (r.modEcho _ rfl).lookForJob

theorem requestAuto (p : Port) (r : Hub.Keeps S a h) : Hub.Keeps S a (h.requestAuto p) := by
  unfold Hub.requestAuto
  split
  · exact r.queueJob p .auto
  · exact r

theorem storeResult (p : Port) (x : EchoResult) (r : Hub.Keeps S a h) : Hub.Keeps S a (h.storeResult p x) := r.modEchoPort _ _ rfl rfl

theorem linkChange (p : Port) (c : LinkCause) (r : Hub.Keeps S a h) : Hub.Keeps S a (h.linkChange p c) := r.fire _ _

theorem buildLens (p : Port) (c : CameraRecord) (r : Hub.Keeps S a h) : Hub.Keeps S a (h.buildLens p c) := r.modLens _ _ rfl rfl

theorem countWordError (p : Port) (r : Hub.Keeps S a h) : Hub.Keeps S a (h.countWordError p) := r.modLink _ _ rfl fun _ => rfl

theorem wordEnd (p : Port) (c : OnCable) (r : Hub.Keeps S a h) : Hub.Keeps S a (h.wordEnd p c) := by
  have free := r.modLink p (fun l => { l with cable := none }) rfl fun _ => rfl
  have pump : ∀ l : Link, l.pump.1.threshold = l.threshold ∧ l.pump.1.state = l.state := fun l => by
    unfold Link.pump; split <;> exact ⟨rfl, rfl⟩
  have sent : Hub.Keeps S a
      (match c.word.triggerTag? with
        | some t => if c.reported then h.modLink p fun l => { l with cable := none }
          else (h.modLink p fun l => { l with cable := none }).triggerSent t
        | none => h.modLink p fun l => { l with cable := none }) := by
    split
    · split
      · exact free
      · exact free.triggerSent _
    · exact free
  unfold Hub.wordEnd
  dsimp only
  split
  · exact (sent.modLink _ _ (pump _).1 fun _ => (pump _).2).triggerNotSent _
  · exact sent.modLink _ _ (pump _).1 fun _ => (pump _).2

theorem helloRestart (p : Port) (c : CameraRecord) (r : Hub.Keeps S a h) : Hub.Keeps S a (h.helloRestart p c) :=
  (((r.modLink _ _ rfl fun _ => rfl).abandon _).buildLens _ _).linkChange _ _

/-! ### Operations that change a state -/

theorem enterAcquire (p : Port) (rate : Rate) (c : LinkCause) (r : Hub.Keeps False a h) : Hub.Keeps False a (h.enterAcquire p rate c) :=
  ((((r.modLink p (Link.toAcquire rate h.now) rfl nofun).offerWord _ _).reportUnsent _).linkChange _ _).abandon _

theorem linkStart (p : Port) (r : Hub.Keeps False a h) : Hub.Keeps False a (h.linkStart p) := by
  unfold Hub.linkStart
  dsimp only
  split
  · exact ((r.modLink _ _ rfl nofun).offerWord _ _).linkChange _ _
  · exact (r.modLink _ _ rfl nofun).linkChange _ _

theorem linkStop (p : Port) (r : Hub.Keeps False a h) : Hub.Keeps False a (h.linkStop p) := by
  have down : Hub.Keeps False a (if (h.links.get p).state == .down then h
      else ((h.modLink p (Link.toDown h.now)).linkChange p .powerOff).reportUnsent (h.links.get p).unsent) := by
    split
    · exact r
    · exact ((r.modLink _ _ rfl nofun).linkChange _ _).reportUnsent _
  exact ((down.dropFilling _ _ _).abandon _).modLens _ _ rfl rfl

theorem countDrop (p : Port) (r : Hub.Keeps S a h) : Hub.Keeps S a (h.countDrop p) := r.putBin _ _ _ _ _

theorem lockLostUp (p : Port) (r : Hub.Keeps False a h) : Hub.Keeps False a (h.lockLostUp p) := by
  have dropped := ((r.modLink p (fun l => { l with
      sinceUp := satInc 255 l.sinceUp, total := satInc Config.max16 l.total, locked := false }) rfl nofun).countDrop p).dropFilling
      p .linkLost .link
  unfold Hub.lockLostUp
  dsimp only
  split
  · exact dropped.enterAcquire _ _ _
  · exact (dropped.modLink _ _ rfl nofun).reportUnsent _

theorem helloAcquire (p : Port) (c : CameraRecord) (r : Hub.Keeps False a h) : Hub.Keeps False a (h.helloAcquire p c) :=
  ((r.modLink _ _ rfl nofun).linkChange _ _).buildLens _ _

theorem leaveOn (p : Port) (was : Bool) (r : Hub.Keeps False a h) : Hub.Keeps False a (h.leaveOn p was) := by
  unfold Hub.leaveOn
  split
  · exact r.linkStop p
  · exact r

theorem trip (p : Port) (c : TripCause) (r : Hub.Keeps False a h) : Hub.Keeps False a (h.trip p c) := by
  have setup : (Power.trip c (h.power.get p)).setup = (h.power.get p).setup := by unfold Power.trip; dsimp only; split <;> rfl
  have left := (r.modPower p (Power.trip c) setup nofun).leaveOn p ((h.power.get p).state == .on)
  have served := (left.activate (.ofPort p .powerFault)).serveIfBelow h.reservedSum
  unfold Hub.trip
  dsimp only
  split
  · exact served.requestAuto p
  · exact served

theorem sample (p : Port) (n : Nat) (r : Hub.Keeps False a h) : Hub.Keeps False a (h.sample p n) := by
  have setup : (Power.sampled n (h.power.get p)).setup = (h.power.get p).setup := by
    unfold Power.sampled; dsimp only; (repeat' split) <;> rfl
  unfold Hub.sample
  dsimp only
  split
  · exact (r.modPower _ _ setup nofun).trip _ _
  · exact r.modPower _ _ setup nofun

theorem inrushEnd (p : Port) (r : Hub.Keeps False a h) : Hub.Keeps False a (h.inrushEnd p) := by
  unfold Hub.inrushEnd
  split
  · exact (r.modPower _ _ rfl nofun).linkStart _
  · exact r.trip _ _

theorem retry (p : Port) (r : Hub.Keeps False a h) : Hub.Keeps False a (h.retry p) := r.modPower _ _ rfl nofun

theorem turnOff (p : Port) (r : Hub.Keeps False a h) : Hub.Keeps False a (h.turnOff p) := by
  refine ((r.modPower p Power.toOff ?_ nofun).leaveOn p _).serveIfBelow _
  unfold Power.toOff; split <;> rfl

theorem enterHunt (p : Port) (restore : Bool) (r : Hub.Keeps False a h) : Hub.Keeps False a (h.enterHunt p restore) := by
  refine ((r.modPower p (Power.toHunt restore) ?_ nofun).leaveOn p _).serveIfBelow _
  unfold Power.toHunt; split <;> rfl

theorem endHunt (p : Port) (r : Hub.Keeps False a h) : Hub.Keeps False a (h.endHunt p) := by
  refine r.modPower p _ ?_ nofun
  split_ifs <;> rfl

theorem autoResult (p : Port) (located : Bool) (r : Hub.Keeps False a h) : Hub.Keeps False a (h.autoResult p located) := by
  unfold Hub.autoResult
  dsimp only
  split_ifs
  · exact r
  · exact (r.modPower _ _ rfl nofun).serveIfBelow _
  · exact r.retry p
  · exact r

theorem completeJob (j : EchoJob) (r : Hub.Keeps False a h) : Hub.Keeps False a (h.completeJob j) := by
  have learned : Hub.Keeps False a (if j.kind = .learn then h.modEchoPort j.port fun e => { e with baseline := some j.learned } else h) := by
    split
    · exact r.modEchoPort _ _ rfl rfl
    · exact r
  have stored := (learned.storeResult j.port (j.result h.now)).modEcho (fun e => { e with sampler := none }) rfl
  unfold Hub.completeJob
  dsimp only
  split
  · exact ((stored.endHunt _).fire _ _).lookForJob
  · exact ((stored.autoResult _ _).fire _ _).lookForJob
  · exact (stored.fire _ _).lookForJob

/-! ### The uplink -/

theorem repend (src : Source) (r : Hub.Keeps S a h) : Hub.Keeps S a (h.repend src) := by
  unfold Hub.repend
  dsimp only
  split
  · refine r.modRouter _ fun other => ?_
    rw [Router.entry_modEntry]
    split <;> simp_all
  · exact r

theorem reportLost (src : Source) (n : Nat) (r : Hub.Keeps S a h) : Hub.Keeps S a (h.reportLost src n) := by
  have cleared : Hub.Keeps S a (h.modEntry src fun e => { e with awaiting := false }) := r.modRouter _ fun other => by
    rw [Router.entry_modEntry]
    split <;> simp_all
  unfold Hub.reportLost
  dsimp only
  split
  · exact cleared
  · refine cleared.modRouter _ fun other => ?_
    rw [Router.entry_modEntry]
    split <;> simp_all

theorem recordLost (x : CtrlRec) (r : Hub.Keeps S a h) : Hub.Keeps S a (h.recordLost x) := by
  cases x with
  | reply _ => exact r
  | report src n _ => exact r.reportLost src n

theorem linkUp (r : Hub.Keeps S a h) : Hub.Keeps S a h.linkUp := (foldl _ (fun _ src r => r.repend src) _ (r.modUplink _)).finish

theorem linkDown (r : Hub.Keeps S a h) : Hub.Keeps S a h.linkDown :=
  foldl _ (fun _ p r => r.loseSending p) _ (foldl _ (fun _ x r => r.recordLost x) _ (r.modUplink _))

theorem imageSent (frame : Option FrameTag) (closing : Option DeliveryStatus) (r : Hub.Keeps S a h) :
    Hub.Keeps S a (h.imageSent frame closing) := by
  unfold Hub.imageSent
  dsimp only
  split
  · exact (r.modUplink _).finish
  · split
    · exact (((r.modUplink _).modDelivery _ _).frameDelivered _ _).finish
    · exact ((r.modUplink _).modDelivery _ _).finish

theorem discard (c : DiscardCause) (r : Hub.Keeps S a h) : Hub.Keeps S a (h.discard c) := by
  unfold Hub.discard
  dsimp only
  split
  · exact (r.modUplink _).fire _ _
  · exact ((r.modUplink _).fire _ _).modUplink _

theorem ackEntry (src : Source) (r : Hub.Keeps S a h) : Hub.Keeps S a (h.ackEntry src) := by
  have cleared : Hub.Keeps S a (h.modEntry src fun e => { e with awaiting := false }) := r.modRouter _ fun other => by
    rw [Router.entry_modEntry]
    split <;> simp_all
  have counted : Hub.Keeps S a ((h.modEntry src fun e => { e with awaiting := false }).modEntry src fun e => { e with count := 0 }) :=
    cleared.modRouter _ fun other => by
      rw [Router.entry_modEntry]
      split <;> simp_all
  have replied := Hub.repliedTo_offerReport src true (h.modEntry src fun e => { e with awaiting := false })
  exact iteInduction (fun _ => cleared.sameSetup replied.1 replied.2.1) fun _ => counted

theorem eventAck (c : Cmd) (r : Hub.Keeps S a h) : Hub.Keeps S a (Machine.eventAck c h).hub := by
  unfold Machine.eventAck
  dsimp only
  split
  · exact r
  · exact foldl _ (fun _ src r => r.ackEntry src) _ r

end Hub.Keeps

end Sys2Proof.Machine
end

