-- ==== Sys2Proof/Proofs/Lawful.lean ====
section
/-! PROOF. O9 and O14, assembled: every command and event keeps the law of unpowered links, and changes no setting but its own. -/

namespace Sys2Proof.Machine

/-! ## Settings by name -/

/-- The settings that only their own commands write. -/
inductive Setting where
  | budget | power | threshold | presets | lens | zone | current | echo | map | lowMark | staged | masks
deriving DecidableEq

/-- Two hubs agree in a setting. -/
def Hub.agreeOn (a b : Hub) : Setting → Prop
  | .budget => b.budget = a.budget
  | .power => ∀ q, (b.power.get q).setup = (a.power.get q).setup
  | .threshold => ∀ q, (b.links.get q).threshold = (a.links.get q).threshold
  | .presets => ∀ q, (b.lenses.get q).presets = (a.lenses.get q).presets
  | .lens => ∀ q, (b.lenses.get q).setup = (a.lenses.get q).setup
  | .zone => ∀ q, (b.zones.get q).setup = (a.zones.get q).setup
  | .current => ∀ q, (b.zones.get q).current = (a.zones.get q).current
  | .echo => ∀ q, (b.echo.ports.get q).settings = (a.echo.ports.get q).settings
  | .map => ∀ q, (b.echo.ports.get q).map = (a.echo.ports.get q).map
  | .lowMark => b.store.lowMark = a.store.lowMark
  | .staged => b.shot.staged = a.shot.staged
  | .masks => ∀ src, (b.router.entry src).masked = (a.router.entry src).masked ∧ (b.router.entry src).tag = (a.router.entry src).tag

theorem Hub.sameSettings.agreeOn {a b : Hub} (e : a.sameSettings b) (x : Setting) : a.agreeOn b x := by
  cases x
  · exact e.budget
  · exact e.power
  · exact e.threshold
  · exact e.presets
  · exact e.lens
  · exact e.zone
  · exact e.current
  · exact e.echo
  · exact e.map
  · exact e.lowMark
  · exact e.staged
  · exact e.masks

theorem Hub.agreeOn_trans {a b c : Hub} {x : Setting} (h1 : a.agreeOn b x) (h2 : b.agreeOn c x) : a.agreeOn c x := by
  cases x with
  | budget => exact Eq.trans h2 h1
  | lowMark => exact Eq.trans h2 h1
  | staged => exact Eq.trans h2 h1
  | masks => exact fun src => ⟨(h2 src).1.trans (h1 src).1, (h2 src).2.trans (h1 src).2⟩
  | power => exact fun q => (h2 q).trans (h1 q)
  | threshold => exact fun q => (h2 q).trans (h1 q)
  | presets => exact fun q => (h2 q).trans (h1 q)
  | lens => exact fun q => (h2 q).trans (h1 q)
  | zone => exact fun q => (h2 q).trans (h1 q)
  | current => exact fun q => (h2 q).trans (h1 q)
  | echo => exact fun q => (h2 q).trans (h1 q)
  | map => exact fun q => (h2 q).trans (h1 q)

/-- The settings that a command writes. -/
def writtenBy : Instr → List Setting
  | .budgetSet _ => [.budget]
  | .powerSetup _ => [.power]
  | .linkSetup _ => [.threshold]
  | .presetWrite _ => [.presets]
  | .lensSetup _ => [.lens]
  | .zoneSetup _ => [.zone]
  | .pose _ => [.current]
  | .echoSetup _ => [.echo]
  | .cableMapWrite _ => [.map]
  | .storeSetup _ => [.lowMark]
  | .slotWrite _ | .tableHeader _ => [.staged]
  | .hubReset _ => [.staged, .masks]
  | .routeSet _ => [.masks]
  | _ => []

/-! ## What a meaning may do -/

/-- From the first hub to the second the law of unpowered links stays, and no setting changed but those listed. -/
structure Hub.Lawful (w : List Setting) (a b : Hub) : Prop where
  law : a.linksDown → b.linksDown
  others : ∀ x, x ∉ w → a.agreeOn b x

theorem Hub.Lawful.trans {w : List Setting} {a b c : Hub} (h1 : a.Lawful w b) (h2 : b.Lawful w c) : a.Lawful w c :=
  ⟨h2.law ∘ h1.law, fun x k => Hub.agreeOn_trans (h1.others x k) (h2.others x k)⟩

/-- An operation that keeps settings and states. -/
theorem Hub.Keeps.lawful {w : List Setting} {a b : Hub} (k : Hub.Keeps True a b) : a.Lawful w b :=
  ⟨fun law => (k.states trivial).linksDown law, fun x _ => k.settings.agreeOn x⟩

/-- An operation that keeps settings and changes a state lawfully. -/
theorem Hub.Keeps.lawful_of {w : List Setting} {a b : Hub} (k : Hub.Keeps False a b) (law : a.linksDown → b.linksDown) : a.Lawful w b :=
  ⟨law, fun x _ => k.settings.agreeOn x⟩

theorem Hub.Lawful.refl (w : List Setting) (h : Hub) : h.Lawful w h := (Hub.Keeps.refl h).lawful

theorem Hub.Lawful.serve {w : List Setting} {a b : Hub} (k : a.Lawful w b) : a.Lawful w b.serve :=
  k.trans (Hub.Keeps.refl b).serve.lawful

theorem Hub.Lawful.serveIfBelow {w : List Setting} {a b : Hub} (n : Nat) (k : a.Lawful w b) : a.Lawful w (b.serveIfBelow n) :=
  k.trans ((Hub.Keeps.refl b).serveIfBelow n).lawful

theorem Hub.Lawful.finish {w : List Setting} {a b : Hub} (k : a.Lawful w b) : a.Lawful w b.finish :=
  k.trans (Hub.Keeps.refl b).finish.lawful

/-- Changes of a part that no setting but those listed stands in, with links and power as they were. -/
theorem lawful_of_onlyIn {w : List Setting} {l : List Part} {a b : Hub} (e : a.onlyIn l b) (others : ∀ x, x ∉ w → a.agreeOn b x)
    (h1 : Part.links ∉ l := by decide) (h2 : Part.power ∉ l := by decide) : a.Lawful w b :=
  ⟨(e.sameStates h1 h2).linksDown, others⟩

/-! ## How a command is taken -/

theorem lawful_takeCommand {w : List Setting} {kind : Nat} {c : Cmd} {ok : Bool} {body : Hub → Answer} {h : Hub}
    (k : h.Lawful w (body h).hub) : h.Lawful w (h.takeCommand kind c ok body) := by
  have answered : h.Lawful w (if ok then body h else refuse .badLength h).hub := by
    split
    · exact k
    · exact .refl w h
  unfold Hub.takeCommand
  dsimp only
  split
  · exact .refl w h
  · split
    · exact ((Hub.Keeps.refl h).discard _).finish.lawful
    · exact answered.trans ((Hub.Keeps.refl _).modUplink _).finish.lawful

theorem lawful_withPort {w : List Setting} {c : Cmd} {body : Port → Hub → Answer} {h : Hub} (k : ∀ p, h.Lawful w (body p h).hub) :
    h.Lawful w (withPort c body h).hub := by
  unfold withPort
  split
  · exact k _
  · exact .refl w h

theorem lawful_withFlags {w : List Setting} {ok : Bool} {body : Hub → Answer} {h : Hub} (k : h.Lawful w (body h).hub) :
    h.Lawful w (withFlags ok body h).hub := by
  unfold withFlags
  split
  · exact k
  · exact .refl w h

theorem lawful_withPreset {w : List Setting} {n : Nat} {body : Fin 16 → Hub → Answer} {h : Hub} (k : ∀ i, h.Lawful w (body i h).hub) :
    h.Lawful w (withPreset n body h).hub := by
  unfold withPreset
  split
  · exact k _
  · exact .refl w h

theorem lawful_withSource {w : List Setting} {c : Cmd} {n : Nat} {body : Source → Hub → Answer} {h : Hub}
    (k : ∀ src, h.Lawful w (body src h).hub) : h.Lawful w (withSource c n body h).hub := by
  unfold withSource
  split
  · exact lawful_withPort fun p => k _
  · split
    · exact k _
    · exact .refl w h
  · exact .refl w h

/-! ## Camera ports and power (01, 02) -/

theorem lawful_linkRetrain {w : List Setting} (p : Port) (h : Hub) : h.Lawful w (linkRetrain p h).hub := by
  unfold linkRetrain
  dsimp only
  split
  · exact .refl w h
  · rename_i up
    refine ((((Hub.Keeps.refl h).modLink _ _ rfl nofun).enterAcquire p .full .retrain).dropFilling p .linkLost .link).lawful_of fun law => ?_
    have locked : (h.modLink p fun x => { x with locked := false }).linksDown := (sameStates_modLink p _ h rfl).linksDown law
    exact linksDown_dropFilling (linksDown_enterAcquire locked (law.on (by simp [up])))
  · rename_i live _
    exact ((Hub.Keeps.refl h).enterAcquire p .full .retrain).lawful_of fun law => linksDown_enterAcquire law (law.on live)

theorem lawful_linkSetup (c : Cmd) (p : Port) (h : Hub) : h.Lawful [.threshold] (linkSetup c p h).hub := by
  refine ⟨(sameStates_modLink p _ h rfl).linksDown, fun x k => ?_⟩
  cases x
  case threshold => exact absurd List.mem_cons_self k
  all_goals simp [Hub.agreeOn, linkSetup]

theorem lawful_powerOn {w : List Setting} (p : Port) (h : Hub) : h.Lawful w (powerOn p h).hub := by
  have started (off : (h.power.get p).state ≠ .on) : h.Lawful w (h.modPower p Power.startUp) :=
    ((Hub.Keeps.refl h).modPower p Power.startUp rfl nofun).lawful_of fun law => linksDown_modPower_down law (law p off)
  unfold powerOn
  dsimp only
  split
  · exact .refl w h
  · exact .refl w h
  · exact .refl w h
  · exact .refl w h
  all_goals
    rename_i off
    split_ifs
    · exact .refl w h
    · exact started (by simp [off])
    · exact .refl w h

theorem lawful_powerOff {w : List Setting} (p : Port) (h : Hub) : h.Lawful w (powerOff p h).hub := by
  unfold powerOff
  split
  · exact .refl w h
  · exact (((Hub.Keeps.refl h).modPower p _ rfl fun _ => rfl).serveIfBelow _).lawful
  · exact ((Hub.Keeps.refl h).turnOff p).lawful_of fun law => linksDown_serveIfBelow _ (linksDown_leaveOn law)

theorem lawful_powerSetup (c : Cmd) (p : Port) (h : Hub) : h.Lawful [.power] (powerSetup c p h).hub := by
  unfold powerSetup
  dsimp only
  split
  · exact .refl _ h
  · refine Hub.Lawful.serveIfBelow _ ⟨(sameStates_modPower p _ h rfl).linksDown, fun x k => ?_⟩
    cases x
    case power => exact absurd List.mem_cons_self k
    all_goals simp [Hub.agreeOn]

theorem lawful_budgetSet (c : Cmd) (h : Hub) : h.Lawful [.budget] (budgetSet c h).hub := by
  have set (n : Nat) : h.Lawful [.budget] (h.setBudget n) := by
    refine lawful_of_onlyIn (l := [.budget]) (Hub.onlyIn_of_hide (by simp)) fun x k => ?_
    cases x
    case budget => exact absurd List.mem_cons_self k
    all_goals simp [Hub.agreeOn]
  unfold budgetSet
  dsimp only
  split
  · exact .refl _ h
  · dsimp only
    split
    · exact (set _).serve
    · exact set _

/-! ## Lens settings (03) -/

theorem lawful_presetWrite (c : Cmd) (p : Port) (i : Fin 16) (h : Hub) : h.Lawful [.presets] (presetWrite c p i h).hub := by
  refine lawful_of_onlyIn (l := [.lenses]) (Hub.onlyIn_of_hide (by simp [presetWrite])) fun x k => ?_
  cases x
  case presets => exact absurd List.mem_cons_self k
  case lens => exact fun q => PerPort.get_mod_attr Lens.setup _ _ p q rfl
  all_goals simp [Hub.agreeOn, presetWrite]

theorem lawful_lensSetup (c : Cmd) (p : Port) (h : Hub) : h.Lawful [.lens] (lensSetup c p h).hub := by
  refine lawful_of_onlyIn (l := [.lenses]) (Hub.onlyIn_of_hide (by simp [lensSetup])) fun x k => ?_
  cases x
  case lens => exact absurd List.mem_cons_self k
  case presets => exact fun q => PerPort.get_mod_attr Lens.presets _ _ p q rfl
  all_goals simp [Hub.agreeOn, lensSetup]

theorem lawful_moveAnswer {w : List Setting} {p : Port} {a : MoveAnswer} {more : List Byte} {h : Hub} (k : h.Lawful w a.hub) :
    h.Lawful w (moveAnswer p a more).hub := k

theorem lawful_presetGo {w : List Setting} (p : Port) (i : Fin 16) (h : Hub) : h.Lawful w (presetGo p i h).hub := by
  unfold presetGo
  split
  · exact .refl w h
  · exact lawful_moveAnswer ((Hub.Keeps.refl h).issueMove p _).lawful

theorem lawful_lensPush {w : List Setting} (p : Port) (h : Hub) : h.Lawful w (lensPush p h).hub := by
  unfold lensPush
  dsimp only
  split
  · exact .refl w h
  · split
    · exact .refl w h
    · exact ((Hub.Keeps.refl h).modLens p _ rfl rfl).lawful

theorem lawful_lensPop {w : List Setting} (p : Port) (h : Hub) : h.Lawful w (lensPop p h).hub := by
  unfold lensPop
  split
  · exact .refl w h
  · split
    · exact .refl w h
    · exact lawful_moveAnswer (((Hub.Keeps.refl h).modLens p _ rfl rfl).issueMove p _).lawful

theorem lawful_lensMove {w : List Setting} (c : Cmd) (p : Port) (h : Hub) : h.Lawful w (lensMove c p h).hub := by
  unfold lensMove
  split
  · exact .refl w h
  · exact lawful_moveAnswer ((Hub.Keeps.refl h).issueMove p _).lawful

theorem lawful_lensStatus {w : List Setting} (p : Port) (h : Hub) : h.Lawful w (lensStatus p h).hub := by
  have cleared := (Hub.Keeps.refl (S := True) h).modLens p (fun l => { l with overflow := false }) rfl rfl
  unfold lensStatus
  dsimp only
  split
  · exact cleared.lawful
  · exact (cleared.draw 46).lawful

/-! ## The shot cycle (04) -/

theorem lawful_modStaged (f : ShotTable → ShotTable) (h : Hub) : h.Lawful [.staged] (h.modStaged f) := by
  refine lawful_of_onlyIn (l := [.shot]) (Hub.onlyIn_of_hide (by simp [Hub.modStaged])) fun x k => ?_
  cases x
  case staged => exact absurd List.mem_cons_self k
  all_goals simp [Hub.agreeOn, Hub.modStaged]

theorem lawful_slotWrite (c : Cmd) (h : Hub) : h.Lawful [.staged] (slotWrite c h).hub := by
  unfold slotWrite writeSlot
  dsimp only
  split_ifs
  · dsimp only
    exact lawful_modStaged _ h
  · exact .refl _ h
  · dsimp only
    exact lawful_modStaged _ h
  · exact .refl _ h
  · exact .refl _ h

theorem lawful_tableHeader (c : Cmd) (h : Hub) : h.Lawful [.staged] (tableHeader c h).hub := by
  unfold tableHeader
  split
  · exact .refl _ h
  · dsimp only
    exact lawful_modStaged _ h

theorem staged_applyPending (pos : BitVec 32) (x : Shot) : (x.applyPending pos).staged = x.staged := by
  unfold Shot.applyPending
  split <;> rfl

theorem lawful_tableCommit {w : List Setting} (h : Hub) : h.Lawful w (tableCommit h).hub := by
  unfold tableCommit
  split
  · exact .refl w h
  · refine ((Hub.Keeps.refl h).modShot _ ?_).lawful
    unfold Shot.commit
    split <;> rfl

theorem lawful_tableRead {w : List Setting} (c : Cmd) (h : Hub) : h.Lawful w (tableRead c h).hub := by
  unfold tableRead
  split
  · exact .refl w h
  · exact .refl w h
  · exact ((Hub.Keeps.refl h).draw 327).lawful

theorem lawful_cycleRun {w : List Setting} (h : Hub) : h.Lawful w (cycleRun h).hub := by
  unfold cycleRun
  split
  · exact .refl w h
  · dsimp only
    exact ((Hub.Keeps.refl h).modShot _ rfl).lawful
  · exact .refl w h
  · dsimp only
    exact ((Hub.Keeps.refl h).modShot _ rfl).lawful

theorem lawful_cycleFire {w : List Setting} (h : Hub) : h.Lawful w (cycleFire h).hub := by
  unfold cycleFire
  split
  · exact ((Hub.Keeps.refl h).start _).lawful
  · exact ((Hub.Keeps.refl h).start _).lawful
  · exact .refl w h

theorem lawful_cycleStop {w : List Setting} (c : Cmd) (h : Hub) : h.Lawful w (cycleStop c h).hub := by
  have stopped : Hub.Keeps True h h.stopNow :=
    (Hub.Keeps.foldl _ (fun _ x r => r.endFlight x .stopped) _ ((Hub.Keeps.refl h).modShot _ rfl)).modShot _ (staged_applyPending _ _)
  unfold cycleStop
  split
  · exact .refl w h
  · split
    · exact .refl w h
    · dsimp only
      exact ((Hub.Keeps.refl h).modShot _ rfl).lawful
    · split
      · dsimp only
        exact ((Hub.Keeps.refl h).modShot _ rfl).lawful
      · exact stopped.lawful

theorem lawful_cycleStatus {w : List Setting} (c : Cmd) (h : Hub) : h.Lawful w (cycleStatus c h).hub := by
  have drawn : Hub.Keeps True h h.cycleStatus.1 := by
    unfold Hub.cycleStatus
    dsimp only
    (repeat' split) <;> simp only <;> (repeat' apply Hub.Keeps.draw) <;> exact Hub.Keeps.refl h
  unfold cycleStatus
  dsimp only
  split
  · exact (drawn.modShot _ rfl).lawful
  · exact drawn.lawful

/-! ## Frame store, delivery, zones (05, 06, 07) -/

theorem lawful_storeSetup (c : Cmd) (h : Hub) : h.Lawful [.lowMark] (storeSetup c h).hub := by
  have set (n : Nat) : h.Lawful [.lowMark] (h.modStore fun st => { st with lowMark := n }) := by
    refine lawful_of_onlyIn (l := [.store]) (Hub.onlyIn_of_hide (by simp)) fun x k => ?_
    cases x
    case lowMark => exact absurd List.mem_cons_self k
    all_goals simp [Hub.agreeOn]
  exact (set _).trans ((Hub.Keeps.refl _).reviewLow _).lawful

theorem lawful_storeStatus {w : List Setting} (c : Cmd) (h : Hub) : h.Lawful w (storeStatus c h).hub := by
  unfold storeStatus
  dsimp only
  split
  · exact ((Hub.Keeps.refl h).modStore _ rfl).lawful
  · exact .refl w h

theorem lawful_deliveryStatus {w : List Setting} (c : Cmd) (h : Hub) : h.Lawful w (deliveryStatus c h).hub := by
  unfold deliveryStatus
  dsimp only
  split
  · exact Hub.Keeps.lawful ⟨{ (Hub.Keeps.refl (S := True) h).settings with }, fun _ => Hub.sameStates_refl h⟩
  · exact .refl w h

theorem lawful_applyPose (l : List (Port × Zone)) (h : Hub) : h.Lawful [.current] (h.applyPose l) := by
  unfold Hub.applyPose
  induction l generalizing h with
  | nil => exact .refl _ h
  | cons q rest ih =>
    refine Hub.Lawful.trans (lawful_of_onlyIn (l := [.zones]) (Hub.onlyIn_of_hide (by simp)) fun x k => ?_) (ih _)
    cases x
    case current => exact absurd List.mem_cons_self k
    case zone => exact fun p => PerPort.get_mod_attr ZoneMap.setup _ _ q.1 p rfl
    all_goals simp [Hub.agreeOn]

theorem lawful_pose (c : Cmd) (h : Hub) : h.Lawful [.current] (pose c h).hub := by
  unfold pose
  dsimp only
  split
  · exact .refl _ h
  · split
    · exact .refl _ h
    · exact lawful_applyPose _ h

theorem lawful_zoneSetup (c : Cmd) (p : Port) (h : Hub) : h.Lawful [.zone] (zoneSetup c p h).hub := by
  refine lawful_of_onlyIn (l := [.zones]) (Hub.onlyIn_of_hide (by simp [zoneSetup])) fun x k => ?_
  cases x
  case zone => exact absurd List.mem_cons_self k
  case current => exact fun q => PerPort.get_mod_attr ZoneMap.current _ _ p q rfl
  all_goals simp [Hub.agreeOn, zoneSetup]

theorem lawful_zoneClear {w : List Setting} (c : Cmd) (p : Port) (h : Hub) : h.Lawful w (zoneClear c p h).hub := by
  unfold zoneClear
  dsimp only
  split_ifs
  · exact ((Hub.Keeps.refl h).modZone p _ rfl rfl).lawful
  · exact ((Hub.Keeps.refl h).modZone p _ rfl rfl).lawful
  · exact .refl w h

/-! ## Echo location (08) -/

theorem lawful_echoSetup (c : Cmd) (p : Port) (h : Hub) : h.Lawful [.echo] (echoSetup c p h).hub := by
  unfold echoSetup
  dsimp only
  split
  · refine lawful_of_onlyIn (l := [.echo]) (Hub.onlyIn_of_hide (by simp)) fun x k => ?_
    cases x
    case echo => exact absurd List.mem_cons_self k
    case map => exact fun q => PerPort.get_mod_attr EchoPort.map _ _ p q rfl
    all_goals simp [Hub.agreeOn, Hub.modEchoPort]
  · exact .refl _ h

theorem lawful_cableMapWrite (c : Cmd) (p : Port) (h : Hub) : h.Lawful [.map] (cableMapWrite c p h).hub := by
  unfold cableMapWrite
  dsimp only
  split
  · exact .refl _ h
  · refine lawful_of_onlyIn (l := [.echo]) (Hub.onlyIn_of_hide (by simp)) fun x k => ?_
    cases x
    case map => exact absurd List.mem_cons_self k
    case echo => exact fun q => PerPort.get_mod_attr EchoPort.settings _ _ p q rfl
    all_goals simp [Hub.agreeOn, Hub.modEchoPort]

theorem lawful_baselineLearn {w : List Setting} (p : Port) (h : Hub) : h.Lawful w (baselineLearn p h).hub := by
  have queued := (Hub.Keeps.refl (S := True) h).queueJob p .learn
  unfold baselineLearn
  split
  · split
    · exact .refl w h
    · exact queued.lawful
  · split
    · exact .refl w h
    · exact queued.lawful
  · exact .refl w h

theorem lawful_baselineWrite {w : List Setting} (c : Cmd) (p : Port) (h : Hub) : h.Lawful w (baselineWrite c p h).hub := by
  unfold baselineWrite
  dsimp only
  split_ifs
  · exact .refl w h
  · exact .refl w h
  · exact ((Hub.Keeps.refl h).modEchoPort p _ rfl rfl).lawful
  · exact ((Hub.Keeps.refl h).modEchoPort p _ rfl rfl).lawful

theorem lawful_baselineRead {w : List Setting} (p : Port) (h : Hub) : h.Lawful w (baselineRead p h).hub := by
  unfold baselineRead
  split <;> exact .refl w h

theorem lawful_hunt {w : List Setting} (c : Cmd) (p : Port) (h : Hub) : h.Lawful w (hunt c p h).hub := by
  unfold hunt
  dsimp only
  split_ifs
  · exact .refl w h
  · exact .refl w h
  · exact .refl w h
  · have entered : h.Lawful w (h.enterHunt p (flagAt c.payload 0)) :=
      ((Hub.Keeps.refl h).enterHunt p _).lawful_of fun law => linksDown_serveIfBelow _ (linksDown_leaveOn law)
    exact entered.trans ((Hub.Keeps.refl _).queueJob p .hunt).lawful

/-! ## The uplink and event routing (09, 10) -/

theorem lawful_uplinkStatus {w : List Setting} (c : Cmd) (h : Hub) : h.Lawful w (uplinkStatus c h).hub := by
  unfold uplinkStatus
  dsimp only
  split
  · exact ((Hub.Keeps.refl h).modUplink _).lawful
  · exact .refl w h

theorem lawful_routeSet (c : Cmd) (src : Source) (h : Hub) : h.Lawful [.masks] (routeSet c src h).hub := by
  have e : h.onlyIn reportParts ((h.setMask src (flagAt c.payload 1)).setTag src (BitVec.ofNat 8 (u16At c.payload 2))) := by
    refine Hub.onlyIn_of_hide ?_
    unfold Hub.setTag Hub.setMask
    dsimp only
    split_ifs <;> simp
  unfold routeSet
  dsimp only
  split
  · exact .refl _ h
  · refine lawful_of_onlyIn e fun x k => ?_
    cases x
    case masks => exact absurd List.mem_cons_self k
    all_goals simp [Hub.agreeOn, e.budget, e.power, e.links, e.lenses, e.zones, e.echo, e.store, e.shot]

/-! ## Resets -/

/-- R46, R21: the power goes OFF and the link DOWN with it. -/
theorem linksDown_portResetPowerLink {p : Port} {h : Hub} (law : h.linksDown) : ((h.portResetPower p).portResetLink p).linksDown := by
  intro q off
  have other : ∀ g : Hub, (g.portResetLink p).links.get q = if q = p then Link.portReset g.now (g.links.get p) else g.links.get q :=
    fun g => by
      have e : (g.modLink p (Link.portReset g.now)).onlyIn [.lenses, .router, .uplink, .draws] (g.portResetLink p) := by
        refine Hub.onlyIn_of_hide ?_
        unfold Hub.portResetLink
        dsimp only
        split <;> simp
      rw [e.links, modLink_links, PerPort.get_mod]
  have power : (h.portResetPower p).onlyIn [.links, .lenses, .router, .uplink, .draws] ((h.portResetPower p).portResetLink p) := by
    refine Hub.onlyIn_of_hide ?_
    unfold Hub.portResetLink
    dsimp only
    split <;> simp
  rw [other]
  split
  · rfl
  · rename_i ne
    have same := sameStates_of_kept (kept_serveIfBelow h.reservedSum (h.modPower p Power.portReset)) q
    rw [power.power] at off
    have was : (h.power.get q).state ≠ .on := by
      intro on
      exact off (same.2.trans (by simpa [ne] using on))
    exact same.1.trans (law q was)

theorem lawful_portReset {w : List Setting} (p : Port) (h : Hub) : h.Lawful w (h.portReset p) := by
  have store : h.Lawful w (h.portResetStore p) := by
    unfold Hub.portResetStore
    dsimp only
    split
    · exact (((Hub.Keeps.refl h).releaseFrame _).modStore _ rfl).lawful
    · exact ((Hub.Keeps.refl h).modStore _ rfl).lawful
  have flights := store.trans ((Hub.Keeps.refl _).endFlights p .power).lawful
  have lens := flights.trans (((Hub.Keeps.refl _).abandon p).modLens p (fun l => { l with stack := [], overflow := false }) rfl rfl).lawful
  have delivery := lens.trans (c := Hub.portResetDelivery p _)
    (Hub.Keeps.foldl _ (fun _ t r => r.releaseFrame t) _ ((Hub.Keeps.refl _).modDelivery p _)).lawful
  have setup (x : Power) : (Power.portReset x).setup = x.setup := by unfold Power.portReset Power.toOff; split <;> rfl
  have powerLink (g : Hub) : g.Lawful w ((g.portResetPower p).portResetLink p) := by
    refine Hub.Keeps.lawful_of ?_ linksDown_portResetPowerLink
    have power : Hub.Keeps False g (g.portResetPower p) := ((Hub.Keeps.refl g).modPower p _ (setup _) nofun).serveIfBelow _
    unfold Hub.portResetLink
    dsimp only
    split
    · exact (power.modLink _ _ rfl nofun).modLens _ _ rfl rfl
    · exact ((power.modLink _ _ rfl nofun).linkChange _ _).modLens _ _ rfl rfl
  have echo (g : Hub) : g.Lawful w (g.portResetEcho p) := by
    unfold Hub.portResetEcho
    split
    · exact .refl w g
    · exact ((((Hub.Keeps.refl g).modEcho _ rfl).storeResult _ _).fire _ _).lookForJob.lawful
  exact (delivery.trans (powerLink _)).trans (echo _)

theorem lawful_hubReset (h : Hub) : h.Lawful [.staged, .masks] h.hubReset := by
  have router : h.Lawful [.staged, .masks] ((h.modRouter fun _ => {}).hubResetShot) := by
    refine lawful_of_onlyIn (l := [.router, .shot]) (Hub.onlyIn_of_hide rfl) fun x k => ?_
    cases x
    case masks => simp at k
    case staged => simp at k
    all_goals simp [Hub.agreeOn, Hub.hubResetShot]
  have abandoned (g : Hub) : g.Lawful [.staged, .masks] g.hubResetLens :=
    (Hub.Keeps.foldl _ (fun _ p r => r.abandon p) _ ((Hub.Keeps.refl g).setDeferred _)).lawful
  have emptied (g : Hub) : g.Lawful [.staged, .masks] g.hubResetStore := ((Hub.Keeps.refl g).modStore _ rfl).lawful
  have delivery (g : Hub) : g.Lawful [.staged, .masks] g.hubResetDelivery :=
    Hub.Keeps.lawful ⟨{ (Hub.Keeps.refl (S := True) g).settings with }, fun _ => Hub.sameStates_refl g⟩
  have echoPort (g : Hub) (p : Port) : g.Lawful [.staged, .masks] (g.hubResetEchoPort p) := by
    unfold Hub.hubResetEchoPort
    split
    · exact .refl _ g
    · dsimp only
      have removed (r : EchoResult) : g.Lawful [.staged, .masks] ((g.modEcho fun e => e.remove p).storeResult p r) :=
        (((Hub.Keeps.refl g).modEcho _ rfl).storeResult _ _).lawful
      split
      · exact (removed _).trans (((Hub.Keeps.refl _).autoResult p false).lawful_of linksDown_autoResult)
      · exact removed _
  have echo (g : Hub) : g.Lawful [.staged, .masks] g.hubResetEcho := by
    unfold Hub.hubResetEcho
    generalize allPorts = l
    induction l generalizing g with
    | nil => exact .refl _ g
    | cons p l ih => exact (echoPort g p).trans (ih _)
  have power (g : Hub) : g.Lawful [.staged, .masks] g.hubResetPower := by
    refine Hub.Keeps.lawful_of ⟨{ (Hub.Keeps.refl (S := False) g).settings with power := fun q => ?_ }, nofun⟩ fun law q off => law q ?_
    · simp only [Hub.hubResetPower, PerPort.get_map, Power.hubReset]
      split <;> rfl
    · intro on
      refine off ?_
      simp [Hub.hubResetPower, Power.hubReset, on]
  have link (g : Hub) : g.Lawful [.staged, .masks] g.hubResetLink :=
    Hub.Keeps.lawful ⟨{ (Hub.Keeps.refl (S := True) g).settings with threshold := fun q => by simp [Hub.hubResetLink] },
      fun _ q => by simp [Hub.hubResetLink]⟩
  have uplink (g : Hub) : g.Lawful [.staged, .masks] (g.modUplink Uplink.hubReset) := ((Hub.Keeps.refl g).modUplink _).lawful
  exact (((((((router.trans (abandoned _)).trans (emptied _)).trans (delivery _)).trans (echo _)).trans (power _)).trans (link _)).trans
    (uplink _))

theorem linksDown_pinReset (h : Hub) : h.pinReset.linksDown := fun p _ => by simp [Hub.pinReset, Hub.reset]

end Sys2Proof.Machine
end

