-- ==== Sys2Proof/Proofs/Instructions.lean ====
section
/-! PROOF. Every instruction keeps the law of unpowered links and writes no setting but its own: O9 and O14. -/

namespace Sys2Proof.Machine

/-- An outcome leaves the law of unpowered links standing and changes no setting but those listed. -/
def keepsLaw (w : List Setting) (s : State) (r : Result) : Prop := ∀ t, r = .next t → s.toHub.Lawful w t.toHub

theorem keepsLaw_next {w : List Setting} {s : State} {h : Hub} (k : s.toHub.Lawful w h) : keepsLaw w s (s.next h) := fun t ht => by
  rw [(State.next_eq.1 ht).1]
  exact k

/-- An instruction that changes nothing. -/
theorem keepsLaw_same (w : List Setting) (s : State) : keepsLaw w s (s.next s.toHub) := keepsLaw_next (.refl w _)

theorem Hub.Lawful.more {w v : List Setting} {a b : Hub} (k : a.Lawful w b) (sub : w ⊆ v) : a.Lawful v b :=
  ⟨k.law, fun x out => k.others x fun inside => out (sub inside)⟩

theorem keepsLaw_more {w v : List Setting} {s : State} {r : Result} (k : keepsLaw w s r) (sub : w ⊆ v) : keepsLaw v s r := fun t ht =>
  (k t ht).more sub

theorem keepsLaw_command {w : List Setting} {kind : Nat} {c : Cmd} {ok : Bool} {body : Hub → Answer} {s : State}
    (k : s.toHub.Lawful w (body s.toHub).hub) : keepsLaw w s (s.next (s.toHub.takeCommand kind c ok body)) :=
  keepsLaw_next (lawful_takeCommand k)

/-! ## The commands, by host kind -/

/-- A command keeps the law of unpowered links and writes no setting but its own. -/
theorem keepsLaw_hostCommand (i : Instr) (s : State) (host : (hostCommand i).isSome = true) : keepsLaw (writtenBy i) s (exec i s) := by
  cases i with
  | linkRetrain c => exact keepsLaw_command (lawful_withPort fun p => lawful_linkRetrain p _)
  | linkSetup c => exact keepsLaw_command (lawful_withPort fun p => lawful_linkSetup c p _)
  | portInfo c => exact keepsLaw_command (lawful_withPort fun _ => .refl _ _)
  | portReset c => exact keepsLaw_command (lawful_withPort fun p => lawful_portReset p _)
  | powerOn c => exact keepsLaw_command (lawful_withPort fun p => lawful_powerOn p _)
  | powerOff c => exact keepsLaw_command (lawful_withPort fun p => lawful_powerOff p _)
  | powerSetup c => exact keepsLaw_command (lawful_withPort fun p => lawful_withFlags (lawful_powerSetup c p _))
  | budgetSet c => exact keepsLaw_command (lawful_budgetSet c _)
  | powerStatus c => exact keepsLaw_command (lawful_withPort fun p => ((Hub.Keeps.refl _).modPower p _ rfl fun _ => rfl).lawful)
  | presetWrite c => exact keepsLaw_command (lawful_withPort fun p => lawful_withFlags (lawful_withPreset fun k => lawful_presetWrite c p k _))
  | presetRead c => exact keepsLaw_command (lawful_withPort fun _ => lawful_withPreset fun _ => .refl _ _)
  | presetGo c => exact keepsLaw_command (lawful_withPort fun p => lawful_withPreset fun k => lawful_presetGo p k _)
  | lensPush c => exact keepsLaw_command (lawful_withPort fun p => lawful_lensPush p _)
  | lensPop c => exact keepsLaw_command (lawful_withPort fun p => lawful_lensPop p _)
  | lensMove c => exact keepsLaw_command (lawful_withPort fun p => lawful_withFlags (lawful_lensMove c p _))
  | lensSetup c => exact keepsLaw_command (lawful_withPort fun p => lawful_lensSetup c p _)
  | lensStatus c => exact keepsLaw_command (lawful_withPort fun p => lawful_lensStatus p _)
  | slotWrite c => exact keepsLaw_command (lawful_withFlags (lawful_slotWrite c _))
  | tableHeader c => exact keepsLaw_command (lawful_tableHeader c _)
  | tableCommit c => exact keepsLaw_command (lawful_tableCommit _)
  | tableRead c => exact keepsLaw_command (lawful_tableRead c _)
  | cycleRun c => exact keepsLaw_command (lawful_cycleRun _)
  | cycleFire c => exact keepsLaw_command (lawful_cycleFire _)
  | cycleStop c => exact keepsLaw_command (lawful_cycleStop c _)
  | cycleStatus c => exact keepsLaw_command (lawful_withFlags (lawful_cycleStatus c _))
  | timeSet c => exact keepsLaw_command (lawful_of_onlyIn (l := [.time]) (Hub.onlyIn_of_hide rfl) fun x _ => by cases x <;> simp [Hub.agreeOn])
  | timeRead c => exact keepsLaw_command (.refl _ _)
  | storeSetup c => exact keepsLaw_command (lawful_storeSetup c _)
  | storeStatus c => exact keepsLaw_command (lawful_withFlags (lawful_storeStatus c _))
  | imageHold c => exact keepsLaw_command (lawful_withPort fun p => ((Hub.Keeps.refl _).modDelivery p _).lawful)
  | imageResume c => exact keepsLaw_command (lawful_withPort fun p => ((Hub.Keeps.refl _).modDelivery p _).lawful)
  | deliveryStatus c => exact keepsLaw_command (lawful_withFlags (lawful_deliveryStatus c _))
  | pose c => exact keepsLaw_command (lawful_pose c _)
  | zoneSetup c => exact keepsLaw_command (lawful_withPort fun p => lawful_zoneSetup c p _)
  | zoneRead c => exact keepsLaw_command (lawful_withPort fun _ => .refl _ _)
  | zoneClear c => exact keepsLaw_command (lawful_withPort fun p => lawful_zoneClear c p _)
  | echoSetup c => exact keepsLaw_command (lawful_withPort fun p => lawful_echoSetup c p _)
  | cableMapWrite c => exact keepsLaw_command (lawful_withPort fun p => lawful_cableMapWrite c p _)
  | cableMapRead c => exact keepsLaw_command (lawful_withPort fun _ => .refl _ _)
  | baselineLearn c => exact keepsLaw_command (lawful_withPort fun p => lawful_baselineLearn p _)
  | baselineWrite c => exact keepsLaw_command (lawful_withPort fun p => lawful_baselineWrite c p _)
  | baselineRead c => exact keepsLaw_command (lawful_withPort fun p => lawful_baselineRead p _)
  | echoResult c => exact keepsLaw_command (lawful_withPort fun _ => lawful_withFlags (.refl _ _))
  | hunt c => exact keepsLaw_command (lawful_withPort fun p => lawful_withFlags (lawful_hunt c p _))
  | hubReset c => exact keepsLaw_command (lawful_hubReset _)
  | identify c => exact keepsLaw_command (.refl _ _)
  | uplinkStatus c => exact keepsLaw_command (lawful_withFlags (lawful_uplinkStatus c _))
  | routeSet c => exact keepsLaw_command (lawful_withFlags (lawful_withSource fun src => lawful_routeSet c src _))
  | routeRead c => exact keepsLaw_command (lawful_withSource fun _ => .refl _ _)
  | eventAck c => exact keepsLaw_command ((Hub.Keeps.refl _).eventAck c).lawful
  | _ => cases host

/-! ## Records given by their bytes -/

theorem keepsLaw_badKind (w : List Setting) (kind : Byte) (c : Cmd) (s : State) : keepsLaw w s (badKind kind c s) :=
  keepsLaw_command (.refl w _)

/-- R172: a record taken by its kind is the command of that kind, or it is refused. -/
theorem takeByKind_eq (kind : Byte) (c : Cmd) (s : State) :
    takeByKind kind c s = badKind kind c s ∨ ∃ i, (hostCommand i).isSome = true ∧ takeByKind kind c s = exec i s := by
  unfold takeByKind
  split
  · exact .inr ⟨.linkRetrain c, rfl, rfl⟩
  · exact .inr ⟨.linkSetup c, rfl, rfl⟩
  · exact .inr ⟨.portInfo c, rfl, rfl⟩
  · exact .inr ⟨.portReset c, rfl, rfl⟩
  · exact .inr ⟨.powerOn c, rfl, rfl⟩
  · exact .inr ⟨.powerOff c, rfl, rfl⟩
  · exact .inr ⟨.powerSetup c, rfl, rfl⟩
  · exact .inr ⟨.budgetSet c, rfl, rfl⟩
  · exact .inr ⟨.powerStatus c, rfl, rfl⟩
  · exact .inr ⟨.presetWrite c, rfl, rfl⟩
  · exact .inr ⟨.presetRead c, rfl, rfl⟩
  · exact .inr ⟨.presetGo c, rfl, rfl⟩
  · exact .inr ⟨.lensPush c, rfl, rfl⟩
  · exact .inr ⟨.lensPop c, rfl, rfl⟩
  · exact .inr ⟨.lensMove c, rfl, rfl⟩
  · exact .inr ⟨.lensSetup c, rfl, rfl⟩
  · exact .inr ⟨.lensStatus c, rfl, rfl⟩
  · exact .inr ⟨.slotWrite c, rfl, rfl⟩
  · exact .inr ⟨.tableHeader c, rfl, rfl⟩
  · exact .inr ⟨.tableCommit c, rfl, rfl⟩
  · exact .inr ⟨.tableRead c, rfl, rfl⟩
  · exact .inr ⟨.cycleRun c, rfl, rfl⟩
  · exact .inr ⟨.cycleFire c, rfl, rfl⟩
  · exact .inr ⟨.cycleStop c, rfl, rfl⟩
  · exact .inr ⟨.cycleStatus c, rfl, rfl⟩
  · exact .inr ⟨.timeSet c, rfl, rfl⟩
  · exact .inr ⟨.timeRead c, rfl, rfl⟩
  · exact .inr ⟨.storeSetup c, rfl, rfl⟩
  · exact .inr ⟨.storeStatus c, rfl, rfl⟩
  · exact .inr ⟨.imageHold c, rfl, rfl⟩
  · exact .inr ⟨.imageResume c, rfl, rfl⟩
  · exact .inr ⟨.deliveryStatus c, rfl, rfl⟩
  · exact .inr ⟨.pose c, rfl, rfl⟩
  · exact .inr ⟨.zoneSetup c, rfl, rfl⟩
  · exact .inr ⟨.zoneRead c, rfl, rfl⟩
  · exact .inr ⟨.zoneClear c, rfl, rfl⟩
  · exact .inr ⟨.echoSetup c, rfl, rfl⟩
  · exact .inr ⟨.cableMapWrite c, rfl, rfl⟩
  · exact .inr ⟨.cableMapRead c, rfl, rfl⟩
  · exact .inr ⟨.baselineLearn c, rfl, rfl⟩
  · exact .inr ⟨.baselineWrite c, rfl, rfl⟩
  · exact .inr ⟨.baselineRead c, rfl, rfl⟩
  · exact .inr ⟨.echoResult c, rfl, rfl⟩
  · exact .inr ⟨.hunt c, rfl, rfl⟩
  · exact .inr ⟨.hubReset c, rfl, rfl⟩
  · exact .inr ⟨.identify c, rfl, rfl⟩
  · exact .inr ⟨.uplinkStatus c, rfl, rfl⟩
  · exact .inr ⟨.routeSet c, rfl, rfl⟩
  · exact .inr ⟨.routeRead c, rfl, rfl⟩
  · exact .inr ⟨.eventAck c, rfl, rfl⟩
  · exact .inl rfl

/-- An instruction that may write any setting, and keeps the law. -/
def everySetting : List Setting :=
  [.budget, .power, .threshold, .presets, .lens, .zone, .current, .echo, .map, .lowMark, .staged, .masks]

theorem mem_everySetting (x : Setting) : x ∈ everySetting := by cases x <;> decide

theorem keepsLaw_takeByKind (kind : Byte) (c : Cmd) (s : State) : keepsLaw everySetting s (takeByKind kind c s) := by
  rcases takeByKind_eq kind c s with refused | ⟨i, host, taken⟩
  · rw [refused]
    exact keepsLaw_badKind _ _ _ _
  · rw [taken]
    exact keepsLaw_more (keepsLaw_hostCommand i s host) fun x _ => mem_everySetting x

theorem keepsLaw_recordDiscard (raw : List Byte) (s : State) : keepsLaw everySetting s (execRecordDiscard raw s) := by
  unfold execRecordDiscard
  split_ifs
  · exact keepsLaw_same _ s
  · exact keepsLaw_next ((Hub.Keeps.refl _).discard _).finish.lawful
  · split
    · exact keepsLaw_next ((Hub.Keeps.refl _).discard _).finish.lawful
    · exact keepsLaw_takeByKind _ _ _

/-! ## Events at the uplink and the cables -/

section Events

variable {w : List Setting} (s : State)

/-- A timer runs out: the time to its end passes first. -/
theorem lawful_elapse (n : Nat) : s.toHub.Lawful w (s.toHub.elapse n) := ((Hub.Keeps.refl _).elapse n).lawful

theorem keepsLaw_uplinkUp : keepsLaw w s (execUplinkUp s) := by
  unfold execUplinkUp
  split
  · exact keepsLaw_same _ s
  · exact keepsLaw_next (Hub.Keeps.refl _).linkUp.lawful

theorem keepsLaw_uplinkDown : keepsLaw w s (execUplinkDown s) := by
  unfold execUplinkDown
  split
  · exact keepsLaw_next (Hub.Keeps.refl _).linkDown.lawful
  · exact keepsLaw_same _ s

theorem keepsLaw_controlRecordSent : keepsLaw w s (execControlRecordSent s) := by
  unfold execControlRecordSent
  split
  · exact keepsLaw_next ((Hub.Keeps.refl _).modUplink _).finish.lawful
  · exact keepsLaw_same _ s

theorem keepsLaw_imageRecordSent : keepsLaw w s (execImageRecordSent s) := by
  unfold execImageRecordSent
  split
  · exact keepsLaw_next ((Hub.Keeps.refl _).imageSent _ _).lawful
  · exact keepsLaw_same _ s

theorem keepsLaw_lockGained (p : Port) : keepsLaw w s (execLockGained p s) := by
  refine keepsLaw_next ?_
  unfold Hub.lockGained
  split
  · exact ((Hub.Keeps.refl _).modLink p _ rfl fun _ => rfl).lawful
  · rename_i relock
    refine Hub.Lawful.finish (((Hub.Keeps.refl _).modLink p _ rfl nofun).lawful_of fun law => ?_)
    exact linksDown_modLink_on law (law.on (by simp [relock]))
  · exact .refl _ _

/-- R12: the counters of a link that loses lock in UP. -/
def Link.loseLock (l : Link) : Link :=
  { l with sinceUp := satInc 255 l.sinceUp, total := satInc Config.max16 l.total, locked := false }

/-- R12, DEDUCED, log 29: what a lock loss drops before the link leaves UP. -/
def Hub.dropOnLockLoss (p : Port) (h : Hub) : Hub := ((h.modLink p Link.loseLock).countDrop p).dropFilling p .linkLost .link

/-- R13: the link record on entry to RELOCK. -/
def Link.toRelock (now : CellTime) (l : Link) : Link :=
  { l.trimTriggers with state := .relock, relockWindow := some relockTime, lastChange := now }

theorem lockLostUp_eq (p : Port) (h : Hub) : h.lockLostUp p =
    if ((h.dropOnLockLoss p).links.get p).fallbackDue then (h.dropOnLockLoss p).enterAcquire p .half .fallback
    else ((h.dropOnLockLoss p).modLink p (Link.toRelock (h.dropOnLockLoss p).now)).reportUnsent ((h.dropOnLockLoss p).links.get p).unsent :=
  rfl

theorem sameStates_dropOnLockLoss (p : Port) (h : Hub) : h.sameStates (h.dropOnLockLoss p) :=
  ((((Hub.Keeps.refl (S := True) h).modLink p Link.loseLock rfl fun _ => rfl).countDrop p).dropFilling p .linkLost .link).states trivial

theorem lawful_lockLostUp (p : Port) (h : Hub) (up : (h.links.get p).state = .up) : h.Lawful w (h.lockLostUp p) := by
  refine ((Hub.Keeps.refl h).lockLostUp p).lawful_of fun law => ?_
  have dropped := sameStates_dropOnLockLoss p h
  have on := (dropped p).2.trans (law.on (p := p) (by simp [up]))
  rw [lockLostUp_eq]
  split
  · exact linksDown_enterAcquire (dropped.linksDown law) on
  · exact (sameStates_of_kept (kept_reportUnsent _ _)).linksDown (linksDown_modLink_on (dropped.linksDown law) on)

theorem keepsLaw_lockLost (p : Port) : keepsLaw w s (execLockLost p s) := by
  refine keepsLaw_next ?_
  unfold Hub.lockLost
  split
  · exact ((Hub.Keeps.refl _).modLink p _ rfl fun _ => rfl).lawful
  · rename_i up
    exact (lawful_lockLostUp p _ up).finish
  · exact .refl _ _

/-- R11: the link record on entry to FAILED. -/
def Link.toFailed (now : CellTime) (l : Link) : Link :=
  { l with state := .failed, acquireTimer := none, locked := false, lastChange := now }

theorem acquireFailed_eq (p : Port) (h : Hub) :
    h.acquireFailed p = ((h.modLink p (Link.toFailed h.now)).linkChange p .timeout).abandon p := rfl

theorem keepsLaw_acquireTimeout (p : Port) : keepsLaw w s (execAcquireTimeout p s) := by
  unfold execAcquireTimeout
  split
  · rename_i left acquire _
    refine keepsLaw_next ((lawful_elapse s left).trans (Hub.Keeps.lawful_of ?_ fun law => ?_)).finish
    · exact (((Hub.Keeps.refl _).modLink p _ rfl nofun).linkChange p .timeout).abandon p
    · have live : ((s.toHub.elapse left).links.get p).state ≠ .down := by
        rw [(sameStates_elapse left s.toHub p).1, acquire]
        decide
      rw [acquireFailed_eq]
      have failed := linksDown_modLink_on (f := Link.toFailed (s.toHub.elapse left).now) law (law.on live)
      exact (sameStates_of_kept (by rw [kept_abandon, kept_linkChange])).linksDown failed
  · exact keepsLaw_same _ s

theorem keepsLaw_relockExpire (p : Port) : keepsLaw w s (execRelockExpire p s) := by
  unfold execRelockExpire
  split
  · rename_i left relock _
    refine keepsLaw_next ((lawful_elapse s left).trans (((Hub.Keeps.refl _).enterAcquire p _ _).lawful_of fun law => ?_)).finish
    have live : ((s.toHub.elapse left).links.get p).state ≠ .down := by
      rw [(sameStates_elapse left s.toHub p).1, relock]
      decide
    exact linksDown_enterAcquire law (law.on live)
  · exact keepsLaw_same _ s

/-! ## Words -/

/-- R10: the link record on entry to UP from ACQUIRE. -/
def Link.toUp (c : CameraRecord) (now : CellTime) (l : Link) : Link :=
  { l with camera := some c, acquireTimer := none, sinceUp := 0, state := .up, lastChange := now }

theorem helloAcquire_eq (p : Port) (c : CameraRecord) (h : Hub) :
    h.helloAcquire p c = ((h.modLink p (Link.toUp c h.now)).linkChange p .acquired).buildLens p c := rfl

theorem Link.live_of_takesWords {l : Link} (k : l.takesWords = true) : l.state ≠ .down := fun down => by
  simp [Link.takesWords, down] at k

theorem lawful_hello (p : Port) (x : HelloWord) (h : Hub) : h.Lawful w (h.hello p x) := by
  unfold Hub.hello Hub.takeHello
  split
  · rename_i takes
    refine Hub.Lawful.finish ?_
    split
    · exact ((Hub.Keeps.refl h).countWordError p).lawful
    · dsimp only
      split
      · exact ((Hub.Keeps.refl h).helloRestart p _).lawful
      · refine ((Hub.Keeps.refl h).helloAcquire p _).lawful_of fun law => ?_
        rw [helloAcquire_eq]
        have up := linksDown_modLink_on (f := Link.toUp (.ofHello x h.now) h.now) law (law.on (Link.live_of_takesWords takes))
        exact (sameStates_of_kept (by rw [kept_buildLens, kept_linkChange])).linksDown up
  · exact .refl w h

theorem lawful_line (p : Port) (x : LineWord) (h : Hub) : h.Lawful w (h.line p x) := by
  unfold Hub.line
  split
  · exact ((Hub.Keeps.refl h).takeLine p x).finish.lawful
  · exact .refl w h

theorem lawful_eof (p : Port) (x : EofWord) (h : Hub) : h.Lawful w (h.eof p x) := by
  unfold Hub.eof
  split
  · exact ((Hub.Keeps.refl h).takeEof p x).finish.lawful
  · exact .refl w h

theorem lawful_lensWord (p : Port) (x : LensStatusWord) (h : Hub) : h.Lawful w (h.lensWord p x) := by
  unfold Hub.lensWord
  split
  · exact ((Hub.Keeps.refl h).takeLensStatus p x).finish.lawful
  · exact .refl w h

theorem lawful_rawWord (p : Port) (raw : List Byte) (h : Hub) : h.Lawful w (h.rawWord p raw) := by
  unfold Hub.rawWord
  split
  · split
    · exact ((Hub.Keeps.refl h).countWordError p).lawful
    · exact .refl w h
  · exact lawful_hello p _ h
  · exact lawful_line p _ h
  · exact lawful_eof p _ h
  · exact lawful_lensWord p _ h

theorem keepsLaw_downstreamWordEnd (p : Port) : keepsLaw w s (execDownstreamWordEnd p s) := by
  unfold execDownstreamWordEnd
  split
  · exact keepsLaw_next (((Hub.Keeps.refl _).elapse _).wordEnd p _).finish.lawful
  · exact keepsLaw_same _ s

/-! ## Power events -/

theorem keepsLaw_currentSample (p : Port) (code : BitVec 12) : keepsLaw w s (execCurrentSample p code s) :=
  keepsLaw_next (((Hub.Keeps.refl _).sample p _).lawful_of linksDown_sample).finish

theorem keepsLaw_inrushExpire (p : Port) : keepsLaw w s (execInrushExpire p s) := by
  unfold execInrushExpire
  split
  · exact keepsLaw_next ((lawful_elapse s _).trans (((Hub.Keeps.refl _).inrushEnd p).lawful_of linksDown_inrushEnd)).finish
  · exact keepsLaw_same _ s

theorem keepsLaw_cooldownExpire (p : Port) : keepsLaw w s (execCooldownExpire p s) := by
  unfold execCooldownExpire
  split
  · rename_i left cooldown _
    refine keepsLaw_next ((lawful_elapse s left).trans ?_).finish
    unfold Hub.cooldownEnd
    split
    · exact ((Hub.Keeps.refl _).modPower p _ rfl fun _ => rfl).lawful
    · exact ((Hub.Keeps.refl _).retry p).lawful_of fun law => linksDown_retry law ((sameStates_elapse left s.toHub p).2.trans cooldown)
  · exact keepsLaw_same _ s

theorem keepsLaw_onTimerExpire (p : Port) : keepsLaw w s (execOnTimerExpire p s) := by
  unfold execOnTimerExpire
  split
  · exact keepsLaw_next (((Hub.Keeps.refl _).elapse _).modPower p _ rfl fun _ => rfl).lawful
  · exact keepsLaw_same _ s

theorem keepsLaw_dischargeExpire (p : Port) : keepsLaw w s (execDischargeExpire p s) := by
  unfold execDischargeExpire
  split
  · exact keepsLaw_next (((Hub.Keeps.refl _).elapse _).modPower p _ rfl fun _ => rfl).lookForJob.lawful
  · exact keepsLaw_same _ s

/-! ## The lens, the shot cycle, frames and echoes -/

theorem keepsLaw_moveTimeout (p : Port) : keepsLaw w s (execMoveTimeout p s) := by
  unfold execMoveTimeout
  split
  · split
    · exact keepsLaw_next (((Hub.Keeps.refl _).elapse _).endMove p _ _).finish.lawful
    · exact keepsLaw_same _ s
  · exact keepsLaw_same _ s

theorem keepsLaw_spanExpire : keepsLaw w s (execSpanExpire s) := by
  have staged (pos : BitVec 32) (x : Shot) : (x.endCycle pos).staged = x.staged := by
    exact staged_applyPending pos x
  unfold execSpanExpire
  split
  · exact keepsLaw_next (((Hub.Keeps.refl _).elapse _).modShot _ (staged _ _)).finish.lawful
  · exact keepsLaw_same _ s

theorem keepsLaw_slotOpen (k : SlotIx) : keepsLaw w s (execSlotOpen k s) := by
  unfold execSlotOpen
  split
  · split
    · exact keepsLaw_same _ s
    · exact keepsLaw_next (((Hub.Keeps.refl _).elapse _).openSlot k).finish.lawful
  · exact keepsLaw_same _ s

theorem keepsLaw_guardExpire (k : SlotIx) : keepsLaw w s (execGuardExpire k s) := by
  unfold execGuardExpire
  split
  · exact keepsLaw_next (((Hub.Keeps.refl _).elapse _).offerTrigger _ true).finish.lawful
  · exact keepsLaw_same _ s

theorem keepsLaw_exposureEnd (k : SlotIx) : keepsLaw w s (execExposureEnd k s) := by
  unfold execExposureEnd
  split
  · exact keepsLaw_next ((((Hub.Keeps.refl _).elapse _).modShot _ rfl).issueNext k _).finish.lawful
  · exact keepsLaw_same _ s

theorem keepsLaw_frameWindowExpire (p : Port) : keepsLaw w s (execFrameWindowExpire p s) := by
  unfold execFrameWindowExpire
  split
  · split
    · exact keepsLaw_next (((Hub.Keeps.refl _).elapse _).closeFrame _ p .timeout).finish.lawful
    · exact keepsLaw_same _ s
  · exact keepsLaw_same _ s

theorem keepsLaw_echoShot (samples : Vector (BitVec 12) 256) : keepsLaw w s (execEchoShot samples s) := by
  unfold execEchoShot
  split
  · split
    · exact keepsLaw_next (((Hub.Keeps.refl _).elapse _).modEcho _ rfl).lawful
    · exact keepsLaw_same _ s
  · exact keepsLaw_same _ s

theorem keepsLaw_echoJobComplete : keepsLaw w s (execEchoJobComplete s) := by
  unfold execEchoJobComplete
  split
  · split
    · exact keepsLaw_next ((lawful_elapse s _).trans (((Hub.Keeps.refl _).completeJob _).lawful_of linksDown_completeJob)).finish
    · exact keepsLaw_same _ s
  · exact keepsLaw_same _ s

end Events

/-! ## Every instruction -/

/-- An event that is no record and not the reset pin. -/
theorem keepsLaw_event (i : Instr) (s : State) (event : ¬ isRecord i) (pin : i ≠ .pinReset) : keepsLaw (writtenBy i) s (exec i s) := by
  cases i with
  | uplinkUp => exact keepsLaw_uplinkUp s
  | uplinkDown => exact keepsLaw_uplinkDown s
  | controlRecordSent => exact keepsLaw_controlRecordSent s
  | imageRecordSent => exact keepsLaw_imageRecordSent s
  | encoderEdge x y => exact keepsLaw_next ((Hub.Keeps.refl _).encoderEdge x y).finish.lawful
  | triggerLineEdge => exact keepsLaw_next (Hub.Keeps.refl _).triggerLine.finish.lawful
  | currentSample p code => exact keepsLaw_currentSample s p code
  | inrushExpire p => exact keepsLaw_inrushExpire s p
  | cooldownExpire p => exact keepsLaw_cooldownExpire s p
  | onTimerExpire p => exact keepsLaw_onTimerExpire s p
  | dischargeExpire p => exact keepsLaw_dischargeExpire s p
  | lockGained p => exact keepsLaw_lockGained s p
  | lockLost p => exact keepsLaw_lockLost s p
  | acquireTimeout p => exact keepsLaw_acquireTimeout s p
  | relockExpire p => exact keepsLaw_relockExpire s p
  | helloWord p x => exact keepsLaw_next (lawful_hello p x _)
  | lineWord p x => exact keepsLaw_next (lawful_line p x _)
  | eofWord p x => exact keepsLaw_next (lawful_eof p x _)
  | lensStatusWord p x => exact keepsLaw_next (lawful_lensWord p x _)
  | undecodableWord p raw => exact keepsLaw_next (lawful_rawWord p raw _)
  | downstreamWordEnd p => exact keepsLaw_downstreamWordEnd s p
  | moveTimeout p => exact keepsLaw_moveTimeout s p
  | spanExpire => exact keepsLaw_spanExpire s
  | slotOpen k => exact keepsLaw_slotOpen s k
  | guardExpire k => exact keepsLaw_guardExpire s k
  | exposureEnd k => exact keepsLaw_exposureEnd s k
  | frameWindowExpire p => exact keepsLaw_frameWindowExpire s p
  | echoShot samples => exact keepsLaw_echoShot s samples
  | echoJobComplete => exact keepsLaw_echoJobComplete s
  | pinReset => exact absurd rfl pin
  | badKindRecord kind c => exact absurd (.inr (.inl ⟨kind, c, rfl⟩)) event
  | recordDiscard raw => exact absurd (.inr (.inr ⟨raw, rfl⟩)) event
  | _ => exact absurd (.inl rfl) event

/-- R1: every instruction keeps the links of unpowered ports DOWN. -/
theorem linksDown_exec {i : Instr} {s t : State} (law : s.toHub.linksDown) (run : exec i s = .next t) : t.toHub.linksDown := by
  by_cases pin : i = .pinReset
  · subst pin
    have e : t.toHub = s.toHub.pinReset := (State.next_eq.1 run).1
    rw [e]
    exact linksDown_pinReset _
  by_cases record : isRecord i
  · rcases record with host | ⟨kind, c, rfl⟩ | ⟨raw, rfl⟩
    · exact (keepsLaw_hostCommand i s host t run).law law
    · exact (keepsLaw_takeByKind kind c s t run).law law
    · exact (keepsLaw_recordDiscard raw s t run).law law
  · exact (keepsLaw_event i s record pin t run).law law

/-- Settles O9: every instruction and every idle µs keeps the law; the states of links and of power records change only together. -/
theorem stepKeepsUnpoweredLinksDown : Obligations.StepKeepsUnpoweredLinksDown := by
  intro s t law run
  rw [linksKept_iff] at law ⊢
  unfold step at run
  split at run
  · rw [(State.next_eq.1 run).1]
    exact linksDown_elapse 1 law
  · rename_i rest _
    exact linksDown_exec (s := { s with pending := rest }) law run

/-- Settles O14: each setting is among those that an instruction may write only where the statement says so. -/
theorem settingsChangeOnlyByTheirCommands : Obligations.SettingsChangeOnlyByTheirCommands := by
  intro i s t run pin discard badKind
  have kept (x : Setting) (out : x ∉ writtenBy i) : s.toHub.agreeOn t.toHub x := by
    by_cases record : isRecord i
    · rcases record with host | ⟨kind, c, e⟩ | ⟨raw, e⟩
      · exact (keepsLaw_hostCommand i s host t run).others x out
      · exact absurd e (badKind kind c)
      · exact absurd e (discard raw)
    · exact (keepsLaw_event i s record pin t run).others x out
  refine ⟨fun k => kept .budget ?_, fun k => kept .power ?_, fun k => kept .threshold ?_, fun k => kept .presets ?_,
    fun k => kept .lens ?_, fun k => kept .zone ?_, fun k => kept .current ?_, fun k => kept .echo ?_, fun k => kept .map ?_,
    fun k => kept .lowMark ?_, fun k k2 k3 => kept .staged ?_, fun k k2 => kept .masks ?_⟩
  all_goals
    unfold writtenBy
    split <;> simp_all

end Sys2Proof.Machine
end

