-- ==== Sys2Proof/Proofs/PortCommands.lean ====
section
/-! PROOF. O20 and O42: commands that answer what a port holds, and commands that write a port's settings. -/

namespace Sys2Proof.Machine

/-! ## How a command answers -/

/-- R172: a command whose header port is a port is its meaning there. -/
theorem withPort_eq {c : Cmd} {p : Port} (named : addresses c p) (body : Port → Hub → Answer) (h : Hub) : withPort c body h = body p h := by
  unfold addresses at named
  unfold withPort
  have inside : c.port.toNat < 6 := named ▸ p.isLt
  rw [dif_pos inside]
  exact congrArg (body · h) (Fin.ext named)

/-- R173: a command that passes its checks completes with its block's answer. -/
theorem completes_answer {i : Instr} {s : State} {kind : Nat} {c : Cmd} {ok : Bool} {body : Hub → Answer} {h : Hub} {status : Status}
    {code : Nat} {data : List Byte} (run : exec i s = s.next (s.toHub.takeCommand kind c ok body)) (ready : s.ready) (fits : ok = true)
    (answer : body s.toHub = ⟨h, status, data⟩) (queue : h.uplink.queue = s.uplink.queue := by rfl)
    (codes : status.code = code := by rfl) : completes i s h kind c code data := by
  subst codes
  have taken := completes_takeCommand run ready (by rw [if_pos fits, answer]; exact queue)
  rwa [if_pos fits, answer] at taken

/-- A command of a port that passes its checks. -/
theorem completes_port {i : Instr} {s : State} {kind : Nat} {c : Cmd} {p : Port} {ok : Bool} {body : Port → Hub → Answer} {h : Hub}
    {status : Status} {code : Nat} {data : List Byte} (run : exec i s = s.next (s.toHub.takeCommand kind c ok (withPort c body))) (ready : s.ready)
    (named : addresses c p) (fits : ok = true) (answer : body p s.toHub = ⟨h, status, data⟩)
    (queue : h.uplink.queue = s.uplink.queue := by rfl) (codes : status.code = code := by rfl) : completes i s h kind c code data :=
  completes_answer run ready fits ((withPort_eq named body _).trans answer) queue codes

/-! ## O20: queries of a port -/

theorem withPreset_eq (k : Fin 16) (body : Fin 16 → Hub → Answer) (h : Hub) :
    withPreset (byteAt [BitVec.ofNat 8 k.val] 0) body h = body k h := by
  have byte : byteAt [BitVec.ofNat 8 k.val] 0 = k.val := by
    have small := k.isLt
    simp only [byteAt, List.getD_cons_zero, BitVec.toNat_ofNat]
    omega
  unfold withPreset
  rw [byte, dif_pos k.isLt]

theorem Targets.bytes_eq (t : Targets) : Targets.bytes t = wOpt2 t.focus ++ wOpt2 t.iris ++ wOpt2 t.zoom := by
  simp [Targets.bytes, wPerAxis, PerAxis.toList]

/-- Settles O20: each query answers the hub as it is, with the bytes that Laws/Replies lays out. -/
theorem portQueriesChangeNothing : Obligations.PortQueriesChangeNothing := by
  intro c p s ready named
  refine ⟨fun empty => ?_, fun k payload => ?_, fun empty => ?_, fun empty => ?_, fun b empty held => ?_, fun empty absent => ?_,
    fun trace payload => ?_⟩
  · exact completes_port rfl ready named (by simp [empty]) (congrArg (Answer.mk _ _) (portInfo_eq p s.toHub))
  · refine completes_port (status := .ok) rfl ready named (by simp [payload]) ?_
    rw [payload, withPreset_eq, Targets.bytes_eq]
  · exact completes_port rfl ready named (by simp [empty]) (congrArg (Answer.mk _ _) (zoneRead_eq _))
  · exact completes_port rfl ready named (by simp [empty]) rfl
  · refine completes_port (status := .ok) rfl ready named (by simp [empty]) ?_
    unfold baselineRead
    rw [held]
    rfl
  · refine completes_port (status := .noBaseline) rfl ready named (by simp [empty]) ?_
    unfold baselineRead
    rw [absent]
    rfl
  · refine completes_port (status := .ok) rfl ready named (by simp [payload]) ?_
    have flag : flagOk c.payload 0 = true ∧ flagAt c.payload 0 = trace := by
      rw [payload]
      cases trace <;> decide
    rw [flag.1, flag.2]
    exact congrArg (Answer.mk _ _) (echoResult_eq _ p trace)

/-! ## O42: settings of a link and a lens -/

theorem okOr_code (clamped : Bool) : (okOr clamped).code = if clamped then 1 else 0 := by cases clamped <;> rfl

/-- R175: the threshold was brought into range exactly when it is above 15. -/
theorem linkSetup_eq {c : Cmd} {v : Byte} (payload : c.payload = [v]) (p : Port) (h : Hub) :
    linkSetup c p h = ⟨h.modLink p fun l => { l with threshold := min 15 v.toNat }, okOr (decide (15 < v.toNat)),
      if 15 < v.toNat then [15] else []⟩ := by
  have byte : byteAt c.payload 0 = v.toNat := by rw [payload]; rfl
  unfold linkSetup
  rw [byte]
  by_cases above : 15 < v.toNat
  · have capped : min 15 v.toNat = 15 := by omega
    have differs : (15 != v.toNat) = true := bne_iff_ne.2 (by omega)
    simp only [above, capped, differs, decide_true, if_true]
    rfl
  · have kept : min 15 v.toNat = v.toNat := by omega
    simp [above, kept]

/-- R62: one axis of a preset as written. -/
theorem optU16At_capped (bs : List Byte) (i : Nat) :
    (optU16At bs i).map (min 4095) = if byteAt bs i = 1 then some (min 4095 (u16At bs (i + 1))) else none := by
  unfold optU16At flagAt
  by_cases present : byteAt bs i = 1 <;> simp [present]

/-- R175: one axis of a preset was brought into range exactly when it was sent above 4095. -/
theorem optU16At_capped_eq_iff (bs : List Byte) (i : Nat) :
    (optU16At bs i).map (min 4095) = optU16At bs i ↔ ¬ (byteAt bs i = 1 ∧ 4095 < u16At bs (i + 1)) := by
  unfold optU16At flagAt
  by_cases present : byteAt bs i = 1 <;> simp [present]

theorem capped_targetsAt (bs : List Byte) (i : Nat) :
    Targets.capped (targetsAt bs i) =
      ⟨(optU16At bs i).map (min 4095), (optU16At bs (i + 3)).map (min 4095), (optU16At bs (i + 6)).map (min 4095)⟩ := rfl

/-- R175: a preset was brought into range exactly when one of its axes was. -/
theorem capped_targetsAt_ne (bs : List Byte) :
    (Targets.capped (targetsAt bs 1) != targetsAt bs 1) = [1, 4, 7].any fun i => byteAt bs i == 1 && 4095 < u16At bs (i + 1) := by
  rw [Bool.eq_iff_iff, bne_iff_ne, capped_targetsAt]
  unfold targetsAt
  rw [ne_eq, PerAxis.mk.injEq, optU16At_capped_eq_iff, optU16At_capped_eq_iff, optU16At_capped_eq_iff]
  simp only [List.any_cons, List.any_nil, Bool.or_false, Bool.or_eq_true, Bool.and_eq_true, beq_iff_eq, decide_eq_true_eq]
  tauto

/-- R65: a record may be pushed exactly when each present axis has a target. -/
theorem LensRecord.pushable_iff (r : LensRecord) :
    r.pushable = true ↔ ∀ a x, a ∈ r.axes.toList → a = some x → x.target.isSome := by
  have each (a : Option AxisRecord) : (match a with | some x => x.target.isSome | none => true) = true ↔ ∀ x, a = some x → x.target.isSome := by
    cases a <;> simp
  unfold LensRecord.pushable
  simp only [PerAxis.every, PerAxis.map, Bool.and_eq_true, PerAxis.toList, List.mem_cons, List.not_mem_nil, or_false]
  constructor
  · rintro ⟨⟨focus, iris⟩, zoom⟩ a x (rfl | rfl | rfl)
    · exact (each _).1 focus x
    · exact (each _).1 iris x
    · exact (each _).1 zoom x
  · exact fun all => ⟨⟨(each _).2 fun x => all _ x (.inl rfl), (each _).2 fun x => all _ x (.inr (.inl rfl))⟩,
      (each _).2 fun x => all _ x (.inr (.inr rfl))⟩

/-- R65: LENS_PUSH of a record that may be pushed. -/
theorem lensPush_eq {p : Port} {h : Hub} {r : LensRecord} (record : (h.lenses.get p).record = some r) (pushable : r.pushable = true) :
    lensPush p h = ⟨h.modLens p fun l =>
        { l with stack := (targetsOf r.axes :: l.stack).take 4, overflow := l.overflow || decide (4 ≤ l.stack.length) },
      .ok, w1 (min 4 ((h.lenses.get p).stack.length + 1))⟩ := by
  have length : ((r.targets :: (h.lenses.get p).stack).take 4).length = min 4 ((h.lenses.get p).stack.length + 1) := by
    rw [List.length_take, List.length_cons]
  unfold lensPush
  simp only [record, pushable, length]
  rfl

/-- R62: PRESET_WRITE. -/
theorem presetWrite_eq (c : Cmd) (p : Port) (k : Fin 16) (h : Hub) :
    let capped := Targets.capped (targetsAt c.payload 1)
    let clamped := [1, 4, 7].any fun i => byteAt c.payload i == 1 && 4095 < u16At c.payload (i + 1)
    presetWrite c p k h = ⟨h.modLens p fun l => { l with presets := l.presets.set k capped }, okOr clamped,
      if clamped then w1 k.val ++ wOpt2 capped.focus ++ wOpt2 capped.iris ++ wOpt2 capped.zoom else []⟩ := by
  intro capped clamped
  unfold presetWrite
  simp only [capped_targetsAt_ne, Targets.bytes_eq, List.append_assoc]
  rfl

/-- R68: LENS_SETUP. -/
theorem lensSetup_eq (c : Cmd) (p : Port) (h : Hub) :
    let sent : LensSetup := ⟨byteAt c.payload 0, byteAt c.payload 1, u16At c.payload 2⟩
    let new : LensSetup :=
      ⟨min 63 (byteAt c.payload 0), min 15 (max 1 (byteAt c.payload 1)), min 2550 (max 10 (u16At c.payload 2)) / 10 * 10⟩
    lensSetup c p h = ⟨h.modLens p fun l => { l with setup := new }, okOr (new != sent),
      w1 new.tolerance ++ w1 new.settleCount ++ w2 new.moveTimeout⟩ := by
  intro sent new
  have tolerance : clampTo 0 63 (byteAt c.payload 0) = min 63 (byteAt c.payload 0) := by simp [clampTo]
  unfold lensSetup
  simp only [tolerance]
  rfl

/-- R65: LENS_PUSH without a target for each present axis, or without a record. -/
theorem lensPush_refused {p : Port} {h : Hub} (bad : ∀ r, (h.lenses.get p).record = some r → r.pushable = false) :
    lensPush p h = refuse .badState h := by
  unfold lensPush
  dsimp only
  split
  · rfl
  · rename_i r record
    simp [bad r record]

/-- Settles O42: each command's meaning writes what the statement says, and answers CLAMPED when a quantity was brought into range. -/
theorem linkAndLensSettingsWritten : Obligations.LinkAndLensSettingsWritten := by
  intro c p s ready named bs part preset clampedPreset newSetup
  have flagged (i : Nat) (bit : byteAt c.payload i ≤ 1) : flagOk c.payload i = true := decide_eq_true bit
  refine ⟨fun v payload => ?_, fun k len index f1 f4 f7 => ?_, fun len => ?_, fun r empty record targets => ?_,
    fun r x empty record present untargeted => ?_, fun empty invalid => ?_⟩
  · exact completes_port rfl ready named (by simp [show c.payload = [v] from payload]) (linkSetup_eq payload p _) rfl
      ((okOr_code _).trans (by simp))
  · have same : Targets.capped (targetsAt c.payload 1) = preset := by
      rw [capped_targetsAt, optU16At_capped, optU16At_capped, optU16At_capped]
    refine completes_port (status := okOr clampedPreset) rfl ready named (decide_eq_true len) ?_ rfl (okOr_code _)
    rw [targetFlagsOk, flagged 1 f1, flagged 4 f4, flagged 7 f7, ← same]
    unfold withFlags withPreset
    simp only [Bool.and_self, if_true]
    rw [dif_pos (show byteAt c.payload 0 < 16 from index ▸ k.isLt)]
    exact (congrArg (presetWrite c p · s.toHub) (Fin.ext index)).trans (presetWrite_eq c p k _)
  · refine completes_port rfl ready named (decide_eq_true len) (lensSetup_eq c p _) rfl ((okOr_code _).trans ?_)
    simp only [bne_iff_ne, ne_eq, ite_not]
    rfl
  · exact completes_port rfl ready named (by simp [show c.payload = [] from empty]) (lensPush_eq record ((r.pushable_iff).2 targets))
  · refine completes_port (status := .badState) rfl ready named (by simp [show c.payload = [] from empty]) (lensPush_refused fun r' record' => ?_)
    cases record.symm.trans record'
    rw [Bool.eq_false_iff, ne_eq, r.pushable_iff]
    intro all
    simpa [untargeted] using all _ x present rfl
  · refine completes_port (status := .badState) rfl ready named (by simp [show c.payload = [] from empty]) (lensPush_refused fun r' record' => ?_)
    simp [invalid] at record'

end Sys2Proof.Machine
end

