-- ==== Sys2Proof/Proofs/TwoServings.lean ====
section
/-! PROOF. O58 fails: PORT_RESET releases a port's surge and its claim one after the other, and each release prompts a serving of its own.
On a deferred list that names a port twice the two servings reach an entry that one serving after both releases does not reach. -/

namespace Sys2Proof.Machine

/-- Port 0 holds a claim of 100 mA and a surge of 300 mA; port 1, with a surge of 300 mA, stands twice on the deferred list before port 2,
with a surge of 100 mA; the budget is 700 mA. -/
def doublyDeferred : State :=
  let held (surge held : Nat) : Power := { state := .on, setup := { limit := 100, surge := surge }, heldSurge := held }
  { State.reset with
    uplink := { up := true, credits := 4 }
    budget := 700
    deferred := [1, 1, 2]
    power := ((State.reset.power.set 0 (held 0 300)).set 1 (held 300 0)).set 2 (held 100 0) }

/-- PORT_RESET of port 0. -/
def portResetZero : Cmd := ⟨0, 0, []⟩

/-- The hub after PORT_RESET of port 0. -/
def afterPortReset : Hub := doublyDeferred.toHub.takeCommand 0x13 portResetZero true (withPort portResetZero fun p h => ⟨h.portReset p, .ok, []⟩)

/-- The second serving reaches port 2. -/
theorem deferred_afterPortReset : afterPortReset.deferred = [] := by decide +kernel

/-- Port 0 gave up all it held, and no serving followed yet. -/
def freedZero : Hub :=
  { doublyDeferred.toHub with
    links := doublyDeferred.links.set 0 (afterPortReset.links.get 0), power := doublyDeferred.power.set 0 (afterPortReset.power.get 0)
    lenses := doublyDeferred.lenses.set 0 (afterPortReset.lenses.get 0), deferred := [1, 1, 2] }

/-- Port 1's power record once its entry is admitted. -/
def firstAdmitted : PerPort Power := freedZero.power.set 1 { freedZero.power.get 1 with heldSurge := (freedZero.power.get 1).setup.surge }

theorem reservedSum_freedZero : freedZero.reservedSum = 200 ∧ doublyDeferred.reservedSum = 600 := by decide +kernel

theorem reservedSum_firstAdmitted : ({ freedZero with power := firstAdmitted } : Hub).reservedSum = 500 := by decide +kernel

/-- After the first entry's admission the second entry of port 1 is not admitted. -/
theorem not_admitted_again {m : Hub} (admitted : entryAdmitted 1 freedZero m) : ¬ m.surgeAdmitted 1 := by
  obtain ⟨parts, others, -, power, -⟩ := admitted
  have all : m.power = firstAdmitted := PerPort.ext_get fun q => by
    unfold firstAdmitted
    rw [PerPort.get_set]
    split
    · subst_vars
      exact power
    · exact (others q ‹_›).2.1
  have sum : m.reservedSum = 500 := (congrArg (fun v => ({ freedZero with power := v } : Hub).reservedSum) all).trans reservedSum_firstAdmitted
  have budget : m.budget = 700 := parts.budget
  have surge : (m.power.get 1).setup.surge = 300 := by
    rw [all]
    decide +kernel
  rintro ⟨-, none | fits⟩ <;> omega

/-- One serving after both releases stops at the second entry of port 1 and leaves port 2 on the list. -/
theorem not_portFreed_afterPortReset : ¬ portFreed 0 [1, 1, 2] doublyDeferred.toHub afterPortReset := by
  rintro ⟨m, less, -, -, -, deferred⟩
  have serving : served [1, 1, 2] freedZero m := less.1 <| calc
    freedZero.reservedSum = 200 := reservedSum_freedZero.1
    _ < 600 := by decide
    _ = doublyDeferred.reservedSum := reservedSum_freedZero.2.symm
  have fits : freedZero.surgeAdmitted 1 := by
    refine ⟨by decide +kernel, .inr ?_⟩
    rw [reservedSum_freedZero.1]
    decide +kernel
  obtain ⟨first, admitted, rest⟩ := serving.2 fits
  have stopped : m = first := rest.1 (not_admitted_again admitted)
  rw [stopped, admitted.2.2.1, deferred_afterPortReset] at deferred
  exact absurd deferred (by decide)

/-- Refutes O58: on `doublyDeferred` PORT_RESET of port 0 empties the deferred list, but the one serving that `portFreed` names leaves
port 2 on it. -/
theorem not_portResetReturnsPort : ¬ Obligations.PortResetReturnsPort := by
  intro all
  obtain ⟨t, run, -, -, -, -, -, -, -, -, -, -, -, -, -, -, -, -, -, -, -, -, freed, -⟩ :=
    all portResetZero 0 doublyDeferred ⟨rfl, by decide⟩ rfl rfl
  have after : t.toHub = afterPortReset := (State.next_eq.1 run).1
  rw [after] at freed
  have noFlight : ∀ x, x ∉ doublyDeferred.shot.flights := fun _ => List.not_mem_nil
  have own : doublyDeferred.toHub.slotsOwn 0 := ⟨fun _ _ _ x flying => absurd flying (noFlight x), fun x flying => absurd flying (noFlight x)⟩
  exact not_portFreed_afterPortReset (freed own (.inl fun x flying => absurd flying (noFlight x)))

end Sys2Proof.Machine
end

