-- ==== Sys2Proof/Proofs/CableWords.lean ====
section
/-! PROOF. O36 and O37: undecodable words, and the end of a word on the cable. -/

namespace Sys2Proof.Machine

/-! ## O36 -/

theorem takesWords_iff (l : Link) : l.takesWords = true ↔ l.state = .up ∨ l.state = .acquire ∧ l.locked = true := by
  simp [Link.takesWords]

/-- Settles O36: bytes that decode to no word are counted where the receiver takes words. -/
theorem undecodableWordCounted : Obligations.UndecodableWordCounted := by
  intro p raw s wf
  have none : decodeUpWord raw = none := Option.isNone_iff_eq_none.1 wf
  have taken : s.toHub.rawWord p raw = if (s.links.get p).takesWords then s.toHub.countWordError p else s.toHub := by
    unfold Hub.rawWord
    rw [none]
  refine ⟨fun takes => ?_, fun out => ?_⟩
  · have run : s.toHub.rawWord p raw = s.toHub.countWordError p := by rw [taken, if_pos ((takesWords_iff _).2 takes)]
    exact congrArg s.next run
  · have closed : ¬ (s.links.get p).takesWords = true := by
      rw [takesWords_iff]
      rintro (up | ⟨acquire, -⟩)
      · exact out (by simp [up])
      · exact out (by simp [acquire])
    have run : s.toHub.rawWord p raw = s.toHub := by rw [taken, if_neg closed]
    exact congrArg s.next run

/-! ## The word list (R3) -/

/-- R3: words that the link state does not allow leave the list before the first that it allows. -/
theorem pumpWords_of_split {st : LinkState} {before after : List DownWord} {next : DownWord} (no : ∀ x ∈ before, x.allowed st = false)
    (ok : next.allowed st = true) :
    (pumpWords st (before ++ next :: after)).1 = some next ∧ (pumpWords st (before ++ next :: after)).2.1 = after := by
  induction before with
  | nil => simp [pumpWords, ok]
  | cons x xs ih =>
    obtain ⟨sent, rest⟩ := ih fun y mem => no y (List.mem_cons_of_mem x mem)
    simp [pumpWords, no x List.mem_cons_self, sent, rest]

/-- R3: with no word that the link state allows the whole list leaves unsent. -/
theorem pumpWords_of_none {st : LinkState} {ws : List DownWord} (no : ws.find? (DownWord.allowed st) = none) :
    (pumpWords st ws).1 = none ∧ (pumpWords st ws).2.1 = [] := by
  induction ws with
  | nil => exact ⟨rfl, rfl⟩
  | cons x xs ih =>
    have none := List.find?_eq_none.1 no
    have refused : x.allowed st = false := Bool.eq_false_iff.2 (none x List.mem_cons_self)
    obtain ⟨sent, rest⟩ := ih (List.find?_eq_none.2 fun y mem => none y (List.mem_cons_of_mem x mem))
    simp [pumpWords, refused, sent, rest]

/-- R3, R4: no TRIGGER leaves the list unsent in UP, nor where none waits. -/
theorem pumpWords_lost {st : LinkState} {ws : List DownWord} (k : st = .up ∨ ∀ x ∈ ws, x.triggerTag? = none) :
    (pumpWords st ws).2.2 = none := by
  induction ws with
  | nil => rfl
  | cons x xs ih =>
    unfold pumpWords
    split
    · rfl
    · rename_i refused
      have tag : x.triggerTag? = none := by
        rcases k with up | none
        · cases x <;> simp_all [DownWord.allowed, DownWord.triggerTag?]
        · exact none x List.mem_cons_self
      have rest := ih (k.imp_right fun none y mem => none y (List.mem_cons_of_mem x mem))
      simp [tag, rest]

/-! ## The end of a word (R3, R93) -/

/-- The word on the cable has gone. -/
def Link.free (l : Link) : Link := { l with cable := none }

/-- R3: what a free cable takes next. -/
theorem pump_free (l : Link) : l.free.pump =
    ({ l with words := (pumpWords l.state l.words).2.1, cable := (pumpWords l.state l.words).1.map fun w => ⟨w, wordTime, false⟩ },
      (pumpWords l.state l.words).2.2) := rfl

/-- R93: what the word on the cable leaves behind: a TRIGGER not yet reported is reported sent. -/
def Hub.wordGone (p : Port) (c : OnCable) (h : Hub) : Hub :=
  match c.word.triggerTag? with
  | some t => if c.reported then h.modLink p Link.free else (h.modLink p Link.free).triggerSent t
  | none => h.modLink p Link.free

theorem onlyIn_wordGone (p : Port) (c : OnCable) (h : Hub) : (h.modLink p Link.free).onlyIn [.shot, .store] (h.wordGone p c) := by
  refine Hub.onlyIn_of_hide ?_
  unfold Hub.wordGone
  split
  · split <;> simp
  · rfl

theorem links_wordGone (p : Port) (c : OnCable) (h : Hub) : (h.wordGone p c).links = h.links.mod p Link.free :=
  (onlyIn_wordGone p c h).links

/-- R3: where no TRIGGER is lost the next word goes onto the cable and nothing else follows. -/
theorem wordEnd_eq {p : Port} {c : OnCable} {h : Hub}
    (k : (h.links.get p).state = .up ∨ ∀ x ∈ (h.links.get p).words, x.triggerTag? = none) :
    h.wordEnd p c = (h.wordGone p c).modLink p fun l => l.pump.1 := by
  have lost : (((h.wordGone p c).links.get p).pump).2 = none := by
    rw [links_wordGone, PerPort.get_mod_same, pump_free]
    exact pumpWords_lost k
  have run : h.wordEnd p c = match (((h.wordGone p c).links.get p).pump).2 with
    | some t => ((h.wordGone p c).modLink p fun l => l.pump.1).triggerNotSent t
    | none => (h.wordGone p c).modLink p fun l => l.pump.1 := rfl
  rw [run, lost]

/-- R93: where the link unit has no sent TRIGGER to report, or the scheduler has no slot in OFFERED for it, only the cable is free. -/
theorem wordGone_eq_free {p : Port} {c : OnCable} {h : Hub}
    (k : c.word.triggerTag? = none ∨ c.reported = true ∨ ∀ x ∈ h.shot.flights, x.stage = .offered → c.word.triggerTag? ≠ some x.tag) :
    h.wordGone p c = h.modLink p Link.free := by
  unfold Hub.wordGone
  split
  · rename_i t tag
    split
    · rfl
    · rename_i unreported
      have noFlight : (h.modLink p Link.free).shot.flights.find? (fun f => f.tag == t && f.stage == .offered) = none := by
        rw [List.find?_eq_none]
        intro x mem
        rcases k with none | reported | others
        · simp [none] at tag
        · exact absurd reported unreported
        · have other := others x mem
          rw [tag] at other
          simp only [Bool.and_eq_true, beq_iff_eq, not_and]
          exact fun same offered => other offered (congrArg some same.symm)
      unfold Hub.triggerSent
      rw [noFlight]
  · rfl

/-- R3: the links of a hub whose port has put its next word onto the cable. -/
theorem links_wordEnd {p : Port} {c : OnCable} {h : Hub}
    (k : (h.links.get p).state = .up ∨ ∀ x ∈ (h.links.get p).words, x.triggerTag? = none) :
    (h.wordEnd p c).links = (h.links.mod p Link.free).mod p fun l => l.pump.1 := by
  rw [wordEnd_eq k, modLink_links, links_wordGone]

/-! ## The end of a step -/

/-- R124, R125: the end of a step may mark a frame SENDING, and leaves the frame store as it is but for that. -/
theorem store_settledTo {a b : Hub} (e : a.settledTo b) :
    ∃ f : Frame → Frame, b.store = { a.store with frames := a.store.frames.map f } ∧
      ∀ g, f g = g ∨ f g = { g with state := .sending } := by
  rcases e.2.2.2 with ⟨same, -, -⟩ | ⟨p, tag, rest, f, r, closing, g, -, -, -, -, -, -, -, granted⟩
  · exact ⟨id, by simp [same], fun g => .inl rfl⟩
  · refine ⟨_, granted, fun g => ?_⟩
    by_cases head : g.tag = tag
    · exact .inr (if_pos head)
    · exact .inl (if_neg head)

/-! ## A TRIGGER sent (R93, R95, R105) -/

/-- R105: what a frame gets when its TRIGGER is sent. -/
def Frame.expose (h : Hub) (p : Port) (x : Frame) : Frame :=
  let l := h.lenses.get p
  { x with
    exposedAt := some h.now, zone := some (h.zones.get p).current
    lens := some ⟨(l.record.map fun r => r.axes.map fun a => a.bind (·.actual)).getD ⟨none, none, none⟩, l.moveState⟩
    window := some (x.windowMs * 1000) }

/-- R91, R95: the scheduler once a slot's TRIGGER was sent. -/
def Shot.sent (t : FrameTag) (f : Flight) (s : Shot) : Shot :=
  { s with
    flights := s.flights.filter (·.tag != t)
    stats := vmod s.stats f.slot fun x => x.count (if f.late then .late else .fired) f.cycle
    exposureEnds := if (s.follower f.slot f.cycle).isSome then s.exposureEnds.set f.slot (some f.exposure) else s.exposureEnds }

theorem triggerSent_eq {t : FrameTag} {f : Flight} {h : Hub}
    (found : h.shot.flights.find? (fun x => x.tag == t && x.stage == .offered) = some f) :
    h.triggerSent t = (h.modFrame t (Frame.expose h f.port)).modShot fun _ => Shot.sent t f h.shot := by
  unfold Hub.triggerSent Shot.sent
  rw [found]
  cases follower : h.shot.follower f.slot f.cycle with
  | none =>
    simp only [follower]
    rfl
  | some j =>
    simp only [follower]
    rfl

theorem count_sent (x : SlotStats) (late : Bool) (cycle : BitVec 32) :
    x.count (if late then .late else .fired) cycle =
      { x with
        fired := if late then x.fired else min 65535 (x.fired + 1)
        late := if late then min 65535 (x.late + 1) else x.late
        last := some (if late then .late else .fired, cycle) } := by
  cases late <;> rfl

/-! ## O37 -/

theorem elapse_link (n : Nat) (p : Port) (h : Hub) : (h.elapse n).links.get p = (h.links.get p).pass n := by simp [Hub.elapse]

/-- An OFFERED flight runs no timer. -/
theorem find?_flights_elapse (n : Nat) (t : FrameTag) (l : List Flight) :
    (l.map (Flight.pass n)).find? (fun x => x.tag == t && x.stage == .offered) = l.find? (fun x => x.tag == t && x.stage == .offered) := by
  induction l with
  | nil => rfl
  | cons x xs ih =>
    have waits (m : Nat) : (FlightStage.waiting m == FlightStage.offered) = false := rfl
    rw [List.map_cons, List.find?_cons, List.find?_cons, ih]
    unfold Flight.pass
    cases stage : x.stage with
    | waiting left => simp [waits]
    | offered => simp [stage]

/-- The word that the cable takes as O37 states it. -/
theorem cable_afterWord {p : Port} {c : OnCable} {h : Hub} {b : Hub}
    (k : (h.links.get p).state = .up ∨ ∀ x ∈ (h.links.get p).words, x.triggerTag? = none) (after : (h.wordEnd p c).links = b.links) :
    b.links.get p =
      { h.links.get p with
        words := (pumpWords (h.links.get p).state (h.links.get p).words).2.1
        cable := (pumpWords (h.links.get p).state (h.links.get p).words).1.map fun w => ⟨w, wordTime, false⟩ } ∧
      ∀ q, q ≠ p → b.links.get q = h.links.get q := by
  rw [← after, links_wordEnd k]
  refine ⟨?_, fun q ne => ?_⟩
  · rw [PerPort.get_mod_same, PerPort.get_mod_same, pump_free]
  · rw [PerPort.get_mod_ne _ _ _ _ ne, PerPort.get_mod_ne _ _ _ _ ne]

theorem run_downstreamWordEnd {p : Port} {s : State} {w : OnCable} (cable : (s.links.get p).cable = some w) :
    exec (.downstreamWordEnd p) s = s.next (((s.toHub.elapse w.left).wordEnd p w).finish) := by
  show execDownstreamWordEnd p s = _
  unfold execDownstreamWordEnd
  rw [cable]

theorem Flight.pass_offered {n : Nat} {x : Flight} (offered : (x.pass n).stage = .offered) : x.pass n = x := by
  unfold Flight.pass at offered ⊢
  split at offered
  · cases offered
  · rfl

/-- Time that passes opens no slot and loses no word. -/
theorem noReport_elapse {c : OnCable} {h : Hub} (n : Nat)
    (k : c.word.triggerTag? = none ∨ c.reported = true ∨ ∀ x ∈ h.shot.flights, x.stage = .offered → c.word.triggerTag? ≠ some x.tag) :
    c.word.triggerTag? = none ∨ c.reported = true ∨
      ∀ x ∈ (h.elapse n).shot.flights, x.stage = .offered → c.word.triggerTag? ≠ some x.tag := by
  refine k.imp_right (Or.imp_right fun others x mem offered => ?_)
  obtain ⟨y, flying, rfl⟩ := List.mem_map.1 mem
  have same := Flight.pass_offered offered
  rw [same] at offered ⊢
  exact others y flying offered

theorem noTriggerLost_elapse {p : Port} {h : Hub} (n : Nat)
    (k : (h.links.get p).state = .up ∨ ∀ x ∈ (h.links.get p).words, x.triggerTag? = none) :
    ((h.elapse n).links.get p).state = .up ∨ ∀ x ∈ ((h.elapse n).links.get p).words, x.triggerTag? = none := by
  rw [elapse_link]
  exact k

/-- R95, R105: what O37 states of a TRIGGER sent. -/
theorem wordEnd_sent {p : Port} {tag : FrameTag} {exposure left : Nat} {f : Flight} {h : Hub}
    (k : (h.links.get p).state = .up ∨ ∀ x ∈ (h.links.get p).words, x.triggerTag? = none)
    (found : h.shot.flights.find? (fun x => x.tag == tag && x.stage == .offered) = some f) :
    let b := h.wordEnd p ⟨.trigger tag exposure, left, false⟩
    h.onlyIn [.links, .shot, .store] b ∧ b.shot = Shot.sent tag f h.shot ∧
      b.store.frames = h.store.frames.map fun x => if x.tag == tag then Frame.expose h f.port x else x := by
  intro b
  have sent : b = (((h.modLink p Link.free).modFrame tag (Frame.expose (h.modLink p Link.free) f.port)).modShot fun _ =>
      Shot.sent tag f h.shot).modLink p fun l => l.pump.1 := by
    have run := triggerSent_eq (h := h.modLink p Link.free) found
    exact (wordEnd_eq k).trans (congrArg (Hub.modLink p fun l => l.pump.1) run)
  rw [sent]
  exact ⟨Hub.onlyIn_of_hide (by simp), rfl, rfl⟩

/-- R105: the lens snapshot of a frame, as O37 spells it. -/
theorem lens_expose (n : Nat) (p : Port) (h : Hub) (x : Frame) :
    (Frame.expose (h.elapse n) p x).lens = some
      ⟨(((h.lenses.get p).record.map LensRecord.axes).getD ⟨none, none, none⟩).map (fun a => a.bind (·.actual)),
        (h.lenses.get p).moveState⟩ := by
  have passed : (h.elapse n).lenses.get p = (h.lenses.get p).pass n := by simp [Hub.elapse]
  unfold Frame.expose
  rw [passed]
  cases record : (h.lenses.get p).record <;> simp [Lens.pass, Lens.moveState, record, PerAxis.map]

/-- Exposing a frame, and marking one SENDING, keep its tag. -/
theorem tag_exposed {mark : Frame → Frame} (marks : ∀ g, mark g = g ∨ mark g = { g with state := .sending }) (tag : FrameTag) (p : Port)
    (h : Hub) (x : Frame) : (mark (if x.tag == tag then Frame.expose h p x else x)).tag = x.tag := by
  have kept (y : Frame) : (mark y).tag = y.tag := by rcases marks y with e | e <;> rw [e]
  rw [kept]
  split <;> rfl

/-- R105: the frame of a TRIGGER sent, at the end of the step. -/
theorem exposed_of_mem {mark : Frame → Frame} (marks : ∀ g, mark g = g ∨ mark g = { g with state := .sending }) {tag : FrameTag}
    {p : Port} {n : Nat} {h : Hub} {l : List Frame} {g : Frame}
    (mem : g ∈ (l.map fun x => if x.tag == tag then Frame.expose (h.elapse n) p x else x).map mark) (same : g.tag = tag) :
    g.exposedAt = some (h.elapse n).time.cellTime ∧ g.zone = some (h.zones.get p).current ∧ g.window = some (g.windowMs * 1000) ∧
      g.lens = some
        ⟨(((h.lenses.get p).record.map LensRecord.axes).getD ⟨none, none, none⟩).map (fun a => a.bind (·.actual)),
          (h.lenses.get p).moveState⟩ := by
  obtain ⟨y, memY, rfl⟩ := List.mem_map.1 mem
  obtain ⟨x, -, rfl⟩ := List.mem_map.1 memY
  rw [tag_exposed marks] at same
  rw [if_pos (beq_iff_eq.2 same), ← lens_expose n p h x]
  rcases marks (Frame.expose (h.elapse n) p x) with e | e <;> rw [e] <;> exact ⟨rfl, rfl, rfl, rfl⟩

/-- Settles O37: the list gives the cable its first allowed word, and a TRIGGER not yet reported is reported sent first. -/
theorem downstreamWordEnds : Obligations.DownstreamWordEnds := by
  intro p s l noTriggerLost nextSent
  have next (w : OnCable) (cable : l.cable = some w) (k : noTriggerLost) :
      nextSent (s.withHub ((s.toHub.elapse w.left).wordEnd p w).finish) := by
    obtain ⟨mine, others⟩ := cable_afterWord (noTriggerLost_elapse w.left k) (onlyIn_finish ((s.toHub.elapse w.left).wordEnd p w)).links.symm
    rw [elapse_link] at mine
    refine ⟨fun before next after split no ok => ?_, fun none => ?_, ?_, fun q ne => ?_⟩
    · obtain ⟨sent, rest⟩ := pumpWords_of_split (after := after) no ok
      rw [← split] at sent rest
      rw [State.withHub_toHub, mine]
      exact ⟨congrArg (Option.map _) sent, rest⟩
    · obtain ⟨sent, rest⟩ := pumpWords_of_none none
      rw [State.withHub_toHub, mine]
      exact ⟨congrArg (Option.map _) sent, rest⟩
    · rw [State.withHub_toHub, mine]
      rfl
    · rw [cable]
      exact others q ne
  refine ⟨fun none => ?_, fun w cable k quiet => ?_, fun tag exposure left f cable k found => ?_⟩
  · show execDownstreamWordEnd p s = _
    unfold execDownstreamWordEnd
    rw [none]
    rfl
  · refine ⟨_, run_downstreamWordEnd cable, rfl, ?_, ?_, next w cable k⟩
    all_goals
      have run : (s.toHub.elapse w.left).wordEnd p w = _ := wordEnd_eq (noTriggerLost_elapse w.left k)
      rw [wordGone_eq_free (noReport_elapse w.left quiet)] at run
    · rw [State.withHub_toHub, run]
      exact Hub.onlyIn_of_hide (by simp)
    · rw [State.withHub_toHub, run, (onlyIn_finish _).time]
      rfl
  · obtain ⟨parts, shot, frames⟩ := wordEnd_sent (exposure := exposure) (left := left) (noTriggerLost_elapse left k)
      ((find?_flights_elapse left tag _).trans found)
    have ended := (Hub.finish_spec ((s.toHub.elapse left).wordEnd p ⟨.trigger tag exposure, left, false⟩)).1
    obtain ⟨mark, store, marks⟩ := store_settledTo ended
    have time : ((s.toHub.elapse left).wordEnd p ⟨.trigger tag exposure, left, false⟩).finish.time = (s.toHub.elapse left).time :=
      (onlyIn_finish _).time.trans parts.time
    have shot' : ((s.toHub.elapse left).wordEnd p ⟨.trigger tag exposure, left, false⟩).finish.shot = Shot.sent tag f _ :=
      (onlyIn_finish _).shot.trans shot
    refine ⟨_, run_downstreamWordEnd cable, rfl, next _ cable k, time, fun x mem => ?_, ?_, fun tb j running number active after => ?_,
      fun g mem same => ?_, ?_, (onlyIn_finish _).power.trans parts.power, (onlyIn_finish _).lenses.trans parts.lenses⟩
    · rw [State.withHub_toHub, shot'] at mem
      exact bne_iff_ne.1 (List.mem_filter.1 mem).2
    · rw [State.withHub_toHub, shot']
      exact congrArg (vmod s.shot.stats f.slot) (funext fun x => count_sent x f.late f.cycle)
    · have follows : ((s.toHub.elapse left).shot.follower f.slot f.cycle).isSome = true := by
        have inCycle : (s.toHub.elapse left).shot.inCycle f.cycle = true := by simp [Shot.inCycle, Hub.elapse, Shot.pass, running, number]
        have active' : (s.toHub.elapse left).shot.active = some tb := active
        simp [Shot.follower, inCycle, active', after]
      rw [State.withHub_toHub, shot']
      unfold Shot.sent
      rw [if_pos follows]
      exact Vector.getElem_set_self _
    · rw [State.withHub_toHub, store, frames] at mem
      rw [State.withHub_toHub, time]
      exact exposed_of_mem marks mem same
    · rw [State.withHub_toHub, store, frames]
      simp only [List.map_map]
      refine (List.map_map ..).trans (List.map_congr_left fun x _ => ?_)
      exact tag_exposed marks tag f.port _ _

end Sys2Proof.Machine
end

