-- ==== Sys2Proof/Proofs/PowerTimers.lean ====
section
/-! PROOF. O41: the power timers. -/

namespace Sys2Proof.Machine

/-! ## Firings at the end of a step -/

theorem Hub.live_of_edge {src : Source} (h : Hub) (edge : src.isLevel = false) : h.live src := fun level => by simp [edge] at level

/-- The end of a step disturbs no edge source. -/
theorem Undisturbed.finish {src : Source} {a b : Hub} (u : Undisturbed src a b) (edge : src.isLevel = false := by rfl) :
    Undisturbed src a b.finish :=
  u.trans (undisturbed_finish b (b.live_of_edge edge))

/-- R17: LINK_CHANGE fires with the link as it stands. -/
theorem fired_linkChange {p : Port} {cause : LinkCause} {st : LinkState} {rate : Rate} {a m b : Hub}
    (before : Undisturbed (.ofPort p .linkChange) a m) (state : (m.links.get p).state = st) (rates : (m.links.get p).rate = rate)
    (after : Undisturbed (.ofPort p .linkChange) (m.linkChange p cause) b) :
    fired (.ofPort p .linkChange) (linkFields st rate cause) a b := by
  subst state rates
  exact fired_of_fire before after

/-! ## PRECHARGE ends in ON (R27, R9) -/

/-- R9: the link record on entry to ACQUIRE from DOWN. -/
def Link.start (now : CellTime) (l : Link) : Link :=
  { l with state := .acquire, acquireTimer := some acquireTime, locked := false, lastChange := now }

/-- R9: at HALF a RETRAIN is added. -/
def Link.startWords (l : Link) : Link :=
  match l.rate with
  | .half => (l.offer (.retrain .half)).1
  | .full => l

theorem startWords_half {l : Link} (half : l.rate = .half) : l.startWords = (l.offer (.retrain .half)).1 := by
  unfold Link.startWords
  rw [half]

theorem startWords_full {l : Link} (full : l.rate = .full) : l.startWords = l := by
  unfold Link.startWords
  rw [full]

theorem Rate.half_or_full (r : Rate) : r = .half ∨ r = .full := by cases r <;> simp

/-- R9: the start of its words changes a link in its words and cable alone; at HALF it carries the RETRAIN. -/
theorem startWords_spec {l : Link} (acquire : l.state = .acquire) :
    l.startWords = { l with words := l.startWords.words, cable := l.startWords.cable } ∧
      (l.rate = .half → l.startWords.carries (.retrain .half)) ∧
      (l.rate = .full → l.startWords.words = l.words ∧ l.startWords.cable = l.cable) := by
  refine ⟨?_, fun half => ?_, fun full => ?_⟩
  · rcases Rate.half_or_full l.rate with half | full
    · rw [startWords_half half]
      exact Link.offer_eq _ _
    · rw [startWords_full full]
  · rw [startWords_half half]
    exact Link.offer_carries _ _ (by simp [DownWord.allowed, acquire])
  · rw [startWords_full full]
    exact ⟨rfl, rfl⟩

/-- A change of a link is known by what it does to that link. -/
theorem modLink_congr {p : Port} {f g : Link → Link} {h : Hub} (e : f (h.links.get p) = g (h.links.get p)) : h.modLink p f = h.modLink p g :=
  congrArg (fun l => { h with links := h.links.set p l }) e

theorem modLink_id {p : Port} {f : Link → Link} {h : Hub} (e : f (h.links.get p) = h.links.get p) : h.modLink p f = h :=
  (modLink_congr (g := id) e).trans (congrArg (fun v => { h with links := v }) (PerPort.set_get_self _ p))

theorem linkStart_eq (p : Port) (h : Hub) :
    h.linkStart p = ((h.modLink p (Link.start h.now)).modLink p Link.startWords).linkChange p .powerOn := by
  have words : (match (h.links.get p).rate with
      | .half => (h.modLink p (Link.start h.now)).offerWord p (.retrain .half)
      | .full => h.modLink p (Link.start h.now)) = (h.modLink p (Link.start h.now)).modLink p Link.startWords := by
    have rate : ((h.modLink p (Link.start h.now)).links.get p).rate = (h.links.get p).rate := by simp [Link.start]
    rcases Rate.half_or_full (h.links.get p).rate with half | full
    · simp only [half]
      exact modLink_congr (startWords_half (rate.trans half)).symm
    · simp only [full]
      exact (modLink_id (startWords_full (rate.trans full))).symm
  exact congrArg (Hub.linkChange p .powerOn) words

/-- R27: the power record on entry to ON. -/
def Power.toOn (w : Power) : Power := { w with state := .on, overCount := 0, inrushTimer := none, onTimer := some onTime }

theorem enterOn_eq (p : Port) (h : Hub) : h.enterOn p = (h.modPower p Power.toOn).linkStart p := rfl

theorem elapse_power (n : Nat) (p : Port) (h : Hub) : (h.elapse n).power.get p = (h.power.get p).pass n := by simp [Hub.elapse]

theorem run_inrushExpire {p : Port} {left : Nat} {s : State} (state : (s.power.get p).state = .precharge)
    (timer : (s.power.get p).inrushTimer = some left) :
    exec (.inrushExpire p) s = s.next ((s.toHub.elapse left).inrushEnd p).finish := by
  show execInrushExpire p s = _
  unfold execInrushExpire
  rw [state, timer]

/-- What the entry to ON leaves in the links, the power and the parts beside them. -/
theorem enterOn_spec (p : Port) (h : Hub) :
    h.onlyIn [.links, .power, .router, .uplink, .draws] (h.enterOn p) ∧ (h.enterOn p).power = h.power.mod p Power.toOn ∧
      (h.enterOn p).links = (h.links.mod p (Link.start h.now)).mod p Link.startWords := by
  rw [enterOn_eq, linkStart_eq]
  have reported := onlyIn_linkChange p .powerOn
    (((h.modPower p Power.toOn).modLink p (Link.start (h.modPower p Power.toOn).now)).modLink p Link.startWords)
  exact ⟨Hub.onlyIn_of_hide (by simp), reported.power, reported.links⟩

theorem fired_enterOn {p : Port} {a h : Hub} (rest : Undisturbed (.ofPort p .linkChange) a h) :
    fired (.ofPort p .linkChange) (linkFields .acquire (h.links.get p).rate .powerOn) a (h.enterOn p).finish := by
  rw [enterOn_eq, linkStart_eq]
  have started : Undisturbed (.ofPort p .linkChange) h
      (((h.modPower p Power.toOn).modLink p (Link.start (h.modPower p Power.toOn).now)).modLink p Link.startWords) :=
    .of_same rfl rfl rfl (List.Subset.refl _)
  have link : (((h.modPower p Power.toOn).modLink p (Link.start (h.modPower p Power.toOn).now)).modLink p Link.startWords).links.get p =
      (Link.start h.now (h.links.get p)).startWords := by
    rw [modLink_links, PerPort.get_mod_same, modLink_links, PerPort.get_mod_same]
    rfl
  have words := (startWords_spec (l := Link.start h.now (h.links.get p)) rfl).1
  refine fired_linkChange (rest.trans started) ?_ ?_ (Undisturbed.refl _ _).finish
  · rw [link, words]
    rfl
  · rw [link, words]
    rfl

theorem undisturbed_elapse (src : Source) (n : Nat) (h : Hub) : Undisturbed src h (h.elapse n) :=
  .of_same rfl rfl rfl (List.Subset.refl _)

/-! ## PRECHARGE ends in a trip (R27 to R29) -/

/-- R29: a trip in PRECHARGE: the record, POWER_FAULT, and the serving that a released claim prompts. -/
theorem trip_precharge {p : Port} {h : Hub} (state : (h.power.get p).state = .precharge) :
    h.trip p .inrush = ((h.modPower p (Power.trip .inrush)).activate (.ofPort p .powerFault)).serveIfBelow h.reservedSum := by
  unfold Hub.trip
  simp [state]

/-- R28, R29: a tripped port is in COOLDOWN or LOCKED_OUT. -/
theorem state_trip (cause : TripCause) (w : Power) :
    (Power.trip cause w).state = if w.retriesUsed < w.setup.retries then .cooldown else .lockedOut := by
  unfold Power.trip
  dsimp only
  split <;> rfl

theorem state_trip_ne_on (cause : TripCause) (w : Power) : (Power.trip cause w).state ≠ .on := by
  rw [state_trip]
  split <;> decide

/-- R44: POWER_FAULT is active once the port has tripped. -/
theorem faultActive_trip (cause : TripCause) (w : Power) : (Power.trip cause w).faultActive = true := by
  unfold Power.faultActive
  rw [state_trip]
  split <;> rfl

theorem fields_trip (w : Power) :
    (Power.trip .inrush w).cause = .inrush ∧ (Power.trip .inrush w).trips = min 65535 (w.trips + 1) ∧
      (Power.trip .inrush w).discharged = false ∧ (Power.trip .inrush w).dischargeTimer = some 20000 ∧
      (Power.trip .inrush w).inrushTimer = none ∧ (Power.trip .inrush w).retriesUsed = w.retriesUsed := by
  unfold Power.trip
  dsimp only
  split <;> exact ⟨rfl, rfl, rfl, rfl, rfl, rfl⟩

/-- What a trip in PRECHARGE leaves at the end of the step. -/
theorem trip_precharge_spec {p : Port} {h : Hub} (state : (h.power.get p).state = .precharge) :
    (h.trip p .inrush).finish.time = h.time ∧ (h.trip p .inrush).finish.power.get p = Power.trip .inrush (h.power.get p) ∧
      (h.trip p .inrush).finish.links.get p = h.links.get p ∧
      portFreed p h.deferred h (h.trip p .inrush).finish ∧ activated (.ofPort p .powerFault) h (h.trip p .inrush).finish ∧
      ∀ q, q ≠ p → ((h.trip p .inrush).finish.power.get q).state = (h.power.get q).state := by
  rw [trip_precharge state]
  have active : (h.modPower p (Power.trip .inrush)).onlyIn reportParts
      ((h.modPower p (Power.trip .inrush)).activate (.ofPort p .powerFault)) := Hub.onlyIn_of_hide (by simp)
  generalize tripped : (h.modPower p (Power.trip .inrush)).activate (.ofPort p .powerFault) = x at active ⊢
  have power : x.power = h.power.mod p (Power.trip .inrush) := active.power
  have mine : x.power.get p = Power.trip .inrush (h.power.get p) := by rw [power, PerPort.get_mod_same]
  have off : (x.power.get p).state ≠ .on := by
    rw [mine]
    exact state_trip_ne_on _ _
  have stays := sameAt_serveIfBelow p h.reservedSum x (.inr off)
  have served := onlyIn_serveIfBelow h.reservedSum x
  have ended := onlyIn_finish (x.serveIfBelow h.reservedSum)
  have minePower := (ended.sameAt p).power.trans stays.power
  refine ⟨ended.time.trans (served.time.trans active.time), minePower.trans mine, ?_, ?_, ?_, fun q ne => ?_⟩
  · rw [(ended.sameAt p).links, stays.links, active.links]
    rfl
  · refine portFreed_of_serve ⟨fun q _ => by rw [active.links]; rfl, fun q ne => by rw [power, PerPort.get_mod_ne _ _ _ _ ne],
      fun q _ => by rw [active.lenses]; rfl⟩ active.deferred active.budget (ended.sameBut p) ended.deferred (by rw [minePower]) (.inr ⟨off, ?_⟩)
    rw [minePower]
    exact off
  · refine activated_of_activate (m := h.modPower p (Power.trip .inrush)) rfl rfl ?_
    rw [tripped]
    have quiet : Undisturbed (.ofPort p .powerFault) x (x.serveIfBelow h.reservedSum) := ((Hub.Reports.refl x).serveIfBelow _).undisturbed
    refine quiet.trans (undisturbed_finish _ fun _ => ?_)
    show ((x.serveIfBelow h.reservedSum).power.get p).faultActive = true
    rw [stays.power, mine]
    exact faultActive_trip _ _
  · rw [ended.power, (sameStates_of_kept (kept_serveIfBelow h.reservedSum x) q).2, power, PerPort.get_mod_ne _ _ _ _ ne]

/-! ## O41 -/

theorem run_cooldownExpire {p : Port} {left : Nat} {s : State} (state : (s.power.get p).state = .cooldown)
    (timer : (s.power.get p).cooldownTimer = some left) :
    exec (.cooldownExpire p) s = s.next ((s.toHub.elapse left).cooldownEnd p).finish := by
  show execCooldownExpire p s = _
  unfold execCooldownExpire
  rw [state, timer]

/-- The echo locator's jobs do not change as time passes. -/
theorem autoBusy_elapse (n : Nat) (p : Port) (h : Hub) : (h.elapse n).echo.autoBusy p = h.echo.autoBusy p := by
  unfold Echo.autoBusy Echo.queuedKind Echo.samplingKind Hub.elapse Echo.pass
  cases h.echo.sampler <;> rfl

theorem activated_of_elapse {src : Source} {n : Nat} {h b : Hub} (k : activated src (h.elapse n) b) : activated src h b := k

/-- Settles O41: each timer's expiry is the operation that the statement describes, after the time that the timer had left. -/
theorem powerTimersExpire : Obligations.PowerTimersExpire := by
  intro p left s w h
  have low : (h.power.get p).last = w.last ∧ (h.power.get p).setup = w.setup := by
    rw [elapse_power]
    exact ⟨rfl, rfl⟩
  have precharge (k : w.state = .precharge) : (h.power.get p).state = .precharge := by
    rw [elapse_power]
    exact k
  refine ⟨fun state timer under => ?_, fun state timer above => ?_, fun state timer busy => ?_, fun state timer idle => ?_,
    fun state timer => ?_, fun timer => ?_, fun other => ?_, fun other => ?_, fun other => ?_, fun none => ?_⟩
  · have ends : h.inrushEnd p = h.enterOn p := by
      unfold Hub.inrushEnd
      rw [low.1, low.2, if_pos under]
    obtain ⟨parts, power, links⟩ := enterOn_spec p h
    have ended := onlyIn_finish (h.enterOn p)
    have rate : (s.links.get p).rate = (Link.start h.now (h.links.get p)).rate := by
      rw [elapse_link]
      rfl
    obtain ⟨words, half, full⟩ := startWords_spec (l := Link.start h.now (h.links.get p)) rfl
    have link : (h.enterOn p).finish.links.get p = (Link.start h.now (h.links.get p)).startWords := by
      rw [ended.links, links, PerPort.get_mod_same, PerPort.get_mod_same]
    refine ⟨s.withHub (h.enterOn p).finish, (run_inrushExpire state timer).trans (congrArg (fun x => s.next x.finish) ends), rfl,
      Hub.onlyIn_trans (Hub.onlyIn_mono (by decide) parts) (Hub.onlyIn_mono (by decide) ended), ?_, ?_, fun k => ?_, fun k => ?_, ?_,
      fun q ne => ⟨?_, ?_⟩⟩
    · rw [State.withHub_toHub, ended.power, power, PerPort.get_mod_same]
      rfl
    · rw [State.withHub_toHub, link]
      exact words
    · rw [State.withHub_toHub, link]
      exact half (rate.symm.trans k)
    · rw [State.withHub_toHub, link]
      exact full (rate.symm.trans k)
    · have fires := fired_enterOn (undisturbed_elapse (.ofPort p .linkChange) left s.toHub)
      rwa [elapse_link] at fires
    · rw [State.withHub_toHub, ended.power, power, PerPort.get_mod_ne _ _ _ _ ne]
    · rw [State.withHub_toHub, ended.links, links, PerPort.get_mod_ne _ _ _ _ ne, PerPort.get_mod_ne _ _ _ _ ne]
  · have ends : h.inrushEnd p = h.trip p .inrush := by
      unfold Hub.inrushEnd
      rw [low.1, low.2, if_neg (by omega)]
    obtain ⟨time, power, link, freed, active, others⟩ := trip_precharge_spec (precharge state)
    obtain ⟨cause, trips, discharged, timer', inrush, retries⟩ := fields_trip (h.power.get p)
    refine ⟨s.withHub (h.trip p .inrush).finish, (run_inrushExpire state timer).trans (congrArg (fun x => s.next x.finish) ends), rfl, time,
      ?_, ?_, ?_, ?_, ?_, ?_, ?_,
      freed, activated_of_elapse active, fun q ne => (others q ne).trans (sameStates_elapse left s.toHub q).2, link⟩
    all_goals rw [State.withHub_toHub, power]
    · rw [state_trip, elapse_power]
      rfl
    · exact cause
    · rw [trips, elapse_power]
      rfl
    · exact discharged
    · exact timer'
    · exact inrush
    · rw [retries, elapse_power]
      rfl
  · refine happens_finish ((run_cooldownExpire state timer).trans ?_)
    unfold Hub.cooldownEnd
    rw [autoBusy_elapse, if_pos busy]
  · refine happens_finish ((run_cooldownExpire state timer).trans ?_)
    unfold Hub.cooldownEnd
    rw [autoBusy_elapse, if_neg (by simp [idle])]
    rfl
  · show execOnTimerExpire p s = _
    unfold execOnTimerExpire
    rw [show (s.power.get p).state = .on from state, show (s.power.get p).onTimer = some left from timer]
    rfl
  · let x := h.modPower p fun x => { x with dischargeTimer := none, discharged := true }
    have run : exec (.dischargeExpire p) s = s.next x.lookForJob := by
      show execDischargeExpire p s = _
      unfold execDischargeExpire
      rw [show (s.power.get p).dischargeTimer = some left from timer]
    exact ⟨_, run, rfl, Hub.onlyIn_of_hide (by simp [x]), lookForJob_power x, looksForJob_lookForJob x⟩
  · show execInrushExpire p s = _
    unfold execInrushExpire
    split
    · exact absurd ‹_› other
    · rfl
  · show execCooldownExpire p s = _
    unfold execCooldownExpire
    split
    · exact absurd ‹_› other
    · rfl
  · show execOnTimerExpire p s = _
    unfold execOnTimerExpire
    split
    · exact absurd ‹_› other
    · rfl
  · show execDischargeExpire p s = _
    unfold execDischargeExpire
    rw [show (s.power.get p).dischargeTimer = _ from none]
    rfl

end Sys2Proof.Machine
end

