-- ==== Sys2Proof/Proofs/HelloWords.lean ====
section
/-! PROOF. O33: HELLO words, and the slots that an abandoned move lets go in UP. -/

namespace Sys2Proof.Machine

/-! ## TRIGGERs offered in UP (R92, R93) -/

/-- A slot's TRIGGER is offered, not late. -/
def Flight.offerOnTime (x : Flight) : Flight := { x with stage := .offered, late := false }

/-- R3: a word offered to a link that is UP removes no TRIGGER unsent. -/
theorem offer_lost {l : Link} (up : l.state = .up) (w : DownWord) : (l.offer w).2 = none := by
  unfold Link.offer Link.pump
  split
  · rfl
  · exact pumpWords_lost (.inl up)

/-- R92: in UP the TRIGGER of a slot is at the port's link, and nothing else follows. -/
theorem offerTrigger_eq {f : Flight} {h : Hub} (up : (h.links.get f.port).state = .up) :
    h.offerTrigger f false = (h.modFlight f.tag Flight.offerOnTime).offerWord f.port (.trigger f.tag f.exposure) := by
  have lost : (((h.modFlight f.tag Flight.offerOnTime).links.get f.port).offer (.trigger f.tag f.exposure)).2 = none := offer_lost up _
  have run : h.offerTrigger f false =
      match (((h.modFlight f.tag Flight.offerOnTime).links.get f.port).offer (.trigger f.tag f.exposure)).2 with
      | some t => ((h.modFlight f.tag Flight.offerOnTime).offerWord f.port (.trigger f.tag f.exposure)).triggerNotSent t
      | none => (h.modFlight f.tag Flight.offerOnTime).offerWord f.port (.trigger f.tag f.exposure) := rfl
  rw [run, lost]

/-- The slots of the tags listed are offered, not late. -/
def Shot.offerTags (tags : List FrameTag) (x : Shot) : Shot :=
  { x with flights := x.flights.map fun f => if f.tag ∈ tags then f.offerOnTime else f }

/-- From the first hub to the second the slots of the tags listed were offered at port `p`. -/
structure Hub.offersAt (p : Port) (tags : List FrameTag) (a b : Hub) : Prop where
  parts : a.onlyIn [.links, .shot] b
  link : b.links.get p = { a.links.get p with words := (b.links.get p).words, cable := (b.links.get p).cable }
  others : ∀ q, q ≠ p → b.links.get q = a.links.get q
  shot : b.shot = a.shot.offerTags tags

theorem offersAt_nil (p : Port) (h : Hub) : h.offersAt p [] h :=
  ⟨Hub.onlyIn_refl _ h, rfl, fun _ _ => rfl, by simp [Shot.offerTags]⟩

theorem offersAt_offerTrigger {p : Port} {f : Flight} {h : Hub} (at_ : f.port = p) (up : (h.links.get p).state = .up) :
    h.offersAt p [f.tag] (h.offerTrigger f false) := by
  subst at_
  rw [offerTrigger_eq up]
  refine ⟨Hub.onlyIn_of_hide (by simp), ?_, fun q ne => ?_, ?_⟩
  · simp only [Hub.offerWord, modLink_links, PerPort.get_mod_same]
    exact Link.offer_eq _ _
  · exact PerPort.get_mod_ne _ _ _ _ ne
  · have same : (fun x : Flight => if x.tag == f.tag then x.offerOnTime else x) =
        fun x => if x.tag ∈ [f.tag] then x.offerOnTime else x := funext fun x => by simp
    exact congrArg (fun g => { h.shot with flights := h.shot.flights.map g }) same

theorem Hub.offersAt.trans {p : Port} {l m : List FrameTag} {a b c : Hub} (h1 : a.offersAt p l b) (h2 : b.offersAt p m c) :
    a.offersAt p (l ++ m) c := by
  refine ⟨Hub.onlyIn_trans h1.parts h2.parts, ?_, fun q ne => (h2.others q ne).trans (h1.others q ne), ?_⟩
  · rw [h2.link, h1.link]
  · rw [h2.shot, h1.shot]
    refine congrArg (fun v => { a.shot with flights := v }) (List.map_map.trans (List.map_congr_left fun x _ => ?_))
    by_cases first : x.tag ∈ l <;> simp [first, Flight.offerOnTime]

/-- R92: the slots of port `p` listed are offered one after the other, the link being UP. -/
theorem offersAt_foldl {p : Port} (l : List Flight) (own : ∀ x ∈ l, x.port = p) {h : Hub} (up : (h.links.get p).state = .up) :
    h.offersAt p (l.map (·.tag)) (l.foldl (fun h x => h.offerTrigger x false) h) := by
  induction l generalizing h with
  | nil => exact offersAt_nil p h
  | cons x rest ih =>
    have first := offersAt_offerTrigger (own x List.mem_cons_self) up
    exact first.trans (ih (fun y mem => own y (List.mem_cons_of_mem x mem)) (by rw [first.link]; exact up))

/-- R92: the port's slots in GUARD. -/
def Hub.waiting (p : Port) (h : Hub) : List Flight := h.shot.flights.filter fun x => x.port == p && x.stage != .offered

theorem port_of_waiting {p : Port} {h : Hub} {x : Flight} (mem : x ∈ h.waiting p) : x.port = p := by
  have both := (List.mem_filter.1 mem).2
  simp only [Bool.and_eq_true, beq_iff_eq] at both
  exact both.1

/-- R92: the lens of a port whose link is UP is ready: its slots in GUARD are offered. -/
theorem offersAt_lensReady {p : Port} {h : Hub} (up : (h.links.get p).state = .up) :
    h.offersAt p ((h.waiting p).map (·.tag)) (h.lensReady p) :=
  offersAt_foldl _ (fun _ => port_of_waiting) up

theorem carries_lensReady {p : Port} {f : Flight} {h : Hub} (up : (h.links.get p).state = .up) (one : h.waiting p = [f]) :
    ((h.lensReady p).links.get p).carries (.trigger f.tag f.exposure) := by
  have own : f.port = p := port_of_waiting (h := h) (by rw [one]; exact List.mem_singleton.2 rfl)
  have run : h.lensReady p = h.offerTrigger f false := by
    show (h.waiting p).foldl (fun h x => h.offerTrigger x false) h = _
    rw [one]
    rfl
  rw [run, offerTrigger_eq (own ▸ up), ← own]
  simp only [Hub.offerWord, modLink_links, PerPort.get_mod_same]
  exact Link.offer_carries _ _ (by subst own; exact beq_iff_eq.2 up)

/-! ## An abandoned move at a link that is UP (R59, R92) -/

/-- R59: what an abandonment leaves before the serving that it prompts. -/
def Hub.letGo (p : Port) (h : Hub) : Hub :=
  ((h.setDeferred (h.deferred.filter (· != p))).modRecord p LensRecord.abandoned).modPower p fun w => { w with heldSurge := 0 }

theorem abandon_eq (p : Port) (h : Hub) : h.abandon p = ((h.letGo p).serveIfBelow h.reservedSum).lensAbandoned p := rfl

theorem not_mem_letGo (p : Port) (h : Hub) : p ∉ (h.letGo p).deferred := by
  show p ∉ h.deferred.filter (· != p)
  simp

/-- R55: the serving leaves the port whose entry was taken off the list. -/
theorem sameAt_letGo_serve (p : Port) (n : Nat) (h : Hub) : (h.letGo p).sameAt p ((h.letGo p).serveIfBelow n) :=
  sameAt_serveIfBelow p n _ (.inl (not_mem_letGo p h))

theorem sameBut_letGo (p : Port) (h : Hub) : h.sameBut p (h.letGo p) := by
  refine ⟨fun q _ => rfl, fun q ne => PerPort.get_mod_ne _ _ _ _ ne, fun q ne => PerPort.get_mod_ne _ _ _ _ ne⟩

theorem power_letGo (p : Port) (h : Hub) : (h.letGo p).power.get p = { h.power.get p with heldSurge := 0 } := PerPort.get_mod_same _ _ _

theorem lens_letGo (p : Port) (h : Hub) :
    (h.letGo p).lenses.get p = { h.lenses.get p with record := (h.lenses.get p).record.map abandonedRecord } := by
  have record : LensRecord.abandoned = abandonedRecord := funext abandoned_eq
  rw [← record]
  exact PerPort.get_mod_same _ _ _

/-- R59, R92: with power ON and the link UP an abandonment ends in offering the port's slots in GUARD. -/
theorem abandon_up {p : Port} {h : Hub} (on : (h.power.get p).state = .on) (up : (h.links.get p).state = .up) :
    h.abandon p = ((h.letGo p).serveIfBelow h.reservedSum).lensReady p := by
  have stays := sameAt_letGo_serve p h.reservedSum h
  have link : (((h.letGo p).serveIfBelow h.reservedSum).links.get p).state = .up := by rw [stays.links]; exact up
  have power : (((h.letGo p).serveIfBelow h.reservedSum).power.get p).state = .on := by rw [stays.power, power_letGo]; exact on
  rw [abandon_eq]
  unfold Hub.lensAbandoned
  rw [link, power]
  rfl

/-- R59, R92: what an abandonment leaves at a port whose power is ON and whose link is UP. -/
structure AbandonedUp (p : Port) (h b : Hub) : Prop where
  offers : ((h.letGo p).serveIfBelow h.reservedSum).offersAt p ((h.waiting p).map (·.tag)) b
  carries : ∀ f, h.waiting p = [f] → (b.links.get p).carries (.trigger f.tag f.exposure)

theorem abandonedUp_abandon {p : Port} {h : Hub} (on : (h.power.get p).state = .on) (up : (h.links.get p).state = .up) :
    AbandonedUp p h (h.abandon p) := by
  have link : (((h.letGo p).serveIfBelow h.reservedSum).links.get p).state = .up := by
    rw [(sameAt_letGo_serve p h.reservedSum h).links]
    exact up
  have shot : ((h.letGo p).serveIfBelow h.reservedSum).shot = h.shot := (onlyIn_serveIfBelow _ _).shot
  have waiting : ((h.letGo p).serveIfBelow h.reservedSum).waiting p = h.waiting p := by
    unfold Hub.waiting
    rw [shot]
  rw [abandon_up on up]
  refine ⟨?_, fun f one => carries_lensReady link (waiting.trans one)⟩
  rw [← waiting]
  exact offersAt_lensReady link

/-- The end of a step keeps each frame's tag and its LENS_LATE flag. -/
theorem flags_settledTo {a b : Hub} (e : a.settledTo b) :
    b.store.frames.map (fun g => (g.tag, g.lensLate)) = a.store.frames.map fun g => (g.tag, g.lensLate) := by
  obtain ⟨mark, store, marks⟩ := store_settledTo e
  rw [store]
  refine List.map_map.trans (List.map_congr_left fun g _ => ?_)
  show ((mark g).tag, (mark g).lensLate) = _
  rcases marks g with e | e <;> rw [e]

/-! ## O33 -/

/-- R14: the camera record of a restart. -/
def Hub.recall (p : Port) (c : CameraRecord) (h : Hub) : Hub := h.modLink p fun l => { l with camera := some c }

theorem helloRestart_eq (p : Port) (c : CameraRecord) (h : Hub) :
    h.helloRestart p c = (((h.recall p c).abandon p).buildLens p c).linkChange p .cameraRestart := rfl

theorem hello_taken {p : Port} {w : HelloWord} {h : Hub} (takes : (h.links.get p).takesWords = true) :
    h.hello p w = (h.takeHello p w).finish := if_pos takes

/-- R10, R17: the HELLO that brings the link UP. -/
theorem helloAcquire_spec (p : Port) (c : CameraRecord) (h : Hub) :
    h.onlyIn [.links, .lenses, .router, .uplink, .draws] (h.helloAcquire p c) ∧
      (h.helloAcquire p c).links = h.links.mod p (Link.toUp c h.now) ∧
      (h.helloAcquire p c).lenses = h.lenses.mod p (fun l => { l with record := some (LensRecord.build c) }) := by
  rw [helloAcquire_eq]
  have reported := onlyIn_linkChange p .acquired (h.modLink p (Link.toUp c h.now))
  refine ⟨Hub.onlyIn_of_hide (by simp), ?_, ?_⟩
  · exact reported.links
  · exact congrArg (fun v => v.mod p fun l => { l with record := some (LensRecord.build c) }) reported.lenses

theorem fired_helloAcquire (p : Port) (c : CameraRecord) (h : Hub) :
    fired (.ofPort p .linkChange) (linkFields .up (h.links.get p).rate .acquired) h (h.helloAcquire p c).finish := by
  rw [helloAcquire_eq]
  have raised : Undisturbed (.ofPort p .linkChange) h (h.modLink p (Link.toUp c h.now)) := .of_same rfl rfl rfl (List.Subset.refl _)
  have built (m : Hub) : Undisturbed (.ofPort p .linkChange) m (m.buildLens p c) := .of_same rfl rfl rfl (List.Subset.refl _)
  exact fired_linkChange raised (by simp [Link.toUp]) (by simp [Link.toUp]) (built _).finish

/-- R14: the hub as the serving after a restart's abandonment leaves it. -/
def Hub.restartServed (p : Port) (c : CameraRecord) (h : Hub) : Hub := ((h.recall p c).letGo p).serveIfBelow h.reservedSum

/-- R14, R60: a restart offers the port's slots in GUARD and builds the lens record, after the serving that the abandonment prompts. -/
structure Restarted (p : Port) (c : CameraRecord) (h b : Hub) : Prop where
  link : b.links.get p = { h.links.get p with camera := some c, words := (b.links.get p).words, cable := (b.links.get p).cable }
  others : ∀ q, q ≠ p → b.links.get q = (h.restartServed p c).links.get q
  power : b.power = (h.restartServed p c).power
  deferred : b.deferred = (h.restartServed p c).deferred
  lenses : b.lenses = (h.restartServed p c).lenses.mod p fun l => { l with record := some (LensRecord.build c) }
  shot : b.shot = h.shot.offerTags ((h.waiting p).map (·.tag))
  store : b.store = h.store
  carries : ∀ f, h.waiting p = [f] → (b.links.get p).carries (.trigger f.tag f.exposure)

theorem restarted_helloRestart {p : Port} {c : CameraRecord} {h : Hub} (on : (h.power.get p).state = .on)
    (up : (h.links.get p).state = .up) : Restarted p c h (h.helloRestart p c) := by
  have recalled : (h.recall p c).links.get p = { h.links.get p with camera := some c } := PerPort.get_mod_same _ _ _
  obtain ⟨⟨parts, link, others, shot⟩, carries⟩ := abandonedUp_abandon (h := h.recall p c) on (by rw [recalled]; exact up)
  have stays : (h.restartServed p c).links.get p = { h.links.get p with camera := some c } :=
    (sameAt_letGo_serve p h.reservedSum (h.recall p c)).links.trans recalled
  have servedParts := onlyIn_serveIfBelow h.reservedSum ((h.recall p c).letGo p)
  have reported := onlyIn_linkChange p .cameraRestart (((h.recall p c).abandon p).buildLens p c)
  have links : (h.helloRestart p c).links = ((h.recall p c).abandon p).links := reported.links
  refine ⟨?_, fun q ne => ?_, reported.power.trans parts.power, reported.deferred.trans parts.deferred, ?_, ?_,
    reported.store.trans (parts.store.trans servedParts.store), fun f one => ?_⟩
  · rw [links]
    exact link.trans (congrArg (fun l : Link => { l with
      words := (((h.recall p c).abandon p).links.get p).words, cable := (((h.recall p c).abandon p).links.get p).cable }) stays)
  · rw [links]
    exact others q ne
  · rw [helloRestart_eq, reported.lenses]
    exact congrArg (fun v => v.mod p fun l => { l with record := some (LensRecord.build c) }) parts.lenses
  · rw [helloRestart_eq, reported.shot]
    exact shot.trans (congrArg (Shot.offerTags ((h.waiting p).map (·.tag))) servedParts.shot)
  · rw [links]
    exact carries f one

theorem reports_helloRestart {S : Source → Prop} (p : Port) (c : CameraRecord) (h : Hub) (h0 : S (.ofHub .slotSkipped))
    (h1 : S (.ofHub .storeLow)) : Hub.Reports S h (((h.recall p c).abandon p).buildLens p c) :=
  (((Hub.Reports.refl h).modLink p _).abandon p h0 h1).modLens p _

/-- Settles O33: the HELLO in ACQUIRE, the camera restart in UP, the malformed HELLO, and the HELLO that is not taken. -/
theorem helloWordActsByLinkState : Obligations.HelloWordActsByLinkState := by
  intro p w s l cam
  refine ⟨fun acquire locked ok => ?_, fun up ok law => ?_, fun takes bad => ?_, fun closed => ?_⟩
  · have run : exec (.helloWord p w) s = s.next (s.toHub.helloAcquire p cam).finish := by
      have taken : s.toHub.hello p w = (s.toHub.takeHello p w).finish := hello_taken ((takesWords_iff _).2 (.inr ⟨acquire, locked⟩))
      have acts : s.toHub.takeHello p w = s.toHub.helloAcquire p cam := by
        unfold Hub.takeHello
        rw [ok, show (s.toHub.links.get p).state = .acquire from acquire]
        rfl
      exact congrArg s.next (taken.trans (congrArg Hub.finish acts))
    obtain ⟨parts, links, lenses⟩ := helloAcquire_spec p cam s.toHub
    have ended := onlyIn_finish (s.toHub.helloAcquire p cam)
    refine ⟨_, run, rfl, Hub.onlyIn_trans (Hub.onlyIn_mono (by decide) parts) (Hub.onlyIn_mono (by decide) ended), ?_, ?_,
      fired_helloAcquire p cam s.toHub, fun q ne => ⟨?_, ?_⟩⟩
    · rw [State.withHub_toHub, ended.links, links, PerPort.get_mod_same]
      rfl
    · rw [State.withHub_toHub, ended.lenses, lenses, PerPort.get_mod_same]
    · rw [State.withHub_toHub, ended.links, links, PerPort.get_mod_ne _ _ _ _ ne]
    · rw [State.withHub_toHub, ended.lenses, lenses, PerPort.get_mod_ne _ _ _ _ ne]
  · have on := ((linksKept_iff s).1 law).on (p := p) (by rw [show (s.links.get p).state = .up from up]; decide)
    have run : exec (.helloWord p w) s = s.next (s.toHub.helloRestart p cam).finish := by
      have taken : s.toHub.hello p w = (s.toHub.takeHello p w).finish := hello_taken ((takesWords_iff _).2 (.inl up))
      have acts : s.toHub.takeHello p w = s.toHub.helloRestart p cam := by
        unfold Hub.takeHello
        rw [ok, show (s.toHub.links.get p).state = .up from up]
        rfl
      exact congrArg s.next (taken.trans (congrArg Hub.finish acts))
    have ended := onlyIn_finish (s.toHub.helloRestart p cam)
    obtain ⟨link, others, power, deferred, lenses, shot, store, carries⟩ := restarted_helloRestart (c := cam) on up
    have stays := sameAt_letGo_serve p s.reservedSum (s.toHub.recall p cam)
    have minePower : (s.toHub.helloRestart p cam).finish.power.get p = { s.power.get p with heldSurge := 0 } := by
      rw [ended.power, power]
      exact stays.power.trans (power_letGo p _)
    have lens : (s.toHub.helloRestart p cam).finish.lenses.get p = { s.lenses.get p with record := some (LensRecord.build cam) } := by
      rw [ended.lenses, lenses, PerPort.get_mod_same]
      exact congrArg (fun l : Lens => { l with record := some (LensRecord.build cam) }) (stays.lenses.trans (lens_letGo p _))
    have out : p ∉ (s.toHub.helloRestart p cam).finish.deferred := by
      rw [ended.deferred, deferred]
      exact fun mem => not_mem_letGo p _ (deferred_serveIfBelow_subset _ _ mem)
    have reports (S : Source → Prop) (h0 : S (.ofHub .slotSkipped)) (h1 : S (.ofHub .storeLow)) :=
      reports_helloRestart p cam s.toHub h0 h1
    have mine : (s.toHub.helloRestart p cam).finish.links.get p =
        { l with
          camera := some cam, words := ((s.toHub.helloRestart p cam).links.get p).words
          cable := ((s.toHub.helloRestart p cam).links.get p).cable } := by
      rw [ended.links]
      exact link
    refine ⟨s.withHub (s.toHub.helloRestart p cam).finish, run, rfl, ?_, ?_, ?_, ?_, ?_, ?_, ?_, ?_, ?_,
      ⟨?_, fun none => ?_, fun f one => ?_, ?_⟩,
      ?_, out, ?_, fun q => ?_⟩
    · rw [State.withHub_toHub, mine]
      exact up
    · rw [State.withHub_toHub, mine]
    · rw [State.withHub_toHub, mine]
    · rw [State.withHub_toHub, mine]
    · rw [State.withHub_toHub, lens]
    · rw [State.withHub_toHub, lens]
    · rw [State.withHub_toHub, lens]
    · have before : (((s.toHub.recall p cam).abandon p).buildLens p cam).links.get p = (s.toHub.helloRestart p cam).links.get p :=
        (congrArg (fun v => PerPort.get v p) (onlyIn_linkChange p .cameraRestart _).links).symm
      exact fired_linkChange (reports (· ≠ .ofPort p .linkChange) nofun nofun).undisturbed (by rw [before, link]; exact up)
        (by rw [before, link]) (Undisturbed.refl _ _).finish
    · exact ((reports (· ≠ .ofPort p .lensDone) nofun nofun).linkChange p _ nofun).undisturbed.finish.quiet
    · exact ended.shot.trans shot
    · refine (ended.shot.trans shot).trans ?_
      rw [show s.toHub.waiting p = [] from none]
      simp [Shot.offerTags]
    · rw [State.withHub_toHub, ended.links]
      exact carries f one
    · rw [← store]
      exact flags_settledTo (Hub.finish_spec _).1
    · have served : ((s.toHub.recall p cam).letGo p).serveIfBelow s.reservedSum = s.toHub.restartServed p cam := rfl
      refine portFreed_of_serve (x := (s.toHub.recall p cam).letGo p) ?_ rfl rfl ?_ ?_ ?_ (.inl (by simp))
      · have recalled : s.toHub.sameBut p (s.toHub.recall p cam) := ⟨fun q ne => PerPort.get_mod_ne _ _ _ _ ne, fun _ _ => rfl, fun _ _ => rfl⟩
        exact Hub.sameBut_trans recalled (sameBut_letGo p _)
      · rw [served]
        exact ⟨fun q ne => by rw [State.withHub_toHub, ended.links, others q ne], fun q _ => by rw [State.withHub_toHub, ended.power, power],
          fun q ne => by rw [State.withHub_toHub, ended.lenses, lenses, PerPort.get_mod_ne _ _ _ _ ne]⟩
      · exact ended.deferred.trans deferred
      · rw [State.withHub_toHub, minePower, power_letGo]
        rfl
    · rw [State.withHub_toHub, minePower]
    · exact (((Hub.Keeps.refl (S := True) s.toHub).helloRestart p cam).finish.states trivial q).2
  · refine happens_finish ?_
    have taken : s.toHub.hello p w = (s.toHub.takeHello p w).finish := hello_taken ((takesWords_iff _).2 takes)
    have acts : s.toHub.takeHello p w = s.toHub.countWordError p := by
      unfold Hub.takeHello
      rw [bad]
      rfl
    exact congrArg s.next (taken.trans (congrArg Hub.finish acts))
  · have deaf : (s.toHub.links.get p).takesWords ≠ true := by
      rw [ne_eq, takesWords_iff]
      rintro (up | ⟨acquire, locked⟩) <;> simp_all [l]
    exact congrArg s.next (if_neg deaf)

end Sys2Proof.Machine
end

