-- ==== Sys2Proof/Proofs/ClosedLinks.lean ====
section
/-! PROOF. A port whose link carries no lens moves stays aside while slots end and moves are issued at other ports. -/

namespace Sys2Proof.Machine

/-- From the first hub to the second port `p` stays aside: its link, power and lens are as they were, and it does not join the deferred
list. -/
structure Aside (p : Port) (a b : Hub) : Prop where
  same : a.sameAt p b
  out : p ∉ a.deferred → p ∉ b.deferred

/-- R51: no lens move can be issued at the port. -/
def Hub.closed (p : Port) (h : Hub) : Prop := (h.links.get p).carriesMoves = false

theorem closed_iff (p : Port) (h : Hub) : h.closed p ↔ (h.links.get p).state ≠ .up ∧ (h.links.get p).state ≠ .relock := by
  simp [Hub.closed, Link.carriesMoves]

namespace Aside

variable {p : Port} {a h : Hub}

theorem refl (p : Port) (h : Hub) : Aside p h h := ⟨Hub.sameAt_refl p h, id⟩

theorem trans {b c : Hub} (h1 : Aside p a b) (h2 : Aside p b c) : Aside p a c := ⟨Hub.sameAt_trans h1.same h2.same, h2.out ∘ h1.out⟩

theorem closed (r : Aside p a h) (k : a.closed p) : h.closed p := by
  unfold Hub.closed
  rw [r.same.links]
  exact k

/-- An operation on parts other than lens moves'. -/
theorem other {l : List Part} {b : Hub} (r : Aside p a h) (e : h.onlyIn l b) (h1 : Part.links ∉ l := by decide)
    (h2 : Part.power ∉ l := by decide) (h3 : Part.lenses ∉ l := by decide) (h4 : Part.deferred ∉ l := by decide) : Aside p a b :=
  r.trans ⟨e.sameAt p h1 h2 h3, by rw [e.deferred h4]; exact id⟩

theorem startMove {q : Port} (ne : q ≠ p) (r : Aside p a h) : Aside p a (h.startMove q) := by
  refine r.trans ?_
  rw [startMove_eq]
  exact ⟨⟨PerPort.get_mod_ne _ _ _ _ ne.symm, PerPort.get_mod_ne _ _ _ _ ne.symm, PerPort.get_mod_ne _ _ _ _ ne.symm⟩, id⟩

theorem modRecord {q : Port} (ne : q ≠ p) (f : LensRecord → LensRecord) (r : Aside p a h) : Aside p a (h.modRecord q f) :=
  r.trans ⟨⟨rfl, rfl, PerPort.get_mod_ne _ _ _ _ ne.symm⟩, id⟩

theorem offerWord {q : Port} (ne : q ≠ p) (w : DownWord) (r : Aside p a h) : Aside p a (h.offerWord q w) :=
  r.trans ⟨⟨PerPort.get_mod_ne _ _ _ _ ne.symm, rfl, rfl⟩, id⟩

theorem offerLensMove {q : Port} (ne : q ≠ p) (r : Aside p a h) : Aside p a (h.offerLensMove q) := by
  unfold Hub.offerLensMove
  split
  · exact r.offerWord ne _
  · exact r

theorem actMove {q : Port} (ne : q ≠ p) (req : PerAxis Bool) (r : Aside p a h) : Aside p a (h.actMove q req) := by
  have joins (g : Hub) (k : Aside p a g) : Aside p a (g.setDeferred (g.deferred ++ [q])) := by
    refine k.trans ⟨⟨rfl, rfl, rfl⟩, fun out mem => ?_⟩
    rcases List.mem_append.1 mem with old | new
    · exact out old
    · exact ne (List.mem_singleton.1 new).symm
  have idle := r.modRecord ne fun x => { x with moved := req, progress := 0 }
  unfold Hub.actMove
  dsimp only
  split
  · exact (r.modRecord ne _).offerLensMove ne
  · exact r.modRecord ne _
  all_goals
    split
    · exact idle.startMove ne
    · exact joins _ (idle.modRecord ne _)

/-- R51: at a closed link no move is issued, and one at another port leaves this port aside. -/
theorem issueMove (q : Port) (t : Targets) (k : a.closed p) (r : Aside p a h) : Aside p a (h.issueMove q t).hub := by
  unfold Hub.issueMove
  split
  · exact r
  · split
    · exact r
    · rename_i carried
      have ne : q ≠ p := by
        rintro rfl
        have shut : (h.links.get q).carriesMoves = false := r.closed k
        simp [shut] at carried
      exact (r.modRecord ne _).actMove ne _

theorem issueSlotMove (i : SlotIx) (k : a.closed p) (r : Aside p a h) : Aside p a (h.issueSlotMove i) := by
  unfold Hub.issueSlotMove
  split
  · exact r
  · dsimp only
    split
    · exact r
    · exact r.issueMove _ _ k

theorem issueNext (i : SlotIx) (n : BitVec 32) (k : a.closed p) (r : Aside p a h) : Aside p a (h.issueNext i n) := by
  unfold Hub.issueNext
  split
  · exact r.issueSlotMove _ k
  · exact r

theorem endFlight (f : Flight) (why : SkipReason) (k : a.closed p) (r : Aside p a h) : Aside p a (h.endFlight f why) := by
  have released : Aside p a ((h.dropFlight f.tag).releaseFrame f.tag) :=
    r.other (l := [.shot, .store, .router, .uplink, .draws]) (Hub.onlyIn_of_hide (by simp))
  have fired (g : Hub) (d : List Byte) : g.onlyIn [.shot, .router, .uplink, .draws]
      ((g.recordOutcome f.slot (.skipped why) f.cycle).fire (.ofHub .slotSkipped) d) := Hub.onlyIn_of_hide (by simp)
  exact (released.other (fired _ _)).issueNext _ _ k

theorem foldl {α : Type} (op : Hub → α → Hub) (keeps : ∀ h x, Aside p a h → Aside p a (op h x)) (l : List α) (r : Aside p a h) :
    Aside p a (l.foldl op h) := by
  induction l generalizing h with
  | nil => exact r
  | cons x l ih => exact ih (keeps h x r)

theorem endFlights (q : Port) (why : SkipReason) (k : a.closed p) (r : Aside p a h) : Aside p a (h.endFlights q why) :=
  foldl _ (fun _ x r => r.endFlight x why k) _ r

theorem reportUnsent (tags : List FrameTag) (k : a.closed p) (r : Aside p a h) : Aside p a (h.reportUnsent tags) := by
  refine foldl _ (fun g t r => ?_) _ r
  unfold Hub.triggerNotSent
  split
  · exact r.endFlight _ _ k
  · exact r

end Aside

/-! ## Moves of a port whose slots are its own -/

/-- R91: a slot that opened in the running cycle stands on port `p` in the active table. -/
def Hub.owns (p : Port) (h : Hub) (f : Flight) : Prop :=
  f.cycle = h.shot.number → ∀ tb, h.shot.active = some tb → (tb.slots.get f.slot).port = p

/-- R91: the slot that waits on a slot of port `p` is a slot of port `p`. -/
theorem port_of_follower {p : Port} {h : Hub} {f : Flight} {j : SlotIx} (own : h.owns p f) (next : h.shot.follower f.slot f.cycle = some j) :
    ∃ tb, h.shot.active = some tb ∧ (tb.slots.get j).port = p := by
  unfold Shot.follower at next
  split at next
  · rename_i running
    obtain ⟨tb, active, later⟩ := Option.bind_eq_some_iff.1 next
    have cycle : f.cycle = h.shot.number := by
      simp only [Shot.inCycle, Bool.and_eq_true, beq_iff_eq] at running
      exact running.2.symm
    have at_ : ((tb.slots.get j).port == (tb.slots.get f.slot).port) = true := List.find?_some (p := fun i => (tb.slots.get i).port == _) later
    exact ⟨tb, active, (beq_iff_eq.1 at_).trans (own cycle tb active)⟩
  · cases next

/-- R51: at a closed link nothing is issued. -/
theorem issueMove_closed {p : Port} {h : Hub} (k : h.closed p) (t : Targets) : (h.issueMove p t).hub = h := by
  unfold Hub.issueMove
  split
  · rfl
  · rw [show (h.links.get p).carriesMoves = false from k]
    rfl

/-- R91: a slot of port `p`, whose link is closed, issues no next move. -/
theorem issueNext_closed {p : Port} {h : Hub} {f : Flight} (own : h.owns p f) (k : h.closed p) : h.issueNext f.slot f.cycle = h := by
  unfold Hub.issueNext
  split
  · rename_i j next
    obtain ⟨tb, active, port⟩ := port_of_follower own next
    unfold Hub.issueSlotMove
    rw [active]
    dsimp only
    split
    · rfl
    · rw [port]
      exact issueMove_closed k _
  · rfl

end Sys2Proof.Machine
end

