-- ==== Sys2Proof/Proofs/EndedSlots.lean ====
section
/-! PROOF. What the ends of slots in GUARD and OFFERED do to the scheduler, the frame store and the moves of their ports. -/

namespace Sys2Proof.Machine

/-! ## One slot ends (R94, R95) -/

/-- R95: the scheduler once a slot ended SKIPPED. -/
def Shot.skip (why : SkipReason) (f : Flight) (s : Shot) : Shot :=
  { s with
    flights := s.flights.filter (·.tag != f.tag)
    stats := vmod s.stats f.slot fun x => x.count (.skipped why) f.cycle }

/-- R108: the frame store without the descriptors of some tags. -/
def Store.without (gone : List FrameTag) (st : Store) : Store :=
  { st with frames := st.frames.filter fun g => decide (g.tag ∉ gone) }

/-- R94: a slot that ends, before SLOT_SKIPPED fires. -/
def Hub.skipped (f : Flight) (why : SkipReason) (h : Hub) : Hub :=
  ((h.dropFlight f.tag).releaseFrame f.tag).recordOutcome f.slot (.skipped why) f.cycle

theorem endFlight_eq (f : Flight) (why : SkipReason) (h : Hub) :
    h.endFlight f why =
      ((h.skipped f why).fire (.ofHub .slotSkipped) (skipDetail f.slot f.port f.cycle why)).issueNext f.slot f.cycle := rfl

theorem store_releaseFrame (t : FrameTag) (h : Hub) : (h.releaseFrame t).store = h.store.without [t] := by
  have reviewed : (h.modStore fun st => { st with frames := st.frames.filter (·.tag != t) }).onlyIn reportParts (h.releaseFrame t) :=
    Hub.onlyIn_of_hide (by unfold Hub.releaseFrame; simp)
  have same : (fun g : Frame => g.tag != t) = fun g => decide (g.tag ∉ [t]) := funext fun g => by
    simp only [List.mem_singleton, decide_not]
    rfl
  exact reviewed.store.trans (congrArg (fun q => { h.store with frames := h.store.frames.filter q }) same)

theorem shot_endFlight (f : Flight) (why : SkipReason) (h : Hub) : (h.endFlight f why).shot = h.shot.skip why f := by
  rw [endFlight_eq, (onlyIn_issueNext _ _ _).shot, (onlyIn_fire _ _ _).shot]
  exact congrArg (fun s : Shot => { s with stats := vmod s.stats f.slot fun x => x.count (.skipped why) f.cycle })
    (onlyIn_releaseFrame f.tag (h.dropFlight f.tag)).shot

theorem store_endFlight (f : Flight) (why : SkipReason) (h : Hub) : (h.endFlight f why).store = h.store.without [f.tag] := by
  rw [endFlight_eq, (onlyIn_issueNext _ _ _).store, (onlyIn_fire _ _ _).store]
  exact store_releaseFrame f.tag (h.dropFlight f.tag)

/-- R91: a slot of a closed port ends without a lens move. -/
theorem onlyIn_endFlight_closed {p : Port} {f : Flight} {h : Hub} (why : SkipReason) (own : h.owns p f) (k : h.closed p) :
    h.onlyIn [.shot, .store, .router, .uplink, .draws] (h.endFlight f why) := by
  have before : h.onlyIn [.shot, .store, .router, .uplink, .draws]
      ((h.skipped f why).fire (.ofHub .slotSkipped) (skipDetail f.slot f.port f.cycle why)) :=
    Hub.onlyIn_of_hide (by unfold Hub.skipped; simp)
  have shot : ((h.skipped f why).fire (.ofHub .slotSkipped) (skipDetail f.slot f.port f.cycle why)).shot = h.shot.skip why f := by
    rw [← shot_endFlight, endFlight_eq, (onlyIn_issueNext _ _ _).shot]
  rw [endFlight_eq, issueNext_closed (p := p)]
  · exact before
  · unfold Hub.owns
    rw [shot]
    exact own
  · unfold Hub.closed
    rw [before.links]
    exact k

/-! ## Slots and frames that are gone -/

/-- From the first hub to the second slots and frames of some of the tags `T` are gone. -/
structure LostSlots (T : List FrameTag) (a b : Hub) : Prop where
  lost : ∃ gone, gone ⊆ T ∧ b.shot.flights = a.shot.flights.filter (fun x => decide (x.tag ∉ gone)) ∧ b.store = a.store.without gone
  delivery : b.delivery = a.delivery
  time : b.time = a.time

theorem Store.without_nil (st : Store) : st.without [] = st := by simp [Store.without]

theorem Store.without_append (l m : List FrameTag) (st : Store) : (st.without l).without m = st.without (l ++ m) := by
  simp [Store.without, List.filter_filter, Bool.and_comm]

namespace LostSlots

variable {T : List FrameTag} {a h : Hub}

theorem of_onlyIn {l : List Part} {b : Hub} (e : a.onlyIn l b) (h1 : Part.shot ∉ l := by decide) (h2 : Part.store ∉ l := by decide)
    (h3 : Part.delivery ∉ l := by decide) (h4 : Part.time ∉ l := by decide) : LostSlots T a b :=
  ⟨⟨[], List.nil_subset _, by simp [e.shot h1], by rw [e.store h2, Store.without_nil]⟩, e.delivery h3, e.time h4⟩

theorem refl (T : List FrameTag) (h : Hub) : LostSlots T h h := of_onlyIn (Hub.onlyIn_refl [] h)

theorem trans {b c : Hub} (h1 : LostSlots T a b) (h2 : LostSlots T b c) : LostSlots T a c := by
  obtain ⟨gone, sub, flights, store⟩ := h1.lost
  obtain ⟨more, sub', flights', store'⟩ := h2.lost
  refine ⟨⟨gone ++ more, List.append_subset.2 ⟨sub, sub'⟩, ?_, ?_⟩, h2.delivery.trans h1.delivery, h2.time.trans h1.time⟩
  · rw [flights', flights, List.filter_filter]
    simp [Bool.and_comm]
  · rw [store', store, Store.without_append]

theorem other {l : List Part} {b : Hub} (r : LostSlots T a h) (e : h.onlyIn l b) (h1 : Part.shot ∉ l := by decide)
    (h2 : Part.store ∉ l := by decide) (h3 : Part.delivery ∉ l := by decide) (h4 : Part.time ∉ l := by decide) : LostSlots T a b :=
  r.trans (of_onlyIn e h1 h2 h3 h4)

/-- No slot comes. -/
theorem flights_subset (r : LostSlots T a h) : h.shot.flights ⊆ a.shot.flights := by
  obtain ⟨gone, -, flights, -⟩ := r.lost
  rw [flights]
  exact List.filter_subset_self _

theorem endFlight {f : Flight} (why : SkipReason) (mem : f.tag ∈ T) (r : LostSlots T a h) : LostSlots T a (h.endFlight f why) := by
  have parts := onlyIn_endFlight f why h
  refine r.trans ⟨⟨[f.tag], by simpa using mem, ?_, store_endFlight f why h⟩, parts.delivery, parts.time⟩
  rw [shot_endFlight]
  have same : (fun x : Flight => x.tag != f.tag) = fun x => decide (x.tag ∉ [f.tag]) := funext fun x => by
    simp only [List.mem_singleton, decide_not]
    rfl
  exact congrArg (fun q => h.shot.flights.filter q) same

theorem foldl_endFlight (why : SkipReason) (l : List Flight) (mem : ∀ x ∈ l, x.tag ∈ T) (r : LostSlots T a h) :
    LostSlots T a (l.foldl (fun h f => h.endFlight f why) h) := by
  induction l generalizing h with
  | nil => exact r
  | cons x l ih => exact ih (fun y k => mem y (List.mem_cons_of_mem x k)) (r.endFlight why (mem x List.mem_cons_self))

/-- The tags of a hub's slots. -/
theorem mem_tags (r : LostSlots (a.shot.flights.map (·.tag)) a h) {x : Flight} (mem : x ∈ h.shot.flights) :
    x.tag ∈ a.shot.flights.map (·.tag) := List.mem_map_of_mem (r.flights_subset mem)

theorem endFlights (p : Port) (why : SkipReason) (r : LostSlots (a.shot.flights.map (·.tag)) a h) :
    LostSlots (a.shot.flights.map (·.tag)) a (h.endFlights p why) :=
  r.foldl_endFlight why _ fun _ mem => r.mem_tags (List.mem_filter.1 mem).1

theorem triggerNotSent (t : FrameTag) (r : LostSlots (a.shot.flights.map (·.tag)) a h) :
    LostSlots (a.shot.flights.map (·.tag)) a (h.triggerNotSent t) := by
  unfold Hub.triggerNotSent
  split
  · rename_i f found
    exact r.endFlight _ (r.mem_tags (List.mem_of_find?_eq_some found))
  · exact r

theorem reportUnsent (tags : List FrameTag) (r : LostSlots (a.shot.flights.map (·.tag)) a h) :
    LostSlots (a.shot.flights.map (·.tag)) a (h.reportUnsent tags) := by
  unfold Hub.reportUnsent
  induction tags generalizing h with
  | nil => exact r
  | cons t rest ih => exact ih (r.triggerNotSent t)

end LostSlots

/-! ## No slot of the port stays (R94) -/

/-- R94: no slot of the port is left in GUARD or OFFERED. -/
theorem no_flights_endFlights (p : Port) (why : SkipReason) (h : Hub) : ∀ x ∈ (h.endFlights p why).shot.flights, x.port ≠ p := by
  have gone (l : List Flight) (g : Hub) : ∀ x ∈ (l.foldl (fun h f => h.endFlight f why) g).shot.flights,
      x ∈ g.shot.flights ∧ ∀ y ∈ l, x.tag ≠ y.tag := by
    induction l generalizing g with
    | nil => exact fun x mem => ⟨mem, by simp⟩
    | cons y rest ih =>
      intro x mem
      obtain ⟨left, others⟩ := ih (g.endFlight y why) x mem
      rw [shot_endFlight] at left
      obtain ⟨old, ne⟩ := List.mem_filter.1 left
      exact ⟨old, List.forall_mem_cons.2 ⟨bne_iff_ne.1 ne, others⟩⟩
  intro x mem port
  obtain ⟨old, others⟩ := gone _ h x mem
  exact others x (List.mem_filter.2 ⟨old, beq_iff_eq.2 port⟩) rfl

/-- R94: where the port has no slot in GUARD or OFFERED none ends. -/
theorem endFlights_of_none {p : Port} {h : Hub} (none : ∀ x ∈ h.shot.flights, x.port ≠ p) (why : SkipReason) : h.endFlights p why = h := by
  have empty : h.shot.flights.filter (·.port == p) = [] := List.filter_eq_nil_iff.2 fun x mem => by simpa using none x mem
  unfold Hub.endFlights
  rw [empty]
  rfl

/-! ## Slots that are the port's own -/

theorem owns_of_kept {p : Port} {a b : Hub} {f : Flight} (e : b.kept = a.kept) (own : a.owns p f) : b.owns p f := by
  have shot : b.shot.kept = a.shot.kept := congrArg Hub.shot e
  have number : b.shot.number = a.shot.number := (congrArg Shot.number shot :)
  have active : b.shot.active = a.shot.active := (congrArg Shot.active shot :)
  unfold Hub.owns
  rw [number, active]
  exact own

/-- The slots of the port are its own, and the TRIGGERs of the tags name no other port's slots. -/
structure OwnSlots (p : Port) (tags : List FrameTag) (h : Hub) : Prop where
  named : ∀ t ∈ tags, ∀ x ∈ h.shot.flights, x.tag = t → x.port = p
  own : ∀ x ∈ h.shot.flights, x.port = p → h.owns p x

theorem OwnSlots.later {p : Port} {tags : List FrameTag} {a b : Hub} (o : OwnSlots p tags a) (sub : b.shot.flights ⊆ a.shot.flights)
    (e : b.kept = a.kept) : OwnSlots p tags b :=
  ⟨fun t k x mem => o.named t k x (sub mem), fun x mem port => owns_of_kept e (o.own x (sub mem) port)⟩

theorem OwnSlots.fewer {p : Port} {tags more : List FrameTag} {h : Hub} (o : OwnSlots p more h) (sub : tags ⊆ more) : OwnSlots p tags h :=
  ⟨fun t k => o.named t (sub k), o.own⟩

/-- R94: the port's slots end without a lens move where its link is closed. -/
theorem onlyIn_endFlights_closed {p : Port} {h : Hub} (why : SkipReason) (o : OwnSlots p [] h) (k : h.closed p) :
    h.onlyIn [.shot, .store, .router, .uplink, .draws] (h.endFlights p why) := by
  have ended (l : List Flight) (g : Hub) (own : ∀ x ∈ l, g.owns p x) (shut : g.closed p) :
      g.onlyIn [.shot, .store, .router, .uplink, .draws] (l.foldl (fun h f => h.endFlight f why) g) := by
    induction l generalizing g with
    | nil => exact Hub.onlyIn_refl _ g
    | cons x rest ih =>
      have first := onlyIn_endFlight_closed why (own x List.mem_cons_self) shut
      have owned : ∀ y ∈ rest, (g.endFlight x why).owns p y := fun y mem =>
        owns_of_kept (kept_endFlight _ _ _) (own y (List.mem_cons_of_mem x mem))
      refine Hub.onlyIn_trans first (ih (g.endFlight x why) owned ?_)
      unfold Hub.closed
      rw [first.links]
      exact shut
  refine ended _ h (fun x mem => ?_) k
  obtain ⟨flying, port⟩ := List.mem_filter.1 mem
  exact o.own x flying (beq_iff_eq.1 port)

theorem onlyIn_reportUnsent_closed {p : Port} {tags : List FrameTag} {h : Hub} (o : OwnSlots p tags h) (k : h.closed p) :
    h.onlyIn [.shot, .store, .router, .uplink, .draws] (h.reportUnsent tags) := by
  unfold Hub.reportUnsent
  induction tags generalizing h with
  | nil => exact Hub.onlyIn_refl _ h
  | cons t rest ih =>
    have first : h.onlyIn [.shot, .store, .router, .uplink, .draws] (h.triggerNotSent t) := by
      unfold Hub.triggerNotSent
      split
      · rename_i f found
        have flying := List.mem_of_find?_eq_some found
        have tag : f.tag = t := by
          have both := List.find?_some found
          simp only [Bool.and_eq_true, beq_iff_eq] at both
          exact both.1
        exact onlyIn_endFlight_closed _ (o.own f flying (o.named t List.mem_cons_self f flying tag)) k
      · exact Hub.onlyIn_refl _ h
    have sub : (h.triggerNotSent t).shot.flights ⊆ h.shot.flights :=
      ((LostSlots.refl _ h).triggerNotSent t).flights_subset
    refine Hub.onlyIn_trans first (ih ((o.later sub (kept_triggerNotSent t h)).fewer (List.subset_cons_self t rest)) ?_)
    unfold Hub.closed
    rw [first.links]
    exact k

end Sys2Proof.Machine
end

