-- ==== Sys2Proof/Proofs/DroppedFrames.lean ====
section
/-! PROOF. The FILLING frame and the slots that a port loses: `fillingDropped` and `slotsSkipped` of operations that end slots, drop the
FILLING frame and end slots again. -/

namespace Sys2Proof.Machine

/-! ## The FILLING frame (R101, R109) -/

/-- A list with one element of a kind finds it after a filter, or finds none. -/
theorem find?_filter_of_one {α : Type} (q r : α → Bool) (l : List α) (one : l.countP q ≤ 1) :
    (l.filter r).find? q = (l.find? q).filter r := by
  induction l with
  | nil => rfl
  | cons x xs ih =>
    by_cases hit : q x = true
    · have others : ∀ y ∈ xs, ¬ q y = true := by
        rw [List.countP_cons_of_pos hit] at one
        exact List.countP_eq_zero.1 (by omega)
      by_cases stays : r x = true
      · simp [hit, stays, Option.filter]
      · have rest : (xs.filter r).find? q = none := List.find?_eq_none.2 fun y mem => others y (List.mem_filter.1 mem).1
        simp [hit, stays, rest, Option.filter]
    · rw [List.countP_cons_of_neg hit] at one
      by_cases stays : r x = true <;> simp [hit, stays, ih one]

/-- R101: the FILLING frame of a port once descriptors were released. -/
theorem filling_without {p : Port} {st : Store} (one : st.portCountIn p .filling ≤ 1) (gone : List FrameTag) :
    (st.without gone).filling? p = (st.filling? p).filter fun f => decide (f.tag ∉ gone) :=
  find?_filter_of_one _ _ _ one

/-- R109, R116, R117: the port's FILLING frame is closed, or released untriggered. -/
def Hub.closeFilling (p : Port) (status : CloseStatus) (h : Hub) : Hub :=
  match h.store.filling? p with
  | some f => if f.triggered then h.closeFrame f.tag p status else h.releaseFrame f.tag
  | none => h

theorem dropFilling_eq (p : Port) (status : CloseStatus) (why : SkipReason) (h : Hub) :
    h.dropFilling p status why = (h.closeFilling p status).endFlights p why := rfl

theorem closeFilling_none {p : Port} {st : CloseStatus} {h : Hub} (e : h.store.filling? p = none) : h.closeFilling p st = h := by
  unfold Hub.closeFilling
  rw [e]

theorem closeFilling_some {p : Port} {st : CloseStatus} {f : Frame} {h : Hub} (e : h.store.filling? p = some f) :
    h.closeFilling p st = if f.triggered then h.closeFrame f.tag p st else h.releaseFrame f.tag := by
  unfold Hub.closeFilling
  rw [e]

/-- The end of a step keeps the delivery FIFOs. -/
theorem fifo_settledTo {a b : Hub} (e : a.settledTo b) (q : Port) : (b.delivery.get q).fifo = (a.delivery.get q).fifo := by
  rcases e.2.2.2 with ⟨-, same, -⟩ | ⟨p, tag, rest, f, r, closing, g, -, -, -, -, -, -, granted, -⟩
  · rw [same]
  · rw [granted, PerPort.get_mod]
    split
    · subst_vars
      rfl
    · rfl

theorem time_settledTo {a b : Hub} (e : a.settledTo b) : b.time = a.time := e.1.time

theorem tags_settledTo {a b : Hub} (e : a.settledTo b) {g : Frame} (mem : g ∈ b.store.frames) : ∃ x ∈ a.store.frames, x.tag = g.tag := by
  obtain ⟨mark, store, marks⟩ := store_settledTo e
  rw [store] at mem
  obtain ⟨x, old, rfl⟩ := List.mem_map.1 mem
  refine ⟨x, old, ?_⟩
  rcases marks x with e | e <;> rw [e]

/-- The run of an operation that loses slots of the first hub, drops the port's FILLING frame, loses slots again and ends the step. -/
structure DropRun (p : Port) (status : CloseStatus) (a b : Hub) where
  /-- the hub that drops the FILLING frame -/
  drops : Hub
  /-- the hub at the end of the operation -/
  last : Hub
  gone : List FrameTag
  known : gone ⊆ a.shot.flights.map (·.tag)
  store : drops.store = a.store.without gone
  filling : drops.store.filling? p = (a.store.filling? p).filter fun f => decide (f.tag ∉ gone)
  delivery : drops.delivery = a.delivery
  time : drops.time = a.time
  after : LostSlots (a.shot.flights.map (·.tag)) (drops.closeFilling p status) last
  ended : last.settledTo b
  cleared : ∀ x ∈ last.shot.flights, x.port ≠ p

namespace DropRun

variable {p : Port} {status : CloseStatus} {a b : Hub}

theorem fifo (r : DropRun p status a b) : (b.delivery.get p).fifo = ((r.drops.closeFilling p status).delivery.get p).fifo := by
  rw [fifo_settledTo r.ended, r.after.delivery]

/-- A frame at the end of the step was in the store once the FILLING frame was dropped. -/
theorem frame (r : DropRun p status a b) {g : Frame} (mem : g ∈ b.store.frames) :
    ∃ x ∈ (r.drops.closeFilling p status).store.frames, x.tag = g.tag := by
  obtain ⟨x, old, tag⟩ := tags_settledTo r.ended mem
  obtain ⟨gone, -, -, store⟩ := r.after.lost
  rw [store] at old
  exact ⟨x, (List.mem_filter.1 old).1, tag⟩

/-- R109: an untriggered FILLING frame is gone. -/
theorem untriggered (r : DropRun p status a b) {f : Frame} (found : a.store.filling? p = some f) (never : f.exposedAt = none) :
    (∀ g ∈ b.store.frames, g.tag ≠ f.tag) ∧ (b.delivery.get p).fifo = (a.delivery.get p).fifo := by
  by_cases out : f.tag ∈ r.gone
  · have left : r.drops.closeFilling p status = r.drops := closeFilling_none (by rw [r.filling, found]; simp [out])
    refine ⟨fun g mem same => ?_, by rw [r.fifo, left, r.delivery]⟩
    obtain ⟨x, old, tag⟩ := r.frame mem
    rw [left, r.store] at old
    exact absurd (by rw [tag, same]; exact out) (of_decide_eq_true (List.mem_filter.1 old).2)
  · have run : r.drops.closeFilling p status = r.drops.releaseFrame f.tag := by
      rw [closeFilling_some (f := f) (by rw [r.filling, found]; simp [out])]
      simp [Frame.triggered, never]
    refine ⟨fun g mem same => ?_, by rw [r.fifo, run, (onlyIn_releaseFrame _ _).delivery, r.delivery]⟩
    obtain ⟨x, old, tag⟩ := r.frame mem
    rw [run, store_releaseFrame] at old
    exact of_decide_eq_true (List.mem_filter.1 old).2 (by rw [tag, same]; exact List.mem_singleton.2 rfl)

/-- R107, R109: a triggered FILLING frame that no slot holds is closed. -/
theorem triggered (r : DropRun p status a b) {f : Frame} (found : a.store.filling? p = some f) (exposed : f.exposedAt.isSome = true)
    (free : ∀ x ∈ a.shot.flights, x.tag ≠ f.tag) :
    (b.delivery.get p).fifo = (a.delivery.get p).fifo ++ [f.tag] ∧
      ∃ g ∈ b.store.frames, g.state ∈ [.queued, .sending] ∧
        g = { f with state := g.state, window := none, closeStatus := some status, closeTime := some b.time.cellTime } := by
  have unknown {gone : List FrameTag} (sub : gone ⊆ a.shot.flights.map (·.tag)) : f.tag ∉ gone := fun mem => by
    obtain ⟨x, flying, tag⟩ := List.mem_map.1 (sub mem)
    exact free x flying tag
  have stays : r.drops.store.filling? p = some f := by
    rw [r.filling, found]
    simp [unknown r.known]
  have run : r.drops.closeFilling p status = r.drops.closeFrame f.tag p status := by
    rw [closeFilling_some stays, if_pos (show f.triggered = true from exposed)]
  refine ⟨?_, ?_⟩
  · rw [r.fifo, run, ← r.delivery]
    exact congrArg Delivery.fifo (PerPort.get_mod_same _ _ _)
  · let closed : Frame := { f with window := none, closeStatus := some status, closeTime := some r.drops.now, state := .queued }
    obtain ⟨gone, sub, -, store⟩ := r.after.lost
    obtain ⟨mark, marked, marks⟩ := store_settledTo r.ended
    have old : f ∈ r.drops.store.frames := List.mem_of_find?_eq_some stays
    have inClosed : closed ∈ (r.drops.closeFilling p status).store.frames := by
      rw [run]
      exact List.mem_map.2 ⟨f, old, by simp [closed]⟩
    have inLast : closed ∈ r.last.store.frames := by
      rw [store]
      exact List.mem_filter.2 ⟨inClosed, decide_eq_true (unknown sub)⟩
    have time : b.time.cellTime = r.drops.now := by
      rw [time_settledTo r.ended, r.after.time, run]
      rfl
    refine ⟨mark closed, ?_, ?_⟩
    · rw [marked]
      exact List.mem_map_of_mem inLast
    · rw [time]
      rcases marks closed with e | e <;> rw [e] <;> exact ⟨by simp [closed], rfl⟩

/-- The run does what the claims say of a FILLING frame that is dropped. -/
theorem fillingDropped (r : DropRun p status a b) : fillingDropped p status a b := by
  refine ⟨fun f found never => r.untriggered found never, fun f found exposed free => r.triggered found exposed free, fun e => ?_, ?_⟩
  · have left : r.drops.closeFilling p status = r.drops := closeFilling_none (by rw [r.filling, e]; rfl)
    rw [r.fifo, left, r.delivery]
  · rw [r.ended.1.shot]
    exact r.cleared

end DropRun

end Sys2Proof.Machine
end

