-- ==== Sys2Proof/Proofs/SkippedSlots.lean ====
section
/-! PROOF. The one slot in GUARD or OFFERED that a port loses ends once: `slotsSkipped`. -/

namespace Sys2Proof.Machine

/-- From the first hub to the second no slot ended. -/
structure NoneSkipped (a b : Hub) : Prop where
  shot : b.shot = a.shot
  quiet : Undisturbed (.ofHub .slotSkipped) a b

/-- From the first hub to the second one slot ended SKIPPED, once. -/
structure SkippedOnce (why : SkipReason) (f : Flight) (a b : Hub) : Prop where
  fired : ∃ m, Undisturbed (.ofHub .slotSkipped) a m ∧
    Undisturbed (.ofHub .slotSkipped) (m.fire (.ofHub .slotSkipped) (skipDetail f.slot f.port f.cycle why)) b
  shot : b.shot = a.shot.skip why f
  gone : ∀ g ∈ b.store.frames, g.tag ≠ f.tag

/-- An operation that ends no slot and takes in no frame. -/
structure EndsNone (a b : Hub) : Prop extends NoneSkipped a b where
  frames : ∀ g ∈ b.store.frames, ∃ x ∈ a.store.frames, x.tag = g.tag

theorem NoneSkipped.refl (h : Hub) : NoneSkipped h h := ⟨rfl, .refl _ h⟩

theorem NoneSkipped.trans {a b c : Hub} (h1 : NoneSkipped a b) (h2 : NoneSkipped b c) : NoneSkipped a c :=
  ⟨h2.shot.trans h1.shot, h1.quiet.trans h2.quiet⟩

theorem EndsNone.of_onlyIn {l : List Part} {a b : Hub} (e : a.onlyIn l b) (u : Undisturbed (.ofHub .slotSkipped) a b)
    (h1 : Part.shot ∉ l := by decide) (h2 : Part.store ∉ l := by decide) : EndsNone a b :=
  ⟨⟨e.shot h1, u⟩, fun g mem => ⟨g, by rwa [e.store h2] at mem, rfl⟩⟩

theorem EndsNone.trans {a b c : Hub} (h1 : EndsNone a b) (h2 : EndsNone b c) : EndsNone a c :=
  ⟨h1.toNoneSkipped.trans h2.toNoneSkipped, fun g mem => by
    obtain ⟨x, inB, tag⟩ := h2.frames g mem
    obtain ⟨y, inA, tag'⟩ := h1.frames x inB
    exact ⟨y, inA, tag'.trans tag⟩⟩

theorem SkippedOnce.after {why : SkipReason} {f : Flight} {a b c : Hub} (r : SkippedOnce why f a b) (e : EndsNone b c) :
    SkippedOnce why f a c := by
  obtain ⟨⟨m, before, later⟩, shot, gone⟩ := r
  refine ⟨⟨m, before, later.trans e.quiet⟩, e.shot.trans shot, fun g mem => ?_⟩
  obtain ⟨x, old, tag⟩ := e.frames g mem
  exact tag ▸ gone x old

theorem endsNone_finish (h : Hub) : EndsNone h h.finish :=
  ⟨⟨(onlyIn_finish h).shot, (Undisturbed.refl _ h).finish⟩, fun _ mem => tags_settledTo (Hub.finish_spec h).1 mem⟩

/-- R94, R95: a slot that ends, ends once. -/
theorem skippedOnce_endFlight (why : SkipReason) (f : Flight) {a b : Hub} (r : NoneSkipped a b) : SkippedOnce why f a (b.endFlight f why) := by
  have before : Undisturbed (.ofHub .slotSkipped) b (b.skipped f why) := by
    have reports : Hub.Reports (· ≠ .ofHub .slotSkipped) b (b.skipped f why) := by
      unfold Hub.skipped Hub.dropFlight Hub.recordOutcome
      exact (((Hub.Reports.refl b).modShot _).releaseFrame _ nofun).modShot _
    exact reports.undisturbed
  refine ⟨⟨b.skipped f why, r.quiet.trans before, ?_⟩, ?_, fun g mem => ?_⟩
  · rw [endFlight_eq]
    have issued (h : Hub) : Undisturbed (.ofHub .slotSkipped) h (h.issueNext f.slot f.cycle) := ((Hub.Reports.refl h).issueNext _ _).undisturbed
    exact issued _
  · rw [shot_endFlight, r.shot]
  · rw [store_endFlight] at mem
    have out := of_decide_eq_true (List.mem_filter.1 mem).2
    exact fun same => out (List.mem_singleton.2 same)

/-! ## The port's one slot -/

/-- The port has one slot in GUARD or OFFERED. -/
def Hub.oneSlot (p : Port) (f : Flight) (h : Hub) : Prop := h.shot.flights.filter (·.port == p) = [f]

theorem port_of_oneSlot {p : Port} {f : Flight} {h : Hub} (one : h.oneSlot p f) : f ∈ h.shot.flights ∧ f.port = p := by
  have mem : f ∈ h.shot.flights.filter (·.port == p) := by
    rw [show h.shot.flights.filter (·.port == p) = [f] from one]
    exact List.mem_singleton.2 rfl
  obtain ⟨flying, port⟩ := List.mem_filter.1 mem
  exact ⟨flying, beq_iff_eq.1 port⟩

theorem eq_of_oneSlot {p : Port} {f x : Flight} {h : Hub} (one : h.oneSlot p f) (flying : x ∈ h.shot.flights) (port : x.port = p) : x = f := by
  have mem : x ∈ h.shot.flights.filter (·.port == p) := List.mem_filter.2 ⟨flying, beq_iff_eq.2 port⟩
  rw [show h.shot.flights.filter (·.port == p) = [f] from one] at mem
  exact List.mem_singleton.1 mem

/-- Once it ended the port has none. -/
theorem SkippedOnce.none {p : Port} {why : SkipReason} {f : Flight} {a b : Hub} (r : SkippedOnce why f a b) (one : a.oneSlot p f) :
    ∀ x ∈ b.shot.flights, x.port ≠ p := fun x mem port => by
  rw [r.shot] at mem
  obtain ⟨flying, ne⟩ := List.mem_filter.1 mem
  rw [eq_of_oneSlot one flying port] at ne
  simp at ne

/-- R94: the ends of the port's slots end the one slot, if it has not ended yet. -/
theorem skippedOnce_endFlights {p : Port} {why : SkipReason} {f : Flight} {a b : Hub} (one : a.oneSlot p f)
    (r : NoneSkipped a b ∨ SkippedOnce why f a b) : SkippedOnce why f a (b.endFlights p why) := by
  rcases r with waits | ended
  · have mine : b.shot.flights.filter (·.port == p) = [f] := by rw [waits.shot]; exact one
    have run : b.endFlights p why = b.endFlight f why := by
      unfold Hub.endFlights
      rw [mine]
      rfl
    rw [run]
    exact skippedOnce_endFlight why f waits
  · rw [endFlights_of_none (ended.none one)]
    exact ended

/-- R93: TRIGGERs reported not sent end the one slot, or no slot, where their tags name no other port's slot. -/
theorem skips_reportUnsent {p : Port} {f : Flight} {tags : List FrameTag} {a b : Hub} (one : a.oneSlot p f) (o : OwnSlots p tags a)
    (on : (b.power.get p).state = .on) (r : NoneSkipped a b ∨ SkippedOnce .link f a b) :
    NoneSkipped a (b.reportUnsent tags) ∨ SkippedOnce .link f a (b.reportUnsent tags) := by
  unfold Hub.reportUnsent
  induction tags generalizing b with
  | nil => exact r
  | cons t rest ih =>
    refine ih (o.fewer (List.subset_cons_self t rest)) ?_ ?_
    · exact (sameStates_of_kept (kept_triggerNotSent t b) p).2.trans on
    · have names {x : Flight} (found : b.shot.flights.find? (fun f => f.tag == t && f.stage == .offered) = some x) :
          x ∈ b.shot.flights ∧ x.tag = t := by
        have both := List.find?_some found
        simp only [Bool.and_eq_true, beq_iff_eq] at both
        exact ⟨List.mem_of_find?_eq_some found, both.1⟩
      unfold Hub.triggerNotSent
      split
      · rename_i x found
        obtain ⟨flying, tag⟩ := names found
        rcases r with waits | ended
        · rw [waits.shot] at flying
          have port := o.named t List.mem_cons_self x flying tag
          have reason : b.skipReason x.port = .link := by
            unfold Hub.skipReason
            rw [port, on]
          rw [reason, eq_of_oneSlot one flying port]
          exact .inr (skippedOnce_endFlight .link f waits)
        · have old : x ∈ a.shot.flights := by
            rw [ended.shot] at flying
            exact (List.mem_filter.1 flying).1
          exact absurd (o.named t List.mem_cons_self x old tag) (ended.none one x flying)
      · exact r

/-- R93: where the port has no slot, and the tags name no other port's, no TRIGGER reported not sent ends a slot. -/
theorem reportUnsent_of_none {p : Port} {tags : List FrameTag} {h : Hub} (o : OwnSlots p tags h) (none : ∀ x ∈ h.shot.flights, x.port ≠ p) :
    h.reportUnsent tags = h := by
  unfold Hub.reportUnsent
  induction tags with
  | nil => rfl
  | cons t rest ih =>
    have first : h.triggerNotSent t = h := by
      unfold Hub.triggerNotSent
      split
      · rename_i x found
        have both := List.find?_some found
        simp only [Bool.and_eq_true, beq_iff_eq] at both
        have flying := List.mem_of_find?_eq_some found
        exact absurd (o.named t List.mem_cons_self x flying both.1) (none x flying)
      · rfl
    rw [List.foldl_cons, first]
    exact ih (o.fewer (List.subset_cons_self t rest))

/-- What a run that ends the port's slots, if there is one, does to its one slot and to none. -/
theorem slotsSkipped_of {p : Port} {a b : Hub} (none : (∀ x ∈ a.shot.flights, x.port ≠ p) → a.slotsOwn p → NoneSkipped a b)
    (one : ∀ f, a.oneSlot p f → a.slotsOwn p → SkippedOnce .link f a b) : slotsSkipped p .link a b := by
  intro own
  refine ⟨fun empty => ?_, fun f only => ?_⟩
  · have r := none (fun x mem port => List.filter_eq_nil_iff.1 empty x mem (beq_iff_eq.2 port)) own
    exact ⟨r.shot, r.quiet.quiet⟩
  · obtain ⟨⟨m, before, later⟩, shot, gone⟩ := one f only own
    refine ⟨shot.trans ?_, gone, ?_⟩
    · have same : (fun x : Flight => x.tag != f.tag) = fun x => decide (x.tag ≠ f.tag) := funext fun x => by
        simp only [decide_not]
        rfl
      exact congrArg (fun q => { a.shot with
        flights := a.shot.flights.filter q, stats := vmod a.shot.stats f.slot fun x => x.count (.skipped .link) f.cycle }) same
    · have fires := fired_of_fire before later
      rwa [skipDetail, (port_of_oneSlot only).2] at fires

end Sys2Proof.Machine
end

