-- ==== Sys2Proof/Proofs/LinkLosses.lean ====
section
/-! PROOF. A link that leaves UP or RELOCK: the words it trims, the TRIGGERs it reports not sent, LINK_CHANGE, and the abandoned lens move. -/

namespace Sys2Proof.Machine

/-! ## Words in ACQUIRE (R4) -/

theorem sameKind_retrain (w : DownWord) (r : Rate) : w.sameKind (.retrain r) = true ↔ ∃ q, w = .retrain q := by
  cases w <;> simp [DownWord.sameKind]

/-- R3: what waits after a pump waited before it. -/
theorem pump_words_subset (l : Link) : l.pump.1.words ⊆ l.words := by
  have rest (ws : List DownWord) : (pumpWords l.state ws).2.1 ⊆ ws := by
    induction ws with
    | nil => exact List.Subset.refl _
    | cons w ws ih =>
      unfold pumpWords
      split
      · exact List.subset_cons_self w ws
      · exact List.subset_cons_of_subset w ih
  unfold Link.pump
  split
  · exact List.Subset.refl _
  · exact rest l.words

/-- R3: a word that joins stands beside words that waited before it. -/
theorem eq_or_mem_of_mem_joinWords {w x : DownWord} {ws : List DownWord} (mem : x ∈ joinWords w ws) : x = w ∨ x ∈ ws := by
  unfold joinWords at mem
  split at mem
  · obtain ⟨y, old, rfl⟩ := List.mem_map.1 mem
    split
    · exact .inl rfl
    · exact .inr old
  · split at mem
    · exact List.mem_cons.1 mem
    · exact (List.mem_append.1 mem).symm.imp List.mem_singleton.1 id

theorem mem_of_mem_offer {w x : DownWord} {l : Link} (mem : x ∈ (l.offer w).1.words) : x = w ∨ x ∈ l.words :=
  eq_or_mem_of_mem_joinWords (pump_words_subset _ mem)

/-- R4: on entry to ACQUIRE only RETRAIN words wait. -/
theorem words_toAcquire {rate q : Rate} {now : CellTime} {l : Link} {w : DownWord}
    (mem : w ∈ ((Link.toAcquire rate now l).offer (.retrain q)).1.words) : ∃ r, w = .retrain r := by
  rcases mem_of_mem_offer mem with new | old
  · exact ⟨q, new⟩
  · have kept : w ∈ l.words.filter fun w => w.sameKind (.retrain .full) := old
    exact (sameKind_retrain w .full).1 (List.mem_filter.1 kept).2

/-! ## Entry to ACQUIRE -/

/-- R12, R13, R18: the link in ACQUIRE with its RETRAIN, before anything is reported. -/
def Hub.acquires (p : Port) (rate : Rate) (h : Hub) : Hub := (h.modLink p (Link.toAcquire rate h.now)).offerWord p (.retrain rate)

theorem link_acquires (p : Port) (rate : Rate) (h : Hub) :
    (h.acquires p rate).links.get p = ((Link.toAcquire rate h.now (h.links.get p)).offer (.retrain rate)).1 := by
  simp only [Hub.acquires, Hub.offerWord, modLink_links, PerPort.get_mod_same]

theorem acquires_closed (p : Port) (rate : Rate) (h : Hub) : (h.acquires p rate).closed p := by
  unfold Hub.closed
  rw [link_acquires, Link.offer_eq]
  rfl

theorem onlyIn_acquires (p : Port) (rate : Rate) (h : Hub) : h.onlyIn [.links] (h.acquires p rate) :=
  Hub.onlyIn_of_hide (by simp [Hub.acquires])

/-- R4, R18: what the statements say of a link in ACQUIRE. -/
structure Acquiring (rate : Rate) (now : CellTime) (l m : Link) : Prop where
  link : m = { l with
    state := .acquire, rate := rate, acquireTimer := some acquireTime, relockWindow := none, lastChange := now
    words := m.words, cable := m.cable }
  words : ∀ w ∈ m.words, ∃ r, w = .retrain r
  carries : m.carries (.retrain rate)

theorem acquiring_acquires (p : Port) (rate : Rate) (h : Hub) : Acquiring rate h.now (h.links.get p) ((h.acquires p rate).links.get p) := by
  rw [link_acquires]
  exact ⟨Link.offer_eq _ _, fun w mem => words_toAcquire mem, Link.offer_carries _ _ rfl⟩

/-! ## An abandoned move at a closed link (R59, R94) -/

theorem kept_letGo (p : Port) (h : Hub) : (h.letGo p).kept = h.kept := by
  refine (kept_modPower p (fun w => { w with heldSurge := 0 }) _ fun _ => rfl).trans ?_
  rw [kept_modRecord, kept_setDeferred]

/-- R94: where the link is not UP the port's slots end. -/
theorem abandon_closed {p : Port} {h : Hub} (k : h.closed p) :
    h.abandon p = ((h.letGo p).serveIfBelow h.reservedSum).endFlights p (((h.letGo p).serveIfBelow h.reservedSum).skipReason p) := by
  have stays := sameAt_letGo_serve p h.reservedSum h
  have link : (((h.letGo p).serveIfBelow h.reservedSum).links.get p).state ≠ .up := by
    rw [stays.links]
    exact ((closed_iff p h).1 k).1
  rw [abandon_eq]
  unfold Hub.lensAbandoned
  rw [if_neg (by simp [link])]

/-- R59: the port is aside after the serving that an abandonment prompts. -/
theorem aside_abandon {p : Port} {h : Hub} (k : h.closed p) : Aside p (h.letGo p) (h.abandon p) := by
  have stays := sameAt_letGo_serve p h.reservedSum h
  have served : Aside p (h.letGo p) ((h.letGo p).serveIfBelow h.reservedSum) :=
    ⟨stays, fun out mem => out (deferred_serveIfBelow_subset _ _ mem)⟩
  rw [abandon_closed k]
  exact served.endFlights p _ k

theorem no_flights_abandon {p : Port} {h : Hub} (k : h.closed p) : ∀ x ∈ (h.abandon p).shot.flights, x.port ≠ p := by
  rw [abandon_closed k]
  exact no_flights_endFlights p _ _

/-- R59, R60, R94: the end of the move of a port whose link is closed, from the hub before. -/
structure Released (p : Port) (a b : Hub) : Prop where
  lens : moveAbandoned p a b
  power : b.power.get p = { a.power.get p with heldSurge := 0 }
  out : p ∉ b.deferred

/-- R59: what an operation that keeps the port aside and then abandons its move leaves. -/
theorem released_abandon {p : Port} {a h : Hub} (r : Aside p a h) (k : h.closed p) : Released p a (h.abandon p) := by
  have aside := aside_abandon k
  refine ⟨?_, ?_, aside.out (not_mem_letGo p h)⟩
  · unfold moveAbandoned
    rw [aside.same.lenses, lens_letGo, r.same.lenses]
  · rw [aside.same.power, power_letGo, r.same.power]

/-! ## The surge given up (R35, R55) -/

/-- R35, R55: where the port's slots are its own, an abandonment that follows what keeps all lens moves prompts the one serving of the
claims. -/
theorem portFreed_abandon {p : Port} {a h b : Hub} (before : a.sameBut p h) (power : h.power = a.power) (budget : h.budget = a.budget)
    (deferred : h.deferred = a.deferred) (o : OwnSlots p [] h) (k : h.closed p) (after : Aside p (h.abandon p) b)
    (others : (h.abandon p).sameBut p b) (list : b.deferred = (h.abandon p).deferred) :
    portFreed p (a.deferred.filter (· != p)) a b := by
  have stays := sameAt_letGo_serve p h.reservedSum h
  have sum : h.reservedSum = a.reservedSum := reservedSum_congr fun q => by rw [power]
  have served := onlyIn_serveIfBelow h.reservedSum (h.letGo p)
  have slots : OwnSlots p [] ((h.letGo p).serveIfBelow h.reservedSum) :=
    o.later (fun x mem => by rw [served.shot] at mem; exact mem) ((kept_serveIfBelow _ _).trans (kept_letGo p h))
  have ends : ((h.letGo p).serveIfBelow h.reservedSum).onlyIn [.shot, .store, .router, .uplink, .draws] (h.abandon p) := by
    rw [abandon_closed k]
    refine onlyIn_endFlights_closed _ slots ?_
    unfold Hub.closed
    rw [stays.links]
    exact k
  refine portFreed_of_serve (x := h.letGo p) (Hub.sameBut_trans before (sameBut_letGo p h)) (by rw [← deferred]; rfl) budget ?_ ?_ ?_
    (.inl (by simp))
  · rw [← sum]
    exact Hub.sameBut_trans (ends.sameBut p) others
  · rw [← sum, list, ends.deferred]
  · rw [after.same.power, ends.power, stays.power]

end Sys2Proof.Machine
end

