-- ==== Sys2Proof/Proofs/LinkTimers.lean ====
section
/-! PROOF. Entry to ACQUIRE as the statements see it, and O35: lock gained and the link timers. -/

namespace Sys2Proof.Machine

/-! ## Entry to ACQUIRE -/

section Enter

variable {p : Port} {rate : Rate} {cause : LinkCause} {h : Hub}

/-- The hub that abandons the move on entry to ACQUIRE. -/
def Hub.reported (p : Port) (rate : Rate) (cause : LinkCause) (h : Hub) : Hub :=
  ((h.acquires p rate).reportUnsent (h.links.get p).unsent).linkChange p cause

theorem enterAcquire_reported : h.enterAcquire p rate cause = (h.reported p rate cause).abandon p := rfl

theorem aside_reported : Aside p (h.acquires p rate) (h.reported p rate cause) :=
  ((Aside.refl p _).reportUnsent _ (acquires_closed p rate h)).other (onlyIn_linkChange p cause _)

theorem reported_closed : (h.reported p rate cause).closed p := aside_reported.closed (acquires_closed p rate h)

theorem link_enterAcquire : (h.enterAcquire p rate cause).links.get p = (h.acquires p rate).links.get p :=
  (aside_abandon reported_closed).same.links.trans aside_reported.same.links

/-- R4, R18: the link after entry to ACQUIRE. -/
theorem acquiring_enterAcquire : Acquiring rate h.now (h.links.get p) ((h.enterAcquire p rate cause).links.get p) := by
  rw [link_enterAcquire]
  exact acquiring_acquires p rate h

/-- R59, R60: the lens and the power after entry to ACQUIRE. -/
theorem released_enterAcquire : Released p h (h.enterAcquire p rate cause) := by
  obtain ⟨lens, power, out⟩ := released_abandon (aside_reported (cause := cause)) (reported_closed (h := h))
  have entered := onlyIn_acquires p rate h
  refine ⟨?_, ?_, out⟩
  · unfold moveAbandoned at lens ⊢
    rwa [entered.lenses] at lens
  · rwa [entered.power] at power

theorem no_flights_enterAcquire : ∀ x ∈ (h.enterAcquire p rate cause).shot.flights, x.port ≠ p := no_flights_abandon reported_closed

/-- R17: LINK_CHANGE fires on entry to ACQUIRE. -/
theorem fired_enterAcquire {a b : Hub} (before : Undisturbed (.ofPort p .linkChange) a h)
    (after : Undisturbed (.ofPort p .linkChange) (h.enterAcquire p rate cause) b) :
    fired (.ofPort p .linkChange) (linkFields .acquire rate cause) a b := by
  let x := (h.acquires p rate).reportUnsent (h.links.get p).unsent
  have entered : Undisturbed (.ofPort p .linkChange) h x :=
    (((Hub.Reports.refl h).other (onlyIn_acquires p rate h)).reportUnsent _ nofun nofun).undisturbed
  have link : x.links.get p = (h.acquires p rate).links.get p := ((Aside.refl p _).reportUnsent _ (acquires_closed p rate h)).same.links
  have acquiring := (acquiring_acquires p rate h).link
  have abandoned : Undisturbed (.ofPort p .linkChange) (x.linkChange p cause) (h.enterAcquire p rate cause) :=
    ((Hub.Reports.refl (x.linkChange p cause)).abandon p nofun nofun).undisturbed
  refine fired_linkChange (before.trans entered) ?_ ?_ (abandoned.trans after)
  · rw [link, acquiring]
  · rw [link, acquiring]

/-- The slots of the first hub that are the port's own are so on entry to ACQUIRE. -/
theorem ownSlots_acquires {tags : List FrameTag} (o : OwnSlots p tags h) : OwnSlots p tags (h.acquires p rate) := by
  have shot := (onlyIn_acquires p rate h).shot
  refine ⟨fun t k x mem => o.named t k x (by rwa [shot] at mem), fun x mem port => ?_⟩
  unfold Hub.owns
  rw [shot] at mem ⊢
  exact o.own x mem port

/-- R35, R55: where the port's slots are its own, entry to ACQUIRE after what keeps all lens moves prompts the one serving of the claims. -/
theorem portFreed_enterAcquire {a b : Hub} (start : a.sameBut p h) (power₀ : h.power = a.power) (budget₀ : h.budget = a.budget)
    (deferred₀ : h.deferred = a.deferred) (o : OwnSlots p (h.links.get p).unsent h) (after : Aside p (h.enterAcquire p rate cause) b)
    (others : (h.enterAcquire p rate cause).sameBut p b) (list : b.deferred = (h.enterAcquire p rate cause).deferred) :
    portFreed p (a.deferred.filter (· != p)) a b := by
  have own := ownSlots_acquires (rate := rate) o
  have entered : h.onlyIn [.links] (h.acquires p rate) := onlyIn_acquires p rate h
  have unsent := onlyIn_reportUnsent_closed own (acquires_closed p rate h)
  have told := onlyIn_linkChange p cause ((h.acquires p rate).reportUnsent (h.links.get p).unsent)
  have later : OwnSlots p [] (h.reported p rate cause) := by
    have sub : (h.reported p rate cause).shot.flights ⊆ (h.acquires p rate).shot.flights :=
      (((LostSlots.refl _ _).reportUnsent _).other told).flights_subset
    exact (own.later sub ((kept_linkChange _ _ _).trans (kept_reportUnsent _ _))).fewer (List.nil_subset _)
  have power : (h.reported p rate cause).power = a.power := (told.power.trans (unsent.power.trans entered.power)).trans power₀
  have deferred : (h.reported p rate cause).deferred = a.deferred :=
    (told.deferred.trans (unsent.deferred.trans entered.deferred)).trans deferred₀
  have budget : (h.reported p rate cause).budget = a.budget := (told.budget.trans (unsent.budget.trans entered.budget)).trans budget₀
  have before : a.sameBut p (h.reported p rate cause) := by
    refine Hub.sameBut_trans start (Hub.sameBut_trans ⟨fun q ne => ?_, fun _ _ => by rw [entered.power], fun _ _ => by rw [entered.lenses]⟩
      (Hub.sameBut_trans (unsent.sameBut p) (told.sameBut p)))
    simp [Hub.acquires, Hub.offerWord, ne]
  exact portFreed_abandon before power budget deferred later reported_closed after others list

end Enter

/-! ## The end of a step, seen from a port -/

theorem aside_finish (p : Port) (h : Hub) : Aside p h h.finish := (Aside.refl p h).other (onlyIn_finish h)

theorem Released.after {p : Port} {a b c : Hub} (r : Released p a b) (k : Aside p b c) : Released p a c := by
  refine ⟨?_, k.same.power.trans r.power, k.out r.out⟩
  unfold moveAbandoned
  rw [k.same.lenses]
  exact r.lens

/-! ## The port's own slots -/

/-- R4: a TRIGGER to report not sent is on the cable or waits. -/
theorem carries_of_unsent {l : Link} {t : FrameTag} (mem : t ∈ l.unsent) : ∃ e, l.carries (.trigger t e) := by
  have trigger {w : DownWord} (tag : w.triggerTag? = some t) : ∃ e, w = .trigger t e := by
    cases w with
    | trigger t' e =>
      cases tag
      exact ⟨e, rfl⟩
    | _ => cases tag
  rcases List.mem_append.1 mem with waits | cable
  · obtain ⟨w, inWords, tag⟩ := List.mem_filterMap.1 waits
    obtain ⟨e, rfl⟩ := trigger tag
    exact ⟨e, .inl inWords⟩
  · split at cable
    · rename_i c onCable
      split at cable
      · cases cable
      · obtain ⟨e, word⟩ := trigger (Option.mem_toList.1 cable)
        exact ⟨e, .inr ⟨c, onCable, word⟩⟩
    · cases cable

theorem ownSlots_of_slotsOwn {p : Port} {h : Hub} (o : h.slotsOwn p) : OwnSlots p (h.links.get p).unsent h :=
  ⟨fun t mem x flying tag => by
    obtain ⟨e, carried⟩ := carries_of_unsent mem
    exact o.1 t e carried x flying tag, fun x flying port cycle tb active => o.2 x flying port cycle tb active⟩

theorem flight_pass (n : Nat) (x : Flight) :
    (x.pass n).slot = x.slot ∧ (x.pass n).port = x.port ∧ (x.pass n).tag = x.tag ∧ (x.pass n).cycle = x.cycle := by
  unfold Flight.pass
  split <;> exact ⟨rfl, rfl, rfl, rfl⟩

theorem slotsOwn_elapse {p : Port} {h : Hub} (n : Nat) (o : h.slotsOwn p) : (h.elapse n).slotsOwn p := by
  refine ⟨fun t e carried x mem tag => ?_, fun x mem port cycle tb active => ?_⟩
  · obtain ⟨y, flying, rfl⟩ := List.mem_map.1 mem
    obtain ⟨-, port, tag', -⟩ := flight_pass n y
    rw [port]
    refine o.1 t e ?_ y flying (tag'.symm.trans tag)
    rw [elapse_link] at carried
    refine carried.imp id fun ⟨c, onCable, word⟩ => ?_
    obtain ⟨c', old, rfl⟩ := Option.map_eq_some_iff.1 onCable
    exact ⟨c', old, word⟩
  · obtain ⟨y, flying, rfl⟩ := List.mem_map.1 mem
    obtain ⟨slot, port', -, cycle'⟩ := flight_pass n y
    rw [slot]
    exact o.2 y flying (port'.symm.trans port) (cycle'.symm.trans cycle) tb active

/-- R59: the timeout of an abandoned move does not matter. -/
theorem moveAbandoned_elapse {p : Port} {n : Nat} {a b : Hub} (k : moveAbandoned p (a.elapse n) b) : moveAbandoned p a b := by
  unfold moveAbandoned at k ⊢
  have lens : (a.elapse n).lenses.get p = (a.lenses.get p).pass n := by simp [Hub.elapse]
  rw [k, lens]
  cases record : (a.lenses.get p).record <;> simp [Lens.pass, record, abandonedRecord]

/-! ## The acquire timer (R11) -/

/-- The link in FAILED with LINK_CHANGE fired, before the move is abandoned. -/
def Hub.failed (p : Port) (h : Hub) : Hub := (h.modLink p (Link.toFailed h.now)).linkChange p .timeout

theorem onlyIn_failed (p : Port) (h : Hub) : (h.modLink p (Link.toFailed h.now)).onlyIn reportParts (h.failed p) := onlyIn_linkChange _ _ _

theorem link_failed (p : Port) (h : Hub) : (h.failed p).links.get p = Link.toFailed h.now (h.links.get p) := by
  rw [(onlyIn_failed p h).links]
  exact PerPort.get_mod_same _ _ _

theorem failed_closed (p : Port) (h : Hub) : (h.failed p).closed p := by
  rw [closed_iff, link_failed]
  exact ⟨nofun, nofun⟩

theorem link_acquireFailed (p : Port) (h : Hub) : (h.acquireFailed p).links.get p = Link.toFailed h.now (h.links.get p) :=
  (aside_abandon (failed_closed p h)).same.links.trans (link_failed p h)

theorem released_acquireFailed (p : Port) (h : Hub) : Released p h (h.acquireFailed p) :=
  have r := released_abandon (Aside.refl p _) (failed_closed p h)
  have parts := onlyIn_failed p h
  ⟨by
    have lens := r.lens
    unfold moveAbandoned at lens ⊢
    rwa [parts.lenses] at lens, by
    have power := r.power
    rwa [parts.power] at power, r.out⟩

theorem fired_acquireFailed (p : Port) (h : Hub) {a : Hub} (before : Undisturbed (.ofPort p .linkChange) a h) :
    fired (.ofPort p .linkChange) (linkFields .failed (h.links.get p).rate .timeout) a (h.acquireFailed p).finish := by
  have changed : Undisturbed (.ofPort p .linkChange) h (h.modLink p (Link.toFailed h.now)) := .of_same rfl rfl rfl (List.Subset.refl _)
  have abandoned : Undisturbed (.ofPort p .linkChange) (h.failed p) (h.acquireFailed p) :=
    ((Hub.Reports.refl (h.failed p)).abandon p nofun nofun).undisturbed
  exact fired_linkChange (before.trans changed) (by simp [Link.toFailed]) (by simp [Link.toFailed]) abandoned.finish

theorem portFreed_acquireFailed {p : Port} {h : Hub} (o : OwnSlots p [] h) :
    portFreed p (h.deferred.filter (· != p)) h (h.acquireFailed p).finish := by
  have parts := onlyIn_failed p h
  have slots : OwnSlots p [] (h.failed p) := by
    refine ⟨nofun, fun x mem port => ?_⟩
    unfold Hub.owns
    rw [parts.shot] at mem ⊢
    exact o.own x mem port
  have changed : h.sameBut p (h.modLink p (Link.toFailed h.now)) :=
    ⟨fun q ne => PerPort.get_mod_ne _ _ _ _ ne, fun _ _ => rfl, fun _ _ => rfl⟩
  have before : h.sameBut p (h.failed p) := Hub.sameBut_trans changed (parts.sameBut p)
  exact portFreed_abandon before parts.power parts.budget parts.deferred slots (failed_closed p h) (aside_finish p _)
    ((onlyIn_finish _).sameBut p) (onlyIn_finish _).deferred

/-! ## O35 -/

theorem run_acquireTimeout {p : Port} {left : Nat} {s : State} (state : (s.links.get p).state = .acquire)
    (timer : (s.links.get p).acquireTimer = some left) :
    exec (.acquireTimeout p) s = s.next ((s.toHub.elapse left).acquireFailed p).finish := by
  show execAcquireTimeout p s = _
  unfold execAcquireTimeout
  rw [state, timer]

theorem run_relockExpire {p : Port} {left : Nat} {s : State} (state : (s.links.get p).state = .relock)
    (window : (s.links.get p).relockWindow = some left) :
    exec (.relockExpire p) s = s.next ((s.toHub.elapse left).enterAcquire p (s.links.get p).rate .relockExpired).finish := by
  show execRelockExpire p s = _
  unfold execRelockExpire
  rw [state, window]

/-- R10, R13: lock gained, by the link's state. -/
theorem lockGained_eq (p : Port) (h : Hub) :
    ((h.links.get p).state = .acquire → h.lockGained p = h.modLink p fun l => { l with locked := true }) ∧
      ((h.links.get p).state = .relock → h.lockGained p = (h.modLink p fun l =>
        { l with state := .up, locked := true, relockWindow := none, lastChange := h.now }).finish) ∧
      ((h.links.get p).state ∉ [.acquire, .relock] → h.lockGained p = h) := by
  unfold Hub.lockGained
  refine ⟨fun acquire => by rw [acquire], fun relock => by rw [relock], fun other => ?_⟩
  split
  · rename_i acquire
    exact absurd (by simp [acquire]) other
  · rename_i relock
    exact absurd (by simp [relock]) other
  · rfl

/-- Settles O35: lock gained by link state, and both timers as an abandonment at a closed link after the time that was left. -/
theorem lockGainedAndLinkTimers : Obligations.LockGainedAndLinkTimers := by
  intro p left s
  obtain ⟨acquire, relock, other⟩ := lockGained_eq p s.toHub
  refine ⟨fun state => ?_, fun state => ?_, fun state => ?_, fun state timer => ?_, fun state window => ?_, fun state => ?_, fun state => ?_⟩
  · exact ⟨s.withHub (s.toHub.lockGained p), rfl, rfl, by rw [State.withHub_toHub, acquire state]; exact Hub.settledTo_refl _⟩
  · exact happens_finish (congrArg s.next (relock state))
  · exact congrArg s.next (other state)
  · let h := s.toHub.elapse left
    have time : (h.acquireFailed p).finish.time = h.time :=
      (onlyIn_finish _).time.trans ((onlyIn_abandon p (h.failed p)).time.trans (onlyIn_failed p h).time)
    have link : (h.acquireFailed p).finish.links.get p = Link.toFailed h.now ((s.links.get p).pass left) := by
      rw [(aside_finish p _).same.links, link_acquireFailed, elapse_link]
    have reports : Hub.Reports (· ≠ .ofPort p .lensDone) s.toHub (h.acquireFailed p) :=
      ((((Hub.Reports.refl s.toHub).elapse left).modLink p _).linkChange p _ nofun).abandon p nofun nofun
    have fires := fired_acquireFailed p h (undisturbed_elapse _ left s.toHub)
    refine ⟨s.withHub (h.acquireFailed p).finish, run_acquireTimeout state timer, rfl, ?_, ?_, ?_, ?_, ?_, ?_, ?_, ?_,
      fun own => portFreed_acquireFailed ((ownSlots_of_slotsOwn (slotsOwn_elapse left own)).fewer (List.nil_subset _)),
      reports.undisturbed.finish.quiet, moveAbandoned_elapse ((released_acquireFailed p h).after (aside_finish p _)).lens⟩
    · rw [State.withHub_toHub, time]
      rfl
    · rw [State.withHub_toHub, link]
      rfl
    · rw [State.withHub_toHub, link]
      rfl
    · rw [State.withHub_toHub, link]
      rfl
    · rw [State.withHub_toHub, link]
      rfl
    · rw [State.withHub_toHub, link]
      rfl
    · rw [State.withHub_toHub, link, time]
      rfl
    · rwa [elapse_link] at fires
  · let h := s.toHub.elapse left
    let rate := (s.links.get p).rate
    have time : (h.enterAcquire p rate .relockExpired).finish.time = h.time :=
      (onlyIn_finish _).time.trans (onlyIn_enterAcquire p rate _ h).time
    obtain ⟨entered, words, carries⟩ := acquiring_enterAcquire (p := p) (rate := rate) (cause := .relockExpired) (h := h)
    rw [elapse_link] at entered
    have same : (h.enterAcquire p rate .relockExpired).finish.links.get p = (h.enterAcquire p rate .relockExpired).links.get p :=
      (aside_finish p _).same.links
    have reports : Hub.Reports (· ≠ .ofPort p .lensDone) s.toHub (h.enterAcquire p rate .relockExpired) :=
      ((Hub.Reports.refl s.toHub).elapse left).enterAcquire p _ _ nofun nofun nofun
    refine ⟨s.withHub (h.enterAcquire p rate .relockExpired).finish, run_relockExpire state window, rfl, ?_, ?_, ?_, ?_, ?_, ?_, ?_, ?_,
      fired_enterAcquire (undisturbed_elapse _ left s.toHub) (Undisturbed.refl _ _).finish,
      fun own => portFreed_enterAcquire (Hub.sameBut_refl p h) rfl rfl rfl (ownSlots_of_slotsOwn (slotsOwn_elapse left own)) (aside_finish p _)
        ((onlyIn_finish _).sameBut p) (onlyIn_finish _).deferred,
      reports.undisturbed.finish.quiet, moveAbandoned_elapse (released_enterAcquire.after (aside_finish p _)).lens⟩
    all_goals rw [State.withHub_toHub]
    · rw [time]
      rfl
    · rw [same, entered]
    · rw [same, entered]
    · rw [same, entered]
    · rw [same, entered]
    · rw [same, entered]
      rfl
    · rw [same]
      exact carries
    · rw [same]
      exact words
  · show execAcquireTimeout p s = _
    unfold execAcquireTimeout
    split
    · exact absurd ‹_› state
    · rfl
  · show execRelockExpire p s = _
    unfold execRelockExpire
    split
    · exact absurd ‹_› state
    · rfl

end Sys2Proof.Machine
end

