-- ==== Sys2Proof/Proofs/LinkRetrain.lean ====
section
/-! PROOF. O32: LINK_RETRAIN. The slots of a port end, and its frames go, on entry to ACQUIRE. -/

namespace Sys2Proof.Machine

/-! ## What entry to ACQUIRE keeps and loses -/

section Enter

variable {p : Port} {rate : Rate} {cause : LinkCause} {h : Hub}

theorem kept_enterAcquire : (h.enterAcquire p rate cause).kept = (h.modLink p (Link.toAcquire rate h.now)).kept := by
  rw [enterAcquire_eq, kept_abandon, kept_linkChange, kept_reportUnsent, kept_offerWord]

/-- Every other link keeps its state, its rate and its counts. -/
theorem link_enterAcquire_ne {q : Port} (ne : q ≠ p) : ((h.enterAcquire p rate cause).links.get q).kept = (h.links.get q).kept := by
  have others := links_of_kept (kept_enterAcquire (p := p) (rate := rate) (cause := cause) (h := h)) q
  rwa [modLink_links, PerPort.get_mod_ne _ _ _ _ ne] at others

theorem lost_abandon {T : List FrameTag} {p : Port} {g : Hub} (k : g.closed p) (known : ∀ x ∈ g.shot.flights, x.tag ∈ T) :
    LostSlots T g (g.abandon p) := by
  have served : g.onlyIn moveParts ((g.letGo p).serveIfBelow g.reservedSum) := Hub.onlyIn_of_hide (by simp [Hub.letGo])
  rw [abandon_closed k]
  refine (LostSlots.of_onlyIn served).foldl_endFlight _ _ fun x mem => ?_
  have flying := (List.mem_filter.1 mem).1
  rw [served.shot] at flying
  exact known x flying

/-- R94: the slots and frames gone on entry to ACQUIRE are of the hub before. -/
theorem lost_enterAcquire : LostSlots (h.shot.flights.map (·.tag)) h (h.enterAcquire p rate cause) := by
  have reported : LostSlots (h.shot.flights.map (·.tag)) h (h.reported p rate cause) :=
    (((LostSlots.refl _ h).other (onlyIn_acquires p rate h)).reportUnsent _).other (onlyIn_linkChange p cause _)
  exact reported.trans (lost_abandon reported_closed fun x mem => reported.mem_tags mem)

/-- R93 to R95: the port's one slot ends once on entry to ACQUIRE, if it has not ended before. -/
theorem skips_enterAcquire {f : Flight} {a : Hub} (one : a.oneSlot p f) (o : OwnSlots p (h.links.get p).unsent a)
    (on : (h.power.get p).state = .on) (r : NoneSkipped a h ∨ SkippedOnce .link f a h) :
    SkippedOnce .link f a (h.enterAcquire p rate cause) := by
  have carry {b c : Hub} (e : EndsNone b c) (k : NoneSkipped a b ∨ SkippedOnce .link f a b) : NoneSkipped a c ∨ SkippedOnce .link f a c :=
    k.imp (fun waits => waits.trans e.toNoneSkipped) fun ended => ended.after e
  have entered : EndsNone h (h.acquires p rate) :=
    .of_onlyIn (onlyIn_acquires p rate h) ((Hub.Reports.refl h).other (onlyIn_acquires p rate h)).undisturbed
  have unsent := skips_reportUnsent one o (b := h.acquires p rate) (by rw [(onlyIn_acquires p rate h).power]; exact on) (carry entered r)
  have told (g : Hub) : EndsNone g (g.linkChange p cause) :=
    .of_onlyIn (onlyIn_linkChange p cause g) ((Hub.Reports.refl g).linkChange p cause nofun).undisturbed
  have reported := carry (told _) unsent
  have served (g : Hub) : EndsNone g ((g.letGo p).serveIfBelow g.reservedSum) :=
    have parts : g.onlyIn moveParts ((g.letGo p).serveIfBelow g.reservedSum) := Hub.onlyIn_of_hide (by simp [Hub.letGo])
    .of_onlyIn parts ((Hub.Reports.refl g).other parts).undisturbed
  have reason : (((h.reported p rate cause).letGo p).serveIfBelow (h.reported p rate cause).reservedSum).skipReason p = .link := by
    have power : ((((h.reported p rate cause).letGo p).serveIfBelow (h.reported p rate cause).reservedSum).power.get p).state = .on := by
      rw [(sameAt_letGo_serve p _ _).power, power_letGo, aside_reported.same.power, (onlyIn_acquires p rate h).power]
      exact on
    unfold Hub.skipReason
    rw [power]
  rw [enterAcquire_reported, abandon_closed reported_closed, reason]
  exact skippedOnce_endFlights one (carry (served _) reported)

/-- R94: where the port has no slot none ends on entry to ACQUIRE. -/
theorem endsNone_enterAcquire (o : OwnSlots p (h.links.get p).unsent h) (none : ∀ x ∈ h.shot.flights, x.port ≠ p) :
    EndsNone h (h.enterAcquire p rate cause) := by
  have shot := (onlyIn_acquires p rate h).shot
  have unsent : (h.acquires p rate).reportUnsent (h.links.get p).unsent = h.acquires p rate :=
    reportUnsent_of_none (ownSlots_acquires o) (by rwa [shot])
  have reported : h.onlyIn [.links, .router, .uplink, .draws] (h.reported p rate cause) := by
    unfold Hub.reported
    rw [unsent]
    exact Hub.onlyIn_of_hide (by simp [Hub.acquires])
  have served : (h.reported p rate cause).onlyIn moveParts
      (((h.reported p rate cause).letGo p).serveIfBelow (h.reported p rate cause).reservedSum) := Hub.onlyIn_of_hide (by simp [Hub.letGo])
  have run : h.enterAcquire p rate cause = ((h.reported p rate cause).letGo p).serveIfBelow (h.reported p rate cause).reservedSum := by
    rw [enterAcquire_reported, abandon_closed reported_closed]
    refine endFlights_of_none ?_ _
    rw [served.shot, reported.shot]
    exact none
  have reports : Hub.Reports (· ≠ .ofHub .slotSkipped) h (h.reported p rate cause) := by
    unfold Hub.reported
    rw [unsent]
    exact ((Hub.Reports.refl h).other (onlyIn_acquires p rate h)).linkChange p cause nofun
  rw [run]
  exact (EndsNone.of_onlyIn reported reports.undisturbed).trans (.of_onlyIn served ((Hub.Reports.refl _).other served).undisturbed)

end Enter

/-! ## The FILLING frame closed -/

theorem onlyIn_closeFilling (p : Port) (st : CloseStatus) (h : Hub) :
    h.onlyIn [.store, .delivery, .router, .uplink, .draws] (h.closeFilling p st) := by
  refine Hub.onlyIn_of_hide ?_
  unfold Hub.closeFilling
  split
  · split <;> simp
  · rfl

theorem reports_closeFilling {S : Source → Prop} (p : Port) (st : CloseStatus) (h : Hub) (low : S (.ofHub .storeLow)) :
    Hub.Reports S h (h.closeFilling p st) := by
  unfold Hub.closeFilling
  split
  · split
    · exact (Hub.Reports.refl h).closeFrame _ _ _
    · exact (Hub.Reports.refl h).releaseFrame _ low
  · exact .refl h

theorem endsNone_closeFilling (p : Port) (st : CloseStatus) (h : Hub) : EndsNone h (h.closeFilling p st) := by
  refine ⟨⟨(onlyIn_closeFilling p st h).shot, (reports_closeFilling p st h nofun).undisturbed⟩, fun g mem => ?_⟩
  unfold Hub.closeFilling at mem
  split at mem
  · split at mem
    · obtain ⟨x, old, rfl⟩ := List.mem_map.1 mem
      refine ⟨x, old, ?_⟩
      split <;> rfl
    · rw [store_releaseFrame] at mem
      exact ⟨g, (List.mem_filter.1 mem).1, rfl⟩
  · exact ⟨g, mem, rfl⟩

theorem dram_closeFilling (p : Port) (st : CloseStatus) (h : Hub) : (h.closeFilling p st).store.dram = h.store.dram := by
  unfold Hub.closeFilling
  split
  · split
    · rfl
    · rw [store_releaseFrame]
      rfl
  · rfl

/-! ## A command that is answered -/

/-- R173: a hub with a command's reply, at the end of the step. -/
def Hub.answered (kind : Nat) (c : Cmd) (st : Status) (data : List Byte) (h : Hub) : Hub := (h.sendReply kind c st data).finish

theorem takeCommand_eq {kind : Nat} {c : Cmd} {body : Hub → Answer} {g h : Hub} {st : Status} {data : List Byte} (ready : h.ready)
    (answer : body h = ⟨g, st, data⟩) : h.takeCommand kind c true body = g.answered kind c st data := by
  obtain ⟨up, credit⟩ := ready
  unfold Hub.takeCommand
  rw [up, if_neg (by simp), if_neg (Nat.pos_iff_ne_zero.1 credit), if_pos rfl, answer]
  rfl

section Answered

variable (kind : Nat) (c : Cmd) (st : Status) (data : List Byte) (h : Hub)

theorem repliedTo_answered : h.repliedTo (h.answered kind c st data) := by
  have replied : h.repliedTo (h.sendReply kind c st data) :=
    ⟨Hub.onlyIn_of_hide (by simp), Router.sameSetup_refl _, ⟨rfl, rfl, rfl, rfl, rfl⟩⟩
  obtain ⟨-, -, ended⟩ := Hub.finish_spec (h.sendReply kind c st data)
  exact Hub.repliedTo_trans replied (ended (by simp [Hub.sendReply]))

theorem reply_mem_answered : .reply (replyRec kind c st data) ∈ (h.answered kind c st data).uplink.queue :=
  (Hub.finish_spec (h.sendReply kind c st data)).2.1.subset (List.mem_append_right _ (List.mem_singleton.2 rfl))

theorem undisturbed_answered {src : Source} (edge : src.isLevel = false) : Undisturbed src h (h.answered kind c st data) :=
  (undisturbed_sendReply src kind c st data h).finish edge

theorem endsNone_answered : EndsNone h (h.answered kind c st data) :=
  .of_onlyIn (repliedTo_answered kind c st data h).1 (undisturbed_answered kind c st data h rfl)

end Answered

/-! ## LINK_RETRAIN (R18) -/

/-- R18: the receiver's lock as LINK_RETRAIN leaves it. -/
def Hub.setLock (p : Port) (v : Bool) (h : Hub) : Hub := h.modLink p fun l => { l with locked := v }

theorem linkRetrain_up {p : Port} {h : Hub} (up : (h.links.get p).state = .up) :
    linkRetrain p h = ⟨((h.setLock p false).enterAcquire p .full .retrain).closeFilling p .linkLost, .ok, []⟩ := by
  have run : linkRetrain p h = ⟨((h.setLock p false).enterAcquire p .full .retrain).dropFilling p .linkLost .link, .ok, []⟩ := by
    unfold linkRetrain
    dsimp only
    rw [up]
    rfl
  have none : ∀ x ∈ (((h.setLock p false).enterAcquire p .full .retrain).closeFilling p .linkLost).shot.flights, x.port ≠ p := by
    rw [(onlyIn_closeFilling p .linkLost _).shot]
    exact no_flights_enterAcquire
  rw [run, dropFilling_eq, endFlights_of_none none]

theorem linkRetrain_live {p : Port} {h : Hub} (live : (h.links.get p).state ≠ .down) (out : (h.links.get p).state ≠ .up) :
    linkRetrain p h = ⟨(h.setLock p (h.links.get p).locked).enterAcquire p .full .retrain, .ok, []⟩ := by
  have same : h.setLock p (h.links.get p).locked = h := modLink_id rfl
  rw [same]
  unfold linkRetrain
  dsimp only
  split
  · exact absurd ‹_› live
  · exact absurd ‹_› out
  · rfl

section SetLock

variable {p : Port} {v : Bool} {h : Hub}

theorem link_setLock : (h.setLock p v).links.get p = { h.links.get p with locked := v } := PerPort.get_mod_same _ _ _

theorem slotsOwn_setLock (own : h.slotsOwn p) : (h.setLock p v).slotsOwn p := by
  obtain ⟨named, slots⟩ := own
  refine ⟨fun t e carried => ?_, slots⟩
  rw [link_setLock] at carried
  exact named t e carried

/-- R18: what LINK_RETRAIN leaves of a port's link, lens and slots. -/
structure Retrained (p : Port) (a b : Hub) : Prop where
  parts : a.onlyIn [.links, .power, .lenses, .deferred, .shot, .store, .delivery, .router, .uplink, .draws] b
  link : ∃ v, Acquiring .full a.now { a.links.get p with locked := v } (b.links.get p)
  released : Released p a b
  fires : fired (.ofPort p .linkChange) (linkFields .acquire .full .retrain) a b
  silent : quiet (.ofPort p .lensDone) a b
  empty : ∀ x ∈ b.shot.flights, x.port ≠ p
  freed : a.slotsOwn p → portFreed p (a.deferred.filter (· != p)) a b
  links : ∀ q, q ≠ p → (b.links.get q).kept = (a.links.get q).kept
  power : ∀ q, (b.power.get q).state = (a.power.get q).state

/-- R18: LINK_RETRAIN, whatever follows in the frame store, the delivery engine and the reports. -/
theorem retrained_enterAcquire {b : Hub}
    (rest : ((h.setLock p v).enterAcquire p .full .retrain).onlyIn [.store, .delivery, .router, .uplink, .draws] b)
    (quiets : ∀ src, src.isLevel = false → Undisturbed src ((h.setLock p v).enterAcquire p .full .retrain) b) : Retrained p h b := by
  have locked : h.onlyIn [.links] (h.setLock p v) := Hub.onlyIn_of_hide (by simp [Hub.setLock])
  have aside : Aside p ((h.setLock p v).enterAcquire p .full .retrain) b := (Aside.refl p _).other rest
  have acquiring := acquiring_enterAcquire (p := p) (rate := .full) (cause := .retrain) (h := h.setLock p v)
  have reports : Hub.Reports (· ≠ .ofPort p .lensDone) h ((h.setLock p v).enterAcquire p .full .retrain) :=
    ((Hub.Reports.refl h).modLink p _).enterAcquire p _ _ nofun nofun nofun
  have before : Undisturbed (.ofPort p .linkChange) h (h.setLock p v) := ((Hub.Reports.refl h).modLink p _).undisturbed
  have states := power_of_kept (kept_enterAcquire (p := p) (rate := .full) (cause := .retrain) (h := h.setLock p v))
  refine ⟨?_, ⟨v, ?_⟩, ?_, fired_enterAcquire before (quiets _ rfl), (reports.undisturbed.trans (quiets _ rfl)).quiet, ?_, fun own => ?_,
    fun q ne => ?_, fun q => ?_⟩
  · exact Hub.onlyIn_trans (Hub.onlyIn_mono (by decide) locked)
      (Hub.onlyIn_trans (Hub.onlyIn_mono (by decide) (onlyIn_enterAcquire p .full .retrain _)) (Hub.onlyIn_mono (by decide) rest))
  · rw [aside.same.links, ← link_setLock]
    exact acquiring
  · obtain ⟨lens, power, out⟩ := released_enterAcquire.after aside
    exact ⟨lens, power, out⟩
  · rw [rest.shot]
    exact no_flights_enterAcquire
  · have start : h.sameBut p (h.setLock p v) := ⟨fun q ne => PerPort.get_mod_ne _ _ _ _ ne, fun _ _ => rfl, fun _ _ => rfl⟩
    exact portFreed_enterAcquire start rfl rfl rfl (ownSlots_of_slotsOwn (slotsOwn_setLock own)) aside (rest.sameBut p) rest.deferred
  · rw [rest.links, link_enterAcquire_ne ne]
    exact congrArg Link.kept (PerPort.get_mod_ne _ _ _ _ ne)
  · rw [rest.power]
    exact (congrArg Power.state (states q) :)

end SetLock

/-! ## O32 -/

theorem LostSlots.dram {T : List FrameTag} {a b : Hub} (r : LostSlots T a b) : b.store.dram = a.store.dram := by
  obtain ⟨gone, -, -, store⟩ := r.lost
  rw [store]
  rfl

/-- R109, R116: the FILLING frame of a LINK_RETRAIN in UP. -/
theorem fillingDropped_retrain {p : Port} {v : Bool} {h b : Hub} (one : h.store.portCountIn p .filling ≤ 1)
    (ended : (((h.setLock p v).enterAcquire p .full .retrain).closeFilling p .linkLost).settledTo b) : fillingDropped p .linkLost h b := by
  have lost := lost_enterAcquire (p := p) (rate := .full) (cause := .retrain) (h := h.setLock p v)
  obtain ⟨gone, known, -, store⟩ := lost.lost
  let run : DropRun p .linkLost h b := {
    drops := (h.setLock p v).enterAcquire p .full .retrain
    last := ((h.setLock p v).enterAcquire p .full .retrain).closeFilling p .linkLost
    gone := gone
    known := known
    store := store
    filling := by
      rw [store]
      exact filling_without one gone
    delivery := lost.delivery
    time := lost.time
    after := .refl _ _
    ended := ended
    cleared := by
      rw [(onlyIn_closeFilling p .linkLost _).shot]
      exact no_flights_enterAcquire }
  exact run.fillingDropped

/-- R94, R95: the port's slot in a LINK_RETRAIN with power ON. -/
theorem slotsSkipped_retrain {p : Port} {v : Bool} {h b : Hub} (on : (h.power.get p).state = .on)
    (rest : EndsNone ((h.setLock p v).enterAcquire p .full .retrain) b) : slotsSkipped p .link h b := by
  have locked : EndsNone h (h.setLock p v) :=
    .of_onlyIn (l := [.links]) (Hub.onlyIn_of_hide (by simp [Hub.setLock])) ((Hub.Reports.refl h).modLink p _).undisturbed
  refine slotsSkipped_of (fun none own => ?_) fun f one own => ?_
  · have entered := endsNone_enterAcquire (rate := .full) (cause := .retrain) (ownSlots_of_slotsOwn (slotsOwn_setLock (v := v) own)) none
    exact ((locked.trans entered).trans rest).toNoneSkipped
  · obtain ⟨named, slots⟩ := ownSlots_of_slotsOwn (slotsOwn_setLock (v := v) own)
    have entered : SkippedOnce .link f h ((h.setLock p v).enterAcquire p .full .retrain) :=
      skips_enterAcquire one ⟨named, slots⟩ on (.inl locked.toNoneSkipped)
    exact entered.after rest

/-- R18: the hub that LINK_RETRAIN leaves, the receiver's lock at its entry to ACQUIRE being `v`. -/
structure RetrainTaken (p : Port) (v : Bool) (h g : Hub) : Prop where
  up : (h.links.get p).state = .up → g = ((h.setLock p v).enterAcquire p .full .retrain).closeFilling p .linkLost
  parts : ((h.setLock p v).enterAcquire p .full .retrain).onlyIn [.store, .delivery, .router, .uplink, .draws] g
  quiets : ∀ src, src.isLevel = false → Undisturbed src ((h.setLock p v).enterAcquire p .full .retrain) g
  slots : EndsNone ((h.setLock p v).enterAcquire p .full .retrain) g
  dram : g.store.dram = h.store.dram

theorem linkRetrain_taken {p : Port} {h : Hub} (live : (h.links.get p).state ≠ .down) :
    ∃ v g, linkRetrain p h = ⟨g, .ok, []⟩ ∧ RetrainTaken p v h g := by
  have dram (v : Bool) : ((h.setLock p v).enterAcquire p .full .retrain).store.dram = h.store.dram := lost_enterAcquire.dram
  by_cases up : (h.links.get p).state = .up
  · refine ⟨_, _, linkRetrain_up up, fun _ => rfl, onlyIn_closeFilling _ _ _, fun src edge => ?_, endsNone_closeFilling _ _ _,
      (dram_closeFilling _ _ _).trans (dram false)⟩
    refine (reports_closeFilling _ _ _ ?_).undisturbed
    rintro rfl
    cases edge
  · exact ⟨_, _, linkRetrain_live live up, fun k => absurd k up, Hub.onlyIn_refl _ _, fun src _ => .refl src _,
      ⟨.refl _, fun x mem => ⟨x, mem, rfl⟩⟩, dram _⟩

/-- Settles O32: entry to ACQUIRE at FULL, and in UP the FILLING frame closed after it; the reply follows. -/
theorem linkRetrainForcesAcquire : Obligations.LinkRetrainForcesAcquire := by
  intro c p s ready named empty
  have fits : (c.payload.length == 0) = true := by simp [empty]
  refine ⟨fun down => ?_, fun live => ?_⟩
  · have refused : linkRetrain p s.toHub = ⟨s.toHub, .badState, []⟩ := by
      unfold linkRetrain
      dsimp only
      rw [down]
      rfl
    exact completes_port (status := .badState) rfl ready named fits refused
  · obtain ⟨v, g, answer, up, parts, quiets, slots, dram⟩ := linkRetrain_taken live
    have run : exec (.linkRetrain c) s = s.next (g.answered 0x10 c .ok []) := by
      show s.next (s.toHub.takeCommand 0x10 c (c.payload.length == 0) (withPort c linkRetrain)) = _
      rw [fits, takeCommand_eq ready ((withPort_eq named linkRetrain _).trans answer)]
    have replied := repliedTo_answered 0x10 c .ok [] g
    have retrained : Retrained p s.toHub (g.answered 0x10 c .ok []) :=
      retrained_enterAcquire (Hub.onlyIn_trans parts (Hub.onlyIn_mono (by decide) replied.1)) fun src edge =>
        (quiets src edge).trans (undisturbed_answered 0x10 c .ok [] g edge)
    obtain ⟨inParts, ⟨lock, link, words, carries⟩, released, fires, silent, cleared, freed, links, power⟩ := retrained
    refine ⟨s.withHub (g.answered 0x10 c .ok []), run, rfl, inParts, ?_, ?_, ?_, ?_, ?_, ?_, ?_, ?_, words, carries, released.lens, released.out,
      fires, silent, cleared, fun isUp filling => ?_, fun isUp law => ?_, freed, fun q ne => ?_, power, ?_, reply_mem_answered 0x10 c .ok [] g⟩
    · rw [State.withHub_toHub, link]
    · rw [State.withHub_toHub, link]
    · rw [State.withHub_toHub, link]
    · rw [State.withHub_toHub, link]
    · rw [State.withHub_toHub, link]
    · rw [State.withHub_toHub, link]
    · rw [State.withHub_toHub, link]
    · rw [State.withHub_toHub, link]
      rfl
    · have closed := up isUp
      exact fillingDropped_retrain (v := v) (filling p) (closed ▸ Hub.settledTo_of_repliedTo replied)
    · exact slotsSkipped_retrain (((linksKept_iff s).1 law).on live) (slots.trans (endsNone_answered 0x10 c .ok [] g))
    · exact ⟨(congrArg Link.state (links q ne) :), (congrArg Link.rate (links q ne) :)⟩
    · rw [State.withHub_toHub, replied.1.store, dram]

end Sys2Proof.Machine
end

