-- ==== Sys2Proof/Proofs/SlotMoves.lean ====
section
/-! PROOF. The lens moves that the ends of a port's slots issue: what they do to the words of its link and to its lens. -/

namespace Sys2Proof.Machine

/-! ## Words of lens moves -/

/-- A link after LENS_MOVE words were offered to it. -/
inductive Link.OffersMoves : Link → Link → Prop
  | none (l : Link) : Link.OffersMoves l l
  | next {l m : Link} (t : Targets) (r : Link.OffersMoves l m) : Link.OffersMoves l (m.offer (.lensMove t)).1

namespace Link.OffersMoves

variable {l m : Link}

theorem trans {n : Link} (h1 : Link.OffersMoves l m) (h2 : Link.OffersMoves m n) : Link.OffersMoves l n := by
  induction h2 with
  | none => exact h1
  | next t _ ih => exact ih.next t

theorem kept (r : Link.OffersMoves l m) : m.kept = l.kept := by
  induction r with
  | none => rfl
  | next t _ ih =>
    rw [Link.offer_eq]
    exact ih

/-- No TRIGGER joins the waiting words. -/
theorem trigger_waits (r : Link.OffersMoves l m) {w : DownWord} {t : FrameTag} (mem : w ∈ m.words) (tag : w.triggerTag? = some t) :
    w ∈ l.words := by
  induction r with
  | none => exact mem
  | next x _ ih =>
    rcases mem_of_mem_offer mem with rfl | old
    · cases tag
    · exact ih old

end Link.OffersMoves

/-- R3: the word on the cable after a pump was there before it, or waited. -/
theorem cable_pump {l : Link} {c : OnCable} (on : l.pump.1.cable = some c) : l.cable = some c ∨ c.word ∈ l.words := by
  have sent (ws : List DownWord) {w : DownWord} (first : (pumpWords l.state ws).1 = some w) : w ∈ ws := by
    induction ws with
    | nil => cases first
    | cons x xs ih =>
      unfold pumpWords at first
      split at first
      · cases first
        exact List.mem_cons_self
      · exact List.mem_cons_of_mem x (ih first)
  unfold Link.pump at on
  split at on
  · exact .inl on
  · obtain ⟨w, first, rfl⟩ := Option.map_eq_some_iff.1 on
    exact .inr (sent l.words first)

theorem mem_unsent_iff {l : Link} {t : FrameTag} :
    t ∈ l.unsent ↔
      (∃ w ∈ l.words, w.triggerTag? = some t) ∨ ∃ c, l.cable = some c ∧ c.reported = false ∧ c.word.triggerTag? = some t := by
  unfold Link.unsent
  rw [List.mem_append, List.mem_filterMap]
  refine or_congr_right ?_
  cases l.cable with
  | none => simp
  | some c => cases reported : c.reported <;> simp [reported, Option.mem_toList]

/-- R4: lens moves offer no TRIGGER. -/
theorem Link.OffersMoves.unsent_subset {l m : Link} (r : Link.OffersMoves l m) : m.unsent ⊆ l.unsent := by
  induction r with
  | none => exact List.Subset.refl _
  | next x r ih =>
    intro t mem
    rcases mem_unsent_iff.1 mem with ⟨w, waits, tag⟩ | ⟨c, on, reported, tag⟩
    · exact mem_unsent_iff.2 (.inl ⟨w, (r.next x).trigger_waits waits tag, tag⟩)
    · rcases cable_pump on with old | joined
      · exact ih (mem_unsent_iff.2 (.inr ⟨c, old, reported, tag⟩))
      · rcases eq_or_mem_of_mem_joinWords joined with move | waits
        · rw [move] at tag
          cases tag
        · exact ih (mem_unsent_iff.2 (.inl ⟨c.word, waits, tag⟩))

/-- From the first hub to the second the links changed by LENS_MOVE words offered to them alone. -/
def Hub.OffersMoves (a b : Hub) : Prop := ∀ q, Link.OffersMoves (a.links.get q) (b.links.get q)

namespace Hub.OffersMoves

variable {a h : Hub}

theorem refl (h : Hub) : Hub.OffersMoves h h := fun _ => .none _

theorem trans {b c : Hub} (h1 : Hub.OffersMoves a b) (h2 : Hub.OffersMoves b c) : Hub.OffersMoves a c := fun q => (h1 q).trans (h2 q)

/-- An operation that leaves the links. -/
theorem other {b : Hub} (r : Hub.OffersMoves a h) (links : b.links = h.links) : Hub.OffersMoves a b := fun q => by
  rw [links]
  exact r q

theorem offerWord (p : Port) (t : Targets) (r : Hub.OffersMoves a h) : Hub.OffersMoves a (h.offerWord p (.lensMove t)) := fun q => by
  unfold Hub.offerWord
  rw [modLink_links, PerPort.get_mod]
  split
  · subst_vars
    exact (r _).next t
  · exact r q

theorem offerLensMove (p : Port) (r : Hub.OffersMoves a h) : Hub.OffersMoves a (h.offerLensMove p) := by
  unfold Hub.offerLensMove
  split
  · exact r.offerWord p _
  · exact r

theorem startMove (p : Port) (r : Hub.OffersMoves a h) : Hub.OffersMoves a (h.startMove p) := by
  unfold Hub.startMove
  exact offerLensMove p (r.other rfl)

theorem actMove (p : Port) (req : PerAxis Bool) (r : Hub.OffersMoves a h) : Hub.OffersMoves a (h.actMove p req) := by
  unfold Hub.actMove
  dsimp only
  split
  · exact offerLensMove p (r.other rfl)
  · exact r.other rfl
  all_goals
    split
    · exact startMove p (r.other rfl)
    · exact r.other rfl

theorem issueMove (p : Port) (t : Targets) (r : Hub.OffersMoves a h) : Hub.OffersMoves a (h.issueMove p t).hub := by
  unfold Hub.issueMove
  split
  · exact r
  · split
    · exact r
    · exact actMove p _ (r.other rfl)

theorem issueSlotMove (i : SlotIx) (r : Hub.OffersMoves a h) : Hub.OffersMoves a (h.issueSlotMove i) := by
  unfold Hub.issueSlotMove
  split
  · exact r
  · dsimp only
    split
    · exact r
    · exact r.issueMove _ _

theorem issueNext (i : SlotIx) (n : BitVec 32) (r : Hub.OffersMoves a h) : Hub.OffersMoves a (h.issueNext i n) := by
  unfold Hub.issueNext
  split
  · exact r.issueSlotMove _
  · exact r

theorem endFlight (f : Flight) (why : SkipReason) (r : Hub.OffersMoves a h) : Hub.OffersMoves a (h.endFlight f why) := by
  have before : h.onlyIn [.shot, .store, .router, .uplink, .draws]
      ((h.skipped f why).fire (.ofHub .slotSkipped) (skipDetail f.slot f.port f.cycle why)) :=
    Hub.onlyIn_of_hide (by unfold Hub.skipped; simp)
  rw [endFlight_eq]
  exact (r.other before.links).issueNext _ _

theorem foldl {α : Type} (op : Hub → α → Hub) (keeps : ∀ h x, Hub.OffersMoves a h → Hub.OffersMoves a (op h x)) (l : List α)
    (r : Hub.OffersMoves a h) : Hub.OffersMoves a (l.foldl op h) := by
  induction l generalizing h with
  | nil => exact r
  | cons x l ih => exact ih (keeps h x r)

theorem endFlights (p : Port) (why : SkipReason) (r : Hub.OffersMoves a h) : Hub.OffersMoves a (h.endFlights p why) :=
  foldl _ (fun _ x r => r.endFlight x why) _ r

theorem reportUnsent (tags : List FrameTag) (r : Hub.OffersMoves a h) : Hub.OffersMoves a (h.reportUnsent tags) := by
  refine foldl _ (fun g t r => ?_) _ r
  unfold Hub.triggerNotSent
  split
  · exact r.endFlight _ _
  · exact r

end Hub.OffersMoves

/-! ## The lens of a port whose slots end (R91, R94) -/

/-- A lens record at rest. -/
def LensRecord.still (r : LensRecord) : LensRecord :=
  { r with moveState := .idle, moved := ⟨false, false, false⟩, progress := 0, timeout := none }

/-- A lens but for the course of its move. -/
def Lens.still (l : Lens) : Lens := { l with record := l.record.map LensRecord.still }

/-- The targets of a lens move are written. -/
def Lens.write (l : Lens) (t : Targets) : Lens :=
  { l with record := l.record.map fun r => { r with axes := axesWritten r.axes t } }

theorem still_write (l : Lens) (t : Targets) : (l.write t).still = l.still.write t := by
  cases record : l.record <;> simp [Lens.write, Lens.still, LensRecord.still, record]

/-- An operation on the course of a move. -/
theorem still_modRecord {p : Port} {f : LensRecord → LensRecord} (keeps : ∀ r, (f r).still = r.still) (h : Hub) :
    ((h.modRecord p f).lenses.get p).still = (h.lenses.get p).still := by
  have mine : (h.modRecord p f).lenses.get p = { h.lenses.get p with record := (h.lenses.get p).record.map f } := PerPort.get_mod_same _ _ _
  rw [mine]
  cases record : (h.lenses.get p).record <;> simp [Lens.still, record, keeps]

theorem lenses_offerLensMove (p : Port) (h : Hub) : (h.offerLensMove p).lenses = h.lenses := by
  unfold Hub.offerLensMove
  split <;> rfl

theorem lenses_setDeferred (l : List Port) (h : Hub) : (h.setDeferred l).lenses = h.lenses := rfl

theorem still_startMove (p : Port) (h : Hub) : ((h.startMove p).lenses.get p).still = (h.lenses.get p).still := by
  unfold Hub.startMove
  rw [lenses_offerLensMove, still_modRecord]
  · rfl
  · exact fun _ => rfl

/-- R52: what an issued move does after its targets are written is the course of the move. -/
theorem still_actMove (p : Port) (req : PerAxis Bool) (h : Hub) : ((h.actMove p req).lenses.get p).still = (h.lenses.get p).still := by
  have asked : ((h.modRecord p fun r => { r with moved := req, progress := 0 }).lenses.get p).still = (h.lenses.get p).still :=
    still_modRecord (f := fun r => { r with moved := req, progress := 0 }) (fun _ => rfl) h
  unfold Hub.actMove
  dsimp only
  split
  · rw [lenses_offerLensMove, still_modRecord]
    exact fun _ => rfl
  · rw [still_modRecord]
    exact fun _ => rfl
  all_goals
    split
    · rw [still_startMove, asked]
    · rw [lenses_setDeferred, still_modRecord, asked]
      exact fun _ => rfl

theorem writeTargets_eq (r : LensRecord) (t : Targets) : r.writeTargets t = { r with axes := axesWritten r.axes t } := by
  unfold LensRecord.writeTargets axesWritten
  refine congrArg (fun g => { r with axes := r.axes.zip g t }) (funext₂ fun a v => ?_)
  cases v <;> rfl

/-- R51: targets for no present axis write nothing. -/
theorem axesWritten_of_none {axes : PerAxis (Option AxisRecord)} {t : Targets}
    (none : (axes.zip (fun a v => a.isSome && v.isSome) t).any = false) : axesWritten axes t = axes := by
  have axis {a : Option AxisRecord} {v : Option Nat} (k : (a.isSome && v.isSome) = false) :
      (a.map fun x => { x with target := (v.map fun n => min x.limits.hi (max x.limits.lo n)).or x.target }) = a := by
    cases a with
    | none => rfl
    | some x =>
      cases v with
      | none => rfl
      | some n => cases k
  simp only [PerAxis.any, PerAxis.zip, Bool.or_eq_false_iff] at none
  obtain ⟨⟨focus, iris⟩, zoom⟩ := none
  unfold axesWritten PerAxis.zip
  dsimp only
  rw [axis focus, axis iris, axis zoom]

theorem write_of_same {l : Lens} {t : Targets} (same : ∀ r, l.record = some r → axesWritten r.axes t = r.axes) : l.write t = l := by
  obtain ⟨record, presets, stack, overflow, setup⟩ := l
  cases record with
  | none => rfl
  | some r => exact congrArg (fun axes => Lens.mk (some { r with axes := axes }) presets stack overflow setup) (same r rfl)

/-- R51: no targets write nothing. -/
theorem write_none (l : Lens) : l.write ⟨none, none, none⟩ = l :=
  write_of_same fun r _ => axesWritten_of_none (by simp [PerAxis.zip, PerAxis.any])

/-- R49, R51: an issued move writes its targets. -/
theorem still_issueMove {p : Port} {h : Hub} (open_ : (h.links.get p).carriesMoves = true) (t : Targets) :
    ((h.issueMove p t).hub.lenses.get p).still = ((h.lenses.get p).write t).still := by
  unfold Hub.issueMove
  split
  · rename_i invalid
    rw [write_of_same]
    simp [invalid]
  · rename_i r record
    rw [open_]
    split
    · rename_i idle
      have unasked : (r.axes.zip (fun a v => a.isSome && v.isSome) t).any = false := by simpa [LensRecord.requested] using idle
      rw [write_of_same]
      intro x valid
      cases record.symm.trans valid
      exact axesWritten_of_none unasked
    · have written : (h.modRecord p fun r => r.writeTargets t).lenses.get p = (h.lenses.get p).write t := by
        refine (PerPort.get_mod_same _ _ _).trans ?_
        simp only [writeTargets_eq]
        rfl
      rw [still_actMove, written]

/-- R91: what the end of a slot of port `p` issues at the port. -/
theorem still_issueNext {p : Port} {f : Flight} {h : Hub} (own : h.owns p f) (open_ : (h.links.get p).carriesMoves = true) :
    ((h.issueNext f.slot f.cycle).lenses.get p).still = ((h.lenses.get p).write (h.followingTargets p f)).still := by
  unfold Hub.issueNext Hub.followingTargets
  split
  · rename_i j next
    obtain ⟨tb, active, port⟩ := port_of_follower own next
    have running : h.shot.cycle = .running ∧ h.shot.number = f.cycle := by
      by_contra other
      simp [Shot.follower, Shot.inCycle, other] at next
    have follows : tb.nextOn f.slot = some j := by simpa [Shot.follower, Shot.inCycle, running, active] using next
    unfold Hub.issueSlotMove
    rw [if_pos running, active]
    simp only [Option.bind_some, follows]
    cases preset : (tb.slots.get j).preset with
    | none => simp [write_none]
    | some k =>
      simp only [Option.map_some, Option.getD_some]
      rw [port]
      exact still_issueMove open_ _
  · rename_i alone
    split
    · rename_i running
      have last : (h.shot.active.bind fun tb => tb.nextOn f.slot) = none := by
        simpa [Shot.follower, Shot.inCycle, running] using alone
      have silent : (h.shot.active.bind fun tb => (tb.nextOn f.slot).bind fun j => (tb.slots.get j).preset) = none := by
        cases active : h.shot.active with
        | none => rfl
        | some tb =>
          rw [active, Option.bind_some] at last
          rw [Option.bind_some, last]
          rfl
      rw [silent]
      exact (congrArg Lens.still (write_none _)).symm
    · rw [write_none]

/-- Two hubs with the same `kept` agree in every lens but for its record. -/
theorem lens_of_kept {a b : Hub} (e : a.kept = b.kept) (p : Port) : (a.lenses.get p).kept = (b.lenses.get p).kept := by
  have read := congrArg (fun h : Hub => h.lenses.get p) e
  simpa [Hub.kept] using read

theorem followingTargets_of_kept {p : Port} {a b : Hub} (e : b.kept = a.kept) : b.followingTargets p = a.followingTargets p := by
  have shot : b.shot.kept = a.shot.kept := congrArg Hub.shot e
  have number : b.shot.number = a.shot.number := (congrArg Shot.number shot :)
  have active : b.shot.active = a.shot.active := (congrArg Shot.active shot :)
  have cycle : b.shot.cycle = a.shot.cycle := (congrArg Shot.cycle shot :)
  have presets : (b.lenses.get p).presets = (a.lenses.get p).presets := (congrArg Lens.presets (lens_of_kept e p) :)
  funext f
  unfold Hub.followingTargets
  rw [number, active, cycle, presets]

/-- R91, R94: the end of a slot of port `p` writes the targets of the move that it issues. -/
theorem still_endFlight {p : Port} {f : Flight} {h : Hub} (why : SkipReason) (own : h.owns p f)
    (open_ : (h.links.get p).carriesMoves = true) :
    ((h.endFlight f why).lenses.get p).still = ((h.lenses.get p).write (h.followingTargets p f)).still := by
  let g := (h.skipped f why).fire (.ofHub .slotSkipped) (skipDetail f.slot f.port f.cycle why)
  have parts : h.onlyIn [.shot, .store, .router, .uplink, .draws] g := Hub.onlyIn_of_hide (by unfold g Hub.skipped; simp)
  have kept : g.kept = h.kept := by
    unfold g Hub.skipped
    simp
  have open' : (g.links.get p).carriesMoves = true := by
    rw [parts.links]
    exact open_
  have issued := still_issueNext (owns_of_kept kept own) open'
  rw [followingTargets_of_kept kept, parts.lenses] at issued
  exact issued

/-- R91, R94: the slots of port `p` that end write the targets of their moves one after the other. -/
theorem still_endFlights {p : Port} {h : Hub} (why : SkipReason) (own : ∀ x ∈ h.shot.flights, x.port = p → h.owns p x)
    (open_ : (h.links.get p).carriesMoves = true) :
    ((h.endFlights p why).lenses.get p).still =
      ((h.shot.flights.filter (·.port == p)).foldl (fun l x => l.write (h.followingTargets p x)) (h.lenses.get p)).still := by
  have ended (l : List Flight) (g : Hub) (v : Lens) (kept : g.kept = h.kept) (slots : ∀ x ∈ l, h.owns p x)
      (lens : (g.lenses.get p).still = v.still) :
      ((l.foldl (fun h f => h.endFlight f why) g).lenses.get p).still = (l.foldl (fun l x => l.write (h.followingTargets p x)) v).still := by
    induction l generalizing g v with
    | nil => exact lens
    | cons x rest ih =>
      refine ih _ _ ((kept_endFlight _ _ _).trans kept) (fun y mem => slots y (List.mem_cons_of_mem x mem)) ?_
      have open' : (g.links.get p).carriesMoves = true := by
        have state : (g.links.get p).state = (h.links.get p).state := (congrArg Link.state (links_of_kept kept p) :)
        unfold Link.carriesMoves at open_ ⊢
        rwa [state]
      rw [still_endFlight why (owns_of_kept kept (slots x List.mem_cons_self)) open', still_write, lens, ← still_write,
        followingTargets_of_kept kept]
  refine ended _ h _ rfl (fun x mem => ?_) rfl
  obtain ⟨flying, port⟩ := List.mem_filter.1 mem
  exact own x flying (beq_iff_eq.1 port)

/-- The writes of some slots' moves, as the claims fold them. -/
theorem foldl_write (targets : Flight → Targets) (l : List Flight) (v : Lens) :
    l.foldl (fun v x => v.write (targets x)) v =
      { v with record := v.record.map fun r => { r with axes := l.foldl (fun a x => axesWritten a (targets x)) r.axes } } := by
  induction l generalizing v with
  | nil => cases record : v.record <;> simp [← record]
  | cons x rest ih =>
    rw [List.foldl_cons, ih]
    cases record : v.record <;> simp [Lens.write, record]

/-- R59: an abandonment does not see the course of the move. -/
theorem abandoned_still {v w : Lens} (e : v.still = w.still) :
    ({ v with record := v.record.map abandonedRecord } : Lens) = { w with record := w.record.map abandonedRecord } := by
  have rest (l : Lens) : ({ l.still with record := l.still.record.map abandonedRecord } : Lens) =
      { l with record := l.record.map abandonedRecord } := by
    cases record : l.record <;> simp [Lens.still, LensRecord.still, abandonedRecord, record]
  rw [← rest v, e, rest w]

end Sys2Proof.Machine
end

