-- ==== Sys2Proof/Proofs/LockLost.lean ====
section
/-! PROOF. O34: lock lost. What the link unit counts and drops first, then the fallback to ACQUIRE or the entry to RELOCK. -/

namespace Sys2Proof.Machine

/-! ## The drop counted (R138, R141, R142) -/

/-- The bin of the port's current zone with one drop more. -/
def Hub.droppedBin (p : Port) (h : Hub) : Bin := ((h.zones.get p).bins.get (h.zones.get p).current).countDrop

/-- R141: the bin becomes suspect by its drops. -/
def Hub.dropSuspects (p : Port) (h : Hub) : Prop :=
  ((h.zones.get p).bins.get (h.zones.get p).current).suspect = none ∧ (h.zones.get p).setup.dropThreshold ≤ (h.droppedBin p).drops

/-- A bin is written in the port's current zone. -/
def Hub.writeBin (p : Port) (b : Bin) (h : Hub) : Hub := h.modZone p fun m => { m with bins := m.bins.set (h.zones.get p).current b }

theorem dropSuspect_iff (p : Port) (h : Hub) :
    (h.droppedBin p).dropSuspect (h.zones.get p).setup = true ↔ h.dropSuspects p := by
  unfold Bin.dropSuspect
  rw [Bool.and_eq_true, Option.isNone_iff_eq_none, decide_eq_true_iff]
  rfl

theorem countDrop_suspect {p : Port} {h : Hub} (k : h.dropSuspects p) :
    h.countDrop p = (h.writeBin p { h.droppedBin p with suspect := some (.drops, h.now) }).fire (.ofPort p .zoneSuspect)
      ((h.droppedBin p).suspectDetail (h.zones.get p).current .drops h.now) := if_pos ((dropSuspect_iff p h).2 k)

theorem countDrop_quiet {p : Port} {h : Hub} (k : ¬ h.dropSuspects p) : h.countDrop p = h.writeBin p (h.droppedBin p) :=
  if_neg fun suspect => k ((dropSuspect_iff p h).1 suspect)

theorem onlyIn_countDrop (p : Port) (h : Hub) : h.onlyIn [.zones, .router, .uplink, .draws] (h.countDrop p) := by
  refine Hub.onlyIn_of_hide ?_
  by_cases k : h.dropSuspects p
  · rw [countDrop_suspect k]
    simp [Hub.writeBin]
  · rw [countDrop_quiet k]
    simp [Hub.writeBin]

/-! ## What is dropped first (R12, R94, R109) -/

section Drop

variable {p : Port} {h : Hub}

/-- R12, R138: a lock loss in UP, counted at the link and as a drop. -/
def Hub.lossCounted (p : Port) (h : Hub) : Hub := (h.modLink p Link.loseLock).countDrop p

/-- R12, R109: a lock loss in UP, counted, and the FILLING frame closed. -/
def Hub.lossClosed (p : Port) (h : Hub) : Hub := (h.lossCounted p).closeFilling p .linkLost

theorem dropOnLockLoss_eq (p : Port) (h : Hub) : h.dropOnLockLoss p = (h.lossClosed p).endFlights p .link := rfl

theorem onlyIn_lossCounted : h.onlyIn [.links, .zones, .router, .uplink, .draws] (h.lossCounted p) :=
  Hub.onlyIn_trans (Hub.onlyIn_of_hide (by simp)) (Hub.onlyIn_mono (by decide) (onlyIn_countDrop p (h.modLink p Link.loseLock)))

theorem onlyIn_lossClosed : h.onlyIn [.links, .zones, .router, .uplink, .draws, .store, .delivery] (h.lossClosed p) :=
  Hub.onlyIn_trans (Hub.onlyIn_mono (by decide) onlyIn_lossCounted) (Hub.onlyIn_mono (by decide) (onlyIn_closeFilling p .linkLost _))

theorem links_lossClosed : (h.lossClosed p).links = h.links.mod p Link.loseLock :=
  (onlyIn_closeFilling p .linkLost _).links.trans (onlyIn_countDrop p (h.modLink p Link.loseLock)).links

theorem sameBut_lossClosed : h.sameBut p (h.lossClosed p) :=
  ⟨fun q ne => by rw [links_lossClosed, PerPort.get_mod_ne _ _ _ _ ne], fun _ _ => by rw [onlyIn_lossClosed.power],
    fun _ _ => by rw [onlyIn_lossClosed.lenses]⟩

theorem reports_lossClosed {S : Source → Prop} (zone : S (.ofPort p .zoneSuspect)) (low : S (.ofHub .storeLow)) :
    Hub.Reports S h (h.lossClosed p) :=
  (((Hub.Reports.refl h).modLink p _).countDrop p zone).trans (reports_closeFilling p _ _ low)

theorem reports_dropOnLockLoss {S : Source → Prop} (zone : S (.ofPort p .zoneSuspect)) (skip : S (.ofHub .slotSkipped))
    (low : S (.ofHub .storeLow)) : Hub.Reports S h (h.dropOnLockLoss p) := (reports_lossClosed zone low).endFlights p _ skip low

theorem endsNone_lossClosed : EndsNone h (h.lossClosed p) :=
  have counted : EndsNone h (h.lossCounted p) :=
    .of_onlyIn onlyIn_lossCounted (((Hub.Reports.refl h).modLink p _).countDrop p nofun).undisturbed
  counted.trans (endsNone_closeFilling p _ _)

/-- R12: the link once the loss is counted and the slots ended. -/
theorem kept_dropOnLockLoss_link : ((h.dropOnLockLoss p).links.get p).kept = (h.links.get p).loseLock.kept := by
  have ended := links_of_kept (kept_endFlights p .link (h.lossClosed p)) p
  rwa [links_lossClosed, PerPort.get_mod_same] at ended

theorem dropOnLockLoss_of_none (none : ∀ x ∈ h.shot.flights, x.port ≠ p) : h.dropOnLockLoss p = h.lossClosed p := by
  rw [dropOnLockLoss_eq, endFlights_of_none]
  rwa [onlyIn_lossClosed.shot]

theorem OwnSlots.of_shot {tags : List FrameTag} {a b : Hub} (o : OwnSlots p tags a) (shot : b.shot = a.shot) : OwnSlots p tags b := by
  obtain ⟨named, own⟩ := o
  refine ⟨fun t k x mem => named t k x (by rwa [shot] at mem), fun x mem port => ?_⟩
  unfold Hub.owns
  rw [shot] at mem ⊢
  exact own x mem port

/-- R4: the TRIGGERs at the link once the slots ended were there before. -/
theorem ownSlots_dropOnLockLoss (own : h.slotsOwn p) :
    OwnSlots p ((h.dropOnLockLoss p).links.get p).unsent (h.dropOnLockLoss p) := by
  have closed : OwnSlots p (h.links.get p).unsent (h.lossClosed p) := (ownSlots_of_slotsOwn own).of_shot onlyIn_lossClosed.shot
  have ended := closed.later (((LostSlots.refl _ _).endFlights p .link).flights_subset) (kept_endFlights p .link (h.lossClosed p))
  have offered : Hub.OffersMoves (h.lossClosed p) (h.dropOnLockLoss p) := (Hub.OffersMoves.refl _).endFlights p .link
  have fewer := (offered p).unsent_subset
  rw [links_lossClosed, PerPort.get_mod_same] at fewer
  exact ended.fewer fewer

end Drop

/-! ## What both ways out of UP keep -/

/-- What an operation that follows the drop does, by whichever way the link leaves UP. -/
structure LeavesUp (p : Port) (d e : Hub) : Prop where
  parts : d.onlyIn slotParts e
  lost : LostSlots (d.shot.flights.map (·.tag)) d e
  cleared : ∀ x ∈ e.shot.flights, x.port ≠ p
  slots : OwnSlots p (d.links.get p).unsent d → EndsNone d e
  quiet : Undisturbed (.ofPort p .zoneSuspect) d e
  sinceUp : (e.links.get p).sinceUp = (d.links.get p).sinceUp
  total : (e.links.get p).total = (d.links.get p).total
  camera : (e.links.get p).camera = (d.links.get p).camera
  lastChange : (e.links.get p).lastChange = d.now
  others : ∀ q, q ≠ p → (e.links.get q).state = (d.links.get q).state
  power : ∀ q, (e.power.get q).state = (d.power.get q).state

section Leave

variable {p : Port} {d : Hub}

theorem leavesUp_enterAcquire {rate : Rate} {cause : LinkCause} (cleared : ∀ x ∈ d.shot.flights, x.port ≠ p) :
    LeavesUp p d (d.enterAcquire p rate cause) := by
  obtain ⟨link, -, -⟩ := acquiring_enterAcquire (p := p) (rate := rate) (cause := cause) (h := d)
  refine ⟨onlyIn_enterAcquire p rate cause d, lost_enterAcquire, no_flights_enterAcquire, fun o => endsNone_enterAcquire o cleared,
    ((Hub.Reports.refl d).enterAcquire p _ _ nofun nofun nofun).undisturbed, ?_, ?_, ?_, ?_, fun q ne => ?_, fun q => ?_⟩
  · rw [link]
  · rw [link]
  · rw [link]
  · rw [link]
  · exact (congrArg Link.state (link_enterAcquire_ne ne) :)
  · exact (congrArg Power.state (power_of_kept kept_enterAcquire q) :)

/-- R12, R93: entry to RELOCK. -/
def Hub.relocks (p : Port) (d : Hub) : Hub := (d.modLink p (Link.toRelock d.now)).reportUnsent (d.links.get p).unsent

/-- R13: what the entry to RELOCK leaves of the link but for its words. -/
theorem kept_relocks_link : ((d.relocks p).links.get p).kept = (Link.toRelock d.now (d.links.get p)).kept := by
  have reported := links_of_kept (kept_reportUnsent (d.links.get p).unsent (d.modLink p (Link.toRelock d.now))) p
  rwa [modLink_links, PerPort.get_mod_same] at reported

theorem leavesUp_relocks (cleared : ∀ x ∈ d.shot.flights, x.port ≠ p) : LeavesUp p d (d.relocks p) := by
  have entered : d.onlyIn [.links] (d.modLink p (Link.toRelock d.now)) := Hub.onlyIn_of_hide (by simp)
  have lost : LostSlots (d.shot.flights.map (·.tag)) d (d.relocks p) := (LostSlots.of_onlyIn entered).reportUnsent _
  have kept := kept_relocks_link (p := p) (d := d)
  have rest := kept_reportUnsent (d.links.get p).unsent (d.modLink p (Link.toRelock d.now))
  refine ⟨Hub.onlyIn_trans (Hub.onlyIn_mono (by decide) entered) (onlyIn_reportUnsent _ _), lost,
    fun x mem => cleared x (lost.flights_subset mem), fun o => ?_,
    (((Hub.Reports.refl d).modLink p _).reportUnsent _ nofun nofun).undisturbed, (congrArg Link.sinceUp kept :), (congrArg Link.total kept :),
    (congrArg Link.camera kept :), (congrArg Link.lastChange kept :), fun q ne => ?_, fun q => (congrArg Power.state (power_of_kept rest q) :)⟩
  · have same : d.relocks p = d.modLink p (Link.toRelock d.now) := reportUnsent_of_none (o.of_shot rfl) cleared
    rw [same]
    exact .of_onlyIn entered ((Hub.Reports.refl d).modLink p _).undisturbed
  · have state : ((d.relocks p).links.get q).kept = ((d.modLink p (Link.toRelock d.now)).links.get q).kept := links_of_kept rest q
    rw [modLink_links, PerPort.get_mod_ne _ _ _ _ ne] at state
    exact (congrArg Link.state state :)

end Leave

end Sys2Proof.Machine
end

