-- ==== Sys2Proof/Proofs/LockLostOutcome.lean ====
section
/-! PROOF. O34: what the statement says of a lock loss in UP, part by part. -/

namespace Sys2Proof.Machine

section Outcome

variable {p : Port} {h e : Hub}

theorem no_flights_dropOnLockLoss : ∀ x ∈ (h.dropOnLockLoss p).shot.flights, x.port ≠ p := no_flights_endFlights p .link _

theorem onlyIn_dropOnLockLoss : h.onlyIn [.links, .power, .lenses, .deferred, .shot, .store, .delivery, .zones, .router, .uplink, .draws]
    (h.dropOnLockLoss p) :=
  Hub.onlyIn_trans (Hub.onlyIn_mono (by decide) onlyIn_lossClosed) (Hub.onlyIn_mono (by decide) (onlyIn_endFlights p .link (h.lossClosed p)))

theorem now_dropOnLockLoss : (h.dropOnLockLoss p).now = h.now := congrArg Timebase.cellTime onlyIn_dropOnLockLoss.time

/-- R12: when the fallback is due. -/
theorem fallbackDue_iff : ((h.dropOnLockLoss p).links.get p).fallbackDue = true ↔
    (h.links.get p).threshold ≠ 0 ∧ (h.links.get p).threshold ≤ min 255 ((h.links.get p).sinceUp + 1) ∧ (h.links.get p).rate = .full := by
  have kept := kept_dropOnLockLoss_link (p := p) (h := h)
  have threshold : ((h.dropOnLockLoss p).links.get p).threshold = (h.links.get p).threshold := (congrArg Link.threshold kept :)
  have sinceUp : ((h.dropOnLockLoss p).links.get p).sinceUp = min 255 ((h.links.get p).sinceUp + 1) := (congrArg Link.sinceUp kept :)
  have rate : ((h.dropOnLockLoss p).links.get p).rate = (h.links.get p).rate := (congrArg Link.rate kept :)
  unfold Link.fallbackDue
  rw [threshold, sinceUp, rate]
  simp [and_assoc]

/-! ## The FILLING frame and the slots (R94, R95, R109) -/

theorem LostSlots.mono {T U : List FrameTag} {a b : Hub} (r : LostSlots T a b) (sub : T ⊆ U) : LostSlots U a b := by
  obtain ⟨gone, known, rest⟩ := r.lost
  exact ⟨⟨gone, List.Subset.trans known sub, rest⟩, r.delivery, r.time⟩

theorem fillingDropped_lockLost (k : LeavesUp p (h.dropOnLockLoss p) e) : fillingDropped p .linkLost h e.finish := by
  have shot : (h.lossClosed p).shot = h.shot := onlyIn_lossClosed.shot
  have dropped : LostSlots ((h.lossClosed p).shot.flights.map (·.tag)) (h.lossClosed p) (h.dropOnLockLoss p) :=
    (LostSlots.refl _ _).endFlights p .link
  have later : LostSlots ((h.lossClosed p).shot.flights.map (·.tag)) (h.lossClosed p) e :=
    dropped.trans (k.lost.mono (List.map_subset _ dropped.flights_subset))
  let run : DropRun p .linkLost h e.finish := {
    drops := h.lossCounted p
    last := e
    gone := []
    known := List.nil_subset _
    store := onlyIn_lossCounted.store.trans (Store.without_nil _).symm
    filling := by
      rw [onlyIn_lossCounted.store]
      cases h.store.filling? p <;> simp [Option.filter]
    delivery := onlyIn_lossCounted.delivery
    time := onlyIn_lossCounted.time
    after := shot ▸ later
    ended := (Hub.finish_spec e).1
    cleared := k.cleared }
  exact run.fillingDropped

theorem slotsSkipped_lockLost (k : LeavesUp p (h.dropOnLockLoss p) e) : slotsSkipped p .link h e.finish := by
  have later (own : h.slotsOwn p) : EndsNone (h.dropOnLockLoss p) e.finish := (k.slots (ownSlots_dropOnLockLoss own)).trans (endsNone_finish e)
  refine slotsSkipped_of (fun none own => ?_) fun f one own => ?_
  · have rest := later own
    rw [dropOnLockLoss_of_none none] at rest
    exact (endsNone_lossClosed.trans rest).toNoneSkipped
  · have ended : SkippedOnce .link f h (h.dropOnLockLoss p) := skippedOnce_endFlights one (.inl endsNone_lossClosed.toNoneSkipped)
    exact ended.after (later own)

/-! ## The bin (R138, R141, R142) -/

theorem zones_lockLost (k : LeavesUp p (h.dropOnLockLoss p) e) : e.finish.zones = (h.lossCounted p).zones := by
  rw [(onlyIn_finish e).zones, k.parts.zones]
  exact (onlyIn_endFlights p .link (h.lossClosed p)).zones.trans (onlyIn_closeFilling p .linkLost (h.lossCounted p)).zones

theorem undisturbed_zone (k : LeavesUp p (h.dropOnLockLoss p) e) : Undisturbed (.ofPort p .zoneSuspect) (h.lossCounted p) e.finish := by
  have dropped : Hub.Reports (· ≠ .ofPort p .zoneSuspect) (h.lossCounted p) (h.dropOnLockLoss p) :=
    (reports_closeFilling p .linkLost _ nofun).endFlights p .link nofun nofun
  exact (dropped.undisturbed.trans k.quiet).finish

/-- What the statement says of the bin. -/
theorem bin_lockLost (k : LeavesUp p (h.dropOnLockLoss p) e) :
    let b := (h.zones.get p).bins.get (h.zones.get p).current
    let drops := min 65535 (b.drops + 1)
    (h.dropSuspects p → (e.finish.zones = h.zones.mod p fun m =>
        { m with bins := m.bins.set (h.zones.get p).current { b with drops := drops, suspect := some (.drops, h.time.cellTime) } }) ∧
      fired (.ofPort p .zoneSuspect) (w1 (h.zones.get p).current.val ++ w1 1 ++ w4 b.lines ++ w4 b.bad ++ w2 drops ++
        w4 (b.bad * 1000000 / b.lines) ++ w6 h.time.cellTime.toNat) h e.finish) ∧
    (¬ h.dropSuspects p → (e.finish.zones = h.zones.mod p fun m =>
        { m with bins := m.bins.set (h.zones.get p).current { b with drops := drops } }) ∧
      quiet (.ofPort p .zoneSuspect) h e.finish) := by
  intro b drops
  have counted : Undisturbed (.ofPort p .zoneSuspect) h (h.modLink p Link.loseLock) := ((Hub.Reports.refl h).modLink p _).undisturbed
  have later := undisturbed_zone k
  rw [zones_lockLost k]
  refine ⟨fun suspect => ?_, fun sound => ?_⟩
  · have run : h.lossCounted p = _ := countDrop_suspect (h := h.modLink p Link.loseLock) suspect
    rw [run] at later ⊢
    refine ⟨(onlyIn_fire _ _ _).zones, fired_of_fire (counted.trans ?_) later⟩
    exact ((Hub.Reports.refl _).modZone p _).undisturbed
  · have run : h.lossCounted p = _ := countDrop_quiet (h := h.modLink p Link.loseLock) sound
    rw [run] at later ⊢
    refine ⟨rfl, (counted.trans (Undisturbed.trans ?_ later)).quiet⟩
    exact ((Hub.Reports.refl _).modZone p _).undisturbed

/-! ## The fallback (R12, R59, R91) -/

theorem lens_fallback (own : h.slotsOwn p) (up : (h.links.get p).state = .up) {b : Hub}
    (released : Released p (h.dropOnLockLoss p) b) :
    b.lenses.get p =
      { h.lenses.get p with
        record := (h.lenses.get p).record.map fun r => abandonedRecord { r with
          axes := (h.shot.flights.filter (·.port == p)).foldl (fun a x => axesWritten a (h.followingTargets p x)) r.axes } } := by
  have shot : (h.lossClosed p).shot = h.shot := onlyIn_lossClosed.shot
  have lenses : (h.lossClosed p).lenses = h.lenses := onlyIn_lossClosed.lenses
  have targets : (h.lossClosed p).followingTargets p = h.followingTargets p := by
    funext x
    unfold Hub.followingTargets
    rw [shot, lenses]
  obtain ⟨-, slots⟩ := (ownSlots_of_slotsOwn own).of_shot shot
  have open_ : ((h.lossClosed p).links.get p).carriesMoves = true := by
    rw [links_lossClosed, PerPort.get_mod_same]
    simp [Link.carriesMoves, Link.loseLock, up]
  have ended := still_endFlights .link slots open_
  rw [shot, lenses, targets] at ended
  have moved := abandoned_still ended
  rw [foldl_write] at moved
  have lens : b.lenses.get p = _ := released.lens
  rw [lens]
  refine moved.trans ?_
  cases (h.lenses.get p).record <;> rfl

theorem portFreed_fallback (none : ∀ x ∈ h.shot.flights, x.port ≠ p) (own : h.slotsOwn p) :
    portFreed p (h.deferred.filter (· != p)) h ((h.dropOnLockLoss p).enterAcquire p .half .fallback).finish := by
  have slots := ownSlots_dropOnLockLoss own
  rw [dropOnLockLoss_of_none none] at slots ⊢
  exact portFreed_enterAcquire sameBut_lossClosed onlyIn_lossClosed.power onlyIn_lossClosed.budget onlyIn_lossClosed.deferred slots
    (aside_finish p _) ((onlyIn_finish _).sameBut p) (onlyIn_finish _).deferred

theorem moveAbandoned_fallback (none : ∀ x ∈ h.shot.flights, x.port ≠ p) {b : Hub} (released : Released p (h.dropOnLockLoss p) b) :
    moveAbandoned p h b := by
  have lens := released.lens
  rw [dropOnLockLoss_of_none none] at lens
  unfold moveAbandoned at lens ⊢
  rwa [onlyIn_lossClosed.lenses] at lens

/-! ## RELOCK (R4, R13) -/

/-- R4: after entry to RELOCK no TRIGGER waits. -/
theorem words_relocks {d : Hub} {w : DownWord} (mem : w ∈ ((d.relocks p).links.get p).words) : w.triggerTag? = none := by
  cases tag : w.triggerTag? with
  | none => rfl
  | some t =>
    have offered : Hub.OffersMoves (d.modLink p (Link.toRelock d.now)) (d.relocks p) := (Hub.OffersMoves.refl _).reportUnsent _
    have waits := (offered p).trigger_waits mem tag
    rw [modLink_links, PerPort.get_mod_same] at waits
    have kept := (List.mem_filter.1 (show w ∈ ((d.links.get p).words.filter fun w => w.triggerTag?.isNone) from waits)).2
    simp [tag] at kept

/-- R4, R13: where the port has no slot, RELOCK keeps the lens moves and the words but TRIGGERs. -/
theorem relocks_of_none (none : ∀ x ∈ h.shot.flights, x.port ≠ p) (own : h.slotsOwn p) :
    (((h.dropOnLockLoss p).relocks p).links.get p).words = (h.links.get p).words.filter (fun w => w.triggerTag?.isNone) ∧
      ((h.dropOnLockLoss p).relocks p).lenses = h.lenses ∧ ((h.dropOnLockLoss p).relocks p).power = h.power ∧
      ((h.dropOnLockLoss p).relocks p).deferred = h.deferred := by
  have slots := ownSlots_dropOnLockLoss own
  have same : (h.dropOnLockLoss p).relocks p = (h.dropOnLockLoss p).modLink p (Link.toRelock (h.dropOnLockLoss p).now) :=
    reportUnsent_of_none (slots.of_shot rfl) no_flights_dropOnLockLoss
  rw [same, dropOnLockLoss_of_none none]
  refine ⟨?_, onlyIn_lossClosed.lenses, onlyIn_lossClosed.power, onlyIn_lossClosed.deferred⟩
  rw [modLink_links, PerPort.get_mod_same, links_lossClosed, PerPort.get_mod_same]
  rfl

end Outcome

end Sys2Proof.Machine
end

