-- ==== Sys2Proof/Proofs/LockLostActs.lean ====
section
/-! PROOF. O34, assembled. -/

namespace Sys2Proof.Machine

section Acts

variable {p : Port} {h : Hub}

theorem lockLostUp_falls (falls : ((h.dropOnLockLoss p).links.get p).fallbackDue = true) :
    h.lockLostUp p = (h.dropOnLockLoss p).enterAcquire p .half .fallback := by
  rw [lockLostUp_eq, if_pos falls]

theorem lockLostUp_relocks (stays : ¬ ((h.dropOnLockLoss p).links.get p).fallbackDue = true) :
    h.lockLostUp p = (h.dropOnLockLoss p).relocks p := by
  rw [lockLostUp_eq, if_neg stays]
  rfl

theorem leavesUp_lockLostUp (p : Port) (h : Hub) : LeavesUp p (h.dropOnLockLoss p) (h.lockLostUp p) := by
  by_cases falls : ((h.dropOnLockLoss p).links.get p).fallbackDue = true
  · rw [lockLostUp_falls falls]
    exact leavesUp_enterAcquire no_flights_dropOnLockLoss
  · rw [lockLostUp_relocks falls]
    exact leavesUp_relocks no_flights_dropOnLockLoss

/-- R12: the counts, the camera record and the last change time, and what is kept at the other ports. -/
theorem counts_lockLostUp (p : Port) (h : Hub) :
    ((h.lockLostUp p).links.get p).sinceUp = min 255 ((h.links.get p).sinceUp + 1) ∧
      ((h.lockLostUp p).links.get p).total = min 65535 ((h.links.get p).total + 1) ∧
      ((h.lockLostUp p).links.get p).camera = (h.links.get p).camera ∧ ((h.lockLostUp p).links.get p).lastChange = h.time.cellTime ∧
      (∀ q, q ≠ p → ((h.lockLostUp p).links.get q).state = (h.links.get q).state) ∧
      ∀ q, ((h.lockLostUp p).power.get q).state = (h.power.get q).state := by
  have k := leavesUp_lockLostUp p h
  have kept := kept_dropOnLockLoss_link (p := p) (h := h)
  have states := sameStates_dropOnLockLoss p h
  exact ⟨k.sinceUp.trans (congrArg Link.sinceUp kept :), k.total.trans (congrArg Link.total kept :),
    k.camera.trans (congrArg Link.camera kept :), k.lastChange.trans now_dropOnLockLoss, fun q ne => (k.others q ne).trans (states q).1,
    fun q => (k.power q).trans (states q).2⟩

theorem dram_lockLostUp (p : Port) (h : Hub) : (h.lockLostUp p).store.dram = h.store.dram := by
  have ended : (h.dropOnLockLoss p).store.dram = (h.lossClosed p).store.dram := ((LostSlots.refl _ _).endFlights p .link).dram
  rw [(leavesUp_lockLostUp p h).lost.dram, ended]
  exact (dram_closeFilling p .linkLost (h.lossCounted p)).trans (congrArg Store.dram onlyIn_lossCounted.store)

theorem undisturbed_dropOnLockLoss : Undisturbed (.ofPort p .linkChange) h (h.dropOnLockLoss p) := by
  have reports : Hub.Reports (· ≠ .ofPort p .linkChange) h (h.dropOnLockLoss p) := reports_dropOnLockLoss nofun nofun nofun
  exact reports.undisturbed

/-- R12, R17, R59, R91: the fallback. -/
structure FallsBack (p : Port) (a b : Hub) : Prop where
  state : (b.links.get p).state = .acquire
  rate : (b.links.get p).rate = .half
  timer : (b.links.get p).acquireTimer = some 3000000
  carries : (b.links.get p).carries (.retrain .half)
  words : ∀ w ∈ (b.links.get p).words, ∃ r, w = .retrain r
  idle : (b.lenses.get p).moveState = .idle
  lens : a.slotsOwn p → b.lenses.get p =
    { a.lenses.get p with
      record := (a.lenses.get p).record.map fun r => abandonedRecord { r with
        axes := (a.shot.flights.filter (·.port == p)).foldl (fun v x => axesWritten v (a.followingTargets p x)) r.axes } }
  abandoned : (∀ x ∈ a.shot.flights, x.port ≠ p) → moveAbandoned p a b
  freed : (∀ x ∈ a.shot.flights, x.port ≠ p) → a.slotsOwn p → portFreed p (a.deferred.filter (· != p)) a b
  fires : fired (.ofPort p .linkChange) (linkFields .acquire .half .fallback) a b

theorem fallsBack_lockLostUp (up : (h.links.get p).state = .up) (falls : ((h.dropOnLockLoss p).links.get p).fallbackDue = true) :
    FallsBack p h (h.lockLostUp p).finish := by
  rw [lockLostUp_falls falls]
  obtain ⟨link, words, carries⟩ := acquiring_enterAcquire (p := p) (rate := .half) (cause := .fallback) (h := h.dropOnLockLoss p)
  have aside := aside_finish p ((h.dropOnLockLoss p).enterAcquire p .half .fallback)
  have released := (released_enterAcquire (p := p) (rate := .half) (cause := .fallback) (h := h.dropOnLockLoss p)).after aside
  have same := aside.same.links
  rw [← same] at link words carries
  refine ⟨?_, ?_, ?_, carries, words, ?_, fun own => lens_fallback own up released, fun none => moveAbandoned_fallback none released,
    portFreed_fallback, fired_enterAcquire undisturbed_dropOnLockLoss (Undisturbed.refl _ _).finish⟩
  · rw [link]
  · rw [link]
  · rw [link]
  · rw [released.lens]
    unfold Lens.moveState
    cases ((h.dropOnLockLoss p).lenses.get p).record <;> rfl

/-- R4, R12, R13: the entry to RELOCK. -/
structure EntersRelock (p : Port) (a b : Hub) : Prop where
  state : (b.links.get p).state = .relock
  rate : (b.links.get p).rate = (a.links.get p).rate
  window : (b.links.get p).relockWindow = some 50000
  silent : quiet (.ofPort p .linkChange) a b
  words : ∀ w ∈ (b.links.get p).words, w.triggerTag? = none
  alone : (∀ x ∈ a.shot.flights, x.port ≠ p) → a.slotsOwn p →
    (b.links.get p).words = (a.links.get p).words.filter (fun w => w.triggerTag?.isNone) ∧ b.lenses = a.lenses ∧ b.power = a.power ∧
      b.deferred = a.deferred

theorem entersRelock_lockLostUp (stays : ¬ ((h.dropOnLockLoss p).links.get p).fallbackDue = true) :
    EntersRelock p h (h.lockLostUp p).finish := by
  rw [lockLostUp_relocks stays]
  have entered := kept_relocks_link (p := p) (d := h.dropOnLockLoss p)
  have rate : ((h.dropOnLockLoss p).links.get p).rate = (h.links.get p).rate := (congrArg Link.rate kept_dropOnLockLoss_link :)
  have ended := onlyIn_finish ((h.dropOnLockLoss p).relocks p)
  have told : Hub.Reports (· ≠ .ofPort p .linkChange) (h.dropOnLockLoss p) ((h.dropOnLockLoss p).relocks p) :=
    ((Hub.Reports.refl _).modLink p _).reportUnsent _ nofun nofun
  refine ⟨?_, ?_, ?_, (undisturbed_dropOnLockLoss.trans told.undisturbed).finish.quiet, fun w mem => ?_, fun none own => ?_⟩
  · rw [ended.links]
    exact (congrArg Link.state entered :)
  · rw [ended.links, ← rate]
    exact (congrArg Link.rate entered :)
  · rw [ended.links]
    exact (congrArg Link.relockWindow entered :)
  · rw [ended.links] at mem
    exact words_relocks mem
  · rw [ended.links, ended.lenses, ended.power, ended.deferred]
    exact relocks_of_none none own

/-- R10, R12: lock lost, by the link's state. -/
theorem lockLost_eq (p : Port) (h : Hub) :
    ((h.links.get p).state = .up → h.lockLost p = (h.lockLostUp p).finish) ∧
      ((h.links.get p).state = .acquire → h.lockLost p = h.modLink p fun x => { x with locked := false }) ∧
      ((h.links.get p).state ∉ [.up, .acquire] → h.lockLost p = h) := by
  unfold Hub.lockLost
  refine ⟨fun up => by rw [up], fun acquire => by rw [acquire], fun other => ?_⟩
  split
  · rename_i acquire
    exact absurd (by simp [acquire]) other
  · rename_i up
    exact absurd (by simp [up]) other
  · rfl

end Acts

/-- Settles O34: the loss is counted, the FILLING frame closed and the port's slot ended, then the link falls back to ACQUIRE at HALF or
enters RELOCK. -/
theorem lockLostActsByLinkState : Obligations.LockLostActsByLinkState := by
  intro p s l n falls z b drops suspect
  obtain ⟨isUp, isAcquire, isOther⟩ := lockLost_eq p s.toHub
  refine ⟨fun up => ?_, fun acquire => congrArg s.next (isAcquire acquire), fun other => congrArg s.next (isOther other)⟩
  have leaves := leavesUp_lockLostUp p s.toHub
  obtain ⟨sinceUp, total, camera, lastChange, others, power⟩ := counts_lockLostUp p s.toHub
  obtain ⟨suspects, sound⟩ := bin_lockLost leaves
  have due : ((s.toHub.dropOnLockLoss p).links.get p).fallbackDue = true ↔ falls := fallbackDue_iff
  have ended := onlyIn_finish (s.toHub.lockLostUp p)
  have link : (s.toHub.lockLostUp p).finish.links.get p = (s.toHub.lockLostUp p).links.get p := (aside_finish p _).same.links
  refine ⟨s.withHub (s.toHub.lockLostUp p).finish, congrArg s.next (isUp up), rfl, ?_, ?_, ?_, ?_, fun fall => ?_, fun stays => ?_,
    fillingDropped_lockLost leaves, slotsSkipped_lockLost leaves, fun x => (suspects x).1, fun x => (sound x).1, fun x => (suspects x).2,
    fun x => (sound x).2, fun q ne => ?_, ?_, fun q => ?_⟩
  all_goals rw [State.withHub_toHub]
  · rwa [link]
  · rwa [link]
  · rwa [link]
  · rwa [link]
  · obtain ⟨state, rate, timer, carries, words, idle, lens, abandoned, freed, fires⟩ := fallsBack_lockLostUp up (due.2 fall)
    exact ⟨state, rate, timer, carries, words, idle, lens, abandoned, freed, fires⟩
  · obtain ⟨state, rate, window, silent, words, alone⟩ := entersRelock_lockLostUp fun fall => stays (due.1 fall)
    exact ⟨state, rate, window, silent, words, alone⟩
  · rw [ended.links]
    exact others q ne
  · obtain ⟨mark, store, -⟩ := store_settledTo (Hub.finish_spec (s.toHub.lockLostUp p)).1
    rw [store]
    exact dram_lockLostUp p s.toHub
  · rw [ended.power]
    exact power q

end Sys2Proof.Machine
end

