-- ==== Sys2Proof/Proofs/Budget.lean ====
section
/-! PROOF. O5, the operations: each keeps the reserved sum within the cell budget, since a claim or a surge is taken only where it fits and
every other change of a power record lowers what it reserves. -/

namespace Sys2Proof.Machine

/-- R35: the reserved sum is at most the cell budget. -/
def Hub.withinBudget (h : Hub) : Prop := h.reservedSum ≤ h.budget

theorem budgetKept_iff (s : State) : s.budgetKept ↔ s.toHub.withinBudget := Iff.rfl

/-! ## What a power record reserves -/

theorem Power.reserve_le_of_claim {v w : Power} (claim : v.claim ≤ w.claim) (surge : v.heldSurge = w.heldSurge) : v.reserve ≤ w.reserve := by
  unfold Power.reserve
  omega

theorem Power.claim_of_held {w : Power} (held : w.holdsClaim = true) : w.claim = w.setup.limit := if_pos held

theorem Power.claim_le_limit (w : Power) : w.claim ≤ w.setup.limit := by
  unfold Power.claim
  split <;> omega

/-- A record whose claim the other holds in full reserves no more. -/
theorem Power.reserve_le_of_held {v w : Power} (held : w.holdsClaim = true) (limit : v.setup.limit = w.setup.limit := by rfl)
    (surge : v.heldSurge = w.heldSurge := by rfl) : v.reserve ≤ w.reserve := by
  refine Power.reserve_le_of_claim ?_ surge
  rw [Power.claim_of_held held, ← limit]
  exact v.claim_le_limit

/-- A record without a claim reserves no more than one that holds the same surge. -/
theorem Power.reserve_le_of_none {v w : Power} (none : v.holdsClaim = false) (surge : v.heldSurge ≤ w.heldSurge) : v.reserve ≤ w.reserve := by
  have zero : v.claim = 0 := if_neg (by simp [none])
  unfold Power.reserve
  omega

/-- One port's power record changes: the reserved sum changes by that port's reserve. -/
theorem reservedSum_modPower (p : Port) (f : Power → Power) (h : Hub) :
    (h.modPower p f).reservedSum + (h.power.get p).reserve = h.reservedSum + (f (h.power.get p)).reserve := by
  simp only [reservedSum_eq, allPorts, List.map_cons, List.map_nil, List.sum_cons, List.sum_nil, modPower_power, PerPort.get_mod]
  fin_cases p <;> simp <;> omega

theorem Power.reserve_trip {w : Power} (c : TripCause) (held : w.holdsClaim = true) : (w.trip c).reserve ≤ w.reserve := by
  refine Power.reserve_le_of_held held ?_ ?_ <;>
  · unfold Power.trip
    dsimp only
    split <;> rfl

/-- R24: what a sample leaves of the power record. -/
theorem Power.sampled_fields (n : Nat) (w : Power) : (w.sampled n).state = w.state ∧ (w.sampled n).setup = w.setup ∧
    (w.sampled n).restore = w.restore ∧ (w.sampled n).heldSurge = w.heldSurge := by
  unfold Power.sampled
  dsimp only
  (repeat' split) <;> exact ⟨rfl, rfl, rfl, rfl⟩

theorem Power.holdsClaim_sampled (n : Nat) (w : Power) : (w.sampled n).holdsClaim = w.holdsClaim := by
  obtain ⟨state, -, restore, -⟩ := w.sampled_fields n
  simp only [Power.holdsClaim, state, restore]

theorem Power.reserve_sampled (n : Nat) (w : Power) : (w.sampled n).reserve = w.reserve := by
  obtain ⟨-, setup, -, surge⟩ := w.sampled_fields n
  simp only [Power.reserve, Power.claim, Power.holdsClaim_sampled, setup, surge]

/-- R24: only a port whose switch is closed trips on a sample. -/
theorem Power.holdsClaim_of_sampleTrip {n : Nat} {w : Power} {c : TripCause} (trips : w.sampleTrip n = some c) : w.holdsClaim = true := by
  unfold Power.sampleTrip at trips
  unfold Power.holdsClaim
  cases state : w.state <;> simp [state] at trips ⊢

theorem Power.reserve_toOff (w : Power) : w.toOff.reserve ≤ w.reserve := by
  refine Power.reserve_le_of_none rfl ?_
  unfold Power.toOff
  split <;> exact le_rfl

theorem Power.reserve_portReset (w : Power) : w.portReset.reserve ≤ w.reserve := Power.reserve_le_of_none rfl (Nat.zero_le _)

/-- R42: a port enters HUNT with at most the claim it held. -/
theorem Power.reserve_toHunt (restore : Bool) (w : Power) : (w.toHunt restore).reserve ≤ w.reserve := by
  unfold Power.toHunt
  split
  · rename_i closed
    refine Power.reserve_le_of_held ?_
    unfold Power.switchClosed at closed
    unfold Power.holdsClaim
    cases state : w.state <;> simp [state] at closed ⊢
  · exact Power.reserve_le_of_none rfl le_rfl

theorem Power.reserve_hubReset (w : Power) : w.hubReset.reserve ≤ w.reserve := by
  unfold Power.hubReset
  dsimp only
  split
  · exact Power.reserve_le_of_none rfl (Nat.zero_le _)
  · exact Nat.add_le_add_left (Nat.zero_le _) _

namespace Hub.withinBudget

variable {h : Hub}

/-! ## Updates -/

/-- Every part but the power records and the budget. -/
abbrev otherParts : List Part :=
  [.time, .links, .lenses, .deferred, .shot, .store, .delivery, .rotation, .zones, .echo, .router, .uplink, .draws]

/-- A change of other parts alone. -/
theorem other {l : List Part} {b : Hub} (r : h.withinBudget) (e : h.onlyIn l b) (power : Part.power ∉ l := by decide)
    (budget : Part.budget ∉ l := by decide) : b.withinBudget := by
  have sum : b.reservedSum = h.reservedSum := reservedSum_congr fun q => by rw [e.power power]
  unfold Hub.withinBudget
  rw [sum, e.budget budget]
  exact r

theorem modPower (p : Port) (f : Power → Power) (r : h.withinBudget) (less : (f (h.power.get p)).reserve ≤ (h.power.get p).reserve) :
    (h.modPower p f).withinBudget := by
  have sum := reservedSum_modPower p f h
  unfold Hub.withinBudget at r ⊢
  rw [modPower_budget]
  omega

/-- A port's reserve rises by an amount that the budget admits (R35). -/
theorem modPower_admitted {n : Nat} (p : Port) (f : Power → Power) (fits : h.admits n = true)
    (most : (f (h.power.get p)).reserve ≤ (h.power.get p).reserve + n) : (h.modPower p f).withinBudget := by
  have sum := reservedSum_modPower p f h
  have room : h.reservedSum + n ≤ h.budget := of_decide_eq_true fits
  unfold Hub.withinBudget
  rw [modPower_budget]
  omega

theorem foldl {α : Type} (op : Hub → α → Hub) (keeps : ∀ h x, h.withinBudget → (op h x).withinBudget) (l : List α)
    (r : h.withinBudget) : (l.foldl op h).withinBudget := by
  induction l generalizing h with
  | nil => exact r
  | cons x l ih => exact ih (keeps h x r)

theorem elapse (n : Nat) (r : h.withinBudget) : (h.elapse n).withinBudget := by
  have sum : (h.elapse n).reservedSum = h.reservedSum := reservedSum_congr fun q => by rw [elapse_power]; rfl
  unfold Hub.withinBudget
  rw [sum]
  exact r

theorem modLink (p : Port) (f : Link → Link) (r : h.withinBudget) : (h.modLink p f).withinBudget := r
theorem modLens (p : Port) (f : Lens → Lens) (r : h.withinBudget) : (h.modLens p f).withinBudget := r
theorem modShot (f : Shot → Shot) (r : h.withinBudget) : (h.modShot f).withinBudget := r
theorem modTime (f : Timebase → Timebase) (r : h.withinBudget) : (h.modTime f).withinBudget := r
theorem setDeferred (l : List Port) (r : h.withinBudget) : (h.setDeferred l).withinBudget := r
theorem modRecord (p : Port) (f : LensRecord → LensRecord) (r : h.withinBudget) : (h.modRecord p f).withinBudget := r
theorem offerWord (p : Port) (w : DownWord) (r : h.withinBudget) : (h.offerWord p w).withinBudget := r.other (onlyIn_offerWord p w h)
theorem fire (src : Source) (d : List Byte) (r : h.withinBudget) : (h.fire src d).withinBudget := r.other (onlyIn_fire src d h)
theorem finish (r : h.withinBudget) : h.finish.withinBudget := r.other (onlyIn_finish h)

/-! ## Lens moves -/

/-- R36: a surge is held only where it fits. -/
theorem holdSurge {p : Port} (r : h.withinBudget) (fits : h.surgeFits p = true) : (h.holdSurge p).withinBudget := by
  have surge : (h.power.get p).setup.surge = 0 ∨ h.admits (h.power.get p).setup.surge = true := by
    simp only [Hub.surgeFits, Bool.and_eq_true, Bool.or_eq_true, beq_iff_eq] at fits
    exact fits.2
  have reserve : ({ h.power.get p with heldSurge := (h.power.get p).setup.surge } : Power).reserve =
    (h.power.get p).claim + (h.power.get p).setup.surge := rfl
  rcases surge with zero | admitted
  · refine r.modPower p _ ?_
    rw [reserve, zero]
    exact Nat.le_add_right _ _
  · refine modPower_admitted p _ admitted ?_
    rw [reserve]
    exact Nat.add_le_add_right (Nat.le_add_right _ _) _

theorem offerLensMove (p : Port) (r : h.withinBudget) : (h.offerLensMove p).withinBudget :=
  r.other (Hub.onlyIn_of_hide (l := [.links]) (by simp))

theorem startMove {p : Port} (r : h.withinBudget) (fits : h.surgeFits p = true) : (h.startMove p).withinBudget :=
  ((r.holdSurge fits).modRecord p _).offerLensMove p

theorem actMove (p : Port) (req : PerAxis Bool) (r : h.withinBudget) : (h.actMove p req).withinBudget := by
  have started (g : Hub) (k : g.withinBudget) : (if g.surgeFits p = true then g.startMove p
      else (g.modRecord p fun r => { r with moveState := .deferred }).setDeferred (g.deferred ++ [p])).withinBudget :=
    iteInduction k.startMove fun _ => k
  unfold Hub.actMove
  split
  · exact (r.modRecord p _).offerLensMove p
  · exact r
  · exact started _ (r.modRecord p _)
  · exact started _ (r.modRecord p _)
  · exact started _ (r.modRecord p _)

theorem issueMove (p : Port) (t : Targets) (r : h.withinBudget) : (h.issueMove p t).hub.withinBudget := by
  unfold Hub.issueMove
  split
  · exact r
  · split
    · exact r
    · exact (r.modRecord p _).actMove p _

theorem serveList (l : List Port) (r : h.withinBudget) : (Hub.serveList l h).withinBudget := by
  induction l generalizing h with
  | nil => exact r
  | cons p rest ih =>
    unfold Hub.serveList
    split
    · rename_i fits
      exact ih (startMove (r.setDeferred _) fits)
    · exact r

theorem serve (r : h.withinBudget) : h.serve.withinBudget := r.serveList _

theorem serveIfBelow (n : Nat) (r : h.withinBudget) : (h.serveIfBelow n).withinBudget := iteInduction (fun _ => r.serve) fun _ => r

theorem releaseSurge (p : Port) (r : h.withinBudget) : (h.releaseSurge p).withinBudget :=
  (r.modPower p _ (Nat.add_le_add_left (Nat.zero_le _) _)).serveIfBelow _

/-! ## Slots -/

theorem issueSlotMove (i : SlotIx) (r : h.withinBudget) : (h.issueSlotMove i).withinBudget := by
  unfold Hub.issueSlotMove
  split
  · exact r
  · dsimp only
    split
    · exact r
    · exact r.issueMove _ _

theorem issueNext (i : SlotIx) (n : BitVec 32) (r : h.withinBudget) : (h.issueNext i n).withinBudget := by
  unfold Hub.issueNext
  split
  · exact r.issueSlotMove _
  · exact r

theorem releaseFrame (t : FrameTag) (r : h.withinBudget) : (h.releaseFrame t).withinBudget := r.other (onlyIn_releaseFrame t h)

theorem closeFrame (t : FrameTag) (p : Port) (st : CloseStatus) (r : h.withinBudget) : (h.closeFrame t p st).withinBudget :=
  r.other (l := otherParts) (Hub.onlyIn_of_hide (by simp))

theorem skipSlot (i : SlotIx) (p : Port) (n : BitVec 32) (why : SkipReason) (r : h.withinBudget) :
    (h.skipSlot i p n why).withinBudget :=
  fire (h := h.recordOutcome i (.skipped why) n) _ _ r |>.issueNext i n

theorem endFlight (f : Flight) (why : SkipReason) (r : h.withinBudget) : (h.endFlight f why).withinBudget :=
  (releaseFrame (h := h.dropFlight f.tag) f.tag r).skipSlot _ _ _ _

theorem endFlights (p : Port) (why : SkipReason) (r : h.withinBudget) : (h.endFlights p why).withinBudget :=
  r.foldl _ (fun _ x k => k.endFlight x why) _

theorem triggerNotSent (t : FrameTag) (r : h.withinBudget) : (h.triggerNotSent t).withinBudget := by
  unfold Hub.triggerNotSent
  split
  · exact r.endFlight _ _
  · exact r

theorem reportUnsent (l : List FrameTag) (r : h.withinBudget) : (h.reportUnsent l).withinBudget :=
  r.foldl _ (fun _ t k => k.triggerNotSent t) _

theorem offerTrigger (f : Flight) (late : Bool) (r : h.withinBudget) : (h.offerTrigger f late).withinBudget := by
  have flagged : (if late = true then
      (h.modFlight f.tag fun x => { x with stage := .offered, late := late }).modFrame f.tag fun x => { x with lensLate := true }
      else h.modFlight f.tag fun x => { x with stage := .offered, late := late }).withinBudget := iteInduction (fun _ => r) fun _ => r
  unfold Hub.offerTrigger
  dsimp only
  split
  · exact (flagged.offerWord _ _).triggerNotSent _
  · exact flagged.offerWord _ _

theorem lensReady (p : Port) (r : h.withinBudget) : (h.lensReady p).withinBudget := r.foldl _ (fun _ x k => k.offerTrigger x false) _

theorem lensAbandoned (p : Port) (r : h.withinBudget) : (h.lensAbandoned p).withinBudget :=
  iteInduction (fun _ => r.lensReady p) fun _ => r.endFlights p _

theorem abandon (p : Port) (r : h.withinBudget) : (h.abandon p).withinBudget :=
  (((r.setDeferred _).modRecord p _).releaseSurge p).lensAbandoned p

theorem endMove (p : Port) (st : MoveState) (c : DoneCause) (r : h.withinBudget) : (h.endMove p st c).withinBudget := by
  unfold Hub.endMove
  dsimp only
  split
  · exact (((r.modRecord p _).releaseSurge p).lensReady p).fire _ _
  · exact ((r.modRecord p _).releaseSurge p).lensReady p

theorem takeLensStatus (p : Port) (w : LensStatusWord) (r : h.withinBudget) : (h.takeLensStatus p w).withinBudget := by
  unfold Hub.takeLensStatus
  dsimp only
  split
  · exact r
  · rename_i x _
    have taken : (if x.retargeted (x.take w) = true then (h.modRecord p fun _ => x.take w).offerLensMove p
        else h.modRecord p fun _ => x.take w).withinBudget :=
      iteInduction (fun _ => (r.modRecord p _).offerLensMove p) fun _ => r.modRecord p _
    split
    · exact r.modRecord p _
    · split
      · split
        · exact (taken.modRecord p _).endMove p _ _
        · exact taken.modRecord p _
      · exact taken.modRecord p _

theorem dropFilling (p : Port) (st : CloseStatus) (why : SkipReason) (r : h.withinBudget) : (h.dropFilling p st why).withinBudget := by
  unfold Hub.dropFilling
  dsimp only
  split
  · split
    · exact (r.closeFrame _ _ _).endFlights p _
    · exact (r.releaseFrame _).endFlights p _
  · exact r.endFlights p _

theorem openFrame (i : SlotIx) (x : SlotRecord) (r : h.withinBudget) : (h.openFrame i x).withinBudget :=
  r.other (l := otherParts) (Hub.onlyIn_of_hide (by simp))

theorem openSlot (i : SlotIx) (r : h.withinBudget) : (h.openSlot i).withinBudget := by
  unfold Hub.openSlot
  split
  · exact r
  · rename_i t _
    have opened (f : Shot → Shot) : ((h.modShot f).openFrame i (t.slots.get i)).withinBudget := openFrame (h := h.modShot f) i _ r
    dsimp only
    split
    · exact (r.modShot _).skipSlot _ _ _ _
    · split_ifs
      · exact ((opened _).modShot _).offerTrigger _ _
      · exact (opened _).modShot _
      · exact ((opened _).modShot _).offerTrigger _ _

theorem beginCycle (r : h.withinBudget) : h.beginCycle.withinBudget := by
  unfold Hub.beginCycle
  split
  · exact r
  · exact foldl _ (fun _ i k => k.openSlot i) _ (foldl _ (fun _ i k => k.issueSlotMove i) _ (r.modShot _))

theorem start (k : StartSource) (r : h.withinBudget) : (h.start k).withinBudget := by
  unfold Hub.start
  split
  · exact r.beginCycle
  · exact (r.modShot _).fire _ _
  · exact r

theorem encoderEdge (x y : Bool) (r : h.withinBudget) : (h.encoderEdge x y).withinBudget := by
  unfold Hub.encoderEdge
  dsimp only
  split
  · split
    · exact ((r.modTime _).modShot _).start _
    · exact r.modTime _
  · exact r.modTime _

theorem triggerLine (r : h.withinBudget) : h.triggerLine.withinBudget := iteInduction (fun _ => r.start _) fun _ => r

/-! ## Links -/

theorem linkChange (p : Port) (c : LinkCause) (r : h.withinBudget) : (h.linkChange p c).withinBudget := r.other (onlyIn_linkChange p c h)

theorem enterAcquire (p : Port) (rate : Rate) (c : LinkCause) (r : h.withinBudget) : (h.enterAcquire p rate c).withinBudget :=
  ((((r.modLink p (Link.toAcquire rate h.now)).offerWord p _).reportUnsent _).linkChange p _).abandon p

theorem linkStart (p : Port) (r : h.withinBudget) : (h.linkStart p).withinBudget := by
  unfold Hub.linkStart
  dsimp only
  split
  · exact ((r.modLink p _).offerWord p _).linkChange p _
  · exact (r.modLink p _).linkChange p _

theorem linkStop (p : Port) (r : h.withinBudget) : (h.linkStop p).withinBudget := by
  have down : (if (h.links.get p).state == .down then h
      else ((h.modLink p (Link.toDown h.now)).linkChange p .powerOff).reportUnsent (h.links.get p).unsent).withinBudget :=
    iteInduction (fun _ => r) fun _ => ((r.modLink p _).linkChange p _).reportUnsent _
  exact ((down.dropFilling p _ _).abandon p).modLens p _

theorem leaveOn (p : Port) (was : Bool) (r : h.withinBudget) : (h.leaveOn p was).withinBudget :=
  iteInduction (fun _ => r.linkStop p) fun _ => r

theorem dropOnLockLoss (p : Port) (r : h.withinBudget) : (h.dropOnLockLoss p).withinBudget :=
  (other (h := h.modLink p Link.loseLock) r (onlyIn_countDrop p _)).dropFilling p _ _

theorem lockLostUp (p : Port) (r : h.withinBudget) : (h.lockLostUp p).withinBudget := by
  rw [lockLostUp_eq]
  split
  · exact (r.dropOnLockLoss p).enterAcquire p _ _
  · exact ((r.dropOnLockLoss p).modLink p _).reportUnsent _

theorem takeHello (p : Port) (x : HelloWord) (r : h.withinBudget) : (h.takeHello p x).withinBudget := by
  unfold Hub.takeHello
  split
  · exact r
  · dsimp only
    split
    · exact ((r.modLink p _).abandon p |>.modLens p _).linkChange p _
    · exact ((r.modLink p _).linkChange p _).modLens p _

theorem wordEnd (p : Port) (c : OnCable) (r : h.withinBudget) : (h.wordEnd p c).withinBudget := by
  have sent : (match c.word.triggerTag? with
      | some t => if c.reported then h.modLink p fun l => { l with cable := none }
        else (h.modLink p fun l => { l with cable := none }).triggerSent t
      | none => h.modLink p fun l => { l with cable := none }).withinBudget := by
    refine r.other (l := otherParts) (Hub.onlyIn_of_hide ?_)
    split
    · split <;> simp
    · simp
  unfold Hub.wordEnd
  dsimp only
  split
  · exact (sent.modLink p _).triggerNotSent _
  · exact sent.modLink p _

/-! ## Power -/

theorem activate (src : Source) (r : h.withinBudget) : (h.activate src).withinBudget :=
  r.other (l := otherParts) (Hub.onlyIn_of_hide (by simp))

theorem lookForJob (r : h.withinBudget) : h.lookForJob.withinBudget := r.other (l := [.echo]) (Hub.onlyIn_of_hide (by simp))

theorem queueJob (p : Port) (k : EchoKind) (r : h.withinBudget) : (h.queueJob p k).withinBudget :=
  r.other (l := [.echo]) (Hub.onlyIn_of_hide (by simp))

theorem requestAuto (p : Port) (r : h.withinBudget) : (h.requestAuto p).withinBudget :=
  r.other (l := [.echo]) (Hub.onlyIn_of_hide (by simp))

/-- R28: a port that holds its claim trips. -/
theorem trip (p : Port) (c : TripCause) (held : (h.power.get p).holdsClaim = true) (r : h.withinBudget) : (h.trip p c).withinBudget := by
  have left := (r.modPower p (Power.trip c) (Power.reserve_trip c held)).leaveOn p ((h.power.get p).state == .on)
  have served := (left.activate (.ofPort p .powerFault)).serveIfBelow h.reservedSum
  unfold Hub.trip
  dsimp only
  split
  · exact served.requestAuto p
  · exact served

theorem sample (p : Port) (n : Nat) (r : h.withinBudget) : (h.sample p n).withinBudget := by
  have sampled := r.modPower p (Power.sampled n) (Power.reserve_sampled n _).le
  unfold Hub.sample
  dsimp only
  split
  · rename_i cause trips
    refine sampled.trip p cause ?_
    rw [modPower_power, PerPort.get_mod_same, Power.holdsClaim_sampled]
    exact Power.holdsClaim_of_sampleTrip trips
  · exact sampled

/-- R27: the inrush timer runs in PRECHARGE. -/
theorem inrushEnd (p : Port) (precharge : (h.power.get p).state = .precharge) (r : h.withinBudget) : (h.inrushEnd p).withinBudget := by
  have held : (h.power.get p).holdsClaim = true := by simp [Power.holdsClaim, precharge]
  refine iteInduction (fun _ => ?_) fun _ => r.trip p _ held
  exact (r.modPower p _ (Power.reserve_le_of_held held)).linkStart p

theorem retry (p : Port) (cooldown : (h.power.get p).state = .cooldown) (r : h.withinBudget) : (h.retry p).withinBudget :=
  r.modPower p _ (Power.reserve_le_of_held (by simp [Power.holdsClaim, cooldown]))

theorem turnOff (p : Port) (r : h.withinBudget) : (h.turnOff p).withinBudget :=
  ((r.modPower p Power.toOff (Power.reserve_toOff _)).leaveOn p _).serveIfBelow _

theorem enterHunt (p : Port) (restore : Bool) (r : h.withinBudget) : (h.enterHunt p restore).withinBudget :=
  ((r.modPower p (Power.toHunt restore) (Power.reserve_toHunt _ _)).leaveOn p _).serveIfBelow _

/-- R43: a port leaves HUNT with the claim it kept. -/
theorem endHunt (p : Port) (r : h.withinBudget) : (h.endHunt p).withinBudget := by
  refine r.modPower p _ ?_
  split_ifs with out restore
  · exact le_rfl
  · exact Power.reserve_le_of_held (by simp_all [Power.holdsClaim])
  · exact Power.reserve_le_of_none rfl le_rfl

theorem autoResult (p : Port) (located : Bool) (r : h.withinBudget) : (h.autoResult p located).withinBudget := by
  unfold Hub.autoResult
  dsimp only
  split_ifs with out
  · exact r
  · exact (r.modPower p _ (Power.reserve_le_of_none rfl le_rfl)).serveIfBelow _
  · exact r.retry p (by simpa using out)
  · exact r

theorem completeJob (j : EchoJob) (r : h.withinBudget) : (h.completeJob j).withinBudget := by
  have stored : (((if j.kind = .learn then h.modEchoPort j.port fun e => { e with baseline := some j.learned } else h).storeResult j.port
      (j.result h.now)).modEcho fun e => { e with sampler := none }).withinBudget := by
    refine r.other (l := [.echo]) (Hub.onlyIn_of_hide ?_)
    split <;> simp
  unfold Hub.completeJob
  dsimp only
  refine lookForJob (fire _ _ ?_)
  split
  · exact stored.endHunt _
  · exact stored.autoResult _ _
  · exact stored

/-! ## Resets -/

theorem portReset (p : Port) (r : h.withinBudget) : (h.portReset p).withinBudget := by
  have store : (h.portResetStore p).withinBudget := by
    refine r.other (l := otherParts) (Hub.onlyIn_of_hide ?_)
    unfold Hub.portResetStore
    dsimp only
    split <;> simp
  have lens : (((h.portResetStore p).endFlights p .power).portResetLens p).withinBudget := ((store.endFlights p .power).abandon p).modLens p _
  have delivery : ((((h.portResetStore p).endFlights p .power).portResetLens p).portResetDelivery p).withinBudget :=
    foldl _ (fun _ t k => k.releaseFrame t) _ (other (l := [.delivery]) lens (Hub.onlyIn_of_hide (by simp)))
  have power := (delivery.modPower p Power.portReset (Power.reserve_portReset _)).serveIfBelow
    ((((h.portResetStore p).endFlights p .power).portResetLens p).portResetDelivery p).reservedSum
  have linkEcho (g : Hub) : g.onlyIn otherParts ((g.portResetLink p).portResetEcho p) := by
    refine Hub.onlyIn_of_hide ?_
    unfold Hub.portResetEcho Hub.portResetLink
    dsimp only
    split <;> (try simp) <;> split <;> simp
  exact power.other (linkEcho _)

theorem hubResetEchoPort (p : Port) (r : h.withinBudget) : (h.hubResetEchoPort p).withinBudget := by
  unfold Hub.hubResetEchoPort
  split
  · exact r
  · dsimp only
    split
    · exact autoResult p false r
    · exact r

theorem hubResetPower (r : h.withinBudget) : h.hubResetPower.withinBudget := by
  refine le_trans ?_ r
  simp only [reservedSum_eq]
  refine List.sum_le_sum fun q _ => ?_
  rw [Hub.hubResetPower, PerPort.get_map]
  exact Power.reserve_hubReset _

theorem hubResetLens (r : h.withinBudget) : h.hubResetLens.withinBudget :=
  foldl (h := h.setDeferred []) _ (fun _ p k => k.abandon p) allPorts r

theorem hubResetEcho (r : h.withinBudget) : h.hubResetEcho.withinBudget := r.foldl _ (fun _ p k => k.hubResetEchoPort p) allPorts

theorem hubReset (r : h.withinBudget) : h.hubReset.withinBudget := by
  have shot : ((h.modRouter fun _ => {}).hubResetShot).withinBudget := r.other (l := [.router, .shot]) (Hub.onlyIn_of_hide rfl)
  have frames (g : Hub) : g.onlyIn [.store, .delivery, .rotation] g.hubResetStore.hubResetDelivery := Hub.onlyIn_of_hide rfl
  have words (g : Hub) : g.onlyIn [.links, .uplink] (g.hubResetLink.modUplink Uplink.hubReset) := Hub.onlyIn_of_hide rfl
  exact ((shot.hubResetLens.other (frames _)).hubResetEcho.hubResetPower).other (words _)

end Hub.withinBudget

theorem withinBudget_pinReset (h : Hub) : h.pinReset.withinBudget := by
  have sum : h.pinReset.reservedSum = Hub.reset.reservedSum := rfl
  unfold Hub.withinBudget
  rw [sum]
  exact Nat.zero_le _

end Sys2Proof.Machine
end

