-- ==== Sys2Proof/Proofs/BudgetKept.lean ====
section
/-! PROOF. O5, assembled: every command and event keeps the reserved sum within the cell budget. -/

namespace Sys2Proof.Machine

namespace Hub.withinBudget

variable {h : Hub}

/-! ## How a command is taken -/

theorem discard (c : DiscardCause) (r : h.withinBudget) : (h.discard c).withinBudget :=
  r.other (l := otherParts) (Hub.onlyIn_of_hide (by simp))

theorem takeCommand {kind : Nat} {c : Cmd} {ok : Bool} {body : Hub → Answer} (r : h.withinBudget) (k : (body h).hub.withinBudget) :
    (h.takeCommand kind c ok body).withinBudget := by
  have answered : (if ok then body h else refuse .badLength h).hub.withinBudget := by
    split
    · exact k
    · exact r
  unfold Hub.takeCommand
  dsimp only
  split
  · exact r
  · split
    · exact (r.discard _).finish
    · exact (answered.other (l := otherParts) (Hub.onlyIn_of_hide (by simp))).finish

theorem withPort {c : Cmd} {body : Port → Hub → Answer} (r : h.withinBudget) (k : ∀ p, (body p h).hub.withinBudget) :
    (withPort c body h).hub.withinBudget := by
  unfold Machine.withPort
  split
  · exact k _
  · exact r

theorem withFlags {ok : Bool} {body : Hub → Answer} (r : h.withinBudget) (k : (body h).hub.withinBudget) :
    (withFlags ok body h).hub.withinBudget := by
  unfold Machine.withFlags
  split
  · exact k
  · exact r

theorem withPreset {n : Nat} {body : Fin 16 → Hub → Answer} (r : h.withinBudget) (k : ∀ i, (body i h).hub.withinBudget) :
    (withPreset n body h).hub.withinBudget := by
  unfold Machine.withPreset
  split
  · exact k _
  · exact r

theorem withSource {c : Cmd} {n : Nat} {body : Source → Hub → Answer} (r : h.withinBudget) (k : ∀ src, (body src h).hub.withinBudget) :
    (withSource c n body h).hub.withinBudget := by
  unfold Machine.withSource
  split
  · exact r.withPort fun p => k _
  · split
    · exact k _
    · exact r
  · exact r

/-! ## Camera ports and power (01, 02) -/

theorem linkRetrain (p : Port) (r : h.withinBudget) : (linkRetrain p h).hub.withinBudget := by
  unfold Machine.linkRetrain
  dsimp only
  split
  · exact r
  · exact ((r.modLink p _).enterAcquire p _ _).dropFilling p _ _
  · exact r.enterAcquire p _ _

/-- R37: the claim is taken where the budget admits it. -/
theorem powerOn (p : Port) (r : h.withinBudget) : (powerOn p h).hub.withinBudget := by
  have started (fits : h.admits (h.power.get p).setup.limit = true) : (h.modPower p Power.startUp).withinBudget := by
    refine modPower_admitted p _ fits ?_
    have reserve : (Power.startUp (h.power.get p)).reserve = (h.power.get p).setup.limit + (h.power.get p).heldSurge := rfl
    rw [reserve, Power.reserve]
    omega
  unfold Machine.powerOn
  dsimp only
  split
  · exact r
  · exact r
  · exact r
  · exact r
  all_goals
    split_ifs with busy fits
    · exact r
    · exact started fits
    · exact r

theorem powerOff (p : Port) (r : h.withinBudget) : (powerOff p h).hub.withinBudget := by
  unfold Machine.powerOff
  split
  · exact r
  · rename_i hunting
    refine (r.modPower p _ (Power.reserve_le_of_none ?_ le_rfl)).serveIfBelow _
    simp [Power.holdsClaim, hunting]
  · exact r.turnOff p

/-- R39: a limit raised under a claim is taken where the budget admits the difference. -/
theorem powerSetup (c : Cmd) (p : Port) (r : h.withinBudget) : (powerSetup c p h).hub.withinBudget := by
  unfold Machine.powerSetup
  dsimp only
  split
  · exact r
  · rename_i room
    generalize (powerSetupSent c.payload).bounded = new at room ⊢
    have held : ({ h.power.get p with setup := new } : Power).holdsClaim = (h.power.get p).holdsClaim := rfl
    refine serveIfBelow _ ?_
    by_cases claim : (h.power.get p).holdsClaim = true
    · by_cases raised : (h.power.get p).setup.limit < new.limit
      · have fits : h.admits (new.limit - (h.power.get p).setup.limit) = true := by simpa [claim, raised] using room
        refine modPower_admitted p _ fits ?_
        rw [Power.reserve, Power.reserve, Power.claim_of_held claim, Power.claim_of_held (held.trans claim)]
        dsimp only
        omega
      · refine r.modPower p _ (Power.reserve_le_of_claim ?_ rfl)
        rw [Power.claim_of_held claim, Power.claim_of_held (held.trans claim)]
        exact Nat.le_of_not_lt raised
    · exact r.modPower p _ (Power.reserve_le_of_none (by rw [held]; simpa using claim) le_rfl)

/-- R40: the budget is not set below the reserved sum. -/
theorem budgetSet (c : Cmd) (r : h.withinBudget) : (budgetSet c h).hub.withinBudget := by
  unfold Machine.budgetSet
  dsimp only
  split
  · exact r
  · rename_i above
    have set : (h.setBudget (min 9000 (u16At c.payload 0))).withinBudget := Nat.le_of_not_lt above
    dsimp only
    split
    · exact set.serve
    · exact set

/-! ## Lenses and the shot cycle (03, 04) -/

theorem presetGo (p : Port) (i : Fin 16) (r : h.withinBudget) : (presetGo p i h).hub.withinBudget := by
  unfold Machine.presetGo
  split
  · exact r
  · exact r.issueMove p _

theorem lensPush (p : Port) (r : h.withinBudget) : (lensPush p h).hub.withinBudget := by
  unfold Machine.lensPush
  dsimp only
  split
  · exact r
  · split
    · exact r
    · exact r.modLens p _

theorem lensPop (p : Port) (r : h.withinBudget) : (lensPop p h).hub.withinBudget := by
  unfold Machine.lensPop
  split
  · exact r
  · split
    · exact r
    · exact (r.modLens p _).issueMove p _

theorem lensMove (c : Cmd) (p : Port) (r : h.withinBudget) : (lensMove c p h).hub.withinBudget := by
  unfold Machine.lensMove
  split
  · exact r
  · exact r.issueMove p _

theorem lensStatus (p : Port) (r : h.withinBudget) : (Machine.lensStatus p h).hub.withinBudget := by
  unfold Machine.lensStatus
  dsimp only
  split <;> exact r

theorem slotWrite (c : Cmd) (r : h.withinBudget) : (slotWrite c h).hub.withinBudget := by
  unfold Machine.slotWrite writeSlot
  dsimp only
  split_ifs <;> exact r

theorem tableHeader (c : Cmd) (r : h.withinBudget) : (tableHeader c h).hub.withinBudget := by
  unfold Machine.tableHeader
  split <;> exact r

theorem tableCommit (r : h.withinBudget) : (tableCommit h).hub.withinBudget := by
  unfold Machine.tableCommit
  split
  · exact r
  · exact r.modShot _

theorem tableRead (c : Cmd) (r : h.withinBudget) : (tableRead c h).hub.withinBudget := by
  unfold Machine.tableRead
  split <;> exact r

theorem cycleRun (r : h.withinBudget) : (cycleRun h).hub.withinBudget := by
  unfold Machine.cycleRun
  split <;> exact r

theorem cycleFire (r : h.withinBudget) : (cycleFire h).hub.withinBudget := by
  unfold Machine.cycleFire
  split
  · exact r.start _
  · exact r.start _
  · exact r

theorem cycleStop (c : Cmd) (r : h.withinBudget) : (cycleStop c h).hub.withinBudget := by
  have stopped : h.stopNow.withinBudget := (foldl _ (fun _ x k => k.endFlight x .stopped) _ (r.modShot Shot.halt)).modShot _
  unfold Machine.cycleStop
  split
  · exact r
  · split
    · exact r
    · exact r
    · split
      · exact r
      · exact stopped

theorem cycleStatus (c : Cmd) (r : h.withinBudget) : (Machine.cycleStatus c h).hub.withinBudget := by
  have drawn : h.cycleStatus.1.withinBudget := by
    unfold Hub.cycleStatus
    dsimp only
    split <;> split <;> exact r
  unfold Machine.cycleStatus
  dsimp only
  split
  · exact drawn.modShot _
  · exact drawn

/-! ## Frames, zones, echoes and routing (05 to 10) -/

theorem storeSetup (c : Cmd) (r : h.withinBudget) : (storeSetup c h).hub.withinBudget :=
  r.other (l := otherParts) (Hub.onlyIn_of_hide (by simp [Machine.storeSetup]))

theorem storeStatus (c : Cmd) (r : h.withinBudget) : (storeStatus c h).hub.withinBudget := by
  unfold Machine.storeStatus
  dsimp only
  split <;> exact r

theorem deliveryStatus (c : Cmd) (r : h.withinBudget) : (Machine.deliveryStatus c h).hub.withinBudget := by
  unfold Machine.deliveryStatus
  dsimp only
  split <;> exact r

theorem pose (c : Cmd) (r : h.withinBudget) : (pose c h).hub.withinBudget := by
  unfold Machine.pose
  dsimp only
  split
  · exact r
  · split
    · exact r
    · dsimp only [Hub.applyPose]
      exact r.foldl (fun g (q : Port × Zone) => g.modZone q.1 _) (fun _ _ k => k) _

theorem zoneClear (c : Cmd) (p : Port) (r : h.withinBudget) : (zoneClear c p h).hub.withinBudget := by
  unfold Machine.zoneClear
  dsimp only
  split_ifs <;> exact r

theorem echoSetup (c : Cmd) (p : Port) (r : h.withinBudget) : (echoSetup c p h).hub.withinBudget := by
  unfold Machine.echoSetup
  dsimp only
  split <;> exact r

theorem cableMapWrite (c : Cmd) (p : Port) (r : h.withinBudget) : (cableMapWrite c p h).hub.withinBudget := by
  unfold Machine.cableMapWrite
  dsimp only
  split <;> exact r

theorem baselineLearn (p : Port) (r : h.withinBudget) : (baselineLearn p h).hub.withinBudget := by
  have queued := r.queueJob p .learn
  unfold Machine.baselineLearn
  split
  · split
    · exact r
    · exact queued
  · split
    · exact r
    · exact queued
  · exact r

theorem baselineWrite (c : Cmd) (p : Port) (r : h.withinBudget) : (baselineWrite c p h).hub.withinBudget := by
  unfold Machine.baselineWrite
  dsimp only
  split_ifs <;> exact r

theorem baselineRead (p : Port) (r : h.withinBudget) : (baselineRead p h).hub.withinBudget := by
  unfold Machine.baselineRead
  split <;> exact r

theorem hunt (c : Cmd) (p : Port) (r : h.withinBudget) : (hunt c p h).hub.withinBudget := by
  unfold Machine.hunt
  dsimp only
  split_ifs
  · exact r
  · exact r
  · exact r
  · exact (r.enterHunt p _).queueJob p _

theorem uplinkStatus (c : Cmd) (r : h.withinBudget) : (uplinkStatus c h).hub.withinBudget := by
  unfold Machine.uplinkStatus
  dsimp only
  split <;> exact r

theorem routeSet (c : Cmd) (src : Source) (r : h.withinBudget) : (routeSet c src h).hub.withinBudget := by
  have set : h.onlyIn reportParts ((h.setMask src (flagAt c.payload 1)).setTag src (BitVec.ofNat 8 (u16At c.payload 2))) := by
    refine Hub.onlyIn_of_hide ?_
    unfold Hub.setTag Hub.setMask
    dsimp only
    split_ifs <;> simp
  unfold Machine.routeSet
  dsimp only
  split
  · exact r
  · exact r.other set

theorem eventAck (c : Cmd) (r : h.withinBudget) : (eventAck c h).hub.withinBudget := by
  have acked (src : Source) (g : Hub) (k : g.withinBudget) : (g.ackEntry src).withinBudget :=
    iteInduction (fun _ => other (h := g.modEntry src fun e => { e with awaiting := false }) k (Hub.repliedTo_offerReport src true _).1)
      fun _ => k
  unfold Machine.eventAck
  dsimp only
  split
  · exact r
  · exact r.foldl _ (fun g src k => acked src g k) _

end Hub.withinBudget

/-! ## The commands, by host kind -/

/-- An outcome leaves the reserved sum within the cell budget. -/
structure keepsBudget (r : Result) : Prop where
  within : ∀ t, r = .next t → t.toHub.withinBudget

theorem keepsBudget_next {s : State} {h : Hub} (k : h.withinBudget) : keepsBudget (s.next h) where
  within t run := by
    rw [(State.next_eq.1 run).1]
    exact k

theorem keepsBudget_command {kind : Nat} {c : Cmd} {ok : Bool} {body : Hub → Answer} {s : State} (r : s.toHub.withinBudget)
    (k : (body s.toHub).hub.withinBudget) : keepsBudget (s.next (s.toHub.takeCommand kind c ok body)) := keepsBudget_next (r.takeCommand k)

/-- Every command keeps the reserved sum within the cell budget. -/
theorem keepsBudget_hostCommand {i : Instr} {s : State} (host : (hostCommand i).isSome = true) (r : s.toHub.withinBudget) :
    keepsBudget (exec i s) := by
  cases i with
  | linkRetrain c => exact keepsBudget_command r (r.withPort fun p => r.linkRetrain p)
  | linkSetup c => exact keepsBudget_command r (r.withPort fun p => r.modLink p _)
  | portInfo c => exact keepsBudget_command r (r.withPort fun _ => r)
  | portReset c => exact keepsBudget_command r (r.withPort fun p => r.portReset p)
  | powerOn c => exact keepsBudget_command r (r.withPort fun p => r.powerOn p)
  | powerOff c => exact keepsBudget_command r (r.withPort fun p => r.powerOff p)
  | powerSetup c => exact keepsBudget_command r (r.withPort fun p => r.withFlags (r.powerSetup c p))
  | budgetSet c => exact keepsBudget_command r (r.budgetSet c)
  | powerStatus c => exact keepsBudget_command r (r.withPort fun p => r.modPower p _ le_rfl)
  | presetWrite c => exact keepsBudget_command r (r.withPort fun p => r.withFlags (r.withPreset fun _ => r.modLens p _))
  | presetRead c => exact keepsBudget_command r (r.withPort fun _ => r.withPreset fun _ => r)
  | presetGo c => exact keepsBudget_command r (r.withPort fun p => r.withPreset fun k => r.presetGo p k)
  | lensPush c => exact keepsBudget_command r (r.withPort fun p => r.lensPush p)
  | lensPop c => exact keepsBudget_command r (r.withPort fun p => r.lensPop p)
  | lensMove c => exact keepsBudget_command r (r.withPort fun p => r.withFlags (r.lensMove c p))
  | lensSetup c => exact keepsBudget_command r (r.withPort fun p => r.modLens p _)
  | lensStatus c => exact keepsBudget_command r (r.withPort fun p => r.lensStatus p)
  | slotWrite c => exact keepsBudget_command r (r.withFlags (r.slotWrite c))
  | tableHeader c => exact keepsBudget_command r (r.tableHeader c)
  | tableCommit c => exact keepsBudget_command r r.tableCommit
  | tableRead c => exact keepsBudget_command r (r.tableRead c)
  | cycleRun c => exact keepsBudget_command r r.cycleRun
  | cycleFire c => exact keepsBudget_command r r.cycleFire
  | cycleStop c => exact keepsBudget_command r (r.cycleStop c)
  | cycleStatus c => exact keepsBudget_command r (r.withFlags (r.cycleStatus c))
  | timeSet c => exact keepsBudget_command r r
  | timeRead c => exact keepsBudget_command r r
  | storeSetup c => exact keepsBudget_command r (r.storeSetup c)
  | storeStatus c => exact keepsBudget_command r (r.withFlags (r.storeStatus c))
  | imageHold c => exact keepsBudget_command r (r.withPort fun _ => r)
  | imageResume c => exact keepsBudget_command r (r.withPort fun _ => r)
  | deliveryStatus c => exact keepsBudget_command r (r.withFlags (r.deliveryStatus c))
  | pose c => exact keepsBudget_command r (r.pose c)
  | zoneSetup c => exact keepsBudget_command r (r.withPort fun _ => r)
  | zoneRead c => exact keepsBudget_command r (r.withPort fun _ => r)
  | zoneClear c => exact keepsBudget_command r (r.withPort fun p => r.zoneClear c p)
  | echoSetup c => exact keepsBudget_command r (r.withPort fun p => r.echoSetup c p)
  | cableMapWrite c => exact keepsBudget_command r (r.withPort fun p => r.cableMapWrite c p)
  | cableMapRead c => exact keepsBudget_command r (r.withPort fun _ => r)
  | baselineLearn c => exact keepsBudget_command r (r.withPort fun p => r.baselineLearn p)
  | baselineWrite c => exact keepsBudget_command r (r.withPort fun p => r.baselineWrite c p)
  | baselineRead c => exact keepsBudget_command r (r.withPort fun p => r.baselineRead p)
  | echoResult c => exact keepsBudget_command r (r.withPort fun _ => r.withFlags r)
  | hunt c => exact keepsBudget_command r (r.withPort fun p => r.withFlags (r.hunt c p))
  | hubReset c => exact keepsBudget_command r r.hubReset
  | identify c => exact keepsBudget_command r r
  | uplinkStatus c => exact keepsBudget_command r (r.withFlags (r.uplinkStatus c))
  | routeSet c => exact keepsBudget_command r (r.withFlags (r.withSource fun src => r.routeSet c src))
  | routeRead c => exact keepsBudget_command r (r.withSource fun _ => r)
  | eventAck c => exact keepsBudget_command r (r.eventAck c)
  | _ => cases host

theorem keepsBudget_takeByKind {s : State} (kind : Byte) (c : Cmd) (r : s.toHub.withinBudget) : keepsBudget (takeByKind kind c s) := by
  rcases takeByKind_eq kind c s with refused | ⟨i, host, taken⟩
  · rw [refused]
    exact keepsBudget_command r r
  · rw [taken]
    exact keepsBudget_hostCommand host r

theorem keepsBudget_recordDiscard {s : State} (raw : List Byte) (r : s.toHub.withinBudget) : keepsBudget (execRecordDiscard raw s) := by
  unfold execRecordDiscard
  split_ifs
  · exact keepsBudget_next r
  · exact keepsBudget_next (r.discard _).finish
  · split
    · exact keepsBudget_next (r.discard _).finish
    · exact keepsBudget_takeByKind _ _ r

/-! ## The events -/

namespace Hub.withinBudget

variable {h : Hub}

theorem linkUp (r : h.withinBudget) : h.linkUp.withinBudget :=
  finish (foldl (h := h.modUplink _) _ (fun _ _ k => k.other (l := otherParts) (Hub.onlyIn_of_hide (by simp))) _ r)

theorem linkDown (r : h.withinBudget) : h.linkDown.withinBudget := by
  have recordLost (g : Hub) (x : CtrlRec) (k : g.withinBudget) : (g.recordLost x).withinBudget := by
    cases x with
    | reply _ => exact k
    | report src n _ => exact k.other (l := otherParts) (b := g.reportLost src n) (Hub.onlyIn_of_hide (by simp))
  have loseSending (g : Hub) (p : Port) (k : g.withinBudget) : (g.loseSending p).withinBudget :=
    k.other (l := otherParts) (Hub.onlyIn_of_hide (by simp))
  exact foldl _ loseSending _ (foldl (h := h.modUplink _) _ recordLost _ r)

theorem imageSent (frame : Option FrameTag) (closing : Option DeliveryStatus) (r : h.withinBudget) :
    (h.imageSent frame closing).withinBudget := by
  unfold Hub.imageSent
  dsimp only
  refine finish (r.other (l := otherParts) (Hub.onlyIn_of_hide ?_))
  split
  · simp
  · split <;> simp

theorem lockGained (p : Port) (r : h.withinBudget) : (h.lockGained p).withinBudget := by
  unfold Hub.lockGained
  split
  · exact r
  · exact (r.modLink p _).finish
  · exact r

theorem lockLost (p : Port) (r : h.withinBudget) : (h.lockLost p).withinBudget := by
  unfold Hub.lockLost
  split
  · exact r
  · exact (r.lockLostUp p).finish
  · exact r

theorem acquireFailed (p : Port) (r : h.withinBudget) : (h.acquireFailed p).withinBudget := ((r.modLink p _).linkChange p _).abandon p

theorem hello (p : Port) (x : HelloWord) (r : h.withinBudget) : (h.hello p x).withinBudget :=
  iteInduction (fun _ => (r.takeHello p x).finish) fun _ => r

theorem line (p : Port) (x : LineWord) (r : h.withinBudget) : (h.line p x).withinBudget :=
  iteInduction (fun _ => (r.other (l := otherParts) (Hub.onlyIn_of_hide (by simp))).finish) fun _ => r

theorem eof (p : Port) (x : EofWord) (r : h.withinBudget) : (h.eof p x).withinBudget :=
  iteInduction (fun _ => (r.other (l := otherParts) (Hub.onlyIn_of_hide (by simp))).finish) fun _ => r

theorem lensWord (p : Port) (x : LensStatusWord) (r : h.withinBudget) : (h.lensWord p x).withinBudget :=
  iteInduction (fun _ => (r.takeLensStatus p x).finish) fun _ => r

theorem rawWord (p : Port) (raw : List Byte) (r : h.withinBudget) : (h.rawWord p raw).withinBudget := by
  unfold Hub.rawWord
  split
  · split <;> exact r
  · exact r.hello p _
  · exact r.line p _
  · exact r.eof p _
  · exact r.lensWord p _

theorem cooldownEnd (p : Port) (cooldown : (h.power.get p).state = .cooldown) (r : h.withinBudget) : (h.cooldownEnd p).withinBudget :=
  iteInduction (fun _ => r.modPower p _ le_rfl) fun _ => r.retry p cooldown

end Hub.withinBudget

section Events

variable {s : State}

theorem keepsBudget_acquireTimeout (p : Port) (r : s.toHub.withinBudget) : keepsBudget (execAcquireTimeout p s) := by
  unfold execAcquireTimeout
  split
  · exact keepsBudget_next ((r.elapse _).acquireFailed p).finish
  · exact keepsBudget_next r

theorem keepsBudget_relockExpire (p : Port) (r : s.toHub.withinBudget) : keepsBudget (execRelockExpire p s) := by
  unfold execRelockExpire
  split
  · exact keepsBudget_next ((r.elapse _).enterAcquire p _ _).finish
  · exact keepsBudget_next r

theorem keepsBudget_uplinkUp (r : s.toHub.withinBudget) : keepsBudget (execUplinkUp s) := by
  unfold execUplinkUp
  split
  · exact keepsBudget_next r
  · exact keepsBudget_next r.linkUp

theorem keepsBudget_uplinkDown (r : s.toHub.withinBudget) : keepsBudget (execUplinkDown s) := by
  unfold execUplinkDown
  split
  · exact keepsBudget_next r.linkDown
  · exact keepsBudget_next r

theorem keepsBudget_controlRecordSent (r : s.toHub.withinBudget) : keepsBudget (execControlRecordSent s) := by
  unfold execControlRecordSent
  split
  · exact keepsBudget_next (Hub.withinBudget.finish (h := s.toHub.modUplink _) r)
  · exact keepsBudget_next r

theorem keepsBudget_imageRecordSent (r : s.toHub.withinBudget) : keepsBudget (execImageRecordSent s) := by
  unfold execImageRecordSent
  split
  · exact keepsBudget_next (r.imageSent _ _)
  · exact keepsBudget_next r

theorem keepsBudget_downstreamWordEnd (p : Port) (r : s.toHub.withinBudget) : keepsBudget (execDownstreamWordEnd p s) := by
  unfold execDownstreamWordEnd
  split
  · exact keepsBudget_next ((r.elapse _).wordEnd p _).finish
  · exact keepsBudget_next r

theorem keepsBudget_inrushExpire (p : Port) (r : s.toHub.withinBudget) : keepsBudget (execInrushExpire p s) := by
  unfold execInrushExpire
  split
  · rename_i precharge _
    refine keepsBudget_next ((r.elapse _).inrushEnd p ?_).finish
    rw [elapse_power]
    exact precharge
  · exact keepsBudget_next r

theorem keepsBudget_cooldownExpire (p : Port) (r : s.toHub.withinBudget) : keepsBudget (execCooldownExpire p s) := by
  unfold execCooldownExpire
  split
  · rename_i cooldown _
    refine keepsBudget_next ((r.elapse _).cooldownEnd p ?_).finish
    rw [elapse_power]
    exact cooldown
  · exact keepsBudget_next r

theorem keepsBudget_onTimerExpire (p : Port) (r : s.toHub.withinBudget) : keepsBudget (execOnTimerExpire p s) := by
  unfold execOnTimerExpire
  split
  · exact keepsBudget_next ((r.elapse _).modPower p _ le_rfl)
  · exact keepsBudget_next r

theorem keepsBudget_dischargeExpire (p : Port) (r : s.toHub.withinBudget) : keepsBudget (execDischargeExpire p s) := by
  unfold execDischargeExpire
  split
  · exact keepsBudget_next ((r.elapse _).modPower p _ le_rfl).lookForJob
  · exact keepsBudget_next r

theorem keepsBudget_moveTimeout (p : Port) (r : s.toHub.withinBudget) : keepsBudget (execMoveTimeout p s) := by
  unfold execMoveTimeout
  split
  · split
    · exact keepsBudget_next ((r.elapse _).endMove p _ _).finish
    · exact keepsBudget_next r
  · exact keepsBudget_next r

theorem keepsBudget_spanExpire (r : s.toHub.withinBudget) : keepsBudget (execSpanExpire s) := by
  unfold execSpanExpire
  split
  · exact keepsBudget_next ((r.elapse _).modShot _).finish
  · exact keepsBudget_next r

theorem keepsBudget_slotOpen (k : SlotIx) (r : s.toHub.withinBudget) : keepsBudget (execSlotOpen k s) := by
  unfold execSlotOpen
  split
  · split
    · exact keepsBudget_next r
    · exact keepsBudget_next ((r.elapse _).openSlot k).finish
  · exact keepsBudget_next r

theorem keepsBudget_guardExpire (k : SlotIx) (r : s.toHub.withinBudget) : keepsBudget (execGuardExpire k s) := by
  unfold execGuardExpire
  split
  · exact keepsBudget_next ((r.elapse _).offerTrigger _ true).finish
  · exact keepsBudget_next r

theorem keepsBudget_exposureEnd (k : SlotIx) (r : s.toHub.withinBudget) : keepsBudget (execExposureEnd k s) := by
  unfold execExposureEnd
  split
  · exact keepsBudget_next (((r.elapse _).modShot _).issueNext k _).finish
  · exact keepsBudget_next r

theorem keepsBudget_frameWindowExpire (p : Port) (r : s.toHub.withinBudget) : keepsBudget (execFrameWindowExpire p s) := by
  unfold execFrameWindowExpire
  split
  · split
    · exact keepsBudget_next ((r.elapse _).closeFrame _ p .timeout).finish
    · exact keepsBudget_next r
  · exact keepsBudget_next r

theorem keepsBudget_echoShot (samples : Vector (BitVec 12) 256) (r : s.toHub.withinBudget) : keepsBudget (execEchoShot samples s) := by
  unfold execEchoShot
  split
  · split
    · exact keepsBudget_next (r.elapse _)
    · exact keepsBudget_next r
  · exact keepsBudget_next r

theorem keepsBudget_echoJobComplete (r : s.toHub.withinBudget) : keepsBudget (execEchoJobComplete s) := by
  unfold execEchoJobComplete
  split
  · split
    · exact keepsBudget_next ((r.elapse _).completeJob _).finish
    · exact keepsBudget_next r
  · exact keepsBudget_next r

end Events

/-! ## Every instruction -/

/-- R35: every instruction keeps the reserved sum within the cell budget. -/
theorem keepsBudget_exec (i : Instr) {s : State} (r : s.toHub.withinBudget) : keepsBudget (exec i s) := by
  cases i with
  | uplinkUp => exact keepsBudget_uplinkUp r
  | uplinkDown => exact keepsBudget_uplinkDown r
  | controlRecordSent => exact keepsBudget_controlRecordSent r
  | imageRecordSent => exact keepsBudget_imageRecordSent r
  | encoderEdge x y => exact keepsBudget_next (r.encoderEdge x y).finish
  | triggerLineEdge => exact keepsBudget_next r.triggerLine.finish
  | currentSample p code => exact keepsBudget_next (r.sample p _).finish
  | inrushExpire p => exact keepsBudget_inrushExpire p r
  | cooldownExpire p => exact keepsBudget_cooldownExpire p r
  | onTimerExpire p => exact keepsBudget_onTimerExpire p r
  | dischargeExpire p => exact keepsBudget_dischargeExpire p r
  | lockGained p => exact keepsBudget_next (r.lockGained p)
  | lockLost p => exact keepsBudget_next (r.lockLost p)
  | acquireTimeout p => exact keepsBudget_acquireTimeout p r
  | relockExpire p => exact keepsBudget_relockExpire p r
  | helloWord p x => exact keepsBudget_next (r.hello p x)
  | lineWord p x => exact keepsBudget_next (r.line p x)
  | eofWord p x => exact keepsBudget_next (r.eof p x)
  | lensStatusWord p x => exact keepsBudget_next (r.lensWord p x)
  | undecodableWord p raw => exact keepsBudget_next (r.rawWord p raw)
  | downstreamWordEnd p => exact keepsBudget_downstreamWordEnd p r
  | moveTimeout p => exact keepsBudget_moveTimeout p r
  | spanExpire => exact keepsBudget_spanExpire r
  | slotOpen k => exact keepsBudget_slotOpen k r
  | guardExpire k => exact keepsBudget_guardExpire k r
  | exposureEnd k => exact keepsBudget_exposureEnd k r
  | frameWindowExpire p => exact keepsBudget_frameWindowExpire p r
  | echoShot samples => exact keepsBudget_echoShot samples r
  | echoJobComplete => exact keepsBudget_echoJobComplete r
  | pinReset => exact keepsBudget_next (withinBudget_pinReset _)
  | badKindRecord kind c => exact keepsBudget_takeByKind kind c r
  | recordDiscard raw => exact keepsBudget_recordDiscard raw r
  | _ => exact keepsBudget_hostCommand rfl r

/-- Settles O5: `Hub.withinBudget` is kept by each operation, so by every instruction and every idle µs. -/
theorem stepKeepsReservedSumWithinBudget : Obligations.StepKeepsReservedSumWithinBudget := by
  intro s t kept run
  rw [budgetKept_iff] at kept ⊢
  unfold step at run
  split at run
  · rw [(State.next_eq.1 run).1]
    exact kept.elapse 1
  · rename_i rest _
    exact (keepsBudget_exec (s := { s with pending := rest }) _ kept).within t run

end Sys2Proof.Machine
end

