-- ==== Sys2Proof/Proofs/TwoReleases.lean ====
section
/-! PROOF. O38, O40 and O54 fail as O58 does: a port that leaves ON releases its surge as its link stops and its claim afterwards, and each
release prompts a serving of its own. On a deferred list that names a port twice the two servings empty a list on which the one serving
that `portFreed` names leaves an entry. -/

namespace Sys2Proof.Machine

/-! ## One serving stops at the second entry of a port -/

/-- After the first entry's admission the second entry of port 1 is not admitted. -/
theorem not_surgeAdmitted_of_entryAdmitted {a m : Hub} (budget : a.budget = 700) (sum : a.reservedSum = 200)
    (w : a.power.get 1 = { state := .on, setup := { limit := 100, surge := 300 } }) (admitted : entryAdmitted 1 a m) :
    ¬ m.surgeAdmitted 1 := by
  obtain ⟨parts, others, -, power, -⟩ := admitted
  have all : m.power = (a.holdSurge 1).power := PerPort.ext_get fun q => by
    rw [Hub.holdSurge, modPower_power, PerPort.get_mod]
    split
    · subst_vars
      exact power
    · exact (others q ‹_›).2.1
  have held : m.reservedSum = (a.holdSurge 1).reservedSum := reservedSum_congr fun q => by rw [all]
  have rise : (a.holdSurge 1).reservedSum + 100 = a.reservedSum + 400 := by
    have change := reservedSum_modPower 1 (fun w => { w with heldSurge := w.setup.surge }) a
    rw [w] at change
    exact change
  have room : m.budget = 700 := parts.budget.trans budget
  have surge : (m.power.get 1).setup.surge = 300 := by rw [power, w]
  rintro ⟨-, none | fits⟩ <;> omega

/-- Port 0 gave up 400 mA of the 600 reserved, from one hub to the other, and the second's deferred list is empty. -/
structure Hub.emptiedByRelease (a b : Hub) : Prop where
  budget : a.budget = 700
  before : a.reservedSum = 600
  waiting : a.power.get 1 = { state := .on, setup := { limit := 100, surge := 300 } }
  after : (a.freed 0 [1, 1, 2] b).reservedSum = 200
  list : b.deferred = []

/-- One serving of `[1, 1, 2]` leaves port 2 on the list. -/
theorem not_portFreed_of_emptied {a b : Hub} (e : a.emptiedByRelease b) : ¬ portFreed 0 [1, 1, 2] a b := by
  rintro ⟨m, less, -, -, -, list⟩
  have fall : (a.freed 0 [1, 1, 2] b).reservedSum < a.reservedSum := by
    rw [e.after, e.before]
    decide
  have same : (a.freed 0 [1, 1, 2] b).power.get 1 = { state := .on, setup := { limit := 100, surge := 300 } } := by
    simpa [Hub.freed] using e.waiting
  have fits : (a.freed 0 [1, 1, 2] b).surgeAdmitted 1 := by
    refine ⟨by rw [same], .inr ?_⟩
    rw [same, e.after]
    exact (show 200 + 300 ≤ 700 by decide).trans_eq e.budget.symm
  obtain ⟨first, admitted, rest⟩ := (less.1 fall).2 fits
  have stopped : m = first := rest.1 (not_surgeAdmitted_of_entryAdmitted (a := a.freed 0 [1, 1, 2] b) e.budget e.after same admitted)
  rw [stopped, admitted.2.2.1, e.list] at list
  have left : ([] : List Port) = [1, 1, 2].filter (· != 1) := list
  exact absurd left (by decide)

/-! ## The state and what the instructions do to it -/

/-- `doublyDeferred` with no retry left at port 0, and a baseline there. -/
def twiceListed : State :=
  { doublyDeferred with
    power := doublyDeferred.power.mod 0 fun w => { w with retriesUsed := 3 }
    echo := { ports := (PerPort.all {}).set 0 { baseline := some Trace.zero } } }

/-- No slot is in GUARD or OFFERED. -/
theorem slotsOwn_twiceListed (p : Port) : twiceListed.toHub.slotsOwn p := by
  have none (x : Flight) : x ∉ twiceListed.shot.flights := List.not_mem_nil
  exact ⟨fun _ _ _ x flying => absurd flying (none x), fun x flying => absurd flying (none x)⟩

/-- POWER_OFF of port 0. -/
def powerOffZero : Cmd := ⟨0, 0, []⟩

/-- HUNT of port 0, without restore. -/
def huntZero : Cmd := ⟨0, 0, [0]⟩

/-- The hub after POWER_OFF of port 0. -/
def afterPowerOff : Hub := twiceListed.toHub.takeCommand 0x21 powerOffZero true (withPort powerOffZero powerOff)

/-- The hub after a sample of 3199 mA at port 0, a SHORT. -/
def afterShort : Hub := (twiceListed.toHub.sample 0 3199).finish

/-- The hub after HUNT of port 0, without restore. -/
def afterHunt : Hub :=
  twiceListed.toHub.takeCommand 0x77 huntZero true (withPort huntZero fun p => withFlags (flagOk huntZero.payload 0) (hunt huntZero p))

/-- In each of the three hubs both servings reached an entry, and port 0 holds nothing. -/
theorem twiceServed : ∀ b ∈ [afterPowerOff, afterShort, afterHunt],
    (twiceListed.toHub.freed 0 [1, 1, 2] b).reservedSum = 200 ∧ b.deferred = [] ∧ twiceListed.toHub.reservedSum = 600 := by
  decide +kernel

/-- None of the three is as one serving leaves it. -/
theorem not_portFreed_twiceListed {b : Hub} (one : b ∈ [afterPowerOff, afterShort, afterHunt]) :
    ¬ portFreed 0 [1, 1, 2] twiceListed.toHub b := by
  obtain ⟨after, list, before⟩ := twiceServed b one
  exact not_portFreed_of_emptied ⟨rfl, before, rfl, after, list⟩

/-! ## The refutations -/

/-- Refutes O38: POWER_OFF of port 0 in ON empties the deferred list of `twiceListed`. -/
theorem not_powerOnAndOffActByState : ¬ Obligations.PowerOnAndOffActByState := by
  intro all
  obtain ⟨-, -, -, -, -, -, -, -, off⟩ := all powerOffZero 0 twiceListed ⟨rfl, by decide⟩ rfl rfl
  obtain ⟨t, run, -, -, -, -, on, -⟩ := off (by decide)
  obtain ⟨-, -, -, -, -, -, -, freed⟩ := on rfl
  have after : t.toHub = afterPowerOff := (State.next_eq.1 run).1
  rw [after] at freed
  exact not_portFreed_twiceListed (by simp) (freed (slotsOwn_twiceListed 0))

/-- Refutes O40: a SHORT that locks port 0 out empties the deferred list of `twiceListed`. -/
theorem not_currentSampleReadsAndTrips : ¬ Obligations.CurrentSampleReadsAndTrips := by
  intro all
  obtain ⟨-, trip⟩ := all 0 0xFFF twiceListed
  obtain ⟨t, run, -, -, -, -, -, -, on, -⟩ := trip ⟨by decide, .inl (by decide)⟩
  obtain ⟨-, -, -, -, -, -, -, freed⟩ := on rfl
  have after : t.toHub = afterShort := (State.next_eq.1 run).1
  rw [after] at freed
  exact not_portFreed_twiceListed (by simp) (freed (slotsOwn_twiceListed 0))

/-- Refutes O54: HUNT of port 0 in ON, without restore, empties the deferred list of `twiceListed`. -/
theorem not_echoJobsQueued : ¬ Obligations.EchoJobsQueued := by
  intro all
  obtain ⟨-, hunts⟩ := all huntZero 0 twiceListed ⟨rfl, by decide⟩ rfl
  obtain ⟨-, -, -, enters⟩ := hunts false rfl
  obtain ⟨t, run, -, -, -, -, -, -, on, -⟩ := enters rfl rfl (by decide)
  obtain ⟨-, -, -, -, -, -, freed⟩ := on rfl
  have after : t.toHub = afterHunt := (State.next_eq.1 run).1
  rw [after] at freed
  exact not_portFreed_twiceListed (by simp) (freed (slotsOwn_twiceListed 0))

end Sys2Proof.Machine
end

