-- ==== Sys2Proof/Proofs/Firings.lean ====
section
/-! PROOF. O29: a firing by the state of its source's entry. An entry that neither awaits nor is pending offers a report; any other counts. -/

namespace Sys2Proof.Machine

/-! ## A report offered (R186) -/

theorem placeForReport_iff (h : Hub) : h.placeForReport = true ↔ h.roomFor 1 := by
  have places : Config.queuePlaces = 32 := rfl
  simp only [Hub.placeForReport, Hub.roomFor, Uplink.free, Bool.and_eq_true, decide_eq_true_eq, places]
  exact and_congr_right fun _ => by omega

theorem Entry.reportCount_eq (e : Entry) : e.reportCount = e.carried := by
  unfold Entry.reportCount Entry.carried
  split <;> split <;> omega

/-- The report that an entry sends is the one the claims name: a level source's detail as it stands, an edge source's last. -/
theorem report_eq {src : Source} {h : Hub} (known : src.isLevel = true ∨ (h.router.entry src).detail.isSome = true) :
    CtrlRec.report src (h.router.entry src).reportCount (h.reportRec src) =
      h.reportOf src (h.router.entry src).carried (h.detailOf src) := by
  have detail : h.reportDetail src = h.detailOf src := by
    rcases known with level | some
    · match src, level with
      | .ofPort _ .powerFault, _ => rfl
      | .ofHub .storeLow, _ => rfl
    · obtain ⟨d, last⟩ := Option.isSome_iff_exists.1 some
      match src with
      | .ofPort _ .powerFault => rfl
      | .ofHub .storeLow => rfl
      | .ofPort _ .linkChange | .ofPort _ .lensDone | .ofPort _ .huntDone | .ofPort _ .zoneSuspect | .ofHub .cycleOverrun
      | .ofHub .slotSkipped | .ofHub .uplinkError => simp [Hub.reportDetail, Hub.detailOf, last]
  simp only [Hub.reportRec, Hub.reportOf, detail, Entry.reportCount_eq]
  rfl

theorem Router.order_dequeue_of_absent {r : Router} {src : Source} (absent : r.pending src = false) : (r.dequeue src).order = r.order := by
  refine List.filter_eq_self.2 fun x mem => bne_iff_ne.2 ?_
  rintro rfl
  simp [Router.pending, mem] at absent

/-- R186: with a place the report enters the control queue. -/
theorem offerReport_of_room {src : Source} {h : Hub} (again : Bool) (room : h.roomFor 1) : h.offerReport src again = h.sendReport src :=
  if_pos ((placeForReport_iff h).2 room)

/-- R186: without a place the entry is pending with one more firing on its count. -/
theorem offerReport_of_full {src : Source} {h : Hub} (full : ¬ h.roomFor 1) (absent : h.router.pending src = false) :
    h.offerReport src false = h.modRouter fun r => (r.enqueue src).modEntry src fun e => { e with count := satInc 255 e.count } := by
  unfold Hub.offerReport
  rw [if_neg (mt (placeForReport_iff h).1 full), absent]
  rfl

/-! ## One firing of a source (R187) -/

/-- R187: a source fires: a level source becomes active, an edge source fires with a detail. -/
def Hub.raise (src : Source) (d : List Byte) (h : Hub) : Hub := if src.isLevel then h.activate src else h.fire src d

/-- R187: the entry of an edge source takes the detail of the firing. -/
def Hub.noting (src : Source) (d : List Byte) (h : Hub) : Hub :=
  if src.isLevel then h else h.modEntry src fun e => { e with detail := some d }

section Noting

variable (src : Source) (d : List Byte) (h : Hub)

theorem uplink_noting : (h.noting src d).uplink = h.uplink := by
  unfold Hub.noting
  split <;> rfl

theorem order_noting : (h.noting src d).router.order = h.router.order := by
  unfold Hub.noting
  split <;> simp [Hub.modEntry]

theorem pending_noting : (h.noting src d).router.pending src = h.router.pending src := by
  unfold Router.pending
  rw [order_noting]

theorem entry_noting_same : (h.noting src d).router.entry src =
    { h.router.entry src with detail := if src.isLevel then (h.router.entry src).detail else some d } := by
  unfold Hub.noting
  split <;> simp [Hub.modEntry]

theorem reportOf_noting (n : Nat) (x : List Byte) : (h.noting src d).reportOf src n x = h.reportOf src n x := by
  have time : (h.noting src d).time = h.time := by
    unfold Hub.noting
    split <;> rfl
  simp only [Hub.reportOf, time, entry_noting_same]

theorem detailOf_noting : (h.noting src d).detailOf src = if src.isLevel then h.detailOf src else d := by
  unfold Hub.noting
  split
  · rfl
  · rename_i edge
    match src, edge with
    | .ofPort _ .powerFault, edge => exact absurd rfl edge
    | .ofHub .storeLow, edge => exact absurd rfl edge
    | .ofPort _ .linkChange, _ | .ofPort _ .lensDone, _ | .ofPort _ .huntDone, _ | .ofPort _ .zoneSuspect, _ | .ofHub .cycleOverrun, _
    | .ofHub .slotSkipped, _ | .ofHub .uplinkError, _ => simp [Hub.detailOf, Hub.modEntry]

end Noting

theorem raise_masked {src : Source} {h : Hub} (d : List Byte) (masked : (h.router.entry src).masked = true) : h.raise src d = h := by
  unfold Hub.raise Hub.activate Hub.fire
  simp [masked]

/-- R187: an entry that neither awaits nor is pending offers a report. -/
theorem raise_of_listens {src : Source} {h : Hub} (d : List Byte) (listens : h.listens src) :
    h.raise src d = (h.noting src d).offerReport src false := by
  obtain ⟨unmasked, idle, absent⟩ := listens
  unfold Hub.raise Hub.noting
  split
  · simp [Hub.activate, unmasked, idle, absent]
  · simp [Hub.fire, unmasked, idle, absent]

/-- R187: an entry that awaits or is pending counts the firing; an edge entry that awaits is pending from now on. -/
theorem raise_of_waits {src : Source} {h : Hub} (d : List Byte) (unmasked : (h.router.entry src).masked = false)
    (waits : (h.router.entry src).awaiting = true ∨ h.router.pending src = true) :
    h.raise src d = (h.noting src d).modRouter fun r =>
      (if src.isLevel then r else r.enqueue src).modEntry src fun e => { e with count := satInc 255 e.count } := by
  unfold Hub.raise Hub.noting
  split
  · simp [Hub.activate, unmasked, waits, Hub.modEntry]
  · by_cases awaits : (h.router.entry src).awaiting = true
    · simp [Hub.fire, unmasked, awaits]
    · have pending : h.router.pending src = true := waits.resolve_left awaits
      simp [Hub.fire, unmasked, awaits, pending, Hub.modEntry, Hub.modRouter, Router.enqueue]

theorem raise_onlyIn (src : Source) (d : List Byte) (h : Hub) : h.onlyIn [.router, .uplink, .draws] (h.raise src d) := by
  unfold Hub.raise
  exact iteInduction (fun _ => (Hub.repliedTo_activate src h).1) fun _ => onlyIn_fire src d h

theorem masked_raise (src : Source) (d : List Byte) (h : Hub) : ((h.raise src d).router.entry src).masked = (h.router.entry src).masked ∧
    ((h.raise src d).router.entry src).tag = (h.router.entry src).tag := by
  unfold Hub.raise
  split
  · exact ⟨(Hub.sameSetup_activate src h src).1, (Hub.sameSetup_activate src h src).2.1⟩
  · exact Hub.entry_fire_same src d h

theorem detail_raise {src : Source} {h : Hub} (d : List Byte) (unmasked : (h.router.entry src).masked = false) :
    ((h.raise src d).router.entry src).detail = if src.isLevel then (h.router.entry src).detail else some d := by
  unfold Hub.raise
  split
  · exact (Hub.sameSetup_activate src h src).2.2
  · exact Hub.detail_fire src d h unmasked

theorem entry_raise_ne {src other : Source} (ne : other ≠ src) (d : List Byte) (h : Hub) :
    (h.raise src d).router.entry other = h.router.entry other := by
  unfold Hub.raise
  split
  · unfold Hub.activate
    dsimp only
    split_ifs
    · rfl
    · simp [Hub.modEntry, ne]
    · exact Hub.entry_offerReport_ne ne false h
  · exact Hub.entry_fire_ne ne d h

/-- R186, R187: with a place the firing's report enters the control queue; the entry awaits if it has a tag. -/
theorem raise_of_room {src : Source} {h : Hub} (d : List Byte) (listens : h.listens src) (room : h.roomFor 1) :
    (h.raise src d).uplink = { h.uplink with
        queue := h.uplink.queue ++ [h.reportOf src (h.router.entry src).carried (if src.isLevel then h.detailOf src else d)] } ∧
      (h.raise src d).router.order = h.router.order ∧
      ((h.raise src d).router.entry src).awaiting = decide ((h.router.entry src).tag ≠ 0) ∧
      ((h.raise src d).router.entry src).count = 0 := by
  have sent : h.raise src d = (h.noting src d).sendReport src := by
    rw [raise_of_listens d listens]
    exact offerReport_of_room false (by simpa only [Hub.roomFor, uplink_noting] using room)
  have known : src.isLevel = true ∨ ((h.noting src d).router.entry src).detail.isSome = true := by
    rw [entry_noting_same]
    by_cases level : src.isLevel = true
    · exact .inl level
    · exact .inr (by simp [level])
  obtain ⟨-, idle, absent⟩ := listens
  refine ⟨?_, ?_, ?_, ?_⟩
  · rw [sent, Hub.uplink_sendReport, report_eq known, reportOf_noting, detailOf_noting, uplink_noting, entry_noting_same]
    rfl
  · rw [sent, Hub.router_sendReport, Router.order_dequeue_of_absent (by simpa using absent.symm ▸ pending_noting src d h),
      Router.order_modEntry, order_noting]
  · rw [sent, Hub.router_sendReport, Router.entry_dequeue, Router.entry_modEntry_same, entry_noting_same]
    simp only [idle, Bool.false_or]
    by_cases untagged : (h.router.entry src).tag = 0#8 <;> simp [untagged]
  · rw [sent, Hub.router_sendReport, Router.entry_dequeue, Router.entry_modEntry_same]

/-- R186, R187: without a place the entry is pending with one more firing on its count. -/
theorem raise_of_full {src : Source} {h : Hub} (d : List Byte) (listens : h.listens src) (full : ¬ h.roomFor 1) :
    (h.raise src d).uplink = h.uplink ∧ (h.raise src d).router.order = h.router.order ++ [src] ∧
      ((h.raise src d).router.entry src).awaiting = false ∧
      ((h.raise src d).router.entry src).count = min 255 ((h.router.entry src).count + 1) := by
  have absent : (h.noting src d).router.pending src = false := (pending_noting src d h).trans listens.2.2
  have pended := (raise_of_listens d listens).trans
    (offerReport_of_full (by simpa only [Hub.roomFor, uplink_noting] using full) absent)
  rw [pended]
  refine ⟨uplink_noting src d h, ?_, ?_, ?_⟩
  · simp [Router.order_enqueue, absent, order_noting]
  · simp [entry_noting_same, listens.2.1]
  · simp [entry_noting_same, satInc]

/-- R187: a waiting entry counts the firing, and an edge entry is pending. -/
theorem raise_counts {src : Source} {h : Hub} (d : List Byte) (unmasked : (h.router.entry src).masked = false)
    (waits : (h.router.entry src).awaiting = true ∨ h.router.pending src = true) :
    (h.raise src d).uplink = h.uplink ∧
      (h.raise src d).router.order = (if src.isLevel || h.router.pending src then h.router.order else h.router.order ++ [src]) ∧
      ((h.raise src d).router.entry src).awaiting = (h.router.entry src).awaiting ∧
      ((h.raise src d).router.entry src).count = min 255 ((h.router.entry src).count + 1) := by
  rw [raise_of_waits d unmasked waits]
  refine ⟨uplink_noting src d h, ?_, ?_, ?_⟩
  · by_cases level : src.isLevel = true
    · simp [level, order_noting]
    · simp [level, Router.order_enqueue, pending_noting, order_noting]
  · by_cases level : src.isLevel = true <;> simp [level, entry_noting_same]
  · by_cases level : src.isLevel = true <;> simp [level, entry_noting_same, satInc]

/-- Settles O29: by whether the entry is masked, neither awaits nor is pending, or waits. -/
theorem firingsActByEntryState : Obligations.FiringsActByEntryState := fun h src d =>
  ⟨raise_masked d, detail_raise d, raise_of_room d, raise_of_full d, raise_counts d, (masked_raise src d h).1, (masked_raise src d h).2,
    fun _ ne => entry_raise_ne ne d h, raise_onlyIn src d h⟩

end Sys2Proof.Machine
end

