-- ==== Sys2Proof/Proofs/PinReset.lean ====
section
/-! PROOF. O60: the state after the reset pin. -/

namespace Sys2Proof.Machine

section PinReset

variable (p : Port) (h : Hub)

theorem power_pinReset : h.pinReset.power.get p = { dischargeTimer := some dischargeTime } := PerPort.get_all _ p

theorem links_pinReset : h.pinReset.links.get p = {} := PerPort.get_all _ p

theorem lenses_pinReset : h.pinReset.lenses.get p = {} := PerPort.get_all _ p

theorem reservedSum_pinReset : h.pinReset.reservedSum = 0 := by
  have same : h.pinReset.reservedSum = Hub.reset.reservedSum := rfl
  rw [same]
  decide +kernel

end PinReset

/-- No preset has a target in the pin-reset state. -/
theorem presets_default (k : Fin 16) : ({} : Lens).presets.get k = ⟨none, none, none⟩ := by
  fin_cases k <;> rfl

/-- Settles O60: each part is in its pin-reset state. -/
theorem pinResetLeavesDefaults : Obligations.PinResetLeavesDefaults := by
  intro s
  refine ⟨s.withHub s.toHub.pinReset, rfl, rfl, fun p => ?_, rfl, reservedSum_pinReset _, fun p => ?_, rfl, fun p => links_pinReset p _,
    rfl, rfl, rfl, rfl, rfl, rfl, rfl, rfl, rfl, rfl, rfl, rfl, rfl, rfl, rfl⟩
  · have power : (s.withHub s.toHub.pinReset).power.get p = { dischargeTimer := some dischargeTime } := power_pinReset p _
    rw [power]
    exact ⟨rfl, rfl, rfl, rfl, rfl, rfl, rfl, rfl, rfl, rfl, rfl, rfl, rfl, rfl, rfl, rfl⟩
  · have link : (s.withHub s.toHub.pinReset).links.get p = {} := links_pinReset p _
    have lens : (s.withHub s.toHub.pinReset).lenses.get p = {} := lenses_pinReset p _
    rw [link, lens]
    exact ⟨rfl, rfl, rfl, presets_default, rfl, rfl, rfl⟩

end Sys2Proof.Machine
end

