-- ==== Sys2Proof/Proofs/PowerSetup.lean ====
section
/-! PROOF. O39: POWER_SETUP and BUDGET_SET write where the budget admits them, and a lowered claim or a raised budget prompts a serving. -/

namespace Sys2Proof.Machine

/-! ## The setup (R39) -/

/-- R39: the port's setup is written, before any serving. -/
def Hub.writeSetup (p : Port) (new : PowerSetup) (h : Hub) : Hub := h.modPower p fun x => { x with setup := new }

/-- R39: the seven fields, each brought into its range. -/
theorem PowerSetup.bounded_eq (x : PowerSetup) : x.bounded =
    ⟨min 1500 (max 100 x.limit) / 10 * 10, min 255 (max 1 x.inrush), min 16 (max 1 x.tripSamples), min 7 x.retries,
      min 2550 (max 10 x.cooldown) / 10 * 10, min 500 x.surge / 10 * 10, x.autoHunt⟩ := by
  simp [PowerSetup.bounded, clampStep, clampTo]

/-- R39: POWER_SETUP is refused where a raised claim does not fit; else it writes, and a fall of the reserved sum prompts a serving. -/
theorem powerSetup_eq (c : Cmd) (p : Port) (h : Hub) {new : PowerSetup} (e : (powerSetupSent c.payload).bounded = new) :
    powerSetup c p h =
      if (h.power.get p).holdsClaim && (h.power.get p).setup.limit < new.limit && !h.admits (new.limit - (h.power.get p).setup.limit) then
        refuse .budget h
      else ⟨(h.writeSetup p new).serveIfBelow h.reservedSum, okOr (new != powerSetupSent c.payload), new.bytes⟩ := by
  subst e
  rfl

/-- The status of a reply with a quantity brought into range. -/
theorem okOr_bne_code {α : Type} [DecidableEq α] (new sent : α) : (okOr (new != sent)).code = if new = sent then 0 else 1 := by
  rw [okOr_code]
  by_cases same : new = sent <;> simp [same]

/-- R35: a claim follows the limit; without a claim the limit reserves nothing. -/
theorem reservedSum_writeSetup (p : Port) (new : PowerSetup) (h : Hub) :
    (h.writeSetup p new).reservedSum + (if (h.power.get p).holdsClaim then (h.power.get p).setup.limit else 0) =
      h.reservedSum + if (h.power.get p).holdsClaim then new.limit else 0 := by
  have change : (h.writeSetup p new).reservedSum +
      ((if (h.power.get p).holdsClaim then (h.power.get p).setup.limit else 0) + (h.power.get p).heldSurge) =
      h.reservedSum + ((if (h.power.get p).holdsClaim then new.limit else 0) + (h.power.get p).heldSurge) := reservedSum_modPower p _ h
  rw [← Nat.add_assoc, ← Nat.add_assoc] at change
  exact Nat.add_right_cancel change

theorem serveIfBelow_of_le {n : Nat} {h : Hub} (most : n ≤ h.reservedSum) : h.serveIfBelow n = h := if_neg (Nat.not_lt.2 most)

theorem serveIfBelow_of_lt {n : Nat} {h : Hub} (less : h.reservedSum < n) : h.serveIfBelow n = h.serve := if_pos less

/-- Serving moves no control record. -/
theorem queue_serve (h : Hub) : h.serve.uplink.queue = h.uplink.queue := by
  rw [(Hub.onlyIn_of_hide (l := moveParts) (by simp) : h.onlyIn moveParts h.serve).uplink]

/-! ## The budget (R40) -/

/-- R40: BUDGET_SET of an amount that covers the reserved sum. -/
theorem budgetSet_eq {c : Cmd} {h : Hub} (covers : h.reservedSum ≤ min 9000 (u16At c.payload 0)) :
    budgetSet c h =
      ⟨if h.budget < min 9000 (u16At c.payload 0) then (h.setBudget (min 9000 (u16At c.payload 0))).serve
        else h.setBudget (min 9000 (u16At c.payload 0)), okOr (min 9000 (u16At c.payload 0) != u16At c.payload 0),
        if u16At c.payload 0 ≤ 9000 then [] else w2 (min 9000 (u16At c.payload 0))⟩ := by
  have data : (if min 9000 (u16At c.payload 0) != u16At c.payload 0 then w2 (min 9000 (u16At c.payload 0)) else []) =
      if u16At c.payload 0 ≤ 9000 then [] else w2 (min 9000 (u16At c.payload 0)) := by
    by_cases inRange : u16At c.payload 0 ≤ 9000
    · simp [inRange]
    · have cut : min 9000 (u16At c.payload 0) ≠ u16At c.payload 0 := by omega
      simp [inRange, cut]
  unfold budgetSet
  dsimp only
  rw [if_neg (Nat.not_lt.2 covers), data]

theorem budgetSet_code (v : Nat) : (okOr (min 9000 v != v)).code = if v ≤ 9000 then 0 else 1 := by
  rw [okOr_bne_code]
  exact if_congr (by omega) rfl rfl

/-- Settles O39: what is written, and whether the reserved sum falls or the budget rises. -/
theorem powerSetupAndBudgetSetWrite : Obligations.PowerSetupAndBudgetSetWrite := by
  intro c p s ready bs w sent new data status v n
  have bounded : (powerSetupSent c.payload).bounded = new := PowerSetup.bounded_eq _
  have bytes : new.bytes = data := rfl
  have code : (okOr (new != powerSetupSent c.payload)).code = status := okOr_bne_code new sent
  refine ⟨fun named len flag => ?_, fun len => ⟨fun below => ?_, fun covers most => ?_, fun covers more => ?_⟩⟩
  · have setup {h : Hub} (kept : (s.toHub.writeSetup p new).serveIfBelow s.reservedSum = h)
        (fits : (w.holdsClaim && w.setup.limit < new.limit && !s.toHub.admits (new.limit - w.setup.limit)) = false)
        (queue : h.uplink.queue = s.uplink.queue) : completes (.powerSetup c) s h 0x22 c status data := by
      refine completes_port rfl ready named (decide_eq_true len) (status := okOr (new != powerSetupSent c.payload)) ?_ queue code
      rw [withFlags, if_pos (show flagOk c.payload 9 = true from decide_eq_true flag), powerSetup_eq c p _ bounded, ← kept, ← bytes]
      exact if_neg (by rw [fits]; decide)
    have sum : (s.toHub.writeSetup p new).reservedSum + (if w.holdsClaim then w.setup.limit else 0) =
      s.reservedSum + if w.holdsClaim then new.limit else 0 := reservedSum_writeSetup p new s.toHub
    refine ⟨fun held raised exceeds => ?_, fun held raised fits => ?_, fun free => ?_, fun held lowered => ?_⟩
    · refine completes_port (status := .budget) rfl ready named (decide_eq_true len) ?_
      rw [withFlags, if_pos (show flagOk c.payload 9 = true from decide_eq_true flag), powerSetup_eq c p _ bounded]
      have unfit : (w.holdsClaim && w.setup.limit < new.limit && !s.toHub.admits (new.limit - w.setup.limit)) = true := by
        simp [Hub.admits, held, raised, exceeds]
      exact if_pos unfit
    · rw [if_pos held, if_pos held] at sum
      exact setup (serveIfBelow_of_le (by omega)) (by simp [Hub.admits, fits]) rfl
    · have kept : (s.toHub.writeSetup p new).reservedSum = s.reservedSum := by
        rcases free with none | same
        · simpa [none] using sum
        · simpa [same] using sum
      refine setup (serveIfBelow_of_le kept.ge) ?_ rfl
      rcases free with none | same
      · simp [none]
      · simp [same]
    · rw [if_pos held, if_pos held] at sum
      have less : (s.toHub.writeSetup p new).reservedSum < s.reservedSum := by omega
      exact ⟨(s.toHub.writeSetup p new).serve, served_serve (s.toHub.writeSetup p new),
        setup (serveIfBelow_of_lt less) (by simp [Nat.not_lt.2 lowered.le]) (queue_serve _)⟩
  · refine completes_answer (status := .badState) rfl ready (decide_eq_true len) ?_
    unfold budgetSet
    dsimp only
    exact if_pos below
  · refine completes_answer rfl ready (decide_eq_true len) ((budgetSet_eq covers).trans ?_) rfl (budgetSet_code v)
    rw [if_neg (Nat.not_lt.2 most)]
    rfl
  · refine ⟨(s.toHub.setBudget n).serve, served_serve (s.toHub.setBudget n), ?_⟩
    refine completes_answer rfl ready (decide_eq_true len) ((budgetSet_eq covers).trans ?_) (queue_serve _) (budgetSet_code v)
    rw [if_pos more]

end Sys2Proof.Machine
end

