-- ==== Sys2Proof/Proofs/StatusReplies.lean ====
section
/-! PROOF. O22: status commands reply with what they held and clear it afterwards. -/

namespace Sys2Proof.Machine

/-! ## Commands that draw free values -/

/-- A command completes with a block's answer also where the block drew free values for its reply. -/
theorem completes_of_repliedTo {i : Instr} {s : State} {a b : Hub} {kind : Nat} {c : Cmd} {code : Nat} {data : List Byte}
    (drawn : a.repliedTo b) (k : completes i s b kind c code data) : completes i s a kind c code data := by
  obtain ⟨t, run, pending, replied, queue⟩ := k
  exact ⟨t, run, pending, Hub.repliedTo_trans drawn replied, queue⟩

theorem length_countFrom (k n : Nat) : (countFrom k n).length = n := by
  induction n generalizing k with
  | zero => rfl
  | succ n ih => rw [countFrom, List.length_cons, ih]

theorem length_openBytes (n : Nat) (h : Hub) : (h.openBytes n).length = n := (List.length_map _).trans (length_countFrom _ _)

/-- R96: the fields of CYCLE_STATUS that mean nothing are drawn. -/
theorem cycleStatus_draws (h : Hub) : ∃ n, h.cycleStatus.1 = h.draw n := by
  unfold Hub.cycleStatus
  dsimp only
  split <;> split
  · exact ⟨0, rfl⟩
  · exact ⟨7, rfl⟩
  · exact ⟨4, rfl⟩
  · exact ⟨11, rfl⟩

/-! ## The answers -/

/-- A payload that is one flag byte. -/
theorem flag_of_payload {c : Cmd} {b : Bool} (payload : c.payload = [if b then 1 else 0]) :
    (c.payload.length == 1) = true ∧ flagOk c.payload 0 = true ∧ flagAt c.payload 0 = b := by
  rw [payload]
  cases b <;> decide

theorem withFlags_of_ok {ok : Bool} (fits : ok = true) (body : Hub → Answer) (h : Hub) : withFlags ok body h = body h := if_pos fits

/-- R69: LENS_STATUS of an invalid record: the fields that mean nothing are free. -/
theorem lensStatus_invalid {p : Port} {h : Hub} (invalid : (h.lenses.get p).record = none) :
    h.lensStatus p =
      [0] ++ h.openBytes 39 ++ w2 (h.power.get p).heldSurge ++ w1 (((h.deferred.findIdx? (· == p)).map (· + 1)).getD 0) ++
        (h.draw 39).openBytes 7 ++ w1 (h.lenses.get p).stack.length ++ [flagByte (h.lenses.get p).overflow] ++
        w1 (h.lenses.get p).setup.tolerance ++ w1 (h.lenses.get p).setup.settleCount ++ w2 (h.lenses.get p).setup.moveTimeout := by
  unfold Hub.lensStatus
  simp only [invalid, wFlag_eq, Hub.deferredPlace, LensSetup.bytes, List.append_assoc]
  rfl

/-- Settles O22: the replies are those that Laws/Replies lays out. -/
theorem statusClearsAfterReply : Obligations.StatusClearsAfterReply := by
  intro c s ready
  refine ⟨fun payload => ?_, fun payload => ?_, fun payload => ?_, fun clear payload => ?_, fun p named empty => ?_, fun p named empty => ?_⟩
  · obtain ⟨len, ok, flag⟩ := flag_of_payload (b := true) payload
    refine completes_answer (status := .ok) rfl ready len ((withFlags_of_ok ok _ _).trans ?_)
    unfold storeStatus
    rw [flag, storeStatus_eq]
    rfl
  · obtain ⟨len, ok, flag⟩ := flag_of_payload (b := true) payload
    refine completes_answer (status := .ok) rfl ready len ((withFlags_of_ok ok _ _).trans ?_)
    unfold deliveryStatus
    rw [flag, deliveryStatus_eq]
    rfl
  · obtain ⟨len, ok, flag⟩ := flag_of_payload (b := true) payload
    refine completes_answer (status := .ok) rfl ready len ((withFlags_of_ok ok _ _).trans ?_)
    unfold uplinkStatus
    rw [flag, uplinkStatus_eq]
    rfl
  · obtain ⟨len, ok, flag⟩ := flag_of_payload payload
    obtain ⟨header, next, headerLength, nextLength, headerMeans, nextMeans, fields⟩ := cycleStatus_eq s.toHub
    obtain ⟨n, drawn⟩ := cycleStatus_draws s.toHub
    refine ⟨header, next, headerLength, nextLength, headerMeans, nextMeans, completes_of_repliedTo (Hub.repliedTo_draw n _) ?_⟩
    refine completes_answer (status := .ok) rfl ready len ((withFlags_of_ok ok _ _).trans ?_)
    unfold cycleStatus
    dsimp only
    rw [flag, fields, drawn]
    cases clear <;> rfl
  · refine completes_port (status := .ok) rfl ready named (by simp [empty]) ?_
    unfold powerStatus
    rw [powerStatus_eq]
  · refine ⟨fun r valid => ?_, fun invalid => ⟨s.toHub.openBytes 39, (s.toHub.draw 39).openBytes 7, length_openBytes _ _,
      length_openBytes _ _, completes_of_repliedTo (Hub.repliedTo_draw 46 _) ?_⟩⟩
    · refine completes_port (status := .ok) rfl ready named (by simp [empty]) ?_
      unfold lensStatus
      rw [lensStatus_eq p r _ valid, valid]
      rfl
    · refine completes_port (status := .ok) rfl ready named (by simp [empty]) ?_
      unfold lensStatus
      rw [lensStatus_invalid invalid, invalid]
      rfl

end Sys2Proof.Machine
end

