-- ==== Sys2Proof/Proofs/HubReset.lean ====
section
/-! PROOF. O59: HUB_RESET, share by share. -/

namespace Sys2Proof.Machine

/-! ## One operation per port -/

/-- What `view` shows of a port is changed by the port's own operation alone: running through all ports changes it once. -/
theorem foldl_allPorts {α : Type} {op : Hub → Port → Hub} {view : Port → Hub → α} {f : α → α} {I : Hub → Prop}
    (keeps : ∀ h p, I h → I (op h p)) (own : ∀ h p, I h → view p (op h p) = f (view p h))
    (others : ∀ h p q, q ≠ p → I h → view q (op h p) = view q h) {h : Hub} (i : I h) (p : Port) :
    view p (allPorts.foldl op h) = f (view p h) := by
  have apart (l : List Port) (g : Hub) (k : I g) (out : p ∉ l) : view p (l.foldl op g) = view p g := by
    induction l generalizing g with
    | nil => rfl
    | cons q rest ih =>
      rw [List.foldl_cons, ih _ (keeps g q k) fun mem => out (List.mem_cons_of_mem q mem)]
      exact others g q p (fun e => out (e ▸ List.mem_cons_self)) k
  have once (l : List Port) (nodup : l.Nodup) (g : Hub) (k : I g) (mem : p ∈ l) : view p (l.foldl op g) = f (view p g) := by
    induction l generalizing g with
    | nil => cases mem
    | cons q rest ih =>
      obtain ⟨out, nodup⟩ := List.nodup_cons.1 nodup
      rw [List.foldl_cons]
      rcases List.mem_cons.1 mem with rfl | mem
      · rw [apart rest _ (keeps g p k) out, own g p k]
      · rw [ih nodup _ (keeps g q k) mem, others g q p (fun e => out (e ▸ mem)) k]
  exact once allPorts (by decide) h i (by fin_cases p <;> decide)

/-! ## Lens moves (R72) -/

/-- No move waits for a surge and no slot is in GUARD or OFFERED. -/
structure Hub.noMoveWaits (h : Hub) : Prop where
  deferred : h.deferred = []
  flights : h.shot.flights = []

/-- R59: with nothing waiting an abandonment changes the port's power and lens records alone. -/
theorem abandon_of_noMoveWaits {h : Hub} (idle : h.noMoveWaits) (p : Port) : h.abandon p = h.letGo p := by
  have list : (h.letGo p).deferred = [] := by
    show h.deferred.filter (· != p) = []
    rw [idle.deferred]
    rfl
  have flights : (h.letGo p).shot.flights = [] := idle.flights
  have served : (h.letGo p).serveIfBelow h.reservedSum = h.letGo p := by
    unfold Hub.serveIfBelow Hub.serve
    rw [list]
    exact ite_self _
  rw [abandon_eq, served]
  unfold Hub.lensAbandoned Hub.lensReady Hub.endFlights
  rw [flights]
  exact ite_self _

theorem noMoveWaits_letGo {h : Hub} (idle : h.noMoveWaits) (p : Port) : (h.letGo p).noMoveWaits := by
  refine ⟨?_, idle.flights⟩
  show h.deferred.filter (· != p) = []
  rw [idle.deferred]
  rfl

/-- R72: the lens share abandons every port's move. -/
structure LensesAbandoned (a b : Hub) : Prop where
  parts : a.onlyIn [.power, .lenses, .deferred] b
  deferred : b.deferred = []
  power : ∀ p, b.power.get p = { a.power.get p with heldSurge := 0 }
  lens : ∀ p, b.lenses.get p = { a.lenses.get p with record := (a.lenses.get p).record.map abandonedRecord }

theorem lensesAbandoned_hubResetLens {h : Hub} (flights : h.shot.flights = []) : LensesAbandoned h h.hubResetLens := by
  have idle : (h.setDeferred []).noMoveWaits := ⟨rfl, flights⟩
  have keeps (g : Hub) (p : Port) (k : g.noMoveWaits) : (g.abandon p).noMoveWaits := by
    rw [abandon_of_noMoveWaits k]
    exact noMoveWaits_letGo k p
  have parts (l : List Port) (g : Hub) (k : g.noMoveWaits) :
      g.onlyIn [.power, .lenses, .deferred] (l.foldl (fun h p => h.abandon p) g) ∧ (l.foldl (fun h p => h.abandon p) g).noMoveWaits := by
    induction l generalizing g with
    | nil => exact ⟨Hub.onlyIn_refl _ _, k⟩
    | cons p rest ih =>
      have first : g.onlyIn [.power, .lenses, .deferred] (g.abandon p) := by
        rw [abandon_of_noMoveWaits k]
        exact Hub.onlyIn_of_hide (by simp [Hub.letGo])
      exact ⟨Hub.onlyIn_trans first (ih _ (keeps g p k)).1, (ih _ (keeps g p k)).2⟩
  have records (p : Port) : ((h.hubResetLens).power.get p, (h.hubResetLens).lenses.get p) =
      ({ h.power.get p with heldSurge := 0 }, { h.lenses.get p with record := (h.lenses.get p).record.map abandonedRecord }) := by
    refine foldl_allPorts (view := fun p h => (h.power.get p, h.lenses.get p)) (f := fun v =>
      ({ v.1 with heldSurge := 0 }, { v.2 with record := v.2.record.map abandonedRecord })) keeps (fun g q k => ?_) (fun g p q ne k => ?_) idle p
    · rw [abandon_of_noMoveWaits k]
      exact Prod.ext (power_letGo q g) (lens_letGo q g)
    · rw [abandon_of_noMoveWaits k]
      exact Prod.ext ((sameBut_letGo p g).power q ne) ((sameBut_letGo p g).lenses q ne)
  exact ⟨Hub.onlyIn_trans (Hub.onlyIn_of_hide (by simp)) (parts _ _ idle).1, (parts _ _ idle).2.deferred,
    fun p => congrArg Prod.fst (records p), fun p => congrArg Prod.snd (records p)⟩

/-! ## Echo jobs (R168) -/

/-- What HUB_RESET's echo share reads and changes at a port. -/
structure EchoView where
  power : Power
  port  : EchoPort
  job   : Option (EchoKind × Nat)
  now   : CellTime

/-- A port as the echo share sees it. -/
def Hub.echoView (p : Port) (h : Hub) : EchoView := ⟨h.power.get p, h.echo.ports.get p, h.echo.jobOf p, h.now⟩

/-- R31: the power record of a retry. -/
def Power.retried (w : Power) : Power := { w with cooldownTimer := none, retriesUsed := w.retriesUsed + 1 }.toPrecharge

/-- R34: the power record of a port whose AUTO job ends without a located short. -/
def Power.autoEnded (w : Power) : Power := if w.state = .cooldown ∧ w.cooldownTimer = none then w.retried else w

/-- R168: the port's job is removed and its result is ABORTED. -/
def EchoView.aborted (v : EchoView) : EchoView :=
  match v.job with
  | none => v
  | some (k, averaging) =>
    { v with
      power := if k = .auto then v.power.autoEnded else v.power, job := none
      port := { v.port with last := some (EchoResult.abortedJob k averaging v.now) } }

theorem jobOf_remove_same (e : Echo) (p : Port) : (e.remove p).jobOf p = none := by
  have queued : (e.remove p).queuedKind p = none := by simp [Echo.remove, Echo.queuedKind]
  have sampler : ∀ j, (e.remove p).sampler = some j → j.port ≠ p := by
    intro j
    unfold Echo.remove
    dsimp only
    split
    · split
      · nofun
      · rename_i ne
        rintro ⟨⟩
        simpa using ne
    · nofun
  unfold Echo.jobOf
  rw [queued]
  split
  · rename_i j sampling
    simp [sampler j sampling]
  · rfl

theorem jobOf_remove_ne {p q : Port} (ne : q ≠ p) (e : Echo) : (e.remove p).jobOf q = e.jobOf q := by
  have queued : (e.remove p).queuedKind q = e.queuedKind q := by
    unfold Echo.queuedKind Echo.remove
    dsimp only
    rw [List.find?_filter]
    congr 2
    funext x
    by_cases here : x.1 = q
    · simp [here, ne]
    · simp [here]
  unfold Echo.jobOf
  rw [queued]
  cases sampling : e.sampler with
  | none => simp [Echo.remove, sampling]
  | some j =>
    by_cases mine : j.port = p
    · simp [Echo.remove, sampling, mine, Ne.symm ne]
    · simp [Echo.remove, sampling, mine]

/-- The averaging of a queued job is read from settings that a stored result leaves. -/
theorem jobOf_storeResult (p q : Port) (r : EchoResult) (h : Hub) : (h.storeResult p r).echo.jobOf q = h.echo.jobOf q := by
  have settings : ((h.storeResult p r).echo.ports.get q).settings = (h.echo.ports.get q).settings :=
    PerPort.get_mod_attr EchoPort.settings _ _ p q rfl
  unfold Echo.jobOf
  rw [settings]
  rfl

theorem autoResult_eq (p : Port) (h : Hub) : h.autoResult p false =
    if (h.power.get p).state = .cooldown ∧ (h.power.get p).cooldownTimer = none then h.modPower p Power.retried else h := by
  unfold Hub.autoResult
  by_cases cooldown : (h.power.get p).state = .cooldown
  · simp [cooldown]
    rfl
  · simp [cooldown]

theorem power_autoResult (p : Port) (h : Hub) : (h.autoResult p false).power = h.power.mod p Power.autoEnded := by
  rw [autoResult_eq]
  refine PerPort.ext_get fun q => ?_
  rw [PerPort.get_mod]
  unfold Power.autoEnded
  split <;> split <;> simp_all

theorem echoView_autoResult (p q : Port) (h : Hub) :
    (h.autoResult p false).echoView q = { h.echoView q with power := (h.power.mod p Power.autoEnded).get q } := by
  have e : h.onlyIn [.power] (h.autoResult p false) := by
    rw [autoResult_eq]
    exact iteInduction (fun _ => Hub.onlyIn_of_hide (by simp)) fun _ => Hub.onlyIn_refl _ _
  unfold Hub.echoView Hub.now
  rw [power_autoResult, e.echo, e.time]

/-- R168: the port's job is removed and its ABORTED result stored. -/
def Hub.jobAborted (p : Port) (k : EchoKind) (averaging : Nat) (h : Hub) : Hub :=
  (h.modEcho fun e => e.remove p).storeResult p (EchoResult.abortedJob k averaging h.now)

theorem hubResetEchoPort_eq {p : Port} {k : EchoKind} {averaging : Nat} {h : Hub} (job : h.echo.jobOf p = some (k, averaging)) :
    h.hubResetEchoPort p =
      if k = .auto then (h.jobAborted p k averaging).autoResult p false else h.jobAborted p k averaging := by
  unfold Hub.hubResetEchoPort
  rw [job]
  rfl

theorem hubResetEchoPort_none {p : Port} {h : Hub} (job : h.echo.jobOf p = none) : h.hubResetEchoPort p = h := by
  unfold Hub.hubResetEchoPort
  rw [job]

theorem echoView_jobAborted_same (p : Port) (k : EchoKind) (averaging : Nat) (h : Hub) :
    (h.jobAborted p k averaging).echoView p =
      { h.echoView p with
        job := none, port := { h.echo.ports.get p with last := some (EchoResult.abortedJob k averaging h.now) } } := by
  have job : (h.jobAborted p k averaging).echo.jobOf p = none := (jobOf_storeResult p p _ _).trans (jobOf_remove_same _ p)
  have port : (h.jobAborted p k averaging).echo.ports.get p =
      { h.echo.ports.get p with last := some (EchoResult.abortedJob k averaging h.now) } := PerPort.get_mod_same _ _ _
  unfold Hub.echoView
  rw [job, port]
  rfl

theorem echoView_jobAborted_ne {p q : Port} (ne : q ≠ p) (k : EchoKind) (averaging : Nat) (h : Hub) :
    (h.jobAborted p k averaging).echoView q = h.echoView q := by
  have job : (h.jobAborted p k averaging).echo.jobOf q = h.echo.jobOf q := (jobOf_storeResult p q _ _).trans (jobOf_remove_ne ne _)
  have port : (h.jobAborted p k averaging).echo.ports.get q = h.echo.ports.get q := PerPort.get_mod_ne _ _ _ _ ne
  unfold Hub.echoView
  rw [job, port]
  rfl

theorem echoView_hubResetEchoPort_same (p : Port) (h : Hub) : (h.hubResetEchoPort p).echoView p = (h.echoView p).aborted := by
  unfold EchoView.aborted
  cases job : (h.echoView p).job with
  | none => rw [hubResetEchoPort_none job]
  | some held =>
    obtain ⟨k, averaging⟩ := held
    rw [hubResetEchoPort_eq job]
    dsimp only
    by_cases auto : k = .auto
    · rw [if_pos auto, if_pos auto, echoView_autoResult, echoView_jobAborted_same, PerPort.get_mod_same]
      rfl
    · rw [if_neg auto, if_neg auto, echoView_jobAborted_same]
      rfl

theorem echoView_hubResetEchoPort_ne {p q : Port} (ne : q ≠ p) (h : Hub) : (h.hubResetEchoPort p).echoView q = h.echoView q := by
  cases job : h.echo.jobOf p with
  | none => rw [hubResetEchoPort_none job]
  | some held =>
    obtain ⟨k, averaging⟩ := held
    rw [hubResetEchoPort_eq job]
    split
    · rw [echoView_autoResult, PerPort.get_mod_ne _ _ _ _ ne, echoView_jobAborted_ne ne]
      rfl
    · exact echoView_jobAborted_ne ne k averaging h

theorem onlyIn_hubResetEchoPort (p : Port) (h : Hub) : h.onlyIn [.power, .echo] (h.hubResetEchoPort p) := by
  cases job : h.echo.jobOf p with
  | none =>
    rw [hubResetEchoPort_none job]
    exact Hub.onlyIn_refl _ _
  | some held =>
    obtain ⟨k, averaging⟩ := held
    rw [hubResetEchoPort_eq job]
    refine Hub.onlyIn_of_hide ?_
    rw [autoResult_eq]
    split
    · split <;> simp [Hub.jobAborted]
    · simp [Hub.jobAborted]

/-- R168: the echo share ends the job of every port. -/
theorem echoView_hubResetEcho (p : Port) (h : Hub) : h.hubResetEcho.echoView p = (h.echoView p).aborted :=
  foldl_allPorts (view := Hub.echoView) (I := fun _ => True) (fun _ _ _ => trivial) (fun g q _ => echoView_hubResetEchoPort_same q g)
    (fun g _ _ ne _ => echoView_hubResetEchoPort_ne ne g) trivial p

theorem onlyIn_hubResetEcho (h : Hub) : h.onlyIn [.power, .echo] h.hubResetEcho := by
  unfold Hub.hubResetEcho
  generalize allPorts = l
  induction l generalizing h with
  | nil => exact Hub.onlyIn_refl _ _
  | cons p rest ih => exact Hub.onlyIn_trans (onlyIn_hubResetEchoPort p h) (ih _)

theorem job_aborted (v : EchoView) : v.aborted.job = none := by
  unfold EchoView.aborted
  split
  · assumption
  · rfl

/-- R147: without a job of any port the queue and the sampler are empty. -/
theorem echo_empty_of_no_job {e : Echo} (none : ∀ p, e.jobOf p = none) : e.queue = [] ∧ e.sampler = .none := by
  have sampler : e.sampler = .none := by
    cases sampling : e.sampler with
    | none => rfl
    | some j =>
      have job := none j.port
      simp [Echo.jobOf, sampling] at job
  refine ⟨?_, sampler⟩
  cases queue : e.queue with
  | nil => rfl
  | cons x rest =>
    have job := none x.1
    simp [Echo.jobOf, sampler, Echo.queuedKind, queue] at job

theorem jobOf_isSome (e : Echo) (p : Port) : (e.jobOf p).isSome = e.busy p := by
  unfold Echo.jobOf Echo.busy Echo.samplingKind
  cases e.sampler with
  | none => simp
  | some j => by_cases mine : j.port = p <;> simp [mine]

/-- R31: a job that is no AUTO job. -/
theorem kind_ne_auto {e : Echo} {p : Port} {k : EchoKind} {n : Nat} (job : e.jobOf p = some (k, n)) (free : e.autoBusy p = false) :
    k ≠ .auto := by
  rintro rfl
  unfold Echo.jobOf at job
  unfold Echo.autoBusy Echo.samplingKind at free
  cases sampling : e.sampler with
  | none => simp_all
  | some j => by_cases mine : j.port = p <;> simp_all

/-- R147: a port's only job is its AUTO job. -/
theorem job_auto {e : Echo} {p : Port} (unique : e.jobPorts.Nodup) (auto : e.autoBusy p = true) : ∃ n, e.jobOf p = some (.auto, n) := by
  unfold Echo.jobPorts at unique
  unfold Echo.autoBusy Echo.samplingKind at auto
  unfold Echo.jobOf
  cases sampling : e.sampler with
  | none => simp_all
  | some j =>
    by_cases mine : j.port = p
    · have out : e.queuedKind p = .none := by
        simp only [sampling, Option.map_some, Option.toList_some, List.singleton_append, List.nodup_cons] at unique
        refine Option.map_eq_none_iff.2 (List.find?_eq_none.2 fun x mem here => unique.1 ?_)
        rw [mine, ← beq_iff_eq.1 here]
        exact List.mem_map_of_mem mem
      simp_all
    · simp_all

/-! ## The end of the step -/

/-- R176, R178: with no entry pending the end of a step grants credits and starts a transmission; no record joins the control queue. -/
theorem finish_of_no_pending {h : Hub} (order : h.router.order = []) :
    h.finish.router = h.router ∧ h.finish.uplink.queue = h.uplink.queue := by
  have filled (n : Nat) (g : Hub) (none : g.router.order = []) :
      (Hub.fillPlaces n g).router = g.router ∧ (Hub.fillPlaces n g).uplink.queue = g.uplink.queue := by
    induction n generalizing g with
    | zero => exact ⟨rfl, rfl⟩
    | succ n ih =>
      have next : g.nextOffer = .none := by simp [Hub.nextOffer, none]
      have stale : Hub.clearStale g.router.order g = g := by
        rw [none]
        rfl
      unfold Hub.fillPlaces
      dsimp only
      rw [stale, next]
      split
      · dsimp only
        split
        · exact ih g.grantCredit none
        · exact ⟨rfl, rfl⟩
      · exact ⟨rfl, rfl⟩
  obtain ⟨router, queue⟩ := filled Config.queuePlaces h order
  have sends : (Hub.fillPlaces Config.queuePlaces h).onlyIn [.store, .delivery, .rotation, .uplink] h.finish :=
    Hub.onlyIn_of_hide (by simp [Hub.finish])
  exact ⟨sends.router.trans router, (Hub.arbitrate_spec _).2.1.trans queue⟩

/-! ## All shares -/

/-- What HUB_RESET leaves, before its reply enters the control queue. -/
structure HubResetLeaves (s b : Hub) : Prop where
  time : b.time = s.time
  budget : b.budget = s.budget
  zones : b.zones = s.zones
  shot : b.shot = {}
  deferred : b.deferred = []
  store : b.store = { s.store with frames := [] }
  rotation : b.rotation = allPorts
  delivery : ∀ p, b.delivery.get p = { s.delivery.get p with fifo := [], progress := none, hold := false }
  router : b.router = {}
  uplink : b.uplink = s.uplink.hubReset
  lens : ∀ p, b.lenses.get p = { s.lenses.get p with record := (s.lenses.get p).record.map abandonedRecord }
  link : ∀ p, b.links.get p = { s.links.get p with words := (s.links.get p).words.filter fun w => w.sameKind (.retrain .full) }
  power : ∀ p, b.power.get p = ({ s.echoView p with power := { s.power.get p with heldSurge := 0 } } : EchoView).aborted.power.hubReset
  port : ∀ p, b.echo.ports.get p = ({ s.echoView p with power := { s.power.get p with heldSurge := 0 } } : EchoView).aborted.port
  job : ∀ p, b.echo.jobOf p = none

theorem hubResetLeaves (s : Hub) : HubResetLeaves s s.hubReset := by
  have lenses : LensesAbandoned ((s.modRouter fun _ => {}).hubResetShot) ((s.modRouter fun _ => {}).hubResetShot).hubResetLens :=
    lensesAbandoned_hubResetLens rfl
  unfold Hub.hubReset
  generalize ((s.modRouter fun _ => {}).hubResetShot).hubResetLens = l at lenses ⊢
  have echo := onlyIn_hubResetEcho l.hubResetStore.hubResetDelivery
  have view (p : Port) : l.hubResetStore.hubResetDelivery.hubResetEcho.echoView p =
      ({ s.echoView p with power := { s.power.get p with heldSurge := 0 } } : EchoView).aborted := by
    have seen : l.hubResetStore.hubResetDelivery.echoView p = { s.echoView p with power := l.power.get p } := by
      unfold Hub.echoView Hub.now
      rw [← show l.echo = s.echo from lenses.parts.echo, ← show l.time = s.time from lenses.parts.time]
      rfl
    rw [echoView_hubResetEcho, seen, lenses.power]
    rfl
  generalize l.hubResetStore.hubResetDelivery.hubResetEcho = e at echo view ⊢
  refine
    { time := echo.time.trans lenses.parts.time
      budget := echo.budget.trans lenses.parts.budget
      zones := echo.zones.trans lenses.parts.zones
      shot := echo.shot.trans lenses.parts.shot
      deferred := echo.deferred.trans lenses.deferred
      store := echo.store.trans (congrArg (fun st : Store => { st with frames := [] }) lenses.parts.store)
      rotation := echo .rotation (by decide)
      delivery := fun p => ?_
      router := echo.router.trans lenses.parts.router
      uplink := congrArg Uplink.hubReset (echo.uplink.trans lenses.parts.uplink)
      lens := fun p => (congrArg (fun v : PerPort Lens => v.get p) echo.lenses).trans (lenses.lens p)
      link := fun p => ?_
      power := fun p => ?_
      port := fun p => congrArg EchoView.port (view p)
      job := fun p => (congrArg EchoView.job (view p)).trans (job_aborted _) }
  · have emptied : e.delivery = l.delivery.map fun d => { d with fifo := [], progress := none, hold := false } := echo.delivery
    show e.delivery.get p = _
    rw [emptied, PerPort.get_map, show l.delivery = s.delivery from lenses.parts.delivery]
  · have same : e.links = s.links := echo.links.trans lenses.parts.links
    rw [← same]
    exact PerPort.get_map _ _ p
  · rw [← view p]
    exact PerPort.get_map _ _ p

/-! ## O59 -/

/-- R3: only a RETRAIN word is of the kind of a RETRAIN word. -/
theorem retrain_of_sameKind {w : DownWord} {rate : Rate} (same : w.sameKind (.retrain rate) = true) : ∃ r, w = .retrain r := by
  cases w with
  | trigger t e => cases same
  | lensMove t => cases same
  | retrain r => exact ⟨r, rfl⟩

/-- R182: every entry of the router in its pin-reset state is masked and counts nothing. -/
theorem entry_default (src : Source) : ({} : Router).entry src = {} := by
  cases src with
  | ofPort p k =>
    have port : ({} : Router).ports.get p = {} := PerPort.get_all _ p
    refine (congrArg (fun e : PortEntries => e.get k) port).trans ?_
    cases k <;> rfl
  | ofHub g => cases g <;> rfl

theorem queue_hubReset (u : Uplink) : u.hubReset.queue = if u.tx = some .control then u.queue.take 1 else [] := by
  unfold Uplink.hubReset
  split <;> simp [*]

theorem sameCounts_hubReset (u : Uplink) : u.sameCounts u.hubReset := by
  unfold Uplink.hubReset
  split <;> exact ⟨rfl, rfl, rfl, rfl, rfl⟩

theorem hubReset_eq_of_not_hunt {w : Power} (out : w.state ≠ .hunt) : w.hubReset = { w with heldSurge := 0 } := by
  unfold Power.hubReset
  simp [out]

/-- R168: a port's power record stays unless an AUTO job ends. -/
theorem power_aborted_of_not_auto {v : EchoView} (other : ∀ n, v.job ≠ some (.auto, n)) : v.aborted.power = v.power := by
  unfold EchoView.aborted
  split
  · rfl
  · rename_i k n job
    have ne : k ≠ .auto := by
      rintro rfl
      exact other n job
    exact if_neg ne

theorem power_aborted_of_auto {v : EchoView} {n : Nat} (auto : v.job = some (.auto, n)) : v.aborted.power = v.power.autoEnded := by
  unfold EchoView.aborted
  rw [auto]
  rfl

/-- R34: outside COOLDOWN, or with its timer running, an AUTO job that ends leaves the power record. -/
theorem power_aborted_of_no_retry {v : EchoView} (no : v.power.state ≠ .cooldown ∨ v.power.cooldownTimer ≠ none) :
    v.aborted.power = v.power := by
  have kept : v.power.autoEnded = v.power := if_neg (by tauto)
  unfold EchoView.aborted
  split
  · rfl
  · dsimp only
    rw [kept]
    exact ite_self _

theorem port_aborted (v : EchoView) : v.aborted.port = { v.port with last := v.aborted.port.last } ∧
    (v.job = none → v.aborted.port = v.port) ∧
    (v.job.isSome = true → ∃ r, v.aborted.port.last = some r ∧ r.outcome = .aborted) := by
  unfold EchoView.aborted
  split
  · rename_i none
    exact ⟨rfl, fun _ => rfl, fun some => by simp [none] at some⟩
  · rename_i k n job
    exact ⟨rfl, fun none => by simp [none] at job, fun _ => ⟨_, rfl, rfl⟩⟩

/-- Settles O59: each part is what its share leaves, and neither the reply nor the end of the step adds a record. -/
theorem hubResetKeepsWhatItKeeps : Obligations.HubResetKeepsWhatItKeeps := by
  intro c s ready empty
  have leaves := hubResetLeaves s.toHub
  have fits : (c.payload.length == 0) = true := by simp [empty]
  have run : exec (.hubReset c) s = s.next (s.toHub.hubReset.answered 0x80 c .ok []) := by
    refine congrArg s.next ?_
    rw [fits]
    exact takeCommand_eq ready rfl
  generalize s.toHub.hubReset = b at leaves run
  obtain ⟨parts, -, counts⟩ := repliedTo_answered 0x80 c .ok [] b
  obtain ⟨router, queue⟩ := finish_of_no_pending (h := b.sendReply 0x80 c .ok []) (congrArg Router.order leaves.router)
  have power (p : Port) : (b.answered 0x80 c .ok []).power.get p =
      ({ s.toHub.echoView p with power := { s.power.get p with heldSurge := 0 } } : EchoView).aborted.power.hubReset := by
    rw [parts.power]
    exact leaves.power p
  have port (p : Port) : (b.answered 0x80 c .ok []).echo.ports.get p =
      ({ s.toHub.echoView p with power := { s.power.get p with heldSurge := 0 } } : EchoView).aborted.port := by
    rw [parts.echo]
    exact leaves.port p
  have jobs := echo_empty_of_no_job leaves.job
  have noRetry (p : Port) (no : (s.power.get p).state ≠ .cooldown ∨ (s.power.get p).cooldownTimer ≠ none) :
      (b.answered 0x80 c .ok []).power.get p = Power.hubReset { s.power.get p with heldSurge := 0 } :=
    (power p).trans (congrArg Power.hubReset (power_aborted_of_no_retry no))
  refine ⟨s.withHub (b.answered 0x80 c .ok []), run, rfl, parts.shot.trans leaves.shot, parts.deferred.trans leaves.deferred,
    parts.store.trans leaves.store, (parts .rotation (by decide)).trans leaves.rotation, fun p => ?_,
    (congrArg Echo.queue parts.echo).trans jobs.1, (congrArg Echo.sampler parts.echo).trans jobs.2, fun p => ?_, fun p out => ?_,
    fun p hunt => ?_, fun p cooldown other => ?_, fun p kept cooldown timer auto => ?_, fun p => ?_, fun p => ?_,
    parts.time.trans leaves.time, parts.budget.trans leaves.budget, parts.zones.trans leaves.zones, fun src => ?_,
    (congrArg Router.order router).trans (congrArg Router.order leaves.router), ?_, ?_⟩
  · exact (congrArg (fun v : PerPort Delivery => v.get p) parts.delivery).trans (leaves.delivery p)
  · obtain ⟨whole, same, ended⟩ := port_aborted { s.toHub.echoView p with power := { s.power.get p with heldSurge := 0 } }
    have busy := jobOf_isSome s.echo p
    rw [← port p] at whole same ended
    exact ⟨whole, fun idle => same (Option.not_isSome_iff_eq_none.1 (by simp [Hub.echoView, busy, idle])), fun held => ended (busy.trans held)⟩
  · have apart : (s.power.get p).state ≠ .hunt ∧ (s.power.get p).state ≠ .cooldown := by simpa using out
    exact (noRetry p (.inl apart.2)).trans (hubReset_eq_of_not_hunt apart.1)
  · refine (noRetry p (.inl (by simp [hunt]))).trans ?_
    simp [Power.hubReset, hunt]
  · have stays : ({ s.toHub.echoView p with power := { s.power.get p with heldSurge := 0 } } : EchoView).aborted.power =
        { s.power.get p with heldSurge := 0 } := by
      rcases other with running | free
      · exact power_aborted_of_no_retry (.inr (Option.isSome_iff_ne_none.1 running))
      · exact power_aborted_of_not_auto fun n job => kind_ne_auto job free rfl
    refine ((power p).trans (congrArg Power.hubReset stays)).trans (hubReset_eq_of_not_hunt ?_)
    simp [cooldown]
  · obtain ⟨-, unique, -⟩ := kept
    obtain ⟨n, job⟩ := job_auto unique auto
    refine (power p).trans ?_
    rw [power_aborted_of_auto job]
    have waits : ({ s.power.get p with heldSurge := 0 } : Power).autoEnded = Power.retried { s.power.get p with heldSurge := 0 } :=
      if_pos ⟨cooldown, timer⟩
    refine (congrArg Power.hubReset waits).trans ((hubReset_eq_of_not_hunt (by simp [Power.retried, Power.toPrecharge])).trans ?_)
    simp [Power.retried, Power.toPrecharge, timer]
  · have link : (b.answered 0x80 c .ok []).links.get p = _ := (congrArg (fun v : PerPort Link => v.get p) parts.links).trans (leaves.link p)
    refine ⟨?_, fun w mem => ?_⟩
    · exact link.trans (congrArg (fun l : Link => { s.links.get p with words := l.words }) link.symm)
    · have kept : w ∈ ((b.answered 0x80 c .ok []).links.get p).words := mem
      rw [link] at kept
      exact retrain_of_sameKind (List.mem_filter.1 kept).2
  · exact (congrArg (fun v : PerPort Lens => v.get p) parts.lenses).trans (leaves.lens p)
  · have same : (b.answered 0x80 c .ok []).router = {} := router.trans leaves.router
    exact (congrArg (fun r : Router => r.entry src) same).trans (entry_default src)
  · exact Uplink.sameCounts_trans (sameCounts_hubReset s.uplink) (leaves.uplink ▸ counts)
  · refine queue.trans ?_
    show b.uplink.queue ++ [.reply (replyRec 0x80 c .ok [])] = _
    rw [leaves.uplink, queue_hubReset]
    rfl

end Sys2Proof.Machine
end

