-- ==== Sys2Proof/Proofs/LensMoves.lean ====
section
/-! PROOF. O46: LENS_STATUS words and the move timeout, and what the end of a move leaves. -/

namespace Sys2Proof.Machine

/-! ## A port's lens record, replaced -/

/-- The hub with a valid lens record put at port `p`. -/
def Hub.setRecord (p : Port) (x : LensRecord) (h : Hub) : Hub := h.modLens p fun l => { l with record := some x }

/-- R57: a move's end before the serving it prompts: the record is in place and the surge is released. -/
def Hub.moveOver (p : Port) (x : LensRecord) (h : Hub) : Hub := (h.setRecord p x).modPower p fun w => { w with heldSurge := 0 }

/-- R35, R57: the move's end with that serving done. -/
def Hub.moveServed (p : Port) (x : LensRecord) (h : Hub) : Hub := (h.moveOver p x).serveIfBelow h.reservedSum

/-- R57, R58: the record of a move that ended. -/
def LensRecord.done (st : MoveState) (c : DoneCause) (now : CellTime) (r : LensRecord) : LensRecord :=
  { r with timeout := none, moveState := st, doneCause := c, doneTime := now }

/-- What the end of a port's move leaves: from hub `h`, with the record `x` in place, to hub `t`, a serving between them and then the
TRIGGERs of the waiting slots (R57, R58, R92). -/
structure MoveDone (p : Port) (x : LensRecord) (h t : Hub) : Prop where
  record : (t.lenses.get p).record = some x
  offers : waitersTriggered p h t
  power : t.power = (h.moveServed p x).power
  lenses : t.lenses = (h.moveServed p x).lenses
  deferred : t.deferred = (h.moveServed p x).deferred
  others : ∀ q, q ≠ p → t.links.get q = (h.moveServed p x).links.get q
  moves : ∀ v, (h.links.get p).state = .up → (h.links.get p).carries (.lensMove v) → (t.links.get p).carries (.lensMove v)
  surge : (t.power.get p).heldSurge = 0
  states : ∀ q, (t.power.get q).state = (h.power.get q).state
  time : t.time = h.time
  zones : t.zones = h.zones
  dram : t.store.dram = h.store.dram

theorem setRecord_setRecord (p : Port) (x y : LensRecord) (h : Hub) : (h.setRecord p x).setRecord p y = h.setRecord p y := by
  refine congrArg (fun v => { h with lenses := v }) (PerPort.ext_get fun q => ?_)
  by_cases here : q = p
  · subst here; simp [Hub.setRecord]
  · simp [Hub.setRecord, here]

theorem setRecord_record (p : Port) (x : LensRecord) (h : Hub) : ((h.setRecord p x).lenses.get p).record = some x := by
  simp [Hub.setRecord]

theorem modRecord_of_record {p : Port} {r : LensRecord} {h : Hub} (record : (h.lenses.get p).record = some r)
    (f : LensRecord → LensRecord) : h.modRecord p f = h.setRecord p (f r) := by
  refine congrArg (fun v => { h with lenses := v }) (PerPort.ext_get fun q => ?_)
  by_cases here : q = p
  · subst here; simp [record]
  · simp [here]

theorem modRecord_setRecord (p : Port) (y : LensRecord) (f : LensRecord → LensRecord) (h : Hub) :
    (h.setRecord p y).modRecord p f = h.setRecord p (f y) := by
  rw [modRecord_of_record (setRecord_record p y h), setRecord_setRecord]

theorem offerLensMove_setRecord (p : Port) (y : LensRecord) (h : Hub) :
    (h.setRecord p y).offerLensMove p = (h.offerWord p (.lensMove y.targets)).setRecord p y := by
  unfold Hub.offerLensMove
  rw [setRecord_record]
  rfl

theorem onlyIn_setRecord (p : Port) (x : LensRecord) (h : Hub) : h.onlyIn [.lenses] (h.setRecord p x) :=
  Hub.onlyIn_of_hide (by simp [Hub.setRecord])

theorem moveOver_setRecord (p : Port) (x y : LensRecord) (h : Hub) : (h.setRecord p y).moveOver p x = h.moveOver p x := by
  unfold Hub.moveOver
  rw [setRecord_setRecord]

theorem moveServed_setRecord (p : Port) (x y : LensRecord) (h : Hub) : (h.setRecord p y).moveServed p x = h.moveServed p x := by
  unfold Hub.moveServed
  rw [moveOver_setRecord]
  rfl

theorem endMove_eq {p : Port} {r : LensRecord} {h : Hub} (record : (h.lenses.get p).record = some r) (st : MoveState) (c : DoneCause) :
    h.endMove p st c =
      ((h.moveServed p (r.done st c h.now)).lensReady p).fire (.ofPort p .lensDone) (r.done st c h.now).doneDetail := by
  have placed : h.modRecord p (LensRecord.done st c h.now) = h.setRecord p (r.done st c h.now) := modRecord_of_record record _
  have run : h.endMove p st c =
      match ((h.modRecord p (LensRecord.done st c h.now)).lenses.get p).record with
      | some x =>
        (((h.modRecord p (LensRecord.done st c h.now)).releaseSurge p).lensReady p).fire (.ofPort p .lensDone) x.doneDetail
      | none => ((h.modRecord p (LensRecord.done st c h.now)).releaseSurge p).lensReady p := rfl
  rw [run, placed, setRecord_record]
  rfl

/-! ## LENS_MOVE words and the TRIGGERs offered after them (R3) -/

theorem mem_joinWords_of_mem {w x : DownWord} {ws : List DownWord} (apart : w.sameKind x = false) (mem : x ∈ ws) :
    x ∈ joinWords w ws := by
  unfold joinWords
  split
  · exact List.mem_map.2 ⟨x, mem, if_neg (by simp [apart])⟩
  · split
    · exact List.mem_cons_of_mem _ mem
    · exact List.mem_append_left _ mem

/-- R3: a word at the link that the link state allows stays there when a word of another kind is offered. -/
theorem carries_offer {l : Link} {w x : DownWord} (apart : w.sameKind x = false) (ok : x.allowed l.state = true) (here : l.carries x) :
    (l.offer w).1.carries x := by
  unfold Link.offer Link.pump Link.carries
  cases busy : l.cable with
  | some c =>
    rcases here with waits | sent
    · exact .inl (by simpa [busy] using mem_joinWords_of_mem apart waits)
    · exact .inr (by simpa [busy] using sent)
  | none =>
    have waits : x ∈ l.words := here.resolve_right (by simp [busy])
    rcases pumpWords_keeps (mem_joinWords_of_mem apart waits) ok with sent | left
    · exact .inr ⟨⟨x, wordTime, false⟩, by simp [sent], rfl⟩
    · exact .inl (by simpa [busy] using left)

theorem moves_offerTrigger {f : Flight} {h : Hub} {v : Targets} (up : (h.links.get f.port).state = .up)
    (here : (h.links.get f.port).carries (.lensMove v)) : ((h.offerTrigger f false).links.get f.port).carries (.lensMove v) := by
  rw [offerTrigger_eq up]
  simp only [Hub.offerWord, modLink_links, PerPort.get_mod_same]
  have ok : (DownWord.lensMove v).allowed (h.links.get f.port).state = true := by simp [DownWord.allowed, up]
  exact carries_offer rfl ok here

/-- R92: the TRIGGERs offered for a port's slots in GUARD leave a LENS_MOVE at its link. -/
theorem moves_foldl {p : Port} {v : Targets} (l : List Flight) (own : ∀ x ∈ l, x.port = p) {h : Hub} (up : (h.links.get p).state = .up)
    (here : (h.links.get p).carries (.lensMove v)) :
    ((l.foldl (fun h x => h.offerTrigger x false) h).links.get p).carries (.lensMove v) := by
  induction l generalizing h with
  | nil => exact here
  | cons x rest ih =>
    have at_ : x.port = p := own x List.mem_cons_self
    have offered := offersAt_offerTrigger at_ up
    subst at_
    exact ih (fun y mem => own y (List.mem_cons_of_mem x mem)) (by rw [offered.link]; exact up) (moves_offerTrigger up here)

theorem moves_lensReady {p : Port} {v : Targets} {h : Hub} (up : (h.links.get p).state = .up)
    (here : (h.links.get p).carries (.lensMove v)) : ((h.lensReady p).links.get p).carries (.lensMove v) :=
  moves_foldl _ (fun _ => port_of_waiting) up here

/-- R92: a lens is ready at a port without slots in GUARD, or with its link UP. -/
theorem offersAt_lensReady_of {p : Port} {h : Hub} (law : h.waiting p ≠ [] → (h.links.get p).state = .up) :
    h.offersAt p ((h.waiting p).map (·.tag)) (h.lensReady p) := by
  by_cases none : h.waiting p = []
  · have run : h.lensReady p = (h.waiting p).foldl (fun h x => h.offerTrigger x false) h := rfl
    rw [run, none]
    exact offersAt_nil p h
  · exact offersAt_lensReady (law none)

/-! ## The end of a move -/

theorem onlyIn_moveServed (p : Port) (x : LensRecord) (h : Hub) : h.onlyIn moveParts (h.moveServed p x) :=
  Hub.onlyIn_of_hide (by simp [Hub.moveServed, Hub.moveOver, Hub.setRecord])

theorem servedIfLess_moveServed (p : Port) (x : LensRecord) (h : Hub) : servedIfLess h (h.moveOver p x) (h.moveServed p x) :=
  servedIfLess_serveIfBelow h _

theorem sameAt_moveServed {p : Port} (x : LensRecord) {h : Hub} (apart : p ∉ h.deferred) : (h.moveOver p x).sameAt p (h.moveServed p x) :=
  sameAt_serveIfBelow p _ _ (.inl apart)

theorem sameStates_moveServed (p : Port) (x : LensRecord) (h : Hub) : h.sameStates (h.moveServed p x) :=
  Hub.sameStates_trans (onlyIn_setRecord p x h).sameStates
    (Hub.sameStates_trans (sameStates_modPower p _ _ rfl) (sameStates_of_kept (kept_serveIfBelow _ _)))

theorem waiting_moveServed (p : Port) (x : LensRecord) (h : Hub) : (h.moveServed p x).waiting p = h.waiting p := by
  unfold Hub.waiting
  rw [(onlyIn_moveServed p x h).shot]

/-- R57, R58, R92: what a move's end leaves, once the step has ended. -/
theorem moveDone_endMove {p : Port} {r : LensRecord} {h : Hub} (record : (h.lenses.get p).record = some r)
    (law : h.waiting p ≠ [] → (h.links.get p).state = .up) (apart : p ∉ h.deferred) (st : MoveState) (c : DoneCause) :
    MoveDone p (r.done st c h.now) h (h.endMove p st c).finish := by
  rw [endMove_eq record]
  generalize r.done st c h.now = x
  have stays := sameAt_moveServed x apart
  have link : (h.moveServed p x).links.get p = h.links.get p := stays.links
  have served := onlyIn_moveServed p x h
  have waits := waiting_moveServed p x h
  have offered := offersAt_lensReady_of (p := p) (h := h.moveServed p x) (by rw [waits, link]; exact law)
  have reported := onlyIn_fire (.ofPort p .lensDone) x.doneDetail ((h.moveServed p x).lensReady p)
  have ended := onlyIn_finish (((h.moveServed p x).lensReady p).fire (.ofPort p .lensDone) x.doneDetail)
  have settled := (Hub.finish_spec (((h.moveServed p x).lensReady p).fire (.ofPort p .lensDone) x.doneDetail)).1
  have links := ended.links.trans reported.links
  have lenses := (ended.lenses.trans reported.lenses).trans offered.parts.lenses
  have power := (ended.power.trans reported.power).trans offered.parts.power
  have shot := ((ended.shot.trans reported.shot).trans offered.shot).trans
    (congrArg₂ Shot.offerTags (congrArg (List.map (·.tag)) waits) served.shot)
  have store := (reported.store.trans offered.parts.store).trans served.store
  obtain ⟨mark, marked, -⟩ := store_settledTo settled
  refine ⟨?_, ⟨shot, fun none => ?_, fun f one => ?_, ?_⟩, power, lenses,
    (ended.deferred.trans reported.deferred).trans offered.parts.deferred, fun q ne => ?_, fun v up here => ?_, ?_, fun q => ?_,
    ((ended.time.trans reported.time).trans offered.parts.time).trans served.time,
    ((ended.zones.trans reported.zones).trans offered.parts.zones).trans served.zones, ?_⟩
  · rw [lenses, stays.lenses]
    exact setRecord_record p x h
  · refine shot.trans ?_
    rw [show h.waiting p = [] from none]
    simp [Shot.offerTags]
  · have up := law (by rw [show h.waiting p = [f] from one]; exact List.cons_ne_nil f [])
    rw [links]
    exact carries_lensReady (by rw [link]; exact up) (waits.trans one)
  · rw [← store]
    exact flags_settledTo settled
  · rw [links]
    exact offered.others q ne
  · rw [links]
    exact moves_lensReady (by rw [link]; exact up) (by rw [link]; exact here)
  · rw [power, stays.power]
    simp [Hub.moveOver]
  · rw [power]
    exact (sameStates_moveServed p x h q).2
  · rw [marked]
    exact congrArg (fun v => v.dram) store

/-- The claim of the TRIGGERs offered looks at the scheduler and the frame store of the first hub alone. -/
theorem waitersTriggered.of_parts {p : Port} {a b c : Hub} (e : waitersTriggered p b c) (shot : b.shot = a.shot)
    (store : b.store = a.store) : waitersTriggered p a c := by
  unfold waitersTriggered at e ⊢
  rwa [← shot, ← store]

/-- What the record was before the move's end is of no account. -/
theorem MoveDone.of_setRecord {p : Port} {x y : LensRecord} {h t : Hub} (d : MoveDone p x (h.setRecord p y) t) : MoveDone p x h t :=
  have same := moveServed_setRecord p x y h
  { d with
    power := d.power.trans (congrArg Hub.power same), lenses := d.lenses.trans (congrArg Hub.lenses same)
    deferred := d.deferred.trans (congrArg Hub.deferred same)
    others := fun q ne => (d.others q ne).trans (congrArg (fun v : Hub => v.links.get q) same) }

theorem lensFields_eq (x : LensRecord) : lensFields x = x.doneDetail := by
  simp [lensFields, LensRecord.doneDetail, wPerAxis]
  rfl

/-- R57, R58: LENS_DONE fires as a move ends. -/
theorem fired_endMove {p : Port} {r : LensRecord} {a h : Hub} (before : Undisturbed (.ofPort p .lensDone) a h)
    (record : (h.lenses.get p).record = some r) (st : MoveState) (c : DoneCause) :
    fired (.ofPort p .lensDone) (lensFields (r.done st c h.now)) a (h.endMove p st c).finish := by
  have served : Undisturbed (.ofPort p .lensDone) h (h.moveServed p (r.done st c h.now)) :=
    ((Hub.Reports.refl h).other (onlyIn_moveServed p _ h)).undisturbed
  have ready : Undisturbed (.ofPort p .lensDone) (h.moveServed p (r.done st c h.now)) ((h.moveServed p (r.done st c h.now)).lensReady p) :=
    ((Hub.Reports.refl _).lensReady p nofun nofun).undisturbed
  rw [endMove_eq record, lensFields_eq]
  exact fired_of_fire (before.trans (served.trans ready)) (Undisturbed.refl _ _).finish

/-! ## Taking a LENS_STATUS word (R48, R49, R56) -/

theorem limitsOk_iff (lo hi : Nat) : limitsOk lo hi = true ↔ lo ≤ hi ∧ hi ≤ 4095 := by
  simp [limitsOk]

/-- R48: what taking an entry of the word leaves of an axis. -/
theorem AxisRecord.take_eq (a : AxisRecord) (e : LensEntry) (lim : Limits)
    (limits : lim = if e.lo.toNat ≤ e.hi.toNat ∧ e.hi.toNat ≤ 4095 then ⟨e.lo.toNat, e.hi.toNat⟩ else a.limits) :
    a.take e =
      { limits := lim, target := some (min lim.hi (max lim.lo (a.target.getD e.actual.toNat)))
        actual := some e.actual.toNat, moving := e.moving != 0 } := by
  have same : lim = if limitsOk e.lo.toNat e.hi.toNat then ⟨e.lo.toNat, e.hi.toNat⟩ else a.limits := by
    simp only [limits, limitsOk_iff]
  rw [same]
  rfl

/-- R56: an axis that moved is within the tolerance of its target. -/
def AxisRecord.near (tolerance : Nat) (q : Option AxisRecord × Bool) : Prop :=
  q.2 = true → ∃ x n t, q.1 = some x ∧ x.actual = some n ∧ x.target = some t ∧ max n t - min n t ≤ tolerance

theorem AxisRecord.near_iff (tolerance : Nat) (a : Option AxisRecord) (m : Bool) :
    (!m || match a with
      | some x => match x.actual, x.target with
        | some n, some t => ((n : Int) - t).natAbs ≤ tolerance
        | _, _ => false
      | none => false) = true ↔ AxisRecord.near tolerance (a, m) := by
  have gap (n t : Nat) : ((n : Int) - t).natAbs ≤ tolerance ↔ max n t - min n t ≤ tolerance := by omega
  unfold AxisRecord.near
  cases m with
  | false => simp
  | true =>
    cases a with
    | none => simp
    | some x => cases hn : x.actual <;> cases ht : x.target <;> simp [hn, ht, gap]

theorem LensRecord.within_iff (r : LensRecord) (tolerance : Nat) :
    r.within tolerance = true ↔ ∀ q ∈ r.axes.toList.zip r.moved.toList, AxisRecord.near tolerance q := by
  unfold LensRecord.within PerAxis.every PerAxis.zip
  simp only [Bool.and_eq_true, PerAxis.toList, List.zip_cons_cons, List.zip_nil_right, List.forall_mem_cons, List.not_mem_nil,
    false_implies, implies_true, and_true, and_assoc]
  exact and_congr (AxisRecord.near_iff _ _ _) (and_congr (AxisRecord.near_iff _ _ _) (AxisRecord.near_iff _ _ _))

/-- R49: a target that was there differs after the word is taken. -/
theorem target_differs_iff (a : Option AxisRecord) (e : LensEntry) :
    (match a.bind (·.target), (a.map fun x => x.take e).bind (·.target) with | some x, some y => x != y | _, _ => false) = true ↔
      (a.bind (·.target)).isSome = true ∧ a.bind (·.target) ≠ (a.map fun x => x.take e).bind (·.target) := by
  cases a with
  | none => simp
  | some x => cases ht : x.target <;> simp [ht, AxisRecord.take]

theorem LensRecord.retargeted_take_iff (r : LensRecord) (w : LensStatusWord) :
    r.retargeted (r.take w) = true ↔
      ∃ q ∈ (targetsOf r.axes).toList.zip (targetsOf (r.take w).axes).toList, q.1.isSome = true ∧ q.1 ≠ q.2 := by
  unfold LensRecord.retargeted PerAxis.any PerAxis.zip LensRecord.take targetsOf PerAxis.zip
  simp only [Bool.or_eq_true, PerAxis.map, PerAxis.toList, List.zip_cons_cons, List.zip_nil_right, List.exists_mem_cons_iff,
    List.not_mem_nil, false_and, exists_false, or_false, or_assoc]
  exact or_congr (target_differs_iff _ _) (or_congr (target_differs_iff _ _) (target_differs_iff _ _))

/-- R49: the LENS_MOVE offered again where taking the word changed a target. -/
def Hub.reoffer (p : Port) (r x : LensRecord) (h : Hub) : Hub := if r.retargeted x then h.offerWord p (.lensMove x.targets) else h

section
variable (p : Port) (r x : LensRecord) (h : Hub)

theorem onlyIn_reoffer : h.onlyIn [.links] (h.reoffer p r x) :=
  iteInduction (fun _ => onlyIn_offerWord p _ h) fun _ => Hub.onlyIn_refl _ h

theorem reoffer_others {q : Port} (ne : q ≠ p) : (h.reoffer p r x).links.get q = h.links.get q :=
  iteInduction (motive := fun v : Hub => v.links.get q = h.links.get q) (fun _ => PerPort.get_mod_ne _ _ _ _ ne) fun _ => rfl

theorem reoffer_state : ((h.reoffer p r x).links.get p).state = (h.links.get p).state := by
  refine iteInduction (motive := fun v : Hub => (v.links.get p).state = (h.links.get p).state) (fun _ => ?_) fun _ => rfl
  rw [Hub.offerWord, modLink_links, PerPort.get_mod_same, Link.offer_eq]

theorem reoffer_of_not (no : ¬ r.retargeted x = true) : h.reoffer p r x = h := if_neg no

theorem undisturbed_reoffer (src : Source) : Undisturbed src h (h.reoffer p r x) :=
  ((Hub.Reports.refl h).other (onlyIn_reoffer p r x h)).undisturbed

end

theorem carries_reoffer {p : Port} {r x : LensRecord} {h : Hub} (up : (h.links.get p).state = .up) (yes : r.retargeted x = true) :
    ((h.reoffer p r x).links.get p).carries (.lensMove x.targets) := by
  rw [Hub.reoffer, if_pos yes, Hub.offerWord, modLink_links, PerPort.get_mod_same]
  exact Link.offer_carries _ _ (by simp [DownWord.allowed, up])

section
variable {p : Port} {r : LensRecord} {h : Hub} (record : (h.lenses.get p).record = some r) (w : LensStatusWord)
include record

theorem takeLensStatus_still (still : r.moveState ≠ .moving) : h.takeLensStatus p w = h.setRecord p (r.take w) := by
  unfold Hub.takeLensStatus
  simp [record, still, modRecord_of_record record]

/-- R56, R57: the settle check of a word taken while the lens moves. -/
theorem takeLensStatus_moving (moving : r.moveState = .moving) :
    h.takeLensStatus p w =
      let u := h.reoffer p r (r.take w)
      if (r.take w).within (h.lenses.get p).setup.tolerance then
        let v := u.setRecord p { r.take w with progress := min 15 (r.progress + 1) }
        if (h.lenses.get p).setup.settleCount ≤ r.progress + 1 then v.endMove p .settled .settled else v
      else u.setRecord p { r.take w with progress := 0 } := by
  have offered : (if r.retargeted (r.take w) then (h.setRecord p (r.take w)).offerLensMove p else h.setRecord p (r.take w)) =
      (h.reoffer p r (r.take w)).setRecord p (r.take w) := by
    rw [offerLensMove_setRecord]
    exact (apply_ite (Hub.setRecord p (r.take w)) _ _ _).symm
  unfold Hub.takeLensStatus
  simp only [record, moving, modRecord_of_record record, offered, modRecord_setRecord, bne_self_eq_false, Bool.false_eq_true, if_false]

/-- R56: the move goes on: the settle progress is counted or starts again. -/
theorem takeLensStatus_goesOn (moving : r.moveState = .moving)
    (more : (r.take w).within (h.lenses.get p).setup.tolerance = true → r.progress + 1 < (h.lenses.get p).setup.settleCount) :
    h.takeLensStatus p w = (h.reoffer p r (r.take w)).setRecord p
      { r.take w with
        progress := if (r.take w).within (h.lenses.get p).setup.tolerance then min 15 (r.progress + 1) else 0 } := by
  rw [takeLensStatus_moving record w moving]
  split
  · rename_i near
    rw [if_neg (Nat.not_le.2 (more near))]
  · rfl

/-- R57: the move settles. -/
theorem takeLensStatus_settles (moving : r.moveState = .moving) (near : (r.take w).within (h.lenses.get p).setup.tolerance = true)
    (enough : (h.lenses.get p).setup.settleCount ≤ r.progress + 1) :
    h.takeLensStatus p w =
      ((h.reoffer p r (r.take w)).setRecord p { r.take w with progress := min 15 (r.progress + 1) }).endMove p .settled .settled := by
  rw [takeLensStatus_moving record w moving]
  simp only [near, enough, if_true]

/-- R57: what a settled move leaves once the step has ended, from the hub with the LENS_MOVE offered again. -/
theorem moveDone_settles (up : (h.links.get p).state = .up) (moving : r.moveState = .moving)
    (near : (r.take w).within (h.lenses.get p).setup.tolerance = true)
    (enough : (h.lenses.get p).setup.settleCount ≤ r.progress + 1) (apart : p ∉ h.deferred) :
    let x := LensRecord.done .settled .settled h.now { r.take w with progress := min 15 (r.progress + 1) }
    MoveDone p x (h.reoffer p r (r.take w)) (h.takeLensStatus p w).finish ∧
      fired (.ofPort p .lensDone) (lensFields x) h (h.takeLensStatus p w).finish := by
  rw [takeLensStatus_settles record w moving near enough]
  generalize { r.take w with progress := min 15 (r.progress + 1) } = y
  have parts := onlyIn_reoffer p r (r.take w) h
  have link := (reoffer_state p r (r.take w) h).trans up
  have before := undisturbed_reoffer p r (r.take w) h (.ofPort p .lensDone)
  generalize h.reoffer p r (r.take w) = u at parts link before
  have recorded := ((Hub.Reports.refl (S := (· ≠ .ofPort p .lensDone)) _).other (onlyIn_setRecord p y u)).undisturbed
  have now : (u.setRecord p y).now = h.now := congrArg Timebase.cellTime parts.time
  have out : p ∉ (u.setRecord p y).deferred := fun mem => apart (parts.deferred ▸ mem)
  rw [← now]
  exact ⟨(moveDone_endMove (setRecord_record p y u) (fun _ => link) out .settled .settled).of_setRecord,
    fired_endMove (before.trans recorded) (setRecord_record p y u) .settled .settled⟩

end

/-! ## O46 -/

theorem lensWord_up {p : Port} {s : State} (up : (s.links.get p).state = .up) (w : LensStatusWord) :
    exec (.lensStatusWord p w) s = s.next (s.toHub.takeLensStatus p w).finish :=
  congrArg s.next (if_pos (beq_iff_eq.2 up))

/-- R58: MOVE_TIMEOUT ends a move that runs a timeout. -/
theorem moveTimeout_run {p : Port} {r : LensRecord} {s : State} {left : Nat} (record : (s.lenses.get p).record = some r)
    (moving : r.moveState = .moving) (timer : r.timeout = some left) :
    exec (.moveTimeout p) s = s.next (((s.toHub.elapse left).endMove p .stalled .stall).finish) := by
  show execMoveTimeout p s = _
  unfold execMoveTimeout
  simp only [record, moving, timer]

theorem moveTimeout_still {p : Port} {r : LensRecord} {s : State} (record : (s.lenses.get p).record = some r)
    (still : r.moveState ≠ .moving) : ignored (.moveTimeout p) s := by
  show execMoveTimeout p s = .next s
  unfold execMoveTimeout
  simp only [record]
  split
  · rename_i moving _
    exact absurd moving still
  · rfl

theorem record_elapse {p : Port} {r : LensRecord} {h : Hub} (record : (h.lenses.get p).record = some r) (n : Nat) :
    ((h.elapse n).lenses.get p).record = some { r with timeout := Timer.pass n r.timeout } := by
  simp [Hub.elapse, Lens.pass, record]

/-- R94: a port with a slot in GUARD has its link UP, also after the time of a step. -/
theorem up_of_waiting_elapse {p : Port} {s : State} (law : s.slotsKept) (n : Nat) (waits : (s.toHub.elapse n).waiting p ≠ []) :
    ((s.toHub.elapse n).links.get p).state = .up := by
  obtain ⟨f, mem⟩ := List.exists_mem_of_ne_nil _ waits
  obtain ⟨g, here, rfl⟩ := List.mem_map.1 (List.mem_filter.1 mem).1
  have own : g.port = p := (flight_pass n g).2.1.symm.trans (port_of_waiting mem)
  rw [(sameStates_elapse n s.toHub p).1, ← own]
  exact law g here

/-- Settles O46: the word where the link is not UP, at rest, while the move goes on and where it settles, and the timeout. -/
theorem lensMovesSettleOrStall : Obligations.LensMovesSettleOrStall := by
  intro p w r s record limits axes near retargeted ended
  have taken : r.take w = { r with axes := axes } := by
    have entry : (fun (a : Option AxisRecord) (e : LensEntry) => a.map fun x => x.take e) = fun a e => a.map fun x =>
        { limits := limits x e, target := some (min (limits x e).hi (max (limits x e).lo (x.target.getD e.actual.toNat)))
          actual := some e.actual.toNat, moving := e.moving != 0 } :=
      funext fun a => funext fun e => congrArg (fun f => a.map f) (funext fun x => x.take_eq e (limits x e) rfl)
    exact congrArg (fun f => { r with axes := r.axes.zip f w.axes }) entry
  have nearIff : (r.take w).within (s.lenses.get p).setup.tolerance = true ↔ near := by
    rw [LensRecord.within_iff, taken]
    exact Iff.rfl
  have retargetedIff : r.retargeted (r.take w) = true ↔ retargeted := by
    rw [LensRecord.retargeted_take_iff, taken]
  have targets : (r.take w).targets = targetsOf axes := by rw [taken]; rfl
  have reofferedParts := onlyIn_reoffer p r (r.take w) s.toHub
  have reofferedCarries (up : (s.links.get p).state = .up) (yes : retargeted) :
      ((s.toHub.reoffer p r (r.take w)).links.get p).carries (.lensMove (targetsOf axes)) :=
    targets ▸ carries_reoffer up (retargetedIff.2 yes)
  have reofferedSame (no : ¬ retargeted) : s.toHub.reoffer p r (r.take w) = s.toHub :=
    reoffer_of_not p r _ _ (mt retargetedIff.1 no)
  refine ⟨fun closed => congrArg s.next (if_neg (mt beq_iff_eq.1 closed)), fun up still => ?_, fun up moving more => ?_,
    fun up moving close enough apart => ?_, fun left moving timer law apart => ?_, moveTimeout_still record⟩
  · refine happens_finish ((lensWord_up up w).trans (congrArg (fun h : Hub => s.next h.finish) ?_))
    rw [takeLensStatus_still record w still, taken]
    rfl
  · have run := takeLensStatus_goesOn record w moving fun within => more.resolve_left (not_not.2 (nearIff.1 within))
    generalize counted : (if (r.take w).within _ = true then min 15 (r.progress + 1) else 0) = n at run
    have passed := onlyIn_finish ((s.toHub.reoffer p r (r.take w)).setRecord p { r.take w with progress := n })
    have record : (((s.toHub.reoffer p r (r.take w)).setRecord p { r.take w with progress := n }).finish.lenses.get p).record =
        some { r with axes := axes, progress := n } := by
      rw [passed.lenses, setRecord_record, taken]
    have recorded := onlyIn_setRecord p { r.take w with progress := n } (s.toHub.reoffer p r (r.take w))
    refine ⟨_, (lensWord_up up w).trans (congrArg (fun h : Hub => s.next h.finish) run), rfl,
      Hub.onlyIn_trans (Hub.onlyIn_mono (by decide) reofferedParts)
        (Hub.onlyIn_trans (Hub.onlyIn_mono (by decide) recorded) (Hub.onlyIn_mono (by decide) passed)),
      fun far => ?_, fun close => ?_, fun yes => ⟨?_, ?_⟩, fun no => ?_, ?_, fun q ne => ⟨?_, ?_⟩⟩
    · rw [State.withHub_toHub, record, ← counted, if_neg (mt nearIff.1 far)]
    · rw [State.withHub_toHub, record, ← counted, if_pos (nearIff.2 close)]
    · rw [State.withHub_toHub, passed.links]
      exact reofferedCarries up yes
    · rw [State.withHub_toHub, passed.links]
      exact (reoffer_state p r _ _).trans up
    · rw [State.withHub_toHub, passed.links]
      exact recorded.links.trans (congrArg Hub.links (reofferedSame no))
    · have recordedQuiet := ((Hub.Reports.refl (S := (· ≠ .ofPort p .lensDone)) _).other recorded).undisturbed
      exact ((undisturbed_reoffer p r _ _ _).trans recordedQuiet).finish.quiet
    · rw [State.withHub_toHub, passed.lenses]
      exact (PerPort.get_mod_ne _ _ _ _ ne).trans (congrArg (fun v => v.get q) reofferedParts.lenses)
    · rw [State.withHub_toHub, passed.links]
      exact reoffer_others p r _ _ ne
  · have settled := moveDone_settles record w up moving (nearIff.2 close) enough apart
    rw [taken] at settled
    obtain ⟨done, fires⟩ := settled
    rw [taken] at reofferedParts reofferedSame reofferedCarries
    have states (q : Port) : ((s.toHub.reoffer p r { r with axes := axes }).power.get q).state = (s.power.get q).state :=
      congrArg (fun v : PerPort Power => (v.get q).state) reofferedParts.power
    exact ⟨_, lensWord_up up w, rfl, done.record, fires, done.offers.of_parts reofferedParts.shot reofferedParts.store,
      fun yes => done.moves _ ((reoffer_state p r _ _).trans up) (reofferedCarries up yes),
      ⟨_, _, reofferedParts, servedIfLess_moveServed p _ _, fun no => congrArg Hub.links (reofferedSame no),
        fun q ne => reoffer_others p r _ _ ne, done.power, done.lenses, done.deferred, done.others⟩,
      done.surge, fun q => (done.states q).trans (states q), done.time.trans reofferedParts.time, done.zones.trans reofferedParts.zones,
      done.dram.trans (congrArg Store.dram reofferedParts.store)⟩
  · have done := moveDone_endMove (record_elapse record left) (up_of_waiting_elapse law left) apart .stalled .stall
    have fires := fired_endMove (undisturbed_elapse (.ofPort p .lensDone) left s.toHub) (record_elapse record left) .stalled .stall
    exact ⟨_, moveTimeout_run record moving timer, rfl, done.time, done.record, fires, done.offers,
      ⟨_, servedIfLess_moveServed p _ _, done.power, done.lenses, done.deferred, done.others⟩, done.surge,
      fun q => (done.states q).trans (sameStates_elapse left s.toHub q).2, done.zones, done.dram⟩

end Sys2Proof.Machine
end

