-- ==== Sys2Proof/Proofs/LensCommands.lean ====
section
/-! PROOF. O45: PRESET_GO, LENS_POP and LENS_MOVE, and what issuing a lens move leaves. -/

namespace Sys2Proof.Machine

/-! ## What a lens move leaves at its port -/

/-- From the first hub to the second only the move of port `p` went on: the lens record is now `x`, and beside it the outgoing words, the
held surge and the deferred list alone may differ. -/
structure MovePlaced (p : Port) (x : LensRecord) (a b : Hub) : Prop where
  parts : a.onlyIn moveParts b
  others : ∀ q, q ≠ p → b.links.get q = a.links.get q ∧ b.power.get q = a.power.get q ∧ b.lenses.get q = a.lenses.get q
  state : (b.links.get p).state = (a.links.get p).state
  power : b.power.get p = { a.power.get p with heldSurge := (b.power.get p).heldSurge }
  lens : b.lenses.get p = { a.lenses.get p with record := (b.lenses.get p).record }
  record : (b.lenses.get p).record = some x

namespace MovePlaced

variable {p : Port} {x : LensRecord} {a b : Hub}

theorem setRecord (p : Port) (x : LensRecord) (a : Hub) : MovePlaced p x a (a.setRecord p x) where
  parts := Hub.onlyIn_mono (by decide) (onlyIn_setRecord p x a)
  others _ ne := ⟨rfl, rfl, PerPort.get_mod_ne _ _ _ _ ne⟩
  state := rfl
  power := rfl
  lens := by
    rw [setRecord_record]
    exact PerPort.get_mod_same _ _ _
  record := setRecord_record p x a

theorem offerWord (m : MovePlaced p x a b) (w : DownWord) : MovePlaced p x a (b.offerWord p w) where
  parts := Hub.onlyIn_trans m.parts (Hub.onlyIn_mono (by decide) (onlyIn_offerWord p w b))
  others q ne := ⟨(PerPort.get_mod_ne _ _ _ _ ne).trans (m.others q ne).1, (m.others q ne).2⟩
  state := by rw [Hub.offerWord, modLink_links, PerPort.get_mod_same, Link.offer_eq, m.state]
  power := m.power
  lens := m.lens
  record := m.record

theorem holdSurge (m : MovePlaced p x a b) : MovePlaced p x a (b.holdSurge p) where
  parts := Hub.onlyIn_trans m.parts (Hub.onlyIn_of_hide (by simp))
  others q ne := ⟨(m.others q ne).1, (PerPort.get_mod_ne _ _ _ _ ne).trans (m.others q ne).2.1, (m.others q ne).2.2⟩
  state := m.state
  power := by
    simp only [Hub.holdSurge, modPower_power, PerPort.get_mod_same]
    rw [m.power]
  lens := m.lens
  record := m.record

theorem setDeferred (m : MovePlaced p x a b) (l : List Port) : MovePlaced p x a (b.setDeferred l) where
  parts := Hub.onlyIn_trans m.parts (Hub.onlyIn_of_hide (by simp))
  others := m.others
  state := m.state
  power := m.power
  lens := m.lens
  record := m.record

end MovePlaced

/-! ## How an issued move acts (R52) -/

theorem setRecord_moveState (p : Port) (y : LensRecord) (h : Hub) : ((h.setRecord p y).lenses.get p).moveState = y.moveState := by
  unfold Lens.moveState
  rw [setRecord_record]

theorem setRecord_timeoutLength (p : Port) (y : LensRecord) (h : Hub) :
    ((h.setRecord p y).lenses.get p).timeoutLength = (h.lenses.get p).setup.moveTimeout * 1000 := by
  simp [Hub.setRecord, Lens.timeoutLength]

/-- R52: the record of a move that begins, with a timeout of `n` µs. -/
def LensRecord.begun (n : Nat) (r : LensRecord) : LensRecord := { r with moveState := .moving, progress := 0, timeout := some n }

section
variable {p : Port} {y : LensRecord} {h : Hub} (req : PerAxis Bool)

/-- R52: in MOVING the axes join the moved ones, and the move begins anew under the surge it holds. -/
theorem actMove_moving (moving : y.moveState = .moving) :
    (h.setRecord p y).actMove p req =
      let x := LensRecord.begun ((h.lenses.get p).setup.moveTimeout * 1000) { y with moved := axisUnion y.moved req }
      (h.setRecord p x).offerWord p (.lensMove x.targets) := by
  unfold Hub.actMove
  rw [setRecord_moveState, moving]
  dsimp only
  rw [setRecord_timeoutLength, modRecord_setRecord, offerLensMove_setRecord, moving]
  rfl

/-- R52: in DEFERRED the axes join the moved ones. -/
theorem actMove_deferred (deferred : y.moveState = .deferred) :
    (h.setRecord p y).actMove p req = h.setRecord p { y with moveState := .deferred, moved := axisUnion y.moved req } := by
  unfold Hub.actMove
  rw [setRecord_moveState, deferred]
  dsimp only
  rw [modRecord_setRecord, deferred]

/-- R52: at rest the move asks for its surge. -/
theorem actMove_atRest (rest : y.moveState ∉ [.moving, .deferred]) :
    (h.setRecord p y).actMove p req =
      let x := { y with moved := req, progress := 0 }
      if h.surgeFits p then (h.setRecord p x).startMove p
      else (h.setRecord p { x with moveState := .deferred }).setDeferred (h.deferred ++ [p]) := by
  have run : (h.setRecord p y).actMove p req =
      let g := (h.setRecord p y).modRecord p fun r => { r with moved := req, progress := 0 }
      if g.surgeFits p then g.startMove p
      else (g.modRecord p fun r => { r with moveState := .deferred }).setDeferred (g.deferred ++ [p]) := by
    unfold Hub.actMove
    rw [setRecord_moveState]
    cases state : y.moveState with
    | moving => simp [state] at rest
    | deferred => simp [state] at rest
    | idle => rfl
    | settled => rfl
    | stalled => rfl
  rw [run]
  dsimp only
  rw [modRecord_setRecord, modRecord_setRecord]
  rfl

/-- R52: an admitted move begins. -/
theorem startMove_setRecord :
    (h.setRecord p y).startMove p =
      let x := y.begun ((h.lenses.get p).setup.moveTimeout * 1000)
      ((h.setRecord p x).holdSurge p).offerWord p (.lensMove x.targets) := by
  have run : (h.setRecord p y).startMove p =
      (((h.holdSurge p).setRecord p y).modRecord p
        (LensRecord.begun ((h.setRecord p y).lenses.get p).timeoutLength)).offerLensMove p := rfl
  rw [run, setRecord_timeoutLength, modRecord_setRecord, offerLensMove_setRecord]
  rfl

end

/-! ## Issuing a move (R51) -/

/-- R3: a LENS_MOVE offered in UP or RELOCK is at the link. -/
theorem carries_offerWord {p : Port} {h : Hub} (open_ : (h.links.get p).carriesMoves = true) (v : Targets) :
    ((h.offerWord p (.lensMove v)).links.get p).carries (.lensMove v) := by
  rw [Hub.offerWord, modLink_links, PerPort.get_mod_same]
  exact Link.offer_carries _ _ open_

/-- R49: clamping is asked of the targets outside the limits. -/
theorem clamps_eq (r : LensRecord) (t : Targets) : r.clamps t = targetOutside r.axes t := by
  unfold LensRecord.clamps targetOutside
  refine congrArg (fun g => (r.axes.zip g t).any) (funext₂ fun a v => ?_)
  cases a <;> cases v <;> rfl

/-- R49, R51: a lens record with the supplied targets of its axes written. -/
def LensRecord.aim (r : LensRecord) (t : Targets) : LensRecord := { r with axes := axesWritten r.axes t }

/-- R51: no move is issued without a valid record. -/
theorem issueMove_invalid {p : Port} {h : Hub} (invalid : (h.lenses.get p).record = none) (t : Targets) :
    h.issueMove p t = ⟨h, false, false⟩ := by
  unfold Hub.issueMove
  rw [invalid]

section
variable {p : Port} {r : LensRecord} {t : Targets} {h : Hub} (record : (h.lenses.get p).record = some r)
include record

/-- R51: no move is issued for no present axis. -/
theorem issueMove_unasked (unasked : (axesAsked r.axes t).any = false) : h.issueMove p t = ⟨h, false, false⟩ := by
  have none : (r.requested t).any = false := unasked
  unfold Hub.issueMove
  simp only [record, none, Bool.not_false, Bool.or_true, if_true]

/-- R49, R51: an issued move writes its targets and acts. -/
theorem issueMove_asked (open_ : (h.links.get p).carriesMoves = true) (asked : (axesAsked r.axes t).any = true) :
    h.issueMove p t =
      ⟨(h.setRecord p (r.aim t)).actMove p (axesAsked r.axes t), true, targetOutside r.axes t⟩ := by
  have some_ : (r.requested t).any = true := asked
  unfold Hub.issueMove
  simp only [record, open_, some_, Bool.not_true, Bool.or_false, Bool.false_eq_true, if_false, clamps_eq, modRecord_of_record record,
    writeTargets_eq]
  rfl

/-- R49, R51 to R53: an issued move is the one of the claims. -/
theorem moveIssued_issueMove (open_ : (h.links.get p).carriesMoves = true) (asked : (axesAsked r.axes t).any = true) :
    moveIssued p r t h (h.issueMove p t).hub := by
  rw [issueMove_asked record open_ asked]
  let req := axesAsked r.axes t
  let len := (h.lenses.get p).setup.moveTimeout * 1000
  by_cases moving : r.moveState = .moving
  · rw [actMove_moving (y := r.aim t) req moving]
    have placed := (MovePlaced.setRecord p (LensRecord.begun len { r.aim t with moved := axisUnion r.moved req }) h).offerWord
      (.lensMove (r.aim t).targets)
    exact ⟨placed.parts, placed.others, placed.state, placed.power, placed.lens, _, placed.record, rfl,
      fun _ => ⟨carries_offerWord open_ _, rfl, rfl⟩, fun _ => ⟨rfl, rfl, rfl, rfl⟩, by simp [moving], by simp [moving]⟩
  by_cases deferred : r.moveState = .deferred
  · rw [actMove_deferred (y := r.aim t) req deferred]
    have placed := MovePlaced.setRecord p { r.aim t with moveState := .deferred, moved := axisUnion r.moved req } h
    exact ⟨placed.parts, placed.others, placed.state, placed.power, placed.lens, _, placed.record, rfl,
      nofun, by simp [deferred], fun _ => ⟨rfl, rfl, rfl, rfl, rfl⟩, by simp [deferred]⟩
  rw [actMove_atRest (y := r.aim t) req (show r.moveState ∉ _ by simp [moving, deferred])]
  by_cases fits : h.surgeFits p = true
  · rw [if_pos fits, startMove_setRecord]
    have placed := (MovePlaced.setRecord p (LensRecord.begun len { r.aim t with moved := req, progress := 0 }) h).holdSurge.offerWord
      (.lensMove (r.aim t).targets)
    exact ⟨placed.parts, placed.others, placed.state, placed.power, placed.lens, _, placed.record, rfl,
      fun _ => ⟨carries_offerWord open_ _, rfl, rfl⟩, fun m => absurd m moving, fun d => absurd d deferred,
      fun _ => ⟨rfl, rfl, fun _ => ⟨rfl, congrArg Power.heldSurge (PerPort.get_mod_same _ _ _), rfl⟩,
        fun no => absurd ((surgeFits_iff p h).1 fits) no⟩⟩
  · rw [if_neg fits]
    have placed := (MovePlaced.setRecord p { r.aim t with moveState := .deferred, moved := req, progress := 0 } h).setDeferred
      (h.deferred ++ [p])
    exact ⟨placed.parts, placed.others, placed.state, placed.power, placed.lens, _, placed.record, rfl,
      nofun, fun m => absurd m moving, fun d => absurd d deferred,
      fun _ => ⟨rfl, rfl, fun yes => absurd ((surgeFits_iff p h).2 yes) fits, fun _ => ⟨rfl, rfl, rfl, rfl⟩⟩⟩

/-- R49: a move that is not issued clamps nothing. -/
theorem clamped_issueMove (open_ : (h.links.get p).carriesMoves = true) (t : Targets) :
    (h.issueMove p t).clamped = ((axesAsked r.axes t).any && targetOutside r.axes t) := by
  cases asked : (axesAsked r.axes t).any with
  | false => rw [issueMove_unasked record asked, Bool.false_and]
  | true => rw [issueMove_asked record open_ asked, Bool.true_and]

end

/-! ## Commands that issue a move -/

/-- R51, R64, R66, R67: from hub `h` the command issues a move of port `p` to targets `t` and replies with the move state and `data`:
CLAMPED where a move was issued and `changed` holds of the record, else OK. -/
def issuesMove (i : Instr) (s : State) (kind : Nat) (c : Cmd) (p : Port) (h : Hub) (t : Targets) (changed : LensRecord → Bool)
    (data : Hub → List Byte) : Prop :=
  (∀ r, (s.lenses.get p).record = some r → (axesAsked r.axes t).any = true →
    ∃ u, moveIssued p r t h u ∧ completes i s u kind c (if changed r then 1 else 0) (w1 (u.lenses.get p).moveState.code ++ data u)) ∧
  (∀ r, (s.lenses.get p).record = some r → (axesAsked r.axes t).any = false →
    completes i s h kind c 0 (w1 r.moveState.code ++ data h)) ∧
  ((s.lenses.get p).record = none → completes i s h kind c 0 (w1 0 ++ data h))

theorem moveState_of_record {l : Lens} {r : LensRecord} (record : l.record = some r) : l.moveState = r.moveState := by
  unfold Lens.moveState
  rw [record]

theorem moveState_of_invalid {l : Lens} (invalid : l.record = none) : l.moveState = .idle := by
  unfold Lens.moveState
  rw [invalid]

/-- R51: a command whose block answers with an issued move issues it. -/
theorem issuesMove_of_answer {i : Instr} {s : State} {kind : Nat} {c : Cmd} {p : Port} {ok : Bool} {body : Port → Hub → Answer}
    {h : Hub} {t : Targets} {clamped : Bool} {changed : LensRecord → Bool} {data : Hub → List Byte}
    (run : exec i s = s.next (s.toHub.takeCommand kind c ok (withPort c body))) (ready : s.ready) (named : addresses c p) (fits : ok = true)
    (answer : body p s.toHub = moveAnswer p { h.issueMove p t with clamped := clamped } (data (h.issueMove p t).hub))
    (open_ : (h.links.get p).carriesMoves = true) (same : (h.lenses.get p).record = (s.lenses.get p).record)
    (queue : h.uplink.queue = s.uplink.queue)
    (clamps : ∀ r, (h.lenses.get p).record = some r → clamped = ((axesAsked r.axes t).any && changed r))
    (invalid : (h.lenses.get p).record = none → clamped = false) : issuesMove i s kind c p h t changed data := by
  refine ⟨fun r record asked => ?_, fun r record unasked => ?_, fun none => ?_⟩
  · have here := same.trans record
    have parts := onlyIn_issueMove p t h
    refine ⟨_, moveIssued_issueMove here open_ asked,
      completes_port run ready named fits answer ((congrArg Uplink.queue parts.uplink).trans queue) ?_⟩
    rw [okOr_code, clamps r here, asked, Bool.true_and]
  · have here := same.trans record
    rw [issueMove_unasked here unasked] at answer
    rw [← moveState_of_record here]
    refine completes_port run ready named fits answer queue ?_
    rw [clamps r here, unasked, Bool.false_and]
    rfl
  · have here := same.trans none
    rw [issueMove_invalid here] at answer
    have idle : (0 : Nat) = (h.lenses.get p).moveState.code := by rw [moveState_of_invalid here]; rfl
    rw [show w1 0 = w1 (h.lenses.get p).moveState.code from congrArg w1 idle]
    refine completes_port run ready named fits answer queue ?_
    rw [invalid here]
    rfl

/-- R51: the link states in which a move is issued. -/
theorem carriesMoves_iff (l : Link) : l.carriesMoves = true ↔ l.state = .up ∨ l.state = .relock := by
  simp [Link.carriesMoves]

/-! ## LENS_MOVE (R67) -/

/-- R67: the targets and moved axes LENS_MOVE replies. -/
def movedFields (p : Port) (u : Hub) : List Byte :=
  (targetsOf (((u.lenses.get p).record.map (·.axes)).getD ⟨none, none, none⟩)).toList.flatMap wOpt2 ++
    wAxes (((u.lenses.get p).record.map (·.moved)).getD ⟨false, false, false⟩)

/-- R67: a target above 4095 counts where its axis is asked to move. -/
theorem overMax_eq (r : LensRecord) (t : Targets) : r.overMax t = (axesAsked r.axes (t.map fun o => o.filter (4095 < ·))).any := by
  have asked : axesAsked r.axes (t.map fun o => o.filter (4095 < ·)) =
      r.axes.zip (fun a v => a.isSome && (v.filter (4095 < ·)).isSome) t := rfl
  rw [asked]
  refine congrArg (fun g => (r.axes.zip g t).any) (funext₂ fun a v => ?_)
  cases a with
  | none => rfl
  | some x =>
    cases v with
    | none => rfl
    | some n => by_cases above : 4095 < n <;> simp [above]

/-- R67: with no axis asked to move no target above 4095 counts. -/
theorem overMax_of_unasked {r : LensRecord} {t : Targets} (unasked : (axesAsked r.axes (Targets.capped t)).any = false) :
    r.overMax t = false := by
  have axis {a : Option AxisRecord} {v : Option Nat} (no : (a.isSome && (v.map (min 4095)).isSome) = false) :
      (a.isSome && (v.filter (4095 < ·)).isSome) = false := by
    cases v with
    | none => exact no
    | some n => cases a with
      | none => rfl
      | some x => cases no
  rw [overMax_eq]
  simp only [axesAsked, Targets.capped, PerAxis.map, PerAxis.zip, PerAxis.any, Bool.or_eq_false_iff] at unasked ⊢
  obtain ⟨⟨focus, iris⟩, zoom⟩ := unasked
  exact ⟨⟨axis focus, axis iris⟩, axis zoom⟩

/-- R67: LENS_MOVE replies CLAMPED where a target of an axis it moves was brought into the limits or below 4096. -/
theorem clamped_lensMove {p : Port} {r : LensRecord} {h : Hub} (record : (h.lenses.get p).record = some r)
    (open_ : (h.links.get p).carriesMoves = true) (t : Targets) :
    ((h.issueMove p (Targets.capped t)).clamped || ((h.lenses.get p).record.map (·.overMax t)).getD false) =
      ((axesAsked r.axes (Targets.capped t)).any &&
        (targetOutside r.axes (Targets.capped t) || (axesAsked r.axes (t.map fun o => o.filter (4095 < ·))).any)) := by
  rw [clamped_issueMove record open_, record, Option.map_some, Option.getD_some]
  cases asked : (axesAsked r.axes (Targets.capped t)).any with
  | false => rw [overMax_of_unasked asked]; rfl
  | true => rw [overMax_eq, Bool.true_and, Bool.true_and]

/-- R67: LENS_MOVE while a move can be issued. -/
theorem lensMove_eq {p : Port} {h : Hub} (open_ : (h.links.get p).carriesMoves = true) {c : Cmd} {t : Targets}
    (sent : targetsAt c.payload 0 = t) :
    lensMove c p h = moveAnswer p
      { h.issueMove p (Targets.capped t) with
        clamped := (h.issueMove p (Targets.capped t)).clamped || ((h.lenses.get p).record.map (·.overMax t)).getD false }
      (movedFields p (h.issueMove p (Targets.capped t)).hub) := by
  subst sent
  have fields (u : Hub) : movedFields p u = Targets.bytes (((u.lenses.get p).record.map (·.targets)).getD Targets.empty) ++
      wAxes (((u.lenses.get p).record.map (·.moved)).getD ⟨false, false, false⟩) := by
    unfold movedFields
    cases (u.lenses.get p).record <;> rfl
  unfold lensMove
  rw [open_, fields]
  cases (h.lenses.get p).record <;> rfl

/-- An optional target as the claims read it. -/
theorem optU16At_eq (bs : List Byte) (i : Nat) : optU16At bs i = if byteAt bs i = 1 then some (u16At bs (i + 1)) else none := by
  simp [optU16At, flagAt]

/-! ## O45 -/

/-- R51: with the link neither UP nor RELOCK a lens command is refused. -/
theorem completes_shut {i : Instr} {s : State} {kind : Nat} {c : Cmd} {p : Port} {ok : Bool} {body : Port → Hub → Answer}
    (run : exec i s = s.next (s.toHub.takeCommand kind c ok (withPort c body))) (ready : s.ready) (named : addresses c p)
    (fits : ok = true)
    (refused : (s.links.get p).carriesMoves = false → body p s.toHub = refuse .badState s.toHub)
    (shut : ¬ ((s.links.get p).state = .up ∨ (s.links.get p).state = .relock)) : completes i s s.toHub kind c 6 [] :=
  completes_port run ready named fits (refused (Bool.eq_false_iff.2 (mt (carriesMoves_iff _).1 shut)))

section
variable {p : Port} {h : Hub}

theorem presetGo_eq (open_ : (h.links.get p).carriesMoves = true) (k : Fin 16) :
    presetGo p k h = moveAnswer p (h.issueMove p ((h.lenses.get p).presets.get k)) [] := by
  unfold presetGo
  rw [open_]
  rfl

theorem presetGo_shut (shut : (h.links.get p).carriesMoves = false) (k : Fin 16) : presetGo p k h = refuse .badState h := by
  unfold presetGo
  rw [shut]
  rfl

/-- R66: LENS_POP takes the top entry off the stack and issues a move to it. -/
theorem lensPop_eq {top : Targets} {rest : List Targets} (open_ : (h.links.get p).carriesMoves = true)
    (stack : (h.lenses.get p).stack = top :: rest) :
    lensPop p h = moveAnswer p ((h.modLens p fun l => { l with stack := rest }).issueMove p top) (w1 rest.length) := by
  unfold lensPop
  rw [open_, stack]
  rfl

theorem lensPop_empty (open_ : (h.links.get p).carriesMoves = true) (empty : (h.lenses.get p).stack = []) :
    lensPop p h = refuse .stackEmpty h := by
  unfold lensPop
  rw [open_, empty]
  rfl

theorem lensPop_shut (shut : (h.links.get p).carriesMoves = false) : lensPop p h = refuse .badState h := by
  unfold lensPop
  rw [shut]
  rfl

theorem lensMove_shut (shut : (h.links.get p).carriesMoves = false) (c : Cmd) : lensMove c p h = refuse .badState h := by
  unfold lensMove
  rw [shut]
  rfl

end

/-- Three presence bytes are 0 or 1. -/
theorem targetFlagsOk_iff (bs : List Byte) (i : Nat) :
    targetFlagsOk bs i = true ↔ byteAt bs i ≤ 1 ∧ byteAt bs (i + 3) ≤ 1 ∧ byteAt bs (i + 6) ≤ 1 := by
  simp [targetFlagsOk, flagOk, and_assoc]

/-- Settles O45: the three commands issue a move where the link carries one, and are refused where it does not. -/
theorem lensCommandsIssueMoves : Obligations.LensCommandsIssueMoves := by
  intro c p s ready named bs carries l part sent capped flagsOk moves written
  have carried (up : carries) : (s.links.get p).carriesMoves = true := (carriesMoves_iff _).2 up
  have sentIs : targetsAt c.payload 0 = sent := by
    unfold targetsAt
    rw [optU16At_eq, optU16At_eq, optU16At_eq]
  have flagged (flags : flagsOk) : targetFlagsOk c.payload 0 = true := (targetFlagsOk_iff _ _).2 flags
  refine ⟨fun k payload up => ?_, fun top rest empty up stack => ?_, fun len flags up => ?_, fun empty up stack => ?_,
    fun len index shut => ?_, fun empty shut => ?_, fun len flags shut => ?_⟩
  · have run : withPreset (byteAt c.payload 0) (presetGo p) s.toHub = _ :=
      (congrArg (fun v => withPreset (byteAt v 0) (presetGo p) s.toHub) payload).trans
        ((withPreset_eq k _ _).trans (presetGo_eq (carried up) k))
    exact issuesMove_of_answer (data := fun _ => []) rfl ready named (by simp [show c.payload = w1 k.val from payload, w1]) run
      (carried up) rfl rfl (fun r record => clamped_issueMove record (carried up) _)
      fun none => congrArg MoveAnswer.clamped (issueMove_invalid none _)
  · have record : ((s.toHub.modLens p fun l => { l with stack := rest }).lenses.get p).record = (s.lenses.get p).record := by simp
    exact issuesMove_of_answer (data := fun _ => w1 rest.length) rfl ready named (by simp [show c.payload = [] from empty])
      (lensPop_eq (carried up) stack) (carried up) record rfl (fun r record => clamped_issueMove record (carried up) _)
      fun none => congrArg MoveAnswer.clamped (issueMove_invalid none _)
  · refine issuesMove_of_answer (data := movedFields p) rfl ready named (decide_eq_true len)
      ((withFlags_of_ok (flagged flags) _ _).trans (lensMove_eq (carried up) sentIs)) (carried up) rfl rfl
      (fun r record => clamped_lensMove record (carried up) sent) fun none => ?_
    rw [issueMove_invalid none, none]
    rfl
  · exact completes_port rfl ready named (by simp [show c.payload = [] from empty]) (lensPop_empty (carried up) stack)
  · exact completes_shut rfl ready named (decide_eq_true len) (fun no => (dif_pos index).trans (presetGo_shut no _)) shut
  · exact completes_shut rfl ready named (by simp [show c.payload = [] from empty]) lensPop_shut shut
  · exact completes_shut rfl ready named (decide_eq_true len)
      (fun no => (withFlags_of_ok (flagged flags) _ _).trans (lensMove_shut no c)) shut

end Sys2Proof.Machine
end

