-- ==== Sys2Proof/Proofs/BadArguments.lean ====
section
/-! PROOF. O23: commands refused for an argument, and ROUTE_SET and ROUTE_READ refused for their port. -/

namespace Sys2Proof.Machine

/-! ## Arguments out of their choices (R193) -/

/-- R193: a command is refused where an option or presence byte is not 0 or 1, and where its block refuses an argument. -/
theorem withFlags_badArg {ok : Bool} {body : Hub → Answer} {h : Hub} (bad : ok = true → body h = refuse .badArg h) :
    withFlags ok body h = refuse .badArg h := by
  cases ok with
  | false => rfl
  | true => exact bad rfl

/-- R193: an option or presence byte above 1 is refused. -/
theorem withFlags_above {bs : List Byte} {i : Nat} (above : 1 < byteAt bs i) (body : Hub → Answer) (h : Hub) :
    withFlags (flagOk bs i) body h = refuse .badArg h :=
  withFlags_badArg fun ok => absurd (of_decide_eq_true ok) (Nat.not_le.2 above)

theorem not_above_of_targetFlagsOk {bs : List Byte} {i : Nat} (ok : targetFlagsOk bs i = true) :
    ¬ (1 < byteAt bs i ∨ 1 < byteAt bs (i + 3) ∨ 1 < byteAt bs (i + 6)) := by
  obtain ⟨focus, iris, zoom⟩ := (targetFlagsOk_iff bs i).1 ok
  omega

/-- R62, R193: an index above 15 is refused. -/
theorem withPreset_refused {n : Nat} (above : 15 < n) (body : Fin 16 → Hub → Answer) (h : Hub) :
    withPreset n body h = refuse .badArg h := dif_neg (Nat.not_lt.2 above)

/-- R193, R194: the start source codes are 0 to 2. -/
theorem StartSource.ofCode_of_above {n : Nat} (above : 2 < n) : StartSource.ofCode n = none := by
  obtain ⟨m, rfl⟩ := Nat.exists_eq_add_of_le' (show 3 ≤ n from above)
  rfl

/-- R80, R193: the table selectors are 0 to 2. -/
theorem Shot.named_of_above {n : Nat} (above : 2 < n) (s : Shot) : s.named n = none := by
  obtain ⟨m, rfl⟩ := Nat.exists_eq_add_of_le' (show 3 ≤ n from above)
  rfl

/-! ## The sources of ROUTE_SET and ROUTE_READ (R189, R194) -/

/-- R194: the codes below 5 are those of the sources of a port. -/
theorem PortSource.ofCode_of_lt {n : Nat} (below : n < 5) : ∃ k, PortSource.ofCode n = some k := by
  interval_cases n <;> exact ⟨_, rfl⟩

theorem PortSource.ofCode_of_le {n : Nat} (most : 5 ≤ n) : PortSource.ofCode n = none := by
  obtain ⟨m, rfl⟩ := Nat.exists_eq_add_of_le' most
  rfl

/-- R194: the codes from 5 to 8 are those of the global sources. -/
theorem GlobalSource.ofCode_of_le {n : Nat} (least : 5 ≤ n) (most : n ≤ 8) : ∃ g, GlobalSource.ofCode n = some g := by
  interval_cases n <;> exact ⟨_, rfl⟩

theorem GlobalSource.ofCode_of_above {n : Nat} (above : 8 < n) : GlobalSource.ofCode n = none := by
  obtain ⟨m, rfl⟩ := Nat.exists_eq_add_of_le' (show 9 ≤ n from above)
  rfl

/-- R189: the header port that a source of a code needs. -/
def sourcePort (c : Cmd) (n : Nat) : Prop := if n < 5 then c.port.toNat ≤ 5 else c.port = 0xFF

section
variable {c : Cmd} {n : Nat} (body : Source → Hub → Answer) (h : Hub)

/-- R189, R194: a code above 8 names no source. -/
theorem withSource_above (above : 8 < n) : withSource c n body h = refuse .badArg h := by
  unfold withSource
  rw [PortSource.ofCode_of_le (by omega), GlobalSource.ofCode_of_above above]

/-- R189: a source is served with the header port it needs, and refused with another. -/
theorem withSource_known (known : n ≤ 8) :
    (sourcePort c n → ∃ src, withSource c n body h = body src h) ∧
      (¬ sourcePort c n → withSource c n body h = refuse .badPort h) := by
  unfold withSource sourcePort
  by_cases perPort : n < 5
  · obtain ⟨k, source⟩ := PortSource.ofCode_of_lt perPort
    rw [source, if_pos perPort]
    exact ⟨fun port => ⟨_, dif_pos (Nat.lt_succ_of_le port)⟩, fun port => dif_neg (mt Nat.le_of_lt_succ port)⟩
  · obtain ⟨g, source⟩ := GlobalSource.ofCode_of_le (Nat.not_lt.1 perPort) known
    rw [PortSource.ofCode_of_le (Nat.not_lt.1 perPort), source, if_neg perPort]
    exact ⟨fun port => ⟨_, if_pos port⟩, fun port => if_neg port⟩

end

/-! ## The checks of the blocks -/

/-- R76: SLOT_WRITE of a slot, port or preset out of range. -/
theorem slotWrite_refused {c : Cmd}
    (bad : 15 < byteAt c.payload 0 ∨ 5 < byteAt c.payload 2 ∨ byteAt c.payload 15 = 1 ∧ 15 < byteAt c.payload 16) (h : Hub) :
    slotWrite c h = refuse .badArg h := by
  unfold slotWrite
  dsimp only
  split_ifs with slot port preset index
  · omega
  · rfl
  · have absent : byteAt c.payload 15 ≠ 1 := by simpa [flagAt] using preset
    omega
  · rfl
  · rfl

/-- R77: TABLE_HEADER of a start source out of range. -/
theorem tableHeader_refused {c : Cmd} (above : 2 < byteAt c.payload 0) (h : Hub) : tableHeader c h = refuse .badArg h := by
  unfold tableHeader
  rw [StartSource.ofCode_of_above above]

/-- R80: TABLE_READ of no table. -/
theorem tableRead_refused {c : Cmd} (above : 2 < byteAt c.payload 0) (h : Hub) : tableRead c h = refuse .badArg h := by
  unfold tableRead
  rw [Shot.named_of_above above]

/-- R134: one pair out of range spoils a POSE. -/
theorem posePairs_of_bad {bs : List Byte} {k : Nat} (bad : 5 < byteAt bs (1 + 2 * k) ∨ 31 < byteAt bs (2 + 2 * k)) {ks : List Nat}
    (mem : k ∈ ks) : posePairs bs ks = none := by
  induction ks with
  | nil => cases mem
  | cons j rest ih =>
    unfold posePairs
    rcases List.mem_cons.1 mem with rfl | later
    · split_ifs with port zone
      · omega
      · rfl
      · rfl
    · rw [ih later]
      split_ifs <;> rfl

/-- R134: POSE of no pair, of more than six, or with a pair out of range. -/
theorem pose_refused {c : Cmd}
    (bad : byteAt c.payload 0 = 0 ∨ 6 < byteAt c.payload 0 ∨ ∃ k, k < byteAt c.payload 0 ∧
      (5 < byteAt c.payload (1 + 2 * k) ∨ 31 < byteAt c.payload (2 + 2 * k))) (h : Hub) : pose c h = refuse .badArg h := by
  unfold pose
  dsimp only
  split_ifs with count
  · rfl
  · obtain none | many | ⟨k, inside, pair⟩ := bad
    · simp [none] at count
    · simp [many] at count
    · have mem : k ∈ countFrom 0 (byteAt c.payload 0) := by rw [countFrom_eq]; exact List.mem_range'_1.2 ⟨Nat.zero_le k, by omega⟩
      rw [posePairs_of_bad pair mem]

/-- R188: EVENT_ACK of a tag out of range. -/
theorem eventAck_refused {c : Cmd} (bad : u16At c.payload 0 = 0 ∨ 255 < u16At c.payload 0) (h : Hub) :
    eventAck c h = refuse .badArg h := if_pos (by simpa using bad)

/-- R145: ZONE_CLEAR of neither a zone nor ALL. -/
theorem zoneClear_refused {c : Cmd} (above : 31 < byteAt c.payload 0) (notAll : byteAt c.payload 0 ≠ 255) (p : Port) (h : Hub) :
    zoneClear c p h = refuse .badArg h := (dif_neg (Nat.not_lt.2 above)).trans (if_neg notAll)

/-- R151: ECHO_SETUP of an averaging other than 1, 4 or 16. -/
theorem echoSetup_refused {c : Cmd} (bad : byteAt c.payload 0 ∉ [1, 4, 16]) (p : Port) (h : Hub) :
    echoSetup c p h = refuse .badArg h := if_neg (by simpa [or_assoc] using bad)

/-! ## Commands by kind -/

/-- R96, R120, R130, R184: the commands with a clear option. -/
theorem clearing_of_kind {i : Instr} {k : Nat} {c : Cmd} (named : hostCommand i = some (k, c)) (kind : k ∈ [0x47, 0x51, 0x54, 0x82]) :
    (i = .cycleStatus c ∧ k = 0x47) ∨ (i = .storeStatus c ∧ k = 0x51) ∨ (i = .deliveryStatus c ∧ k = 0x54) ∨
      (i = .uplinkStatus c ∧ k = 0x82) := by
  cases i with
  | cycleStatus c' => cases named; exact .inl ⟨rfl, rfl⟩
  | storeStatus c' => cases named; exact .inr (.inl ⟨rfl, rfl⟩)
  | deliveryStatus c' => cases named; exact .inr (.inr (.inl ⟨rfl, rfl⟩))
  | uplinkStatus c' => cases named; exact .inr (.inr (.inr ⟨rfl, rfl⟩))
  | _ => cases named <;> simp at kind

/-- R163, R164: the commands of a port with an option byte alone. -/
theorem optioned_of_kind {i : Instr} {k : Nat} {c : Cmd} (named : hostCommand i = some (k, c)) (kind : k ∈ [0x76, 0x77]) :
    (i = .echoResult c ∧ k = 0x76) ∨ (i = .hunt c ∧ k = 0x77) := by
  cases i with
  | echoResult c' => cases named; exact .inl ⟨rfl, rfl⟩
  | hunt c' => cases named; exact .inr ⟨rfl, rfl⟩
  | _ => cases named <;> simp at kind

/-- Settles O23: each command's first failing check answers BAD_ARG, or BAD_PORT. -/
theorem badArgumentsRefused : Obligations.BadArgumentsRefused := by
  intro c s ready bs badArg
  refine ⟨fun i k named kind len above => ?_, fun len bad => ?_, fun len above => ?_, fun len above => ?_, fun len above => ?_,
    fun len bad => ?_, fun len bad => ?_, fun len bad => ?_, fun len above => ?_,
    ⟨fun len known flag port => ?_, fun len known port => ?_, fun len known port above => ?_⟩,
    fun p named => ⟨fun i k host kind len above => ?_, fun len above => ?_, fun len bad => ?_, fun len above => ?_, fun len above => ?_,
      fun len bad => ?_, fun len above notAll => ?_, fun len bad => ?_, fun len above => ?_, fun len bad => ?_⟩⟩
  · have fits : (c.payload.length == 1) = true := decide_eq_true len
    obtain ⟨rfl, rfl⟩ | ⟨rfl, rfl⟩ | ⟨rfl, rfl⟩ | ⟨rfl, rfl⟩ := clearing_of_kind named kind
    · exact completes_answer rfl ready fits (withFlags_above above _ _)
    · exact completes_answer rfl ready fits (withFlags_above above _ _)
    · exact completes_answer rfl ready fits (withFlags_above above _ _)
    · exact completes_answer rfl ready fits (withFlags_above above _ _)
  · refine completes_answer rfl ready (decide_eq_true len) (withFlags_badArg fun ok => slotWrite_refused ?_ _)
    obtain ⟨enabled, preset⟩ : byteAt c.payload 1 ≤ 1 ∧ byteAt c.payload 15 ≤ 1 := by simpa [flagOk] using ok
    exact bad.imp_right (Or.imp_right fun flags => (flags.resolve_left (Nat.not_lt.2 enabled)).resolve_left (Nat.not_lt.2 preset))
  · exact completes_answer rfl ready (decide_eq_true len) (tableHeader_refused above _)
  · exact completes_answer rfl ready (decide_eq_true len) (tableRead_refused above _)
  · exact completes_answer rfl ready (decide_eq_true len) (if_pos above)
  · exact completes_answer rfl ready (decide_eq_true len) (pose_refused bad _)
  · exact completes_answer rfl ready (decide_eq_true len) (eventAck_refused bad _)
  · exact completes_answer rfl ready (decide_eq_true len)
      (withFlags_badArg fun ok => withSource_above _ _ (bad.resolve_right (Nat.not_lt.2 (of_decide_eq_true ok))))
  · exact completes_answer rfl ready (decide_eq_true len) (withSource_above _ _ above)
  · exact completes_answer rfl ready (decide_eq_true len)
      ((withFlags_of_ok (decide_eq_true flag) _ _).trans ((withSource_known _ _ known).2 port))
  · exact completes_answer rfl ready (decide_eq_true len) ((withSource_known _ _ known).2 port)
  · refine completes_answer rfl ready (decide_eq_true len) (withFlags_badArg fun _ => ?_)
    obtain ⟨src, served⟩ := (withSource_known (routeSet c) s.toHub known).1 port
    exact served.trans (if_pos above)
  · have fits : (c.payload.length == 1) = true := decide_eq_true len
    obtain ⟨rfl, rfl⟩ | ⟨rfl, rfl⟩ := optioned_of_kind host kind
    · exact completes_port rfl ready named fits (withFlags_above above _ _)
    · exact completes_port rfl ready named fits (withFlags_above above _ _)
  · exact completes_port rfl ready named (decide_eq_true len) (withFlags_above above _ _)
  · exact completes_port rfl ready named (decide_eq_true len)
      (withFlags_badArg fun ok => withPreset_refused (bad.resolve_right (not_above_of_targetFlagsOk ok)) _ _)
  · exact completes_port rfl ready named (decide_eq_true len) (withPreset_refused above _ _)
  · exact completes_port rfl ready named (decide_eq_true len) (withPreset_refused above _ _)
  · exact completes_port rfl ready named (decide_eq_true len)
      (withFlags_badArg fun ok => absurd bad (not_above_of_targetFlagsOk ok))
  · exact completes_port rfl ready named (decide_eq_true len) (zoneClear_refused above notAll _ _)
  · exact completes_port rfl ready named (decide_eq_true len) (echoSetup_refused bad _ _)
  · exact completes_port rfl ready named (decide_eq_true len) (if_pos above)
  · exact completes_port rfl ready named (decide_eq_true len) (if_pos bad)

end Sys2Proof.Machine
end

