-- ==== Sys2Proof/Proofs/HubQueries.lean ====
section
/-! PROOF. O2 and O21: a step with no command waiting, and the queries. -/

namespace Sys2Proof.Machine

/-! ## An idle microsecond (R97) -/

/-- A slot's flight after some time: its guard timer, if it waits, has that much less to run. -/
theorem Flight.pass_eq (n : Nat) (f : Flight) :
    f.pass n = { f with
      stage := match f.stage with
        | .waiting left => .waiting (left - n)
        | .offered => .offered } := by
  unfold Flight.pass
  cases f with
  | mk slot port tag cycle exposure late stage => cases stage <;> rfl

/-- Settles O2: with no command waiting a step is `Hub.elapse 1`, timer by timer. -/
theorem idleStepPassesOneMicrosecond : Obligations.IdleStepPassesOneMicrosecond := by
  rintro ⟨h, pending⟩ none
  have guards : Flight.pass 1 = fun f => { f with
      stage := match f.stage with
        | .waiting left => .waiting (left - 1)
        | .offered => .offered } := funext fun f => Flight.pass_eq 1 f
  cases none
  unfold step idle State.next Hub.elapse Shot.pass
  rw [guards]
  rfl

/-! ## Queries (R80, R96, R97) -/

theorem byteAt_ofNat {n : Nat} (small : n < 256) : byteAt [BitVec.ofNat 8 n] 0 = n := by
  simp only [byteAt, List.getD_cons_zero, BitVec.toNat_ofNat]
  omega

/-- R80: a selector names a table where the list of the three holds one. -/
theorem named_eq (x : Shot) (k : Fin 3) : [some x.staged, x.active, x.pending][k.val]? = x.named k.val := by
  fin_cases k <;> rfl

theorem code_lt (src : Source) : src.code < 256 := by
  unfold Source.code
  split <;> decide

/-- R189: the source that a code and a header port name. -/
theorem withSource_eq {c : Cmd} {src : Source} (port : c.port = src.portByte) (body : Source → Hub → Answer) (h : Hub) :
    withSource c src.code body h = body src h := by
  cases src with
  | ofPort p k =>
    have named : addresses c p := by
      have small := p.isLt
      unfold addresses
      rw [port]
      simp only [Source.portByte, Machine.portByte, BitVec.toNat_ofNat]
      omega
    have asPort (x : PortSource) : withSource c (Source.ofPort p x).code body h = withPort c (fun q => body (.ofPort q x)) h := by
      cases x <;> rfl
    rw [asPort, withPort_eq named]
  | ofHub g => cases g <;> exact if_pos port

/-- Settles O21: each query answers the hub as it is, with the bytes that Laws/Replies lays out. -/
theorem hubQueriesChangeNothing : Obligations.HubQueriesChangeNothing := by
  intro c s ready
  have selector (k : Fin 3) (payload : c.payload = [BitVec.ofNat 8 k.val]) : byteAt c.payload 0 = k.val := by
    rw [payload, byteAt_ofNat (by omega)]
  refine ⟨fun k t payload present => ?_, fun k payload absent => ?_, fun empty => ?_, fun payload => ?_, fun payload => ?_,
    fun payload => ?_, fun src payload port => ?_⟩
  · refine completes_answer (status := .ok) rfl ready (by simp [payload]) ?_
    unfold tableRead
    rw [selector k payload, ← named_eq, present]
    simp [tableRead_eq, wFlag_eq, flagByte]
  · refine ⟨s.toHub.openBytes 327, length_openBytes _ _, completes_of_repliedTo (Hub.repliedTo_draw 327 _) ?_⟩
    refine completes_answer (status := .ok) rfl ready (by simp [payload]) ?_
    unfold tableRead
    rw [selector k payload, ← named_eq, absent]
    simp [wFlag_eq, flagByte]
  · exact completes_answer rfl ready (by simp [empty]) rfl
  · obtain ⟨len, ok, flag⟩ := flag_of_payload (b := false) payload
    refine completes_answer (status := .ok) rfl ready len ((withFlags_of_ok ok _ _).trans ?_)
    unfold storeStatus
    rw [flag, storeStatus_eq]
    rfl
  · obtain ⟨len, ok, flag⟩ := flag_of_payload (b := false) payload
    refine completes_answer (status := .ok) rfl ready len ((withFlags_of_ok ok _ _).trans ?_)
    unfold deliveryStatus
    rw [flag, deliveryStatus_eq]
    rfl
  · obtain ⟨len, ok, flag⟩ := flag_of_payload (b := false) payload
    refine completes_answer (status := .ok) rfl ready len ((withFlags_of_ok ok _ _).trans ?_)
    unfold uplinkStatus
    rw [flag, uplinkStatus_eq]
    rfl
  · have code : byteAt c.payload 0 = src.code := by
      rw [payload, byteAt_ofNat]
      exact code_lt src
    refine completes_answer (status := .ok) rfl ready (by simp [payload]) ?_
    rw [code, withSource_eq port]
    exact congrArg (Answer.mk _ _) (routeRead_eq _ src)

end Sys2Proof.Machine
end

