-- ==== Sys2Proof/Proofs/UpSlots.lean ====
section
/-! PROOF. O11, first part: slots in GUARD or OFFERED stand at links that are UP, and what leaves a port without a new slot or a new waiting TRIGGER. -/

namespace Sys2Proof.Machine

/-! ## A port at which no slot and no TRIGGER comes -/

/-- Between two hubs port `q`'s link keeps its state, and neither a slot in GUARD or OFFERED nor a waiting TRIGGER comes to the port. -/
structure Hub.Subsides (q : Port) (a b : Hub) : Prop where
  state : (b.links.get q).state = (a.links.get q).state
  slots : ∀ x ∈ b.shot.flights, x.port = q → ∃ y ∈ a.shot.flights, y.port = q
  words : ∀ w ∈ (b.links.get q).words, w.triggerTag? = none ∨ w ∈ (a.links.get q).words

theorem Hub.OffersMoves.serveList (l : List Port) {a h : Hub} (r : Hub.OffersMoves a h) : Hub.OffersMoves a (Hub.serveList l h) := by
  induction l generalizing h with
  | nil => exact r
  | cons p rest ih =>
    unfold Hub.serveList
    split
    · exact ih (startMove p (r.other rfl))
    · exact r

namespace Hub.Subsides

variable {q : Port} {a h : Hub}

theorem refl (q : Port) (h : Hub) : Hub.Subsides q h h := ⟨rfl, fun x mem port => ⟨x, mem, port⟩, fun _ mem => .inr mem⟩

theorem trans {b c : Hub} (h1 : Hub.Subsides q a b) (h2 : Hub.Subsides q b c) : Hub.Subsides q a c where
  state := h2.state.trans h1.state
  slots x mem port := by
    obtain ⟨y, mem', port'⟩ := h2.slots x mem port
    exact h1.slots y mem' port'
  words w mem := (h2.words w mem).elim .inl (h1.words w)

/-- LENS_MOVE words are offered, and slots may go. -/
theorem moves {b : Hub} (r : Hub.Subsides q a h) (offers : Hub.OffersMoves h b) (sub : b.shot.flights ⊆ h.shot.flights) :
    Hub.Subsides q a b := by
  refine r.trans ⟨?_, fun x mem port => ⟨x, sub mem, port⟩, fun w mem => ?_⟩
  · simpa [Link.kept] using congrArg Link.state (offers q).kept
  · cases tag : w.triggerTag? with
    | none => exact .inl rfl
    | some t => exact .inr ((offers q).trigger_waits mem tag)

/-- A change of other parts. -/
theorem other {l : List Part} {b : Hub} (r : Hub.Subsides q a h) (e : h.onlyIn l b) (apart : Part.links ∉ l ∧ Part.shot ∉ l) : Hub.Subsides q a b :=
  r.moves ((Hub.OffersMoves.refl h).other (e.links apart.1)) (by rw [e.shot apart.2]; exact List.Subset.refl _)

/-- Lens moves at any port. -/
theorem lensMoves {l : List Part} {b : Hub} (r : Hub.Subsides q a h) (offers : Hub.OffersMoves h b) (e : h.onlyIn l b)
    (shot : Part.shot ∉ l) : Hub.Subsides q a b :=
  r.moves offers (by rw [e.shot shot]; exact List.Subset.refl _)

theorem issueMove (p : Port) (t : Targets) (r : Hub.Subsides q a h) : Hub.Subsides q a (h.issueMove p t).hub :=
  r.lensMoves ((Hub.OffersMoves.refl h).issueMove p t) (onlyIn_issueMove p t h) (by decide)

theorem issueSlotMove (i : SlotIx) (r : Hub.Subsides q a h) : Hub.Subsides q a (h.issueSlotMove i) :=
  r.lensMoves ((Hub.OffersMoves.refl h).issueSlotMove i) (onlyIn_issueSlotMove i h) (by decide)

theorem issueNext (i : SlotIx) (n : BitVec 32) (r : Hub.Subsides q a h) : Hub.Subsides q a (h.issueNext i n) :=
  r.lensMoves ((Hub.OffersMoves.refl h).issueNext i n) (onlyIn_issueNext i n h) (by decide)

theorem offerLensMove (p : Port) (r : Hub.Subsides q a h) : Hub.Subsides q a (h.offerLensMove p) :=
  r.lensMoves (l := [.links]) ((Hub.OffersMoves.refl h).offerLensMove p) (Hub.onlyIn_of_hide (by simp)) (by decide)

theorem serve (r : Hub.Subsides q a h) : Hub.Subsides q a h.serve :=
  r.lensMoves (l := moveParts) ((Hub.OffersMoves.refl h).serveList _) (Hub.onlyIn_of_hide (by simp)) (by decide)

theorem serveIfBelow (n : Nat) (r : Hub.Subsides q a h) : Hub.Subsides q a (h.serveIfBelow n) := iteInduction (fun _ => r.serve) fun _ => r

theorem releaseSurge (p : Port) (r : Hub.Subsides q a h) : Hub.Subsides q a (h.releaseSurge p) :=
  (r.other (l := [.power]) (b := h.modPower p _) (Hub.onlyIn_of_hide (by simp)) (by decide)).serveIfBelow _

theorem endFlight (f : Flight) (why : SkipReason) (r : Hub.Subsides q a h) : Hub.Subsides q a (h.endFlight f why) :=
  r.moves ((Hub.OffersMoves.refl h).endFlight f why)
    (LostSlots.flights_subset ((LostSlots.refl [f.tag] h).endFlight why List.mem_cons_self))

theorem foldl {α : Type} (op : Hub → α → Hub) (keeps : ∀ h x, Hub.Subsides q a h → Hub.Subsides q a (op h x)) (l : List α)
    (r : Hub.Subsides q a h) : Hub.Subsides q a (l.foldl op h) := by
  induction l generalizing h with
  | nil => exact r
  | cons x l ih => exact ih (keeps h x r)

theorem endFlights (p : Port) (why : SkipReason) (r : Hub.Subsides q a h) : Hub.Subsides q a (h.endFlights p why) :=
  r.foldl _ (fun _ x k => k.endFlight x why) _

theorem triggerNotSent (t : FrameTag) (r : Hub.Subsides q a h) : Hub.Subsides q a (h.triggerNotSent t) := by
  unfold Hub.triggerNotSent
  split
  · exact r.endFlight _ _
  · exact r

theorem reportUnsent (tags : List FrameTag) (r : Hub.Subsides q a h) : Hub.Subsides q a (h.reportUnsent tags) :=
  r.foldl _ (fun _ t k => k.triggerNotSent t) _

theorem linkChange (p : Port) (c : LinkCause) (r : Hub.Subsides q a h) : Hub.Subsides q a (h.linkChange p c) := r.other (onlyIn_linkChange p c h) (by decide)

theorem finish (r : Hub.Subsides q a h) : Hub.Subsides q a h.finish := r.other (onlyIn_finish h) (by decide)

theorem dropFilling (p : Port) (st : CloseStatus) (why : SkipReason) (r : Hub.Subsides q a h) : Hub.Subsides q a (h.dropFilling p st why) := by
  rw [dropFilling_eq]
  exact (r.other (onlyIn_closeFilling p st h) (by decide)).endFlights p why

/-- Another port's link changes. -/
theorem modLink_ne {p : Port} (ne : q ≠ p) (f : Link → Link) (r : Hub.Subsides q a h) : Hub.Subsides q a (h.modLink p f) := by
  refine r.trans ⟨?_, fun x mem port => ⟨x, mem, port⟩, fun w mem => ?_⟩
  · rw [modLink_links, PerPort.get_mod_ne _ _ _ _ ne]
  · rw [modLink_links, PerPort.get_mod_ne _ _ _ _ ne] at mem
    exact .inr mem

/-- A link changes but for its state, and no TRIGGER joins its words. -/
theorem modLink (p : Port) (f : Link → Link) (r : Hub.Subsides q a h) (state : (f (h.links.get p)).state = (h.links.get p).state)
    (words : ∀ w ∈ (f (h.links.get p)).words, w.triggerTag? = none ∨ w ∈ (h.links.get p).words) : Hub.Subsides q a (h.modLink p f) := by
  by_cases here : q = p
  · subst here
    refine r.trans ⟨?_, fun x mem port => ⟨x, mem, port⟩, fun w mem => ?_⟩
    · rw [modLink_links, PerPort.get_mod_same, state]
    · rw [modLink_links, PerPort.get_mod_same] at mem
      exact words w mem
  · exact r.modLink_ne here f

theorem offerWord (p : Port) {w : DownWord} (plain : w.triggerTag? = none) (r : Hub.Subsides q a h) : Hub.Subsides q a (h.offerWord p w) := by
  refine r.modLink p _ ?_ fun x mem => ?_
  · rw [Link.offer_eq]
  · rcases mem_of_mem_offer mem with rfl | old
    · exact .inl plain
    · exact .inr old

/-- The scheduler changes, and no slot comes. -/
theorem modShot (f : Shot → Shot) (r : Hub.Subsides q a h)
    (slots : ∀ x ∈ (f h.shot).flights, ∃ y ∈ h.shot.flights, y.port = x.port) : Hub.Subsides q a (h.modShot f) := by
  refine r.trans ⟨rfl, fun x mem port => ?_, fun _ mem => .inr mem⟩
  obtain ⟨y, mem', port'⟩ := slots x mem
  exact ⟨y, mem', port'.trans port⟩

theorem modFlight (t : FrameTag) (f : Flight → Flight) (r : Hub.Subsides q a h) (port : ∀ x, (f x).port = x.port) :
    Hub.Subsides q a (h.modFlight t f) := by
  refine r.modShot _ fun x mem => ?_
  obtain ⟨y, mem', rfl⟩ := List.mem_map.1 mem
  refine ⟨y, mem', ?_⟩
  split
  · exact (port y).symm
  · rfl

theorem elapse (n : Nat) (h : Hub) : Hub.Subsides q h (h.elapse n) where
  state := ((sameStates_elapse n h) q).1
  slots x mem port := by
    obtain ⟨y, mem', rfl⟩ := List.mem_map.1 mem
    exact ⟨y, mem', (flight_pass n y).2.1 ▸ port⟩
  words w mem := by
    simp only [Hub.elapse, PerPort.get_map] at mem
    exact .inr mem

theorem letGo (p : Port) (r : Hub.Subsides q a h) : Hub.Subsides q a (h.letGo p) :=
  r.other (l := [.power, .lenses, .deferred]) (Hub.onlyIn_of_hide (by simp [Hub.letGo])) (by decide)

/-- R94: where the link is not UP an abandonment ends the port's slots. -/
theorem abandon_closed {p : Port} (k : h.closed p) (r : Hub.Subsides q a h) : Hub.Subsides q a (h.abandon p) := by
  rw [Machine.abandon_closed k]
  exact ((r.letGo p).serveIfBelow _).endFlights p _

theorem waiting_of_none {p : Port} {h : Hub} (none : ∀ x ∈ h.shot.flights, x.port ≠ p) : h.waiting p = [] := by
  refine List.filter_eq_nil_iff.2 fun x mem => ?_
  simp [none x mem]

/-- R92, R94: without slots at the port an abandonment tells the scheduler nothing new. -/
theorem abandon_of_none {p : Port} (none : ∀ x ∈ h.shot.flights, x.port ≠ p) (r : Hub.Subsides q a h) : Hub.Subsides q a (h.abandon p) := by
  have served := (r.letGo p).serveIfBelow h.reservedSum
  have shot : ((h.letGo p).serveIfBelow h.reservedSum).shot = h.shot := (onlyIn_serveIfBelow _ _).shot (by decide)
  have quiet : ((h.letGo p).serveIfBelow h.reservedSum).lensReady p = (h.letGo p).serveIfBelow h.reservedSum := by
    have none' : ((h.letGo p).serveIfBelow h.reservedSum).waiting p = [] := waiting_of_none (by rw [shot]; exact none)
    exact congrArg (List.foldl (fun g f => Hub.offerTrigger f false g) _) none'
  rw [abandon_eq]
  unfold Hub.lensAbandoned
  split
  · rw [quiet]
    exact served
  · exact served.endFlights p _

end Hub.Subsides

/-! ## The law (R3, R4, R88, R92, R94) -/

/-- A slot in GUARD or OFFERED has its port's link UP, and under `T` no TRIGGER waits at a link that is not UP. -/
def Hub.slotsUp (T : Prop) (h : Hub) : Prop :=
  (∀ x ∈ h.shot.flights, (h.links.get x.port).state = .up) ∧
    (T → ∀ p, (h.links.get p).state ≠ .up → ∀ w ∈ (h.links.get p).words, w.triggerTag? = none)

theorem slotsUp_iff (T : Prop) (s : State) : s.toHub.slotsUp T ↔ s.slotsKept ∧ (T → s.triggersKept) := Iff.rfl

/-- R92, R105: the slot of a flight is offered, and its frame flagged where it is late. -/
def Hub.offered (f : Flight) (late : Bool) (h : Hub) : Hub :=
  let marked := h.modFlight f.tag fun x => { x with stage := .offered, late := late }
  if late then marked.modFrame f.tag fun x => { x with lensLate := true } else marked

theorem onlyIn_offered (f : Flight) (late : Bool) (h : Hub) : h.onlyIn [.shot, .store] (h.offered f late) := by
  refine Hub.onlyIn_of_hide ?_
  unfold Hub.offered
  cases late <;> simp

/-- R92: in UP the TRIGGER of a slot is at the port's link, late or not. -/
theorem offerTrigger_up {f : Flight} {h : Hub} (late : Bool) (up : (h.links.get f.port).state = .up) :
    h.offerTrigger f late = (h.offered f late).offerWord f.port (.trigger f.tag f.exposure) := by
  have up' : ((h.offered f late).links.get f.port).state = .up := by rw [(onlyIn_offered f late h).links (by decide), up]
  have run : h.offerTrigger f late =
      match (((h.offered f late).links.get f.port).offer (.trigger f.tag f.exposure)).2 with
      | some t => ((h.offered f late).offerWord f.port (.trigger f.tag f.exposure)).triggerNotSent t
      | none => (h.offered f late).offerWord f.port (.trigger f.tag f.exposure) := rfl
  rw [run, offer_lost up']

/-! ### A slot that opens (R90 to R92) -/

/-- R85: the opening timer of a slot has stopped. -/
def Hub.stopOpening (i : SlotIx) (h : Hub) : Hub := h.modShot fun s => { s with opening := s.opening.set i none }

/-- R92, R94: the flight of a slot that passes its checks. -/
def Hub.flightOf (i : SlotIx) (r : SlotRecord) (h : Hub) : Flight :=
  { slot := i, port := r.port, tag := h.store.nextTag, cycle := h.shot.number, exposure := r.exposure, late := false
    stage := .waiting r.guardTime }

/-- R92, R104: a slot has its frame and waits. -/
def Hub.flying (i : SlotIx) (r : SlotRecord) (h : Hub) : Hub :=
  (h.openFrame i r).modShot fun s => { s with flights := s.flights ++ [h.flightOf i r] }

theorem openSlot_eq {i : SlotIx} {tb : ShotTable} {h : Hub} (active : h.shot.active = some tb) :
    h.openSlot i = match (h.stopOpening i).openingFault (tb.slots.get i) with
      | some why => (h.stopOpening i).skipSlot i (tb.slots.get i).port (h.stopOpening i).shot.number why
      | none =>
        if ((h.stopOpening i).flying i (tb.slots.get i)).mustWait (tb.slots.get i) then
          if (tb.slots.get i).guardTime = 0 then
            ((h.stopOpening i).flying i (tb.slots.get i)).offerTrigger ((h.stopOpening i).flightOf i (tb.slots.get i)) true
          else (h.stopOpening i).flying i (tb.slots.get i)
        else ((h.stopOpening i).flying i (tb.slots.get i)).offerTrigger ((h.stopOpening i).flightOf i (tb.slots.get i)) false := by
  unfold Hub.openSlot
  rw [active]
  rfl

/-- R90: the checks pass only where the link is UP. -/
theorem link_of_openingFault {r : SlotRecord} {h : Hub} (pass : h.openingFault r = none) : (h.links.get r.port).state = .up := by
  unfold Hub.openingFault at pass
  split_ifs at pass with power link
  simpa using link

theorem onlyIn_flying (i : SlotIx) (r : SlotRecord) (h : Hub) : h.onlyIn [.shot, .store, .router, .uplink, .draws] (h.flying i r) :=
  Hub.onlyIn_of_hide (by simp [Hub.flying])

namespace Hub.slotsUp

variable {T : Prop} {h : Hub}

/-! ### Rules -/

/-- A link that is not UP has no slot. -/
theorem noSlots {p : Port} (r : h.slotsUp T) (out : (h.links.get p).state ≠ .up) : ∀ x ∈ h.shot.flights, x.port ≠ p :=
  fun x mem port => out (port ▸ r.1 x mem)

/-- What leaves every link's state, and brings neither a slot nor a TRIGGER, keeps the law. -/
theorem subsides {b : Hub} (r : h.slotsUp T) (e : ∀ q, Hub.Subsides q h b) : b.slotsUp T := by
  refine ⟨fun x mem => ?_, fun t p out w mem => ?_⟩
  · obtain ⟨y, mem', port⟩ := (e x.port).slots x mem rfl
    rw [(e x.port).state, ← port]
    exact r.1 y mem'
  · rw [(e p).state] at out
    exact ((e p).words w mem).elim id (r.2 t p out w)

theorem other {l : List Part} {b : Hub} (r : h.slotsUp T) (e : h.onlyIn l b) (apart : Part.links ∉ l ∧ Part.shot ∉ l) : b.slotsUp T :=
  r.subsides fun q => (Hub.Subsides.refl q h).other e apart

theorem foldl {α : Type} (op : Hub → α → Hub) (keeps : ∀ h x, h.slotsUp T → (op h x).slotsUp T) (l : List α)
    (r : h.slotsUp T) : (l.foldl op h).slotsUp T := by
  induction l generalizing h with
  | nil => exact r
  | cons x l ih => exact ih (keeps h x r)

/-- R94: one port's link changes; its slots end, and no TRIGGER is left in a state other than UP. -/
theorem leave {p : Port} {m b : Hub} (r : h.slotsUp T) (others : ∀ q, q ≠ p → Hub.Subsides q h m) (chain : ∀ q, Hub.Subsides q m b)
    (gone : ∀ x ∈ b.shot.flights, x.port ≠ p)
    (words : T → (m.links.get p).state ≠ .up → ∀ w ∈ (m.links.get p).words, w.triggerTag? = none) : b.slotsUp T := by
  have away (q : Port) (ne : q ≠ p) : Hub.Subsides q h b := (others q ne).trans (chain q)
  refine ⟨fun x mem => ?_, fun t q out w mem => ?_⟩
  · have at_ := away x.port (gone x mem)
    obtain ⟨y, mem', port⟩ := at_.slots x mem rfl
    rw [at_.state, ← port]
    exact r.1 y mem'
  · by_cases here : q = p
    · subst here
      rw [(chain q).state] at out
      exact ((chain q).words w mem).elim id (words t out w)
    · rw [(away q here).state] at out
      exact ((away q here).words w mem).elim id (r.2 t q out w)

/-- A link that is not UP may go to any state, if no word joins. -/
theorem modLink_closed {p : Port} (r : h.slotsUp T) (f : Link → Link) (out : (h.links.get p).state ≠ .up)
    (words : ∀ w ∈ (f (h.links.get p)).words, w ∈ (h.links.get p).words) : (h.modLink p f).slotsUp T := by
  refine r.leave (fun q ne => (Hub.Subsides.refl q h).modLink_ne ne f) (fun q => .refl q _) (r.noSlots out) fun t _ w mem => ?_
  rw [modLink_links, PerPort.get_mod_same] at mem
  exact r.2 t p out w (words w mem)

/-- A link changes but for its state, and no TRIGGER joins its words. -/
theorem modLink (p : Port) (f : Link → Link) (r : h.slotsUp T) (state : (f (h.links.get p)).state = (h.links.get p).state)
    (words : ∀ w ∈ (f (h.links.get p)).words, w ∈ (h.links.get p).words) : (h.modLink p f).slotsUp T :=
  r.subsides fun q => (Hub.Subsides.refl q h).modLink p f state fun w mem => .inr (words w mem)

theorem elapse (n : Nat) (r : h.slotsUp T) : (h.elapse n).slotsUp T := r.subsides fun _ => Hub.Subsides.elapse n h
theorem finish (r : h.slotsUp T) : h.finish.slotsUp T := r.other (onlyIn_finish h) (by decide)
theorem fire (src : Source) (d : List Byte) (r : h.slotsUp T) : (h.fire src d).slotsUp T := r.other (onlyIn_fire src d h) (by decide)
theorem linkChange (p : Port) (c : LinkCause) (r : h.slotsUp T) : (h.linkChange p c).slotsUp T := r.other (onlyIn_linkChange p c h) (by decide)
theorem issueMove (p : Port) (t : Targets) (r : h.slotsUp T) : (h.issueMove p t).hub.slotsUp T :=
  r.subsides fun q => (Hub.Subsides.refl q h).issueMove p t
theorem issueSlotMove (i : SlotIx) (r : h.slotsUp T) : (h.issueSlotMove i).slotsUp T :=
  r.subsides fun q => (Hub.Subsides.refl q h).issueSlotMove i
theorem issueNext (i : SlotIx) (n : BitVec 32) (r : h.slotsUp T) : (h.issueNext i n).slotsUp T :=
  r.subsides fun q => (Hub.Subsides.refl q h).issueNext i n
theorem serve (r : h.slotsUp T) : h.serve.slotsUp T := r.subsides fun q => (Hub.Subsides.refl q h).serve
theorem serveIfBelow (n : Nat) (r : h.slotsUp T) : (h.serveIfBelow n).slotsUp T := r.subsides fun q => (Hub.Subsides.refl q h).serveIfBelow n
theorem releaseSurge (p : Port) (r : h.slotsUp T) : (h.releaseSurge p).slotsUp T :=
  r.subsides fun q => (Hub.Subsides.refl q h).releaseSurge p
theorem endFlight (f : Flight) (why : SkipReason) (r : h.slotsUp T) : (h.endFlight f why).slotsUp T :=
  r.subsides fun q => (Hub.Subsides.refl q h).endFlight f why
theorem endFlights (p : Port) (why : SkipReason) (r : h.slotsUp T) : (h.endFlights p why).slotsUp T :=
  r.subsides fun q => (Hub.Subsides.refl q h).endFlights p why
theorem dropFilling (p : Port) (st : CloseStatus) (why : SkipReason) (r : h.slotsUp T) : (h.dropFilling p st why).slotsUp T :=
  r.subsides fun q => (Hub.Subsides.refl q h).dropFilling p st why
theorem triggerNotSent (t : FrameTag) (r : h.slotsUp T) : (h.triggerNotSent t).slotsUp T :=
  r.subsides fun q => (Hub.Subsides.refl q h).triggerNotSent t

/-! ### Slots -/

theorem offered (f : Flight) (late : Bool) (r : h.slotsUp T) : (h.offered f late).slotsUp T := by
  have marked := r.subsides fun q =>
    (Hub.Subsides.refl q h).modFlight f.tag (fun x => { x with stage := .offered, late := late }) fun _ => rfl
  exact iteInduction (fun _ => marked) fun _ => marked

/-- R92: a TRIGGER is offered where the link is UP. -/
theorem offerTrigger (f : Flight) (late : Bool) (up : (h.links.get f.port).state = .up) (r : h.slotsUp T) :
    (h.offerTrigger f late).slotsUp T := by
  have marked := r.offered f late
  have state (q : Port) : (((h.offered f late).offerWord f.port (.trigger f.tag f.exposure)).links.get q).state =
      ((h.offered f late).links.get q).state :=
    (sameStates_of_kept (kept_offerWord f.port (.trigger f.tag f.exposure) (h.offered f late)) q).1
  rw [offerTrigger_up late up]
  refine ⟨fun x mem => (state x.port).trans (marked.1 x mem), fun t q out w mem => ?_⟩
  have ne : q ≠ f.port := by
    rintro rfl
    rw [state, (onlyIn_offered f late h).links (by decide)] at out
    exact out up
  rw [state] at out
  unfold Hub.offerWord at mem
  rw [modLink_links, PerPort.get_mod_ne _ _ _ _ ne] at mem
  exact marked.2 t q out w mem

/-- R92: the slots in GUARD at a port stand at a link that is UP. -/
theorem lensReady (p : Port) (r : h.slotsUp T) : (h.lensReady p).slotsUp T := by
  have offers (l : List Flight) (own : ∀ x ∈ l, (h.links.get x.port).state = .up) :
      (l.foldl (fun g x => g.offerTrigger x false) h).slotsUp T ∧ h.sameStates (l.foldl (fun g x => g.offerTrigger x false) h) :=
    ⟨by
      induction l generalizing h with
      | nil => exact r
      | cons x l ih =>
        have up := own x List.mem_cons_self
        have states := sameStates_of_kept (kept_offerTrigger x false h)
        exact ih (r.offerTrigger x false up) fun y mem => (states y.port).1.trans (own y (List.mem_cons_of_mem x mem)),
      sameStates_of_kept (kept_foldl_offerTrigger false l h)⟩
  exact (offers (h.waiting p) fun x mem => r.1 x (List.mem_filter.1 mem).1).1

theorem lensAbandoned (p : Port) (r : h.slotsUp T) : (h.lensAbandoned p).slotsUp T :=
  iteInduction (fun _ => r.lensReady p) fun _ => r.endFlights p _

theorem abandon (p : Port) (r : h.slotsUp T) : (h.abandon p).slotsUp T := by
  rw [abandon_eq]
  exact (r.subsides fun q => ((Hub.Subsides.refl q h).letGo p).serveIfBelow _).lensAbandoned p

theorem endMove (p : Port) (st : MoveState) (c : DoneCause) (r : h.slotsUp T) : (h.endMove p st c).slotsUp T := by
  have ended (f : LensRecord → LensRecord) : (((h.modRecord p f).releaseSurge p).lensReady p).slotsUp T :=
    (releaseSurge (h := h.modRecord p f) p r).lensReady p
  unfold Hub.endMove
  dsimp only
  split
  · exact (ended _).fire _ _
  · exact ended _

theorem takeLensStatus (p : Port) (w : LensStatusWord) (r : h.slotsUp T) : (h.takeLensStatus p w).slotsUp T := by
  have recorded (g : Hub) (f : LensRecord → LensRecord) (k : g.slotsUp T) : (g.modRecord p f).slotsUp T := k
  unfold Hub.takeLensStatus
  dsimp only
  split
  · exact r
  · rename_i x _
    have taken : (if x.retargeted (x.take w) = true then (h.modRecord p fun _ => x.take w).offerLensMove p
        else h.modRecord p fun _ => x.take w).slotsUp T :=
      iteInduction (fun _ => subsides (h := h.modRecord p fun _ => x.take w) r fun q => (Hub.Subsides.refl q _).offerLensMove p) fun _ => r
    split
    · exact r
    · split
      · split
        · exact endMove (h := Hub.modRecord p _ _) p _ _ (recorded _ _ taken)
        · exact recorded _ _ taken
      · exact recorded _ _ taken

/-- R90: a slot opens where the link is UP. -/
theorem openSlot (i : SlotIx) (r : h.slotsUp T) : (h.openSlot i).slotsUp T := by
  have stopped : (h.stopOpening i).slotsUp T := r
  cases active : h.shot.active with
  | none =>
    unfold Hub.openSlot
    rw [active]
    exact r
  | some tb =>
    rw [openSlot_eq active]
    split
    · exact issueNext (h := Hub.fire _ _ _) i _ (fire (h := Hub.recordOutcome i _ _ _) _ _ stopped)
    · rename_i pass
      have up := link_of_openingFault pass
      have links := (onlyIn_flying i (tb.slots.get i) (h.stopOpening i)).links (by decide)
      have opened : ((h.stopOpening i).openFrame i (tb.slots.get i)).slotsUp T :=
        stopped.other (l := [.store, .router, .uplink, .draws]) (Hub.onlyIn_of_hide (by simp)) (by decide)
      have flying : ((h.stopOpening i).flying i (tb.slots.get i)).slotsUp T := by
        refine ⟨fun x mem => ?_, opened.2⟩
        rcases List.mem_append.1 mem with old | new
        · exact opened.1 x old
        · rw [List.mem_singleton.1 new, links]
          exact up
      split_ifs
      · exact flying.offerTrigger _ _ (by rw [links]; exact up)
      · exact flying
      · exact flying.offerTrigger _ _ (by rw [links]; exact up)

theorem beginCycle (r : h.slotsUp T) : h.beginCycle.slotsUp T := by
  unfold Hub.beginCycle
  split
  · exact r
  · exact foldl _ (fun _ i k => k.openSlot i) _ (foldl (h := Hub.modShot _ _) _ (fun _ i k => k.issueSlotMove i) _ r)

theorem start (k : StartSource) (r : h.slotsUp T) : (h.start k).slotsUp T := by
  unfold Hub.start
  split
  · exact r.beginCycle
  · exact fire (h := Hub.modShot _ _) _ _ r
  · exact r

theorem encoderEdge (x y : Bool) (r : h.slotsUp T) : (h.encoderEdge x y).slotsUp T := by
  unfold Hub.encoderEdge
  dsimp only
  split
  · split
    · exact start (h := Hub.modShot _ _) _ r
    · exact r
  · exact r

theorem triggerLine (r : h.slotsUp T) : h.triggerLine.slotsUp T := iteInduction (fun _ => r.start _) fun _ => r

end Hub.slotsUp

end Sys2Proof.Machine
end

