-- ==== Sys2Proof/Proofs/UpLinks.lean ====
section
/-! PROOF. O11, second part: links that change their state, power and resets keep every slot at a link that is UP. -/

namespace Sys2Proof.Machine

/-- R93: a TRIGGER sent ends its slot, and no slot comes. -/
theorem flights_triggerSent (t : FrameTag) (h : Hub) : (h.triggerSent t).shot.flights ⊆ h.shot.flights := by
  cases found : h.shot.flights.find? (fun x => x.tag == t && x.stage == .offered) with
  | none =>
    unfold Hub.triggerSent
    rw [found]
    exact List.Subset.refl _
  | some f =>
    rw [triggerSent_eq found]
    exact List.filter_subset_self _

theorem flights_wordGone (p : Port) (c : OnCable) (h : Hub) : (h.wordGone p c).shot.flights ⊆ h.shot.flights := by
  unfold Hub.wordGone
  split
  · split
    · exact List.Subset.refl _
    · exact flights_triggerSent _ _
  · exact List.Subset.refl _

namespace Hub.slotsUp

variable {T : Prop} {h : Hub}

/-! ## Links (R8 to R18) -/

theorem enterAcquire (p : Port) (rate : Rate) (c : LinkCause) (r : h.slotsUp T) : (h.enterAcquire p rate c).slotsUp T := by
  have acquiring (q : Port) (ne : q ≠ p) : Hub.Subsides q h (h.acquires p rate) :=
    ((Hub.Subsides.refl q h).modLink_ne ne _).offerWord p rfl
  have chain (q : Port) : Hub.Subsides q (h.acquires p rate) (h.enterAcquire p rate c) :=
    (((Hub.Subsides.refl q _).reportUnsent _).linkChange p c).abandon_closed reported_closed
  refine r.leave acquiring chain no_flights_enterAcquire fun _ _ w mem => ?_
  obtain ⟨x, rfl⟩ := (acquiring_acquires p rate h).words w mem
  rfl

/-- R11: a link in ACQUIRE, so not UP, fails. -/
theorem acquireFailed (p : Port) (out : (h.links.get p).state ≠ .up) (r : h.slotsUp T) : (h.acquireFailed p).slotsUp T := by
  rw [acquireFailed_eq]
  exact ((r.modLink_closed (Link.toFailed h.now) out fun _ mem => mem).linkChange p .timeout).abandon p

theorem linkStart (p : Port) (out : (h.links.get p).state ≠ .up) (r : h.slotsUp T) : (h.linkStart p).slotsUp T := by
  have started := r.modLink_closed (p := p) (Link.start h.now) out fun _ mem => mem
  unfold Hub.linkStart
  dsimp only
  split
  · exact (started.subsides fun q => (Hub.Subsides.refl q _).offerWord p rfl).linkChange p .powerOn
  · exact started.linkChange p .powerOn

/-- R16, R117: a link that is DOWN, with what its slots held given up. -/
theorem linkStop (p : Port) (r : h.slotsUp T) : (h.linkStop p).slotsUp T := by
  have ends (g : Hub) (down : (g.links.get p).state = .down) :
      (∀ q, Hub.Subsides q g (((g.dropFilling p .powerLost (g.skipReason p)).abandon p).modLens p fun l => { l with record := .none })) ∧
        ∀ x ∈ (((g.dropFilling p .powerLost (g.skipReason p)).abandon p).modLens p fun l => { l with record := .none }).shot.flights,
          x.port ≠ p := by
    have dropped (q : Port) := (Hub.Subsides.refl q g).dropFilling p .powerLost (g.skipReason p)
    have closed : (g.dropFilling p .powerLost (g.skipReason p)).closed p := by
      rw [closed_iff, (dropped p).state, down]
      decide
    exact ⟨fun q => ((dropped q).abandon_closed closed).other (l := [.lenses]) (Hub.onlyIn_of_hide (by simp)) (by decide), no_flights_abandon closed⟩
  unfold Hub.linkStop
  dsimp only
  by_cases down : (h.links.get p).state = .down
  · rw [if_pos (by simp [down])]
    exact r.subsides (ends h down).1
  · rw [if_neg (by simp [down])]
    have reported (q : Port) : Hub.Subsides q (h.modLink p (Link.toDown h.now))
        (((h.modLink p (Link.toDown h.now)).linkChange p .powerOff).reportUnsent (h.links.get p).unsent) :=
      ((Hub.Subsides.refl q _).linkChange p .powerOff).reportUnsent _
    have toDown : ((h.modLink p (Link.toDown h.now)).links.get p) = Link.toDown h.now (h.links.get p) := by simp
    obtain ⟨rest, gone⟩ := ends _ ((reported p).state.trans (congrArg Link.state toDown))
    refine r.leave (fun q ne => (Hub.Subsides.refl q h).modLink_ne ne (Link.toDown h.now)) (fun q => (reported q).trans (rest q)) gone
      fun _ _ w mem => ?_
    rw [toDown] at mem
    cases mem

theorem leaveOn (p : Port) (was : Bool) (r : h.slotsUp T) : (h.leaveOn p was).slotsUp T :=
  iteInduction (fun _ => r.linkStop p) fun _ => r

theorem lockLostUp (p : Port) (r : h.slotsUp T) : (h.lockLostUp p).slotsUp T := by
  have dropped : (h.dropOnLockLoss p).slotsUp T :=
    ((r.modLink p Link.loseLock rfl fun _ mem => mem).other (onlyIn_countDrop p _) (by decide)).dropFilling p .linkLost .link
  have gone : ∀ x ∈ (h.dropOnLockLoss p).shot.flights, x.port ≠ p := no_flights_endFlights p .link _
  rw [lockLostUp_eq]
  split
  · exact dropped.enterAcquire p _ _
  · generalize h.dropOnLockLoss p = g at dropped gone ⊢
    have chain (q : Port) : Hub.Subsides q (g.modLink p (Link.toRelock g.now)) ((g.modLink p (Link.toRelock g.now)).reportUnsent
        (g.links.get p).unsent) := (Hub.Subsides.refl q _).reportUnsent _
    refine dropped.leave (fun q ne => (Hub.Subsides.refl q g).modLink_ne ne (Link.toRelock g.now)) chain (fun x mem port => ?_)
      fun _ _ w mem => ?_
    · obtain ⟨y, mem', port'⟩ := (chain p).slots x mem port
      exact gone y mem' port'
    · rw [modLink_links, PerPort.get_mod_same] at mem
      exact Option.isNone_iff_eq_none.1 (List.mem_filter.1 mem).2

theorem takeHello (p : Port) (w : HelloWord) (r : h.slotsUp T) : (h.takeHello p w).slotsUp T := by
  unfold Hub.takeHello
  split
  · exact r.modLink p _ rfl fun _ mem => mem
  · dsimp only
    split
    · exact linkChange (h := Hub.buildLens p _ _) p _ ((r.modLink p (fun l => { l with camera := some (CameraRecord.ofHello w h.now) }) rfl fun _ mem => mem).abandon p)
    · rename_i out
      exact (r.modLink_closed (Link.toUp (CameraRecord.ofHello w h.now) h.now) (by simpa using out) fun _ mem => mem).linkChange p .acquired

theorem wordEnd (p : Port) (c : OnCable) (r : h.slotsUp T) : (h.wordEnd p c).slotsUp T := by
  have gone : (h.wordGone p c).slotsUp T := by
    have free : (h.modLink p Link.free).slotsUp T := r.modLink p _ rfl fun _ mem => mem
    refine free.subsides fun q => ⟨by rw [(onlyIn_wordGone p c h).links (by decide)], fun x mem port => ⟨x, ?_, port⟩, fun w mem => .inr ?_⟩
    · exact flights_wordGone p c h mem
    · rwa [(onlyIn_wordGone p c h).links (by decide)] at mem
  have pumped : ((h.wordGone p c).modLink p fun l => l.pump.1).slotsUp T :=
    gone.modLink p _ (congrArg Link.state (Link.kept_pump _) : _) fun _ mem => pump_words_subset _ mem
  unfold Hub.wordEnd
  dsimp only
  split
  · exact pumped.triggerNotSent _
  · exact pumped

/-! ## Power (R22 to R43) -/

theorem activate (src : Source) (r : h.slotsUp T) : (h.activate src).slotsUp T := r.other (l := reportParts) (Hub.onlyIn_of_hide (by simp)) (by decide)

theorem lookForJob (r : h.slotsUp T) : h.lookForJob.slotsUp T := r.other (l := [.echo]) (Hub.onlyIn_of_hide (by simp)) (by decide)

theorem requestAuto (p : Port) (r : h.slotsUp T) : (h.requestAuto p).slotsUp T := r.other (l := [.echo]) (Hub.onlyIn_of_hide (by simp)) (by decide)

/-- R28: a trip from ON takes the link to DOWN. -/
theorem trip (p : Port) (c : TripCause) (r : h.slotsUp T) : (h.trip p c).slotsUp T := by
  have left : ((h.modPower p (Power.trip c)).leaveOn p ((h.power.get p).state == .on)).slotsUp T :=
    leaveOn (h := h.modPower p (Power.trip c)) p _ r
  have served := (left.activate (.ofPort p .powerFault)).serveIfBelow h.reservedSum
  unfold Hub.trip
  dsimp only
  split
  · exact served.requestAuto p
  · exact served

theorem sample (p : Port) (n : Nat) (r : h.slotsUp T) : (h.sample p n).slotsUp T := by
  unfold Hub.sample
  dsimp only
  split
  · exact trip (h := h.modPower p (Power.sampled n)) p _ r
  · exact r

/-- R27: the link of a port in PRECHARGE is not UP. -/
theorem inrushEnd (p : Port) (out : (h.links.get p).state ≠ .up) (r : h.slotsUp T) : (h.inrushEnd p).slotsUp T :=
  iteInduction (fun _ => linkStart (h := h.modPower p Power.toOn) p out r) fun _ => r.trip p _

theorem turnOff (p : Port) (r : h.slotsUp T) : (h.turnOff p).slotsUp T :=
  (leaveOn (h := h.modPower p Power.toOff) p _ r).serveIfBelow _

theorem enterHunt (p : Port) (restore : Bool) (r : h.slotsUp T) : (h.enterHunt p restore).slotsUp T :=
  (leaveOn (h := h.modPower p (Power.toHunt restore)) p _ r).serveIfBelow _

theorem queueJob (p : Port) (k : EchoKind) (r : h.slotsUp T) : (h.queueJob p k).slotsUp T := r.other (l := [.echo]) (Hub.onlyIn_of_hide (by simp)) (by decide)

theorem autoResult (p : Port) (located : Bool) (r : h.slotsUp T) : (h.autoResult p located).slotsUp T := by
  unfold Hub.autoResult
  dsimp only
  split_ifs
  · exact r
  · exact serveIfBelow (h := Hub.modPower p _ h) _ r
  · exact r
  · exact r

theorem completeJob (j : EchoJob) (r : h.slotsUp T) : (h.completeJob j).slotsUp T := by
  have stored : (((if j.kind = .learn then h.modEchoPort j.port fun e => { e with baseline := some j.learned } else h).storeResult j.port
      (j.result h.now)).modEcho fun e => { e with sampler := .none }).slotsUp T := by
    refine r.other (l := [.echo]) (Hub.onlyIn_of_hide ?_) (by decide)
    split <;> simp
  unfold Hub.completeJob
  dsimp only
  refine lookForJob (fire _ _ ?_)
  split
  · exact stored
  · exact stored.autoResult _ _
  · exact stored

/-! ## Resets -/

/-- R21, R46, R99: PORT_RESET ends the port's slots before its link goes DOWN. -/
theorem portReset (p : Port) (r : h.slotsUp T) : (h.portReset p).slotsUp T := by
  have store (q : Port) : Hub.Subsides q h (h.portResetStore p) := by
    refine (Hub.Subsides.refl q h).other (l := [.store, .router, .uplink, .draws]) (Hub.onlyIn_of_hide ?_) (by decide)
    unfold Hub.portResetStore
    dsimp only
    split <;> simp
  have ended : ∀ x ∈ ((h.portResetStore p).endFlights p .power).shot.flights, x.port ≠ p := no_flights_endFlights p .power _
  have lens (q : Port) : Hub.Subsides q h (((h.portResetStore p).endFlights p .power).portResetLens p) :=
    (((store q).endFlights p .power).abandon_of_none ended).other (l := [.lenses]) (Hub.onlyIn_of_hide (by simp [Hub.portResetLens])) (by decide)
  have gone : ∀ x ∈ (((h.portResetStore p).endFlights p .power).portResetLens p).shot.flights, x.port ≠ p := fun x mem port => by
    obtain ⟨y, mem', port'⟩ := ((Hub.Subsides.refl p _).abandon_of_none ended).slots x mem port
    exact ended y mem' port'
  unfold Hub.portReset
  generalize ((h.portResetStore p).endFlights p .power).portResetLens p = g at lens gone ⊢
  have delivery (q : Port) : Hub.Subsides q g (g.portResetDelivery p) := by
    unfold Hub.portResetDelivery
    dsimp only
    exact Hub.Subsides.foldl _ (fun _ t k => k.other (onlyIn_releaseFrame t _) (by decide)) _
      ((Hub.Subsides.refl q g).other (l := [.delivery]) (Hub.onlyIn_of_hide (by simp)) (by decide))
  have power (q : Port) : Hub.Subsides q g ((g.portResetDelivery p).portResetPower p) :=
    Hub.Subsides.serveIfBelow _ ((delivery q).other (l := [.power]) (b := Hub.modPower p Power.portReset _) (Hub.onlyIn_of_hide (by simp)) (by decide))
  generalize (g.portResetDelivery p).portResetPower p = k at power ⊢
  have rest : (k.modLink p (Link.portReset k.now)).onlyIn [.power, .lenses, .router, .uplink, .draws, .echo]
      ((k.portResetLink p).portResetEcho p) := by
    refine Hub.onlyIn_of_hide ?_
    unfold Hub.portResetEcho Hub.portResetLink
    dsimp only
    split <;> (try simp) <;> split <;> simp
  have chain (q : Port) := (Hub.Subsides.refl q _).other rest (by decide)
  refine r.leave (fun q ne => ((lens q).trans (power q)).modLink_ne ne (Link.portReset k.now)) chain (fun x mem port => ?_) fun _ _ w mem => ?_
  · obtain ⟨y, mem', port'⟩ := (chain p).slots x mem port
    obtain ⟨z, mem'', port''⟩ := (power p).slots y mem' port'
    exact gone z mem'' port''
  · rw [modLink_links, PerPort.get_mod_same] at mem
    cases mem

/-- R98: HUB_RESET leaves no slot, and no TRIGGER waits. -/
theorem hubReset (h : Hub) : h.hubReset.slotsUp T := by
  have left := hubResetLeaves h
  refine ⟨fun x mem => ?_, fun _ p _ w mem => ?_⟩
  · rw [left.shot] at mem
    cases mem
  · rw [left.link] at mem
    obtain ⟨x, rfl⟩ := (sameKind_retrain w .full).1 (List.mem_filter.1 mem).2
    rfl

theorem pinReset (h : Hub) : h.pinReset.slotsUp T := by
  refine ⟨fun x mem => (by cases mem), fun _ p _ w mem => ?_⟩
  rw [links_pinReset] at mem
  cases mem

end Hub.slotsUp

end Sys2Proof.Machine
end

