-- ==== Sys2Proof/Proofs/UpSlotsKept.lean ====
section
/-! PROOF. O11, assembled: every command and event keeps every slot at a link that is UP. -/

namespace Sys2Proof.Machine

/-- R79: a table that becomes active leaves the slots. -/
theorem flights_commit (pos : BitVec 32) (x : Shot) : (x.commit pos).flights = x.flights := by
  unfold Shot.commit
  split <;> rfl

/-- R79: a pending table that becomes active leaves the slots. -/
theorem flights_applyPending (pos : BitVec 32) (x : Shot) : (x.applyPending pos).flights = x.flights := by
  unfold Shot.applyPending
  split <;> rfl

namespace Hub.slotsUp

variable {T : Prop} {h : Hub}

/-- Every part but the links and the scheduler. -/
abbrev calmParts : List Part :=
  [.power, .budget, .lenses, .store, .delivery, .rotation, .zones, .echo, .router, .uplink, .deferred, .draws, .time]

theorem closeFrame (f : FrameTag) (p : Port) (st : CloseStatus) (r : h.slotsUp T) : (h.closeFrame f p st).slotsUp T :=
  r.other (l := calmParts) (Hub.onlyIn_of_hide (by simp)) (by decide)

/-! ## How a command is taken -/

theorem discard (c : DiscardCause) (r : h.slotsUp T) : (h.discard c).slotsUp T :=
  r.other (l := calmParts) (Hub.onlyIn_of_hide (by simp)) (by decide)

theorem takeCommand {kind : Nat} {c : Cmd} {ok : Bool} {body : Hub → Answer} (r : h.slotsUp T) (k : (body h).hub.slotsUp T) :
    (h.takeCommand kind c ok body).slotsUp T := by
  have answered : (if ok then body h else refuse .badLength h).hub.slotsUp T := by
    split
    · exact k
    · exact r
  unfold Hub.takeCommand
  dsimp only
  split
  · exact r
  · split
    · exact (r.discard _).finish
    · exact (answered.other (l := calmParts) (Hub.onlyIn_of_hide (by simp)) (by decide)).finish

theorem withPort {c : Cmd} {body : Port → Hub → Answer} (r : h.slotsUp T) (k : ∀ p, (body p h).hub.slotsUp T) :
    (withPort c body h).hub.slotsUp T := by
  unfold Machine.withPort
  split
  · exact k _
  · exact r

theorem withFlags {ok : Bool} {body : Hub → Answer} (r : h.slotsUp T) (k : (body h).hub.slotsUp T) :
    (withFlags ok body h).hub.slotsUp T := by
  unfold Machine.withFlags
  split
  · exact k
  · exact r

theorem withPreset {n : Nat} {body : Fin 16 → Hub → Answer} (r : h.slotsUp T) (k : ∀ i, (body i h).hub.slotsUp T) :
    (withPreset n body h).hub.slotsUp T := by
  unfold Machine.withPreset
  split
  · exact k _
  · exact r

theorem withSource {c : Cmd} {n : Nat} {body : Source → Hub → Answer} (r : h.slotsUp T) (k : ∀ src, (body src h).hub.slotsUp T) :
    (withSource c n body h).hub.slotsUp T := by
  unfold Machine.withSource
  split
  · exact r.withPort fun p => k _
  · split
    · exact k _
    · exact r
  · exact r

/-! ## Camera ports and power (01, 02) -/

/-- R18: taken in UP it ends the port's slots; the link is in ACQUIRE after it. -/
theorem linkRetrain (p : Port) (r : h.slotsUp T) : (linkRetrain p h).hub.slotsUp T := by
  unfold Machine.linkRetrain
  dsimp only
  split
  · exact r
  · exact ((r.modLink p (fun x => { x with locked := false }) rfl fun _ mem => mem).enterAcquire p _ _).dropFilling p _ _
  · exact r.enterAcquire p _ _

theorem powerOn (p : Port) (r : h.slotsUp T) : (powerOn p h).hub.slotsUp T := by
  unfold Machine.powerOn
  dsimp only
  split
  · exact r
  · exact r
  · exact r
  · exact r
  all_goals
    split_ifs <;> exact r

theorem powerOff (p : Port) (r : h.slotsUp T) : (powerOff p h).hub.slotsUp T := by
  unfold Machine.powerOff
  split
  · exact r
  · exact serveIfBelow (h := Hub.modPower p _ h) _ r
  · exact r.turnOff p

theorem powerSetup (c : Cmd) (p : Port) (r : h.slotsUp T) : (powerSetup c p h).hub.slotsUp T := by
  unfold Machine.powerSetup
  dsimp only
  split
  · exact r
  · exact serveIfBelow (h := Hub.modPower p _ h) _ r

theorem budgetSet (c : Cmd) (r : h.slotsUp T) : (budgetSet c h).hub.slotsUp T := by
  unfold Machine.budgetSet
  dsimp only
  split
  · exact r
  · split
    · exact serve (h := Hub.setBudget _ h) r
    · exact r

/-! ## Lenses and the shot cycle (03, 04) -/

theorem presetGo (p : Port) (i : Fin 16) (r : h.slotsUp T) : (presetGo p i h).hub.slotsUp T := by
  unfold Machine.presetGo
  split
  · exact r
  · exact r.issueMove p _

theorem lensPush (p : Port) (r : h.slotsUp T) : (lensPush p h).hub.slotsUp T := by
  unfold Machine.lensPush
  dsimp only
  split
  · exact r
  · split <;> exact r

theorem lensPop (p : Port) (r : h.slotsUp T) : (lensPop p h).hub.slotsUp T := by
  unfold Machine.lensPop
  split
  · exact r
  · split
    · exact r
    · exact issueMove (h := Hub.modLens p _ h) p _ r

theorem lensMove (c : Cmd) (p : Port) (r : h.slotsUp T) : (lensMove c p h).hub.slotsUp T := by
  unfold Machine.lensMove
  split
  · exact r
  · exact r.issueMove p _

theorem lensStatus (p : Port) (r : h.slotsUp T) : (Machine.lensStatus p h).hub.slotsUp T := by
  unfold Machine.lensStatus
  dsimp only
  split <;> exact r

theorem slotWrite (c : Cmd) (r : h.slotsUp T) : (slotWrite c h).hub.slotsUp T := by
  unfold Machine.slotWrite writeSlot
  dsimp only
  split_ifs <;> exact r

theorem tableHeader (c : Cmd) (r : h.slotsUp T) : (tableHeader c h).hub.slotsUp T := by
  unfold Machine.tableHeader
  split <;> exact r

/-- The scheduler changes but for its slots. -/
theorem modShot (f : Shot → Shot) (r : h.slotsUp T) (slots : (f h.shot).flights = h.shot.flights) : (h.modShot f).slotsUp T :=
  r.subsides fun q => (Hub.Subsides.refl q h).modShot f fun x mem => ⟨x, slots ▸ mem, rfl⟩

theorem tableCommit (r : h.slotsUp T) : (tableCommit h).hub.slotsUp T := by
  unfold Machine.tableCommit
  split
  · exact r
  · exact r.modShot _ (flights_commit _ _)

theorem tableRead (c : Cmd) (r : h.slotsUp T) : (tableRead c h).hub.slotsUp T := by
  unfold Machine.tableRead
  split <;> exact r

theorem cycleRun (r : h.slotsUp T) : (cycleRun h).hub.slotsUp T := by
  unfold Machine.cycleRun
  split <;> exact r

theorem cycleFire (r : h.slotsUp T) : (cycleFire h).hub.slotsUp T := by
  unfold Machine.cycleFire
  split
  · exact r.start _
  · exact r.start _
  · exact r

theorem cycleStop (c : Cmd) (r : h.slotsUp T) : (cycleStop c h).hub.slotsUp T := by
  have stopped : h.stopNow.slotsUp T :=
    (foldl (h := h.modShot Shot.halt) _ (fun _ x k => k.endFlight x .stopped) _ r).modShot _ (flights_applyPending _ _)
  unfold Machine.cycleStop
  split
  · exact r
  · split
    · exact r
    · exact r
    · split
      · exact r
      · exact stopped

theorem cycleStatus (c : Cmd) (r : h.slotsUp T) : (Machine.cycleStatus c h).hub.slotsUp T := by
  have drawn : h.cycleStatus.1.slotsUp T := by
    unfold Hub.cycleStatus
    dsimp only
    split <;> split <;> exact r
  unfold Machine.cycleStatus
  dsimp only
  split <;> exact drawn

/-! ## Frames, zones, echoes and routing (05 to 10) -/

theorem storeSetup (c : Cmd) (r : h.slotsUp T) : (storeSetup c h).hub.slotsUp T :=
  r.other (l := calmParts) (Hub.onlyIn_of_hide (by simp [Machine.storeSetup])) (by decide)

theorem storeStatus (c : Cmd) (r : h.slotsUp T) : (storeStatus c h).hub.slotsUp T := by
  unfold Machine.storeStatus
  dsimp only
  split <;> exact r

theorem deliveryStatus (c : Cmd) (r : h.slotsUp T) : (Machine.deliveryStatus c h).hub.slotsUp T := by
  unfold Machine.deliveryStatus
  dsimp only
  split <;> exact r

theorem pose (c : Cmd) (r : h.slotsUp T) : (pose c h).hub.slotsUp T := by
  unfold Machine.pose
  dsimp only
  split
  · exact r
  · split
    · exact r
    · dsimp only [Hub.applyPose]
      exact r.foldl (fun g (q : Port × Zone) => g.modZone q.1 _) (fun _ _ k => k) _

theorem zoneClear (c : Cmd) (p : Port) (r : h.slotsUp T) : (zoneClear c p h).hub.slotsUp T := by
  unfold Machine.zoneClear
  dsimp only
  split_ifs <;> exact r

theorem echoSetup (c : Cmd) (p : Port) (r : h.slotsUp T) : (echoSetup c p h).hub.slotsUp T := by
  unfold Machine.echoSetup
  dsimp only
  split <;> exact r

theorem cableMapWrite (c : Cmd) (p : Port) (r : h.slotsUp T) : (cableMapWrite c p h).hub.slotsUp T := by
  unfold Machine.cableMapWrite
  dsimp only
  split <;> exact r

theorem baselineLearn (p : Port) (r : h.slotsUp T) : (baselineLearn p h).hub.slotsUp T := by
  have queued := r.queueJob p .learn
  unfold Machine.baselineLearn
  split
  · split
    · exact r
    · exact queued
  · split
    · exact r
    · exact queued
  · exact r

theorem baselineWrite (c : Cmd) (p : Port) (r : h.slotsUp T) : (baselineWrite c p h).hub.slotsUp T := by
  unfold Machine.baselineWrite
  dsimp only
  split_ifs <;> exact r

theorem baselineRead (p : Port) (r : h.slotsUp T) : (baselineRead p h).hub.slotsUp T := by
  unfold Machine.baselineRead
  split <;> exact r

theorem hunt (c : Cmd) (p : Port) (r : h.slotsUp T) : (hunt c p h).hub.slotsUp T := by
  unfold Machine.hunt
  dsimp only
  split_ifs
  · exact r
  · exact r
  · exact r
  · exact (r.enterHunt p _).queueJob p _

theorem uplinkStatus (c : Cmd) (r : h.slotsUp T) : (uplinkStatus c h).hub.slotsUp T := by
  unfold Machine.uplinkStatus
  dsimp only
  split <;> exact r

theorem routeSet (c : Cmd) (src : Source) (r : h.slotsUp T) : (routeSet c src h).hub.slotsUp T := by
  have set : h.onlyIn reportParts ((h.setMask src (flagAt c.payload 1)).setTag src (BitVec.ofNat 8 (u16At c.payload 2))) := by
    refine Hub.onlyIn_of_hide ?_
    unfold Hub.setTag Hub.setMask
    dsimp only
    split_ifs <;> simp
  unfold Machine.routeSet
  dsimp only
  split
  · exact r
  · exact r.other set (by decide)

theorem eventAck (c : Cmd) (r : h.slotsUp T) : (eventAck c h).hub.slotsUp T := by
  have acked (src : Source) (g : Hub) (k : g.slotsUp T) : (g.ackEntry src).slotsUp T :=
    iteInduction (fun _ => other (h := g.modEntry src fun e => { e with awaiting := false }) k (Hub.repliedTo_offerReport src true _).1 (by decide))
      fun _ => k
  unfold Machine.eventAck
  dsimp only
  split
  · exact r
  · exact r.foldl _ (fun g src k => acked src g k) _

/-! ## The events -/

theorem linkUp (r : h.slotsUp T) : h.linkUp.slotsUp T :=
  finish (foldl (h := h.modUplink _) _ (fun _ _ k => k.other (l := calmParts) (Hub.onlyIn_of_hide (by simp)) (by decide)) _ r)

theorem linkDown (r : h.slotsUp T) : h.linkDown.slotsUp T := by
  have recordLost (g : Hub) (x : CtrlRec) (k : g.slotsUp T) : (g.recordLost x).slotsUp T := by
    cases x with
    | reply _ => exact k
    | report src n _ => exact k.other (l := calmParts) (b := g.reportLost src n) (Hub.onlyIn_of_hide (by simp)) (by decide)
  have loseSending (g : Hub) (p : Port) (k : g.slotsUp T) : (g.loseSending p).slotsUp T :=
    k.other (l := calmParts) (Hub.onlyIn_of_hide (by simp)) (by decide)
  exact foldl _ loseSending _ (foldl (h := h.modUplink _) _ recordLost _ r)

theorem imageSent (frame : Option FrameTag) (closing : Option DeliveryStatus) (r : h.slotsUp T) :
    (h.imageSent frame closing).slotsUp T := by
  unfold Hub.imageSent
  dsimp only
  refine finish (r.other (l := calmParts) (Hub.onlyIn_of_hide ?_) (by decide))
  split
  · simp
  · split <;> simp

/-- R10, R13: RELOCK returns to UP with the words it kept. -/
theorem lockGained (p : Port) (r : h.slotsUp T) : (h.lockGained p).slotsUp T := by
  unfold Hub.lockGained
  split
  · exact r.modLink p (fun l => { l with locked := true }) rfl fun _ mem => mem
  · rename_i relock
    exact (r.modLink_closed (p := p) _ (by rw [relock]; decide) fun _ mem => mem).finish
  · exact r

theorem lockLost (p : Port) (r : h.slotsUp T) : (h.lockLost p).slotsUp T := by
  unfold Hub.lockLost
  split
  · exact r.modLink p (fun l => { l with locked := false }) rfl fun _ mem => mem
  · exact (r.lockLostUp p).finish
  · exact r

theorem hello (p : Port) (x : HelloWord) (r : h.slotsUp T) : (h.hello p x).slotsUp T :=
  iteInduction (fun _ => (r.takeHello p x).finish) fun _ => r

theorem line (p : Port) (x : LineWord) (r : h.slotsUp T) : (h.line p x).slotsUp T :=
  iteInduction (fun _ => (r.other (l := calmParts) (Hub.onlyIn_of_hide (by simp)) (by decide)).finish) fun _ => r

theorem eof (p : Port) (x : EofWord) (r : h.slotsUp T) : (h.eof p x).slotsUp T :=
  iteInduction (fun _ => (r.other (l := calmParts) (Hub.onlyIn_of_hide (by simp)) (by decide)).finish) fun _ => r

theorem lensWord (p : Port) (x : LensStatusWord) (r : h.slotsUp T) : (h.lensWord p x).slotsUp T :=
  iteInduction (fun _ => (r.takeLensStatus p x).finish) fun _ => r

theorem rawWord (p : Port) (raw : List Byte) (r : h.slotsUp T) : (h.rawWord p raw).slotsUp T := by
  unfold Hub.rawWord
  split
  · split
    · exact r.modLink p _ rfl fun _ mem => mem
    · exact r
  · exact r.hello p _
  · exact r.line p _
  · exact r.eof p _
  · exact r.lensWord p _

end Hub.slotsUp

/-! ## The commands, by host kind -/

/-- An outcome leaves every slot at a link that is UP. -/
structure keepsSlots (T : Prop) (r : Result) : Prop where
  kept : ∀ t, r = .next t → t.toHub.slotsUp T

section Instructions

variable {T : Prop} {s : State}

open Hub.slotsUp (calmParts)

theorem keepsSlots_next {h : Hub} (k : h.slotsUp T) : keepsSlots T (s.next h) where
  kept t run := by
    rw [(State.next_eq.1 run).1]
    exact k

theorem keepsSlots_command {kind : Nat} {c : Cmd} {ok : Bool} {body : Hub → Answer} (r : s.toHub.slotsUp T)
    (k : (body s.toHub).hub.slotsUp T) : keepsSlots T (s.next (s.toHub.takeCommand kind c ok body)) := keepsSlots_next (r.takeCommand k)

/-- Every command leaves every slot at a link that is UP. -/
theorem keepsSlots_hostCommand {i : Instr} (host : (hostCommand i).isSome = true) (r : s.toHub.slotsUp T) : keepsSlots T (exec i s) := by
  cases i with
  | linkRetrain c => exact keepsSlots_command r (r.withPort fun p => r.linkRetrain p)
  | linkSetup c => exact keepsSlots_command r (r.withPort fun p => r.modLink p _ rfl fun _ mem => mem)
  | portInfo c => exact keepsSlots_command r (r.withPort fun _ => r)
  | portReset c => exact keepsSlots_command r (r.withPort fun p => r.portReset p)
  | powerOn c => exact keepsSlots_command r (r.withPort fun p => r.powerOn p)
  | powerOff c => exact keepsSlots_command r (r.withPort fun p => r.powerOff p)
  | powerSetup c => exact keepsSlots_command r (r.withPort fun p => r.withFlags (r.powerSetup c p))
  | budgetSet c => exact keepsSlots_command r (r.budgetSet c)
  | powerStatus c => exact keepsSlots_command r (r.withPort fun p => r)
  | presetWrite c => exact keepsSlots_command r (r.withPort fun p => r.withFlags (r.withPreset fun _ => r))
  | presetRead c => exact keepsSlots_command r (r.withPort fun _ => r.withPreset fun _ => r)
  | presetGo c => exact keepsSlots_command r (r.withPort fun p => r.withPreset fun k => r.presetGo p k)
  | lensPush c => exact keepsSlots_command r (r.withPort fun p => r.lensPush p)
  | lensPop c => exact keepsSlots_command r (r.withPort fun p => r.lensPop p)
  | lensMove c => exact keepsSlots_command r (r.withPort fun p => r.withFlags (r.lensMove c p))
  | lensSetup c => exact keepsSlots_command r (r.withPort fun p => r)
  | lensStatus c => exact keepsSlots_command r (r.withPort fun p => r.lensStatus p)
  | slotWrite c => exact keepsSlots_command r (r.withFlags (r.slotWrite c))
  | tableHeader c => exact keepsSlots_command r (r.tableHeader c)
  | tableCommit c => exact keepsSlots_command r r.tableCommit
  | tableRead c => exact keepsSlots_command r (r.tableRead c)
  | cycleRun c => exact keepsSlots_command r r.cycleRun
  | cycleFire c => exact keepsSlots_command r r.cycleFire
  | cycleStop c => exact keepsSlots_command r (r.cycleStop c)
  | cycleStatus c => exact keepsSlots_command r (r.withFlags (r.cycleStatus c))
  | timeSet c => exact keepsSlots_command r r
  | timeRead c => exact keepsSlots_command r r
  | storeSetup c => exact keepsSlots_command r (r.storeSetup c)
  | storeStatus c => exact keepsSlots_command r (r.withFlags (r.storeStatus c))
  | imageHold c => exact keepsSlots_command r (r.withPort fun _ => r)
  | imageResume c => exact keepsSlots_command r (r.withPort fun _ => r)
  | deliveryStatus c => exact keepsSlots_command r (r.withFlags (r.deliveryStatus c))
  | pose c => exact keepsSlots_command r (r.pose c)
  | zoneSetup c => exact keepsSlots_command r (r.withPort fun _ => r)
  | zoneRead c => exact keepsSlots_command r (r.withPort fun _ => r)
  | zoneClear c => exact keepsSlots_command r (r.withPort fun p => r.zoneClear c p)
  | echoSetup c => exact keepsSlots_command r (r.withPort fun p => r.echoSetup c p)
  | cableMapWrite c => exact keepsSlots_command r (r.withPort fun p => r.cableMapWrite c p)
  | cableMapRead c => exact keepsSlots_command r (r.withPort fun _ => r)
  | baselineLearn c => exact keepsSlots_command r (r.withPort fun p => r.baselineLearn p)
  | baselineWrite c => exact keepsSlots_command r (r.withPort fun p => r.baselineWrite c p)
  | baselineRead c => exact keepsSlots_command r (r.withPort fun p => r.baselineRead p)
  | echoResult c => exact keepsSlots_command r (r.withPort fun _ => r.withFlags r)
  | hunt c => exact keepsSlots_command r (r.withPort fun p => r.withFlags (r.hunt c p))
  | hubReset c => exact keepsSlots_command r (Hub.slotsUp.hubReset _)
  | identify c => exact keepsSlots_command r r
  | uplinkStatus c => exact keepsSlots_command r (r.withFlags (r.uplinkStatus c))
  | routeSet c => exact keepsSlots_command r (r.withFlags (r.withSource fun src => r.routeSet c src))
  | routeRead c => exact keepsSlots_command r (r.withSource fun _ => r)
  | eventAck c => exact keepsSlots_command r (r.eventAck c)
  | _ => cases host

theorem keepsSlots_takeByKind (kind : Byte) (c : Cmd) (r : s.toHub.slotsUp T) : keepsSlots T (takeByKind kind c s) := by
  rcases takeByKind_eq kind c s with refused | ⟨i, host, taken⟩
  · rw [refused]
    exact keepsSlots_command r r
  · rw [taken]
    exact keepsSlots_hostCommand host r

theorem keepsSlots_recordDiscard (raw : List Byte) (r : s.toHub.slotsUp T) : keepsSlots T (execRecordDiscard raw s) := by
  unfold execRecordDiscard
  split_ifs
  · exact keepsSlots_next r
  · exact keepsSlots_next (r.discard _).finish
  · split
    · exact keepsSlots_next (r.discard _).finish
    · exact keepsSlots_takeByKind _ _ r

/-! ## The events -/

/-- R11: the acquire timer runs in ACQUIRE. -/
theorem keepsSlots_acquireTimeout (p : Port) (r : s.toHub.slotsUp T) : keepsSlots T (execAcquireTimeout p s) := by
  unfold execAcquireTimeout
  split
  · rename_i left acquire _
    refine keepsSlots_next ((r.elapse left).acquireFailed p ?_).finish
    rw [(sameStates_elapse left s.toHub p).1, acquire]
    decide
  · exact keepsSlots_next r

theorem keepsSlots_relockExpire (p : Port) (r : s.toHub.slotsUp T) : keepsSlots T (execRelockExpire p s) := by
  unfold execRelockExpire
  split
  · exact keepsSlots_next ((r.elapse _).enterAcquire p _ _).finish
  · exact keepsSlots_next r

theorem keepsSlots_uplinkUp (r : s.toHub.slotsUp T) : keepsSlots T (execUplinkUp s) := by
  unfold execUplinkUp
  split
  · exact keepsSlots_next r
  · exact keepsSlots_next r.linkUp

theorem keepsSlots_uplinkDown (r : s.toHub.slotsUp T) : keepsSlots T (execUplinkDown s) := by
  unfold execUplinkDown
  split
  · exact keepsSlots_next r.linkDown
  · exact keepsSlots_next r

theorem keepsSlots_controlRecordSent (r : s.toHub.slotsUp T) : keepsSlots T (execControlRecordSent s) := by
  unfold execControlRecordSent
  split
  · exact keepsSlots_next (Hub.slotsUp.finish (h := s.toHub.modUplink _) r)
  · exact keepsSlots_next r

theorem keepsSlots_imageRecordSent (r : s.toHub.slotsUp T) : keepsSlots T (execImageRecordSent s) := by
  unfold execImageRecordSent
  split
  · exact keepsSlots_next (r.imageSent _ _)
  · exact keepsSlots_next r

theorem keepsSlots_downstreamWordEnd (p : Port) (r : s.toHub.slotsUp T) : keepsSlots T (execDownstreamWordEnd p s) := by
  unfold execDownstreamWordEnd
  split
  · exact keepsSlots_next ((r.elapse _).wordEnd p _).finish
  · exact keepsSlots_next r

/-- R1, R27: the inrush timer runs in PRECHARGE, where the link is DOWN. -/
theorem keepsSlots_inrushExpire (p : Port) (links : s.linksKept) (r : s.toHub.slotsUp T) : keepsSlots T (execInrushExpire p s) := by
  unfold execInrushExpire
  split
  · rename_i left precharge _
    have down := linksDown_elapse left ((linksKept_iff s).1 links) p (by rw [(sameStates_elapse left s.toHub p).2, precharge]; decide)
    exact keepsSlots_next ((r.elapse left).inrushEnd p (by rw [down]; decide)).finish
  · exact keepsSlots_next r

theorem keepsSlots_cooldownExpire (p : Port) (r : s.toHub.slotsUp T) : keepsSlots T (execCooldownExpire p s) := by
  unfold execCooldownExpire
  split
  · refine keepsSlots_next (Hub.slotsUp.finish ?_)
    exact iteInduction (fun _ => r.elapse _) fun _ => r.elapse _
  · exact keepsSlots_next r

theorem keepsSlots_onTimerExpire (p : Port) (r : s.toHub.slotsUp T) : keepsSlots T (execOnTimerExpire p s) := by
  unfold execOnTimerExpire
  split
  · exact keepsSlots_next (r.elapse _)
  · exact keepsSlots_next r

theorem keepsSlots_dischargeExpire (p : Port) (r : s.toHub.slotsUp T) : keepsSlots T (execDischargeExpire p s) := by
  unfold execDischargeExpire
  split
  · exact keepsSlots_next (Hub.slotsUp.lookForJob (h := Hub.modPower p _ _) (r.elapse _))
  · exact keepsSlots_next r

theorem keepsSlots_moveTimeout (p : Port) (r : s.toHub.slotsUp T) : keepsSlots T (execMoveTimeout p s) := by
  unfold execMoveTimeout
  split
  · split
    · exact keepsSlots_next ((r.elapse _).endMove p _ _).finish
    · exact keepsSlots_next r
  · exact keepsSlots_next r

theorem keepsSlots_spanExpire (r : s.toHub.slotsUp T) : keepsSlots T (execSpanExpire s) := by
  unfold execSpanExpire
  split
  · rename_i left _ _
    have ended := (r.elapse left).modShot (Shot.endCycle s.time.position) (flights_applyPending s.time.position _)
    exact keepsSlots_next ended.finish
  · exact keepsSlots_next r

theorem keepsSlots_slotOpen (k : SlotIx) (r : s.toHub.slotsUp T) : keepsSlots T (execSlotOpen k s) := by
  unfold execSlotOpen
  split
  · split
    · exact keepsSlots_next r
    · exact keepsSlots_next ((r.elapse _).openSlot k).finish
  · exact keepsSlots_next r

/-- R92: a slot in GUARD is one of the slots the law speaks of. -/
theorem mem_of_guarded {x : Shot} {k : SlotIx} {f : Flight} {left : Nat} (guarded : x.guarded k = some (f, left)) : f ∈ x.flights := by
  obtain ⟨g, mem, found⟩ := List.exists_of_findSome?_eq_some guarded
  split at found
  · split at found
    · cases found
      exact mem
    · cases found
  · cases found

theorem keepsSlots_guardExpire (k : SlotIx) (r : s.toHub.slotsUp T) : keepsSlots T (execGuardExpire k s) := by
  unfold execGuardExpire
  split
  · rename_i f left guarded
    refine keepsSlots_next ((r.elapse left).offerTrigger f true ?_).finish
    rw [(sameStates_elapse left s.toHub f.port).1]
    exact r.1 f (mem_of_guarded guarded)
  · exact keepsSlots_next r

theorem keepsSlots_exposureEnd (k : SlotIx) (r : s.toHub.slotsUp T) : keepsSlots T (execExposureEnd k s) := by
  unfold execExposureEnd
  split
  · exact keepsSlots_next (Hub.slotsUp.issueNext (h := Hub.modShot _ _) k _ (r.elapse _)).finish
  · exact keepsSlots_next r

theorem keepsSlots_frameWindowExpire (p : Port) (r : s.toHub.slotsUp T) : keepsSlots T (execFrameWindowExpire p s) := by
  unfold execFrameWindowExpire
  split
  · split
    · exact keepsSlots_next ((r.elapse _).closeFrame _ p .timeout).finish
    · exact keepsSlots_next r
  · exact keepsSlots_next r

theorem keepsSlots_echoShot (samples : Vector (BitVec 12) 256) (r : s.toHub.slotsUp T) : keepsSlots T (execEchoShot samples s) := by
  unfold execEchoShot
  split
  · split
    · exact keepsSlots_next (r.elapse _)
    · exact keepsSlots_next r
  · exact keepsSlots_next r

theorem keepsSlots_echoJobComplete (r : s.toHub.slotsUp T) : keepsSlots T (execEchoJobComplete s) := by
  unfold execEchoJobComplete
  split
  · split
    · exact keepsSlots_next ((r.elapse _).completeJob _).finish
    · exact keepsSlots_next r
  · exact keepsSlots_next r

/-! ## Every instruction -/

/-- R3, R88, R92, R94: every instruction leaves every slot at a link that is UP. -/
theorem keepsSlots_exec (i : Instr) (links : s.linksKept) (r : s.toHub.slotsUp T) : keepsSlots T (exec i s) := by
  cases i with
  | uplinkUp => exact keepsSlots_uplinkUp r
  | uplinkDown => exact keepsSlots_uplinkDown r
  | controlRecordSent => exact keepsSlots_controlRecordSent r
  | imageRecordSent => exact keepsSlots_imageRecordSent r
  | encoderEdge x y => exact keepsSlots_next (r.encoderEdge x y).finish
  | triggerLineEdge => exact keepsSlots_next r.triggerLine.finish
  | currentSample p code => exact keepsSlots_next (r.sample p _).finish
  | inrushExpire p => exact keepsSlots_inrushExpire p links r
  | cooldownExpire p => exact keepsSlots_cooldownExpire p r
  | onTimerExpire p => exact keepsSlots_onTimerExpire p r
  | dischargeExpire p => exact keepsSlots_dischargeExpire p r
  | lockGained p => exact keepsSlots_next (r.lockGained p)
  | lockLost p => exact keepsSlots_next (r.lockLost p)
  | acquireTimeout p => exact keepsSlots_acquireTimeout p r
  | relockExpire p => exact keepsSlots_relockExpire p r
  | helloWord p x => exact keepsSlots_next (r.hello p x)
  | lineWord p x => exact keepsSlots_next (r.line p x)
  | eofWord p x => exact keepsSlots_next (r.eof p x)
  | lensStatusWord p x => exact keepsSlots_next (r.lensWord p x)
  | undecodableWord p raw => exact keepsSlots_next (r.rawWord p raw)
  | downstreamWordEnd p => exact keepsSlots_downstreamWordEnd p r
  | moveTimeout p => exact keepsSlots_moveTimeout p r
  | spanExpire => exact keepsSlots_spanExpire r
  | slotOpen k => exact keepsSlots_slotOpen k r
  | guardExpire k => exact keepsSlots_guardExpire k r
  | exposureEnd k => exact keepsSlots_exposureEnd k r
  | frameWindowExpire p => exact keepsSlots_frameWindowExpire p r
  | echoShot samples => exact keepsSlots_echoShot samples r
  | echoJobComplete => exact keepsSlots_echoJobComplete r
  | pinReset => exact keepsSlots_next (Hub.slotsUp.pinReset _)
  | badKindRecord kind c => exact keepsSlots_takeByKind kind c r
  | recordDiscard raw => exact keepsSlots_recordDiscard raw r
  | _ => exact keepsSlots_hostCommand rfl r

end Instructions

/-- Settles O11: `Hub.slotsUp` is kept by each operation, so by every instruction and every idle µs. -/
theorem stepKeepsSlotsOnUpLinks : Obligations.StepKeepsSlotsOnUpLinks := by
  intro s t links slots run
  have law : s.toHub.slotsUp s.triggersKept := (slotsUp_iff _ s).2 ⟨slots, id⟩
  refine (slotsUp_iff _ t).1 ?_
  unfold step at run
  split at run
  · rw [(State.next_eq.1 run).1]
    exact law.elapse 1
  · rename_i rest _
    exact (keepsSlots_exec (s := { s with pending := rest }) _ links law).kept t run

end Sys2Proof.Machine
end

