-- ==== Sys2Proof/Proofs/StoreSettings.lean ====
section
/-! PROOF. O43: STORE_SETUP with its report, POSE, and the settings of frame store, delivery and zones. -/

namespace Sys2Proof.Machine

/-! ## STORE_SETUP (R118, R119) -/

/-- R119: the low mark is written, before STORE_LOW is reviewed. -/
def Hub.marked (mark : Nat) (h : Hub) : Hub := h.modStore fun st => { st with lowMark := mark }

theorem storeSetup_eq (c : Cmd) (h : Hub) : storeSetup c h =
    ⟨(h.marked (min 4096 (u16At c.payload 0))).reviewLow h.store.low, okOr (min 4096 (u16At c.payload 0) != u16At c.payload 0),
      w2 (min 4096 (u16At c.payload 0))⟩ := rfl

theorem storeSetup_code (v : Nat) : (okOr (min 4096 v != v)).code = if v ≤ 4096 then 0 else 1 := by
  rw [okOr_bne_code]
  exact if_congr (by omega) rfl rfl

/-- R118: the router is told where STORE_LOW becomes active. -/
theorem reviewLow_marked_of_rise {mark : Nat} {h : Hub} (was : h.store.lowMark ≤ h.store.freePages) (now : h.store.freePages < mark) :
    (h.marked mark).reviewLow h.store.low = (h.marked mark).raise (.ofHub .storeLow) [] := by
  have high : h.store.low = false := decide_eq_false (Nat.not_lt.2 was)
  have low : (h.marked mark).store.low = true := decide_eq_true now
  unfold Hub.reviewLow
  rw [high, low]
  rfl

/-- R118, R187: no report where STORE_LOW was active, is not active now, or is masked. -/
theorem reviewLow_marked_of_still {mark : Nat} {h : Hub} (still : h.store.freePages < h.store.lowMark ∨ mark ≤ h.store.freePages ∨
    (h.router.entry (.ofHub .storeLow)).masked = true) : (h.marked mark).reviewLow h.store.low = h.marked mark := by
  by_cases was : h.store.freePages < h.store.lowMark
  · have low : h.store.low = true := decide_eq_true was
    unfold Hub.reviewLow
    rw [low]
    rfl
  · by_cases now : h.store.freePages < mark
    · have masked := (still.resolve_left was).resolve_left (Nat.not_le.2 now)
      rw [reviewLow_marked_of_rise (Nat.not_lt.1 was) now]
      exact raise_masked (h := h.marked mark) [] masked
    · have high : (h.marked mark).store.low = false := decide_eq_false now
      unfold Hub.reviewLow
      rw [high, Bool.and_false]
      rfl

theorem onlyIn_reviewLow (was : Bool) (h : Hub) : h.onlyIn reportParts (h.reviewLow was) := Hub.onlyIn_of_hide (by simp)

/-- R176: with no place free the end of a step leaves the router. -/
theorem router_finish_of_full {h : Hub} (full : ¬ h.roomFor 1) : h.finish.router = h.router := by
  have unfilled : Hub.fillPlaces Config.queuePlaces h = h := if_neg (mt (placeForReport_iff h).1 full)
  have chosen : h.onlyIn [.store, .delivery, .rotation, .uplink] h.arbitrate := Hub.onlyIn_of_hide (by simp)
  unfold Hub.finish
  rw [unfilled]
  exact chosen.router (by decide)

/-- R170, R176: a reply stands in the place its credit reserved, so it frees none. -/
theorem router_takeCommand_of_full {kind : Nat} {c : Cmd} {body : Hub → Answer} {h : Hub} (ready : h.ready)
    (same : (body h).hub.uplink = h.uplink) (full : ¬ h.roomFor 1) : (h.takeCommand kind c true body).router = (body h).hub.router := by
  obtain ⟨up, credit⟩ := ready
  unfold Hub.takeCommand
  rw [up, if_neg (by decide), if_neg (Nat.pos_iff_ne_zero.1 credit)]
  refine router_finish_of_full (h := (body h).hub.sendReply kind c (body h).status (body h).data) fun ⟨_, room⟩ => full ⟨up, ?_⟩
  have queue : ((body h).hub.sendReply kind c (body h).status (body h).data).uplink.queue.length = h.uplink.queue.length + 1 := by
    simp [Hub.sendReply, same]
  have credits : ((body h).hub.sendReply kind c (body h).status (body h).data).uplink.credits = h.uplink.credits - 1 := by
    simp [Hub.sendReply, same]
  omega

/-- R118, R119, R187: STORE_SETUP by whether STORE_LOW becomes active and its entry listens. -/
theorem storeSetup_reports {c : Cmd} {s : State} (ready : s.ready) (len : c.payload.length = 2) :
    let mark := min 4096 (u16At c.payload 0)
    let status := if u16At c.payload 0 ≤ 4096 then 0 else 1
    let low : Source := .ofHub .storeLow
    ∃ t, exec (.storeSetup c) s = .next t ∧ t.pending = s.pending ∧
      s.toHub.onlyIn [.store, .router, .uplink, .draws] t.toHub ∧ t.store = { s.store with lowMark := mark } ∧
      t.levelActive low = decide (s.store.freePages < mark) ∧
      (s.store.lowMark ≤ s.store.freePages → s.store.freePages < mark → s.toHub.listens low →
        (s.toHub.roomFor 1 → s.uplink.queue ++ [s.toHub.reportOf low (s.router.entry low).carried ((s.toHub.marked mark).detailOf low),
          replyOf 0x50 c status (w2 mark)] <+: t.uplink.queue) ∧
        (¬ s.toHub.roomFor 1 → t.router.pending low = true ∧
          (t.router.entry low).count = min 255 ((s.router.entry low).count + 1))) ∧
      replyOf 0x50 c status (w2 mark) ∈ t.uplink.queue := by
  intro mark status low
  obtain ⟨replied, queue⟩ := Hub.takeCommand_spec 0x50 c true (storeSetup c) s.toHub ready
  have run : exec (.storeSetup c) s = s.next (s.toHub.takeCommand 0x50 c true (storeSetup c)) := by
    rw [show true = (c.payload.length == 2) from (decide_eq_true len).symm]
    rfl
  rw [if_pos rfl] at replied queue
  have reply : CtrlRec.reply (replyRec 0x50 c (storeSetup c s.toHub).status (storeSetup c s.toHub).data) =
      replyOf 0x50 c status (w2 mark) := by
    have code : (storeSetup c s.toHub).status.code = status := storeSetup_code _
    rw [← code]
    rfl
  rw [reply] at queue
  have answer : (storeSetup c s.toHub).hub = (s.toHub.marked mark).reviewLow s.store.low := rfl
  have reviewed := onlyIn_reviewLow s.store.low (s.toHub.marked mark)
  have rest : (s.toHub.marked mark).onlyIn reportParts (s.toHub.takeCommand 0x50 c true (storeSetup c)) :=
    Hub.onlyIn_trans reviewed replied.1
  have written : s.toHub.onlyIn [.store] (s.toHub.marked mark) := Hub.onlyIn_of_hide (by simp [Hub.marked])
  refine ⟨s.withHub _, run, rfl, ?_, rest.store (by decide), ?_, fun was now listens => ⟨fun room => ?_, fun full => ?_⟩, ?_⟩
  · exact Hub.onlyIn_trans (Hub.onlyIn_mono (by decide) written) (Hub.onlyIn_mono (by decide) rest)
  · exact levelActive_of_onlyIn rest low (by decide) (by decide)
  · rw [answer, reviewLow_marked_of_rise was now] at queue
    obtain ⟨sent, -, -, -⟩ := raise_of_room (h := s.toHub.marked mark) (src := low) [] listens room
    rw [sent] at queue
    rwa [List.append_assoc] at queue
  · have raised := reviewLow_marked_of_rise (h := s.toHub) was now
    obtain ⟨uplink, order, -, count⟩ := raise_of_full (h := s.toHub.marked mark) (src := low) [] listens full
    have router : (s.toHub.takeCommand 0x50 c true (storeSetup c)).router = ((s.toHub.marked mark).raise low []).router := by
      rw [router_takeCommand_of_full ready (by rw [answer, raised]; exact uplink) full, answer, raised]
    show (s.toHub.takeCommand 0x50 c true (storeSetup c)).router.pending low = true ∧ _
    refine ⟨?_, (congrArg (fun r => (r.entry low).count) router).trans count⟩
    rw [router, Router.pending, order]
    simp
  · exact queue.subset (by simp)

/-! ## POSE (R134) -/

/-- R134: the pairs of a POSE as bytes. -/
def poseBytes (l : List (Port × Zone)) : List Byte := l.flatMap fun q => w1 q.1.val ++ w1 q.2.val

theorem byteAt_append {pre rest : List Byte} {b : Byte} {i : Nat} (here : i = pre.length) : byteAt (pre ++ b :: rest) i = b.toNat := by
  simp [byteAt, here]

/-- R134: the pairs are read back from the bytes that carry them. -/
theorem posePairs_poseBytes (l : List (Port × Zone)) {pre : List Byte} {k : Nat} (place : pre.length = 1 + 2 * k) :
    posePairs (pre ++ poseBytes l) (countFrom k l.length) = some l := by
  induction l generalizing pre k with
  | nil => rfl
  | cons q l ih =>
    obtain ⟨p, z⟩ := q
    have split : pre ++ poseBytes ((p, z) :: l) = pre ++ BitVec.ofNat 8 p.val :: BitVec.ofNat 8 z.val :: poseBytes l := by
      simp [poseBytes, w1]
    have port : byteAt (pre ++ poseBytes ((p, z) :: l)) (1 + 2 * k) = p.val := by
      rw [split, byteAt_append place.symm, BitVec.toNat_ofNat]
      omega
    have zone : byteAt (pre ++ poseBytes ((p, z) :: l)) (2 + 2 * k) = z.val := by
      rw [split, List.append_cons, byteAt_append (by simp only [List.length_append, List.length_singleton]; omega), BitVec.toNat_ofNat]
      omega
    have rest : posePairs (pre ++ poseBytes ((p, z) :: l)) (countFrom (k + 1) l.length) = some l := by
      have ih := ih (pre := pre ++ [BitVec.ofNat 8 p.val, BitVec.ofNat 8 z.val]) (k := k + 1)
        (by simp only [List.length_append, List.length_cons, List.length_nil]; omega)
      rwa [List.append_assoc, List.cons_append, List.singleton_append, ← split] at ih
    show posePairs _ (k :: countFrom (k + 1) l.length) = _
    unfold posePairs
    rw [dif_pos (port ▸ p.isLt), dif_pos (zone ▸ z.isLt), rest]
    exact congrArg some (congrArg (· :: l) (Prod.ext (Fin.ext port) (Fin.ext zone)))

theorem length_poseBytes (l : List (Port × Zone)) : (poseBytes l).length = 2 * l.length := by
  induction l with
  | nil => rfl
  | cons q l ih =>
    have two : (poseBytes (q :: l)).length = (poseBytes l).length + 1 + 1 := rfl
    rw [two, ih, List.length_cons]
    omega

/-- R134: the count byte of a POSE. -/
theorem pose_count {c : Cmd} {l : List (Port × Zone)} (most : l.length ≤ 6) (payload : c.payload = w1 l.length ++ poseBytes l) :
    byteAt c.payload 0 = l.length := by
  rw [payload]
  exact (byteAt_ofNat (n := l.length) (by omega) :)

theorem uplink_applyPose (l : List (Port × Zone)) (h : Hub) : (h.applyPose l).uplink = h.uplink := by
  induction l generalizing h with
  | nil => rfl
  | cons q l ih => exact ih _

/-- R134: POSE of one to six pairs. -/
theorem pose_eq {c : Cmd} {l : List (Port × Zone)} (h : Hub) (some_ : 1 ≤ l.length) (most : l.length ≤ 6)
    (payload : c.payload = w1 l.length ++ poseBytes l) :
    pose c h = ⟨h.applyPose l, .ok, allPorts.flatMap fun q => w1 ((h.applyPose l).zones.get q).current.val⟩ := by
  have count := pose_count most payload
  have pairs : posePairs c.payload (countFrom 0 l.length) = some l := by
    rw [payload]
    exact posePairs_poseBytes l rfl
  have inside : (decide (l.length < 1) || decide (6 < l.length)) = false := by
    simp only [Bool.or_eq_false_iff, decide_eq_false_iff_not]
    omega
  unfold pose
  simp only [count, pairs, inside]
  rfl

/-! ## Zones (R136, R143, R145) -/

/-- R136, R143: ZONE_SETUP. -/
theorem zoneSetup_eq (c : Cmd) (p : Port) (h : Hub) :
    let sent : ZoneSetup := ⟨u32At c.payload 0, u32At c.payload 4, byteAt c.payload 8⟩
    let new : ZoneSetup := ⟨min 10000000 (max 1000 (u32At c.payload 0)), min 1000000 (max 1 (u32At c.payload 4)),
      min 255 (max 1 (byteAt c.payload 8))⟩
    zoneSetup c p h = ⟨h.modZone p fun m => { m with setup := new }, okOr (new != sent),
      w4 new.minLines ++ w4 new.rateThreshold ++ w1 new.dropThreshold⟩ := rfl

/-- R145: ZONE_CLEAR of one zone. -/
theorem zoneClear_zone {c : Cmd} {z : Zone} (payload : c.payload = w1 z.val) (p : Port) (h : Hub) :
    zoneClear c p h = ⟨h.modZone p fun m => { m with bins := m.bins.set z ⟨0, 0, 0, none⟩ }, .ok, []⟩ := by
  have byte : byteAt c.payload 0 = z.val := by
    rw [payload]
    exact byteAt_ofNat (by omega)
  unfold zoneClear
  simp only [byte, z.isLt, dif_pos]

/-- R145: ZONE_CLEAR of every zone. -/
theorem zoneClear_all {c : Cmd} (payload : c.payload = [255]) (p : Port) (h : Hub) :
    zoneClear c p h = ⟨h.modZone p fun m => { m with bins := Vector.replicate 32 ⟨0, 0, 0, none⟩ }, .ok, []⟩ := by
  unfold zoneClear
  rw [payload]
  rfl

/-- Settles O43: each command's meaning writes what the statement says; STORE_SETUP by whether STORE_LOW becomes active. -/
theorem storeAndZoneSettingsWritten : Obligations.StoreAndZoneSettingsWritten := by
  intro c s ready bs mark status marked low newZone
  refine ⟨fun len => ?_, fun len => ⟨fun still => ?_, storeSetup_reports ready len⟩, fun l some_ most payload => ?_, fun p named =>
    ⟨fun empty => ?_, fun empty => ?_, fun len => ?_, fun z payload => ?_, fun payload => ?_⟩⟩
  · exact completes_answer rfl ready (decide_eq_true len) rfl rfl rfl
  · refine completes_answer rfl ready (decide_eq_true len) ((storeSetup_eq c _).trans ?_) rfl (storeSetup_code _)
    rw [reviewLow_marked_of_still still]
    rfl
  · have fits : c.payload.length = 1 + 2 * byteAt c.payload 0 := by
      rw [pose_count most payload, ← length_poseBytes]
      exact (congrArg List.length payload).trans (Nat.add_comm _ _)
    exact completes_answer rfl ready (decide_eq_true fits) (pose_eq _ some_ most payload) (congrArg Uplink.queue (uplink_applyPose l _)) rfl
  · exact completes_port rfl ready named (by simp [show c.payload = [] from empty]) rfl rfl rfl
  · exact completes_port rfl ready named (by simp [show c.payload = [] from empty]) rfl rfl rfl
  · exact completes_port rfl ready named (decide_eq_true len) (zoneSetup_eq c p _) rfl (okOr_bne_code _ _)
  · exact completes_port rfl ready named (by simp [show c.payload = w1 z.val from payload, w1]) (zoneClear_zone payload p _) rfl rfl
  · exact completes_port rfl ready named (by simp [show c.payload = [255] from payload]) (zoneClear_all payload p _) rfl rfl

end Sys2Proof.Machine
end

