-- ==== Sys2Proof/Proofs/TableValidation.lean ====
section
/-! PROOF. O47: the staged table, and what validation finds: the run order is sorted, and the nearest earlier slot of a port is the last of them to end. -/

namespace Sys2Proof.Machine

/-! ## The run order (R78) -/

namespace ShotTable

variable {t : ShotTable}

/-- R78: a slot stands before another in run order: by offset and then by index. -/
def runsBefore (t : ShotTable) (a b : SlotIx) : Prop :=
  (t.slots.get a).offset < (t.slots.get b).offset ∨ (t.slots.get a).offset = (t.slots.get b).offset ∧ a < b

theorem runsBefore_asymm {a b : SlotIx} (ab : t.runsBefore a b) : ¬ t.runsBefore b a := by
  simp only [runsBefore, Fin.lt_def] at *
  omega

theorem runsBefore_irrefl (a : SlotIx) : ¬ t.runsBefore a a := fun aa => runsBefore_asymm aa aa

theorem runsBefore_of_ne {a b : SlotIx} (ne : a ≠ b) : t.runsBefore a b ∨ t.runsBefore b a := by
  have apart := Fin.val_ne_of_ne ne
  simp only [runsBefore, Fin.lt_def]
  omega

theorem mem_insertSlot (i k : SlotIx) (l : List SlotIx) : k ∈ insertSlot t i l ↔ k = i ∨ k ∈ l := by
  induction l with
  | nil => simp [insertSlot]
  | cons j js ih =>
    unfold insertSlot
    split
    · simp
    · rw [List.mem_cons, ih, List.mem_cons]
      tauto

/-- A slot of higher index than those of a list in run order finds its place in it. -/
theorem pairwise_insertSlot {i : SlotIx} {l : List SlotIx} (sorted : l.Pairwise t.runsBefore) (above : ∀ j ∈ l, j < i) :
    (insertSlot t i l).Pairwise t.runsBefore := by
  induction l with
  | nil => simp [insertSlot]
  | cons j js ih =>
    obtain ⟨first, rest⟩ := List.pairwise_cons.1 sorted
    unfold insertSlot
    split
    · rename_i less
      refine List.pairwise_cons.2 ⟨fun k mem => ?_, sorted⟩
      rcases List.mem_cons.1 mem with rfl | later
      · exact .inl less
      · have after := first k later
        unfold runsBefore at after ⊢
        omega
    · rename_i most
      refine List.pairwise_cons.2 ⟨fun k mem => ?_, ih rest fun k mem => above k (List.mem_cons_of_mem _ mem)⟩
      rcases (mem_insertSlot i k js).1 mem with rfl | later
      · have lower := above j List.mem_cons_self
        exact (Nat.eq_or_lt_of_le (Nat.le_of_not_lt most)).elim (fun same => .inr ⟨same, lower⟩) .inl
      · exact first k later

/-- The run order of a list of slots in index order. -/
theorem foldl_insertSlot (l : List SlotIx) {acc : List SlotIx} (rising : l.Pairwise (· < ·)) (sorted : acc.Pairwise t.runsBefore)
    (above : ∀ j ∈ acc, ∀ i ∈ l, j < i) :
    (l.foldl (fun acc i => insertSlot t i acc) acc).Pairwise t.runsBefore ∧
      ∀ k, k ∈ l.foldl (fun acc i => insertSlot t i acc) acc ↔ k ∈ l ∨ k ∈ acc := by
  induction l generalizing acc with
  | nil => exact ⟨sorted, by simp⟩
  | cons i l ih =>
    obtain ⟨least, rising'⟩ := List.pairwise_cons.1 rising
    have inserted : ∀ j ∈ insertSlot t i acc, ∀ k ∈ l, j < k := fun j mem k later => by
      rcases (mem_insertSlot i j acc).1 mem with rfl | old
      · exact least k later
      · exact above j old k (List.mem_cons_of_mem _ later)
    obtain ⟨order, members⟩ := ih rising' (pairwise_insertSlot sorted fun j mem => above j mem i List.mem_cons_self) inserted
    refine ⟨order, fun k => (members k).trans ?_⟩
    rw [mem_insertSlot, List.mem_cons]
    tauto

theorem runOrder_spec (t : ShotTable) : t.runOrder.Pairwise t.runsBefore ∧ ∀ k, k ∈ t.runOrder ↔ (t.slots.get k).enabled = true := by
  have rising : (allSlots.filter fun i => (t.slots.get i).enabled).Pairwise (· < ·) :=
    List.Pairwise.filter _ (show allSlots.Pairwise (· < ·) by decide)
  obtain ⟨sorted, members⟩ := foldl_insertSlot (t := t) _ rising .nil fun _ mem => nomatch mem
  refine ⟨sorted, fun k => (members k).trans ?_⟩
  have every : k ∈ allSlots := by
    revert k
    decide
  simp [every]

theorem pairwise_runOrder (t : ShotTable) : t.runOrder.Pairwise t.runsBefore := (runOrder_spec t).1

theorem mem_runOrder {t : ShotTable} {k : SlotIx} : k ∈ t.runOrder ↔ (t.slots.get k).enabled = true := (runOrder_spec t).2 k

/-! ## Validation (R78) -/

/-- R78: a slot ends within the span. -/
def fits (t : ShotTable) (j : SlotIx) : Prop :=
  (t.slots.get j).offset + (t.slots.get j).guardTime + (t.slots.get j).exposure + (t.slots.get j).window * 1000 ≤ t.header.span

/-- R78: every enabled slot of the port before this one in run order has ended when it opens. -/
def clear (t : ShotTable) (j : SlotIx) : Prop :=
  ∀ m, (t.slots.get m).enabled = true → (t.slots.get m).port = (t.slots.get j).port → t.runsBefore m j →
    (t.slots.get m).offset + (t.slots.get m).occupancy ≤ (t.slots.get j).offset

/-- R78: a slot fails a check. -/
def fails (t : ShotTable) (i : SlotIx) (k : Nat) : Prop := k = 1 ∧ ¬ t.fits i ∨ k = 2 ∧ t.fits i ∧ ¬ t.clear i

/-- What the outcome of a validation says of a table. -/
def verdict (t : ShotTable) : Option (SlotIx × Nat) → Prop
  | none => ∀ j, (t.slots.get j).enabled = true → t.fits j ∧ t.clear j
  | some (i, k) => (t.slots.get i).enabled = true ∧ t.fails i k ∧
      ∀ j, (t.slots.get j).enabled = true → t.runsBefore j i → t.fits j ∧ t.clear j

/-- The slots of a list are the enabled ones before a slot, nearest first, and each is clear of those before it. -/
structure Earlier (t : ShotTable) (earlier : List SlotIx) (i : SlotIx) : Prop where
  members : ∀ m, m ∈ earlier ↔ (t.slots.get m).enabled = true ∧ t.runsBefore m i
  nearest : earlier.Pairwise fun a b => t.runsBefore b a
  passed : ∀ m ∈ earlier, t.clear m

/-- R78: the nearest slot of the port is the last to end, since each is clear of those before it. -/
theorem Earlier.clear_iff {earlier : List SlotIx} {i : SlotIx} (e : t.Earlier earlier i) : t.clear i ↔
    ∀ j, t.firstOn (t.slots.get i).port earlier = some j → (t.slots.get j).offset + (t.slots.get j).occupancy ≤ (t.slots.get i).offset := by
  constructor
  · intro clear j found
    have mem := (e.members j).1 (List.mem_of_find?_eq_some found)
    have port := List.find?_some found
    exact clear j mem.1 (by simpa using port) mem.2
  · intro last m enabled port before
    have mem : m ∈ earlier := (e.members m).2 ⟨enabled, before⟩
    cases found : t.firstOn (t.slots.get i).port earlier with
    | none => exact absurd port (by simpa using List.find?_eq_none.1 found m mem)
    | some j =>
      obtain ⟨port', as, bs, split, others⟩ := List.find?_eq_some_iff_append.1 found
      have ended := last j found
      rw [split] at mem
      rcases List.mem_append.1 mem with near | rest
      · exact absurd port (by simpa using others m near)
      · rcases List.mem_cons.1 rest with rfl | far
        · exact ended
        · have order := (List.pairwise_append.1 (split ▸ e.nearest)).2.1
          have beforeIt := (List.pairwise_cons.1 order).1 m far
          have same : (t.slots.get j).port = (t.slots.get i).port := by simpa using port'
          have cleared := e.passed j (by simp [split]) m enabled (port.trans same.symm) beforeIt
          exact (cleared.trans (Nat.le_add_right _ _)).trans ended

/-- R78: the two checks of a slot. -/
theorem checkSlot_spec {earlier : List SlotIx} {i : SlotIx} (e : t.Earlier earlier i) :
    (t.checkSlot earlier i = none → t.fits i ∧ t.clear i) ∧ ∀ k, t.checkSlot earlier i = some k → t.fails i k := by
  have fits_iff : t.fits i ↔ ¬ t.header.span < (t.slots.get i).offset + (t.slots.get i).occupancy := by
    unfold fits SlotRecord.occupancy
    omega
  unfold checkSlot
  dsimp only
  by_cases exceeds : t.header.span < (t.slots.get i).offset + (t.slots.get i).occupancy
  · rw [if_pos exceeds]
    refine ⟨nofun, fun k one => .inl ⟨(Option.some.inj one).symm, mt fits_iff.1 (not_not_intro exceeds)⟩⟩
  · rw [if_neg exceeds]
    have inside := fits_iff.2 exceeds
    cases found : t.firstOn (t.slots.get i).port earlier with
    | none => exact ⟨fun _ => ⟨inside, e.clear_iff.2 fun j found' => nomatch found.symm.trans found'⟩, nofun⟩
    | some j =>
      dsimp only
      by_cases overlaps : (t.slots.get i).offset < (t.slots.get j).offset + (t.slots.get j).occupancy
      · rw [if_pos overlaps]
        exact ⟨nofun, fun k two =>
          .inr ⟨(Option.some.inj two).symm, inside, fun clear => Nat.not_le.2 overlaps (e.clear_iff.1 clear j found)⟩⟩
      · rw [if_neg overlaps]
        refine ⟨fun _ => ⟨inside, e.clear_iff.2 fun k found' => ?_⟩, nofun⟩
        cases found.symm.trans found'
        exact Nat.le_of_not_lt overlaps

/-- In a list in run order that holds every enabled slot, the ones before a slot are those that stand before it. -/
theorem Earlier.of_split {earlier rest : List SlotIx} {i : SlotIx} (sorted : (earlier.reverse ++ i :: rest).Pairwise t.runsBefore)
    (all : ∀ m, m ∈ earlier.reverse ++ i :: rest ↔ (t.slots.get m).enabled = true) (passed : ∀ m ∈ earlier, t.fits m ∧ t.clear m) :
    t.Earlier earlier i := by
  obtain ⟨front, back, across⟩ := List.pairwise_append.1 sorted
  refine ⟨fun m => ⟨fun mem => ?_, fun ⟨enabled, before⟩ => ?_⟩, List.pairwise_reverse.1 front, fun m mem => (passed m mem).2⟩
  · have mem' := List.mem_reverse.2 mem
    exact ⟨(all m).1 (List.mem_append_left _ mem'), across m mem' i List.mem_cons_self⟩
  · rcases List.mem_append.1 ((all m).2 enabled) with mem | mem
    · exact List.mem_reverse.1 mem
    · rcases List.mem_cons.1 mem with rfl | later
      · exact absurd before (runsBefore_irrefl m)
      · exact absurd before (runsBefore_asymm ((List.pairwise_cons.1 back).1 m later))

theorem verdict_firstFault (rest : List SlotIx) {earlier : List SlotIx} (sorted : (earlier.reverse ++ rest).Pairwise t.runsBefore)
    (all : ∀ m, m ∈ earlier.reverse ++ rest ↔ (t.slots.get m).enabled = true) (passed : ∀ m ∈ earlier, t.fits m ∧ t.clear m) :
    t.verdict (t.firstFault earlier rest) := by
  induction rest generalizing earlier with
  | nil =>
    intro j enabled
    have mem := (all j).2 enabled
    exact passed j (by simpa using mem)
  | cons i rest ih =>
    have e : t.Earlier earlier i := .of_split sorted all passed
    obtain ⟨pass, fail⟩ := checkSlot_spec e
    unfold firstFault
    cases check : t.checkSlot earlier i with
    | some k =>
      exact ⟨(all i).1 (by simp), fail k check, fun j enabled before => passed j ((e.members j).2 ⟨enabled, before⟩)⟩
    | none =>
      refine ih (earlier := i :: earlier) (by simpa using sorted) (by simpa using all) fun m mem => ?_
      rcases List.mem_cons.1 mem with rfl | old
      · exact pass check
      · exact passed m old

/-- R78: what a validation finds. -/
theorem verdict_fault? (t : ShotTable) : t.verdict t.fault? :=
  verdict_firstFault t.runOrder (earlier := []) (pairwise_runOrder t) (fun _ => mem_runOrder) nofun

/-- R78: in a table that passes no two enabled slots of one port overlap. -/
theorem apart_of_passed (passed : t.fault? = none) {i j : SlotIx} (ne : i ≠ j) (enabled : (t.slots.get i).enabled = true)
    (enabled' : (t.slots.get j).enabled = true) (port : (t.slots.get i).port = (t.slots.get j).port) :
    (t.slots.get i).offset + (t.slots.get i).occupancy ≤ (t.slots.get j).offset ∨
      (t.slots.get j).offset + (t.slots.get j).occupancy ≤ (t.slots.get i).offset := by
  have verdict := verdict_fault? t
  rw [passed] at verdict
  rcases runsBefore_of_ne ne with before | after
  · exact .inl ((verdict j enabled').2 i enabled port before)
  · exact .inr ((verdict i enabled).2 j enabled' port.symm after)

end ShotTable

/-! ## The staged table (R74 to R77) -/

/-- R74: each numeric field of a slot in its range. -/
theorem SlotRecord.bounded_eq (x : SlotRecord) : x.bounded =
    ⟨x.enabled, x.port, min 999999 x.offset, min 100000 (max 1 x.exposure), min 50000 x.guardTime, min 1000 (max 1 x.window), x.preset,
      min 8192 (max 1 x.lines), min 16384 (max 64 x.lineBytes)⟩ := by
  simp [SlotRecord.bounded, clampTo]

theorem wFlag_of_flag {b : Nat} (flag : b ≤ 1) : wFlag (b == 1) = w1 b := by
  unfold wFlag
  rcases Nat.le_one_iff_eq_zero_or_eq_one.1 flag with rfl | rfl <;> rfl

/-- R74, R76: the optional preset index that a SLOT_WRITE carries. -/
def presetSent (bs : List Byte) (k : Option (Fin 16)) : Prop :=
  match k with
  | some n => byteAt bs 15 = 1 ∧ byteAt bs 16 = n.val
  | none => byteAt bs 15 = 0

theorem presetSent_flag {bs : List Byte} {k : Option (Fin 16)} (sent : presetSent bs k) : byteAt bs 15 ≤ 1 := by
  cases k with
  | none => exact le_of_eq_of_le sent zero_le_one
  | some n => exact le_of_eq sent.1

theorem wOpt_presetSent {bs : List Byte} {k : Option (Fin 16)} (sent : presetSent bs k) :
    wOpt 0 w1 (k.map Fin.val) = w1 (byteAt bs 15) ++ w1 ((k.map Fin.val).getD 0) := by
  cases k with
  | none =>
    rw [show byteAt bs 15 = 0 from sent]
    rfl
  | some n =>
    rw [sent.1]
    rfl

/-- R76: SLOT_WRITE of a slot, a port and a preset index that exist. -/
theorem slotWrite_eq {c : Cmd} {i : SlotIx} {p : Port} {k : Option (Fin 16)} (index : byteAt c.payload 0 = i.val)
    (port : byteAt c.payload 2 = p.val) (preset : presetSent c.payload k) (h : Hub) :
    slotWrite c h = writeSlot i (slotSent c.payload p k) h := by
  have atIndex : (⟨byteAt c.payload 0, index ▸ i.isLt⟩ : SlotIx) = i := Fin.ext index
  have atPort : (⟨byteAt c.payload 2, port ▸ p.isLt⟩ : Port) = p := Fin.ext port
  unfold slotWrite
  dsimp only
  rw [dif_pos (index ▸ i.isLt), dif_pos (port ▸ p.isLt), atIndex, atPort]
  cases k with
  | none =>
    have absent : flagAt c.payload 15 = false := by simp [flagAt, show byteAt c.payload 15 = 0 from preset]
    rw [absent]
    rfl
  | some n =>
    obtain ⟨present, value⟩ := preset
    have flag : flagAt c.payload 15 = true := by simp [flagAt, present]
    rw [flag, if_pos rfl, dif_pos (value ▸ n.isLt)]
    exact congrArg (fun n => writeSlot i (slotSent c.payload p (some n)) h) (Fin.ext value)

theorem StartSource.ofCode_code (src : StartSource) : StartSource.ofCode src.code = some src := by cases src <;> rfl

/-- R75: pitch and span in their ranges. -/
theorem tableHeader_eq {c : Cmd} {src : StartSource} (code : byteAt c.payload 0 = src.code) (h : Hub) :
    let sent : TableHeader := ⟨src, u16At c.payload 1, u32At c.payload 3⟩
    let new : TableHeader := ⟨src, min 65535 (max 1 (u16At c.payload 1)), min 1000000 (max 1000 (u32At c.payload 3))⟩
    tableHeader c h = ⟨h.modStaged fun t => { t with header := new }, okOr (new != sent),
      if new = sent then [] else w1 src.code ++ w2 new.pitch ++ w4 new.span⟩ := by
  intro sent new
  have data : (if new != sent then new.bytes else []) = if new = sent then [] else w1 src.code ++ w2 new.pitch ++ w4 new.span := by
    by_cases same : new = sent
    · simp [same]
    · simp only [same, bne_iff_ne, ne_eq, not_false_eq_true, if_true, if_false]
      rfl
  unfold tableHeader
  rw [code, StartSource.ofCode_code, ← data]
  rfl

/-! ## TABLE_COMMIT (R78, R79) -/

/-- R79: next-start as a table becomes active. -/
theorem Shot.apply_eq (pos : BitVec 32) (t : ShotTable) (x : Shot) : x.apply pos t =
    { x with
      active := some t, pending := none
      nextStart :=
        if t.header.source = .encoder ∧ (x.active.map (·.header.source)) ≠ some .encoder then pos + BitVec.ofNat 32 t.header.pitch
        else x.nextStart } := by
  have fresh : (t.header.source == .encoder && (x.active.map (·.header.source)) != some .encoder) =
      decide (t.header.source = .encoder ∧ (x.active.map (·.header.source)) ≠ some .encoder) := by
    rw [Bool.eq_iff_iff]
    simp
  unfold Shot.apply
  simp only [fresh, decide_eq_true_eq]

theorem tableCommit_eq {h : Hub} (passed : h.shot.staged.fault? = none) :
    tableCommit h = ⟨h.modShot fun s => s.commit h.time.position, .ok, []⟩ := by
  unfold tableCommit
  rw [passed]

theorem tableCommit_refused {h : Hub} {i : SlotIx} {k : Nat} (fault : h.shot.staged.fault? = some (i, k)) :
    tableCommit h = ⟨h, .badTable, w1 i.val ++ w1 k⟩ := by
  unfold tableCommit
  rw [fault]

theorem Shot.commit_running {pos : BitVec 32} {x : Shot} (running : x.cycle = .running) :
    x.commit pos = { x with pending := some x.staged } := by
  unfold Shot.commit
  rw [running]

theorem Shot.commit_idle {pos : BitVec 32} {x : Shot} (idle : x.cycle ≠ .running) : x.commit pos = x.apply pos x.staged := by
  unfold Shot.commit
  split
  · exact absurd ‹_› idle
  · rfl
  · rfl

/-- Settles O47: the staged table as each command writes it, and `verdict_fault?` for what a validation finds. -/
theorem shotTableWrittenAndCommitted : Obligations.ShotTableWrittenAndCommitted := by
  intro c s ready bs staged
  refine ⟨fun i p k len index flag port preset => ?_, fun src len code => ?_, fun i k empty fault => ?_, fun empty passed running => ?_,
    fun empty passed idle => ?_, fun t i k fault => ?_, fun t passed => ⟨fun i enabled => ?_, fun i j => ShotTable.apart_of_passed passed⟩⟩
  · intro sent new
    have flags : (flagOk c.payload 1 && flagOk c.payload 15) = true := by
      rw [Bool.and_eq_true]
      exact ⟨decide_eq_true flag, decide_eq_true (presetSent_flag preset)⟩
    have bounded : (slotSent c.payload p k).bounded = new := SlotRecord.bounded_eq _
    have bytes : new.bytes = w1 (byteAt bs 1) ++ w1 p.val ++ w4 new.offset ++ w4 new.exposure ++ w2 new.guardTime ++ w2 new.window ++
        w1 (byteAt bs 15) ++ w1 ((k.map Fin.val).getD 0) ++ w2 new.lines ++ w2 new.lineBytes := by
      unfold SlotRecord.bytes
      rw [wFlag_of_flag flag, wOpt_presetSent preset]
      simp only [List.append_assoc]
      rfl
    refine completes_answer (status := okOr (new != sent)) rfl ready (decide_eq_true len) ((withFlags_of_ok flags _ _).trans ?_) rfl
      (okOr_bne_code _ _)
    rw [slotWrite_eq index port preset, ← bytes]
    unfold writeSlot
    rw [bounded]
    rfl
  · exact completes_answer rfl ready (decide_eq_true len) (tableHeader_eq code _) rfl (okOr_bne_code _ _)
  · exact completes_answer (status := .badTable) rfl ready (by simp [show c.payload = [] from empty]) (tableCommit_refused fault) rfl rfl
  · refine completes_answer (status := .ok) rfl ready (by simp [show c.payload = [] from empty]) ((tableCommit_eq passed).trans ?_) rfl rfl
    exact congrArg (fun x => Answer.mk { s.toHub with shot := x } .ok []) (Shot.commit_running running)
  · refine completes_answer (status := .ok) rfl ready (by simp [show c.payload = [] from empty]) ((tableCommit_eq passed).trans ?_) rfl rfl
    exact congrArg (fun x => Answer.mk { s.toHub with shot := x } .ok []) ((Shot.commit_idle idle).trans (Shot.apply_eq _ _ _))
  · have verdict := ShotTable.verdict_fault? t
    rw [fault] at verdict
    exact verdict
  · have verdict := ShotTable.verdict_fault? t
    rw [passed] at verdict
    exact (verdict i enabled).1

end Sys2Proof.Machine
end

