-- ==== Sys2Proof/Proofs/ShotTimers.lean ====
section
/-! PROOF. O51: the guard timer offers a late TRIGGER, and the exposure end issues the lens move of the port's next slot. -/

namespace Sys2Proof.Machine

/-! ## The lens move of a slot (R91) -/

/-- R51: no move is issued with the link neither UP nor RELOCK. -/
theorem issueMove_shut {p : Port} {h : Hub} (shut : (h.links.get p).carriesMoves = false) (t : Targets) :
    h.issueMove p t = ⟨h, false, false⟩ := by
  unfold Hub.issueMove
  split
  · rfl
  · rw [shut]
    rfl

theorem issueSlotMove_eq {j : SlotIx} {tb : ShotTable} {h : Hub} (active : h.shot.active = some tb) :
    h.issueSlotMove j = (tb.slots.get j).preset.elim h fun k =>
      (h.issueMove (tb.slots.get j).port ((h.lenses.get (tb.slots.get j).port).presets.get k)).hub := by
  unfold Hub.issueSlotMove
  rw [active]
  cases preset : (tb.slots.get j).preset with
  | none => simp only [preset, Option.elim_none]
  | some k => simp only [preset, Option.elim_some]

/-- R91: the move a slot's issue point issues is the one of the claims. -/
theorem slotMoveIssued_issueSlotMove {j : SlotIx} {tb : ShotTable} {h : Hub} (active : h.shot.active = some tb) :
    slotMoveIssued (tb.slots.get j) h (h.issueSlotMove j) := by
  rw [issueSlotMove_eq active]
  refine ⟨fun idle => ?_, fun k x preset record => ⟨fun unasked => ?_, fun open_ asked => ?_⟩⟩
  · cases preset : (tb.slots.get j).preset with
    | none => rfl
    | some k =>
      have idle' := idle.resolve_left (by simp [preset])
      rcases idle' with invalid | shut
      · exact congrArg MoveAnswer.hub (issueMove_invalid invalid _)
      · refine congrArg MoveAnswer.hub (issueMove_shut (Bool.eq_false_iff.2 fun carries => shut ?_) _)
        simpa using (carriesMoves_iff _).1 carries
  · rw [preset]
    exact congrArg MoveAnswer.hub (issueMove_unasked record unasked)
  · rw [preset]
    exact moveIssued_issueMove record ((carriesMoves_iff _).2 (by simpa using open_)) asked

/-- R91: the issue point of the next slot of the port, in the cycle that runs. -/
theorem issueNext_eq {i : SlotIx} {tb : ShotTable} {h : Hub} (running : h.shot.cycle = .running) (active : h.shot.active = some tb) :
    h.issueNext i h.shot.number = (tb.nextOn i).elim h h.issueSlotMove := by
  have follower : h.shot.follower i h.shot.number = tb.nextOn i := by simp [Shot.follower, Shot.inCycle, running, active]
  unfold Hub.issueNext
  rw [follower]
  cases tb.nextOn i <;> rfl

/-! ## The timers (R91, R92) -/

/-- R92: the guard timer of the slot in GUARD. -/
theorem guarded_of_find {x : Shot} {i : SlotIx} {f : Flight} {left : Nat} (stage : f.stage = .waiting left)
    (found : x.flights.find? (fun y => y.slot == i && y.stage != .offered) = some f) : x.guarded i = some (f, left) := by
  obtain ⟨own, before, after, split, others⟩ := List.find?_eq_some_iff_append.1 found
  have slot : (f.slot == i) = true := ((Bool.and_eq_true _ _).mp own).1
  unfold Shot.guarded
  rw [split, List.findSome?_append, List.findSome?_eq_none_iff.2 fun g mem => ?_, Option.none_or, List.findSome?_cons]
  · simp only [stage, slot, if_true]
  · have other := others g mem
    cases waits : g.stage with
    | offered => rfl
    | waiting n =>
      have apart : (g.slot == i) = false := by simpa [waits] using other
      simp [apart]

/-- R92: no guard timer runs where no slot of the index is in GUARD. -/
theorem guarded_of_none {x : Shot} {i : SlotIx} (offered : ∀ f ∈ x.flights, f.slot = i → f.stage = .offered) : x.guarded i = none := by
  refine List.findSome?_eq_none_iff.2 fun f mem => ?_
  cases stage : f.stage with
  | offered => rfl
  | waiting n =>
    have apart : f.slot ≠ i := fun slot => by simp [offered f mem slot] at stage
    simp [apart]

/-! ## A TRIGGER offered (R92, R105) -/

section
variable (f : Flight) (late : Bool) (h : Hub)

/-- R92: the slots of the frame's tag are OFFERED. -/
theorem shot_offered : (h.offered f late).shot =
    { h.shot with flights := h.shot.flights.map fun x => if x.tag = f.tag then { x with stage := .offered, late := late } else x } := by
  have slots : (fun x : Flight => if x.tag == f.tag then { x with stage := .offered, late := late } else x) =
      fun x => if x.tag = f.tag then { x with stage := .offered, late := late } else x := funext fun x => by simp
  rw [← slots]
  unfold Hub.offered
  cases late <;> rfl

/-- R105: a late slot's frame is flagged. -/
theorem store_offered : (h.offered f late).store =
    { h.store with frames := h.store.frames.map fun g => if late = true ∧ g.tag = f.tag then { g with lensLate := true } else g } := by
  unfold Hub.offered
  cases late with
  | false => simp [Hub.modFlight]
  | true => simp [Hub.modFlight, Hub.modFrame]

end

/-- What the TRIGGER of a slot leaves where the port's link is UP: the slot is OFFERED, its frame flagged where it is late, and the word at
the link. -/
structure TriggerOffered (f : Flight) (late : Bool) (h b : Hub) : Prop where
  parts : h.onlyIn [.links, .shot, .store] b
  shot : b.shot =
    { h.shot with flights := h.shot.flights.map fun x => if x.tag = f.tag then { x with stage := .offered, late := late } else x }
  store : b.store =
    { h.store with frames := h.store.frames.map fun g => if late = true ∧ g.tag = f.tag then { g with lensLate := true } else g }
  word : (b.links.get f.port).carries (.trigger f.tag f.exposure)
  states : ∀ q, (b.links.get q).state = (h.links.get q).state
  others : ∀ q, q ≠ f.port → b.links.get q = h.links.get q

theorem triggerOffered {f : Flight} {h : Hub} (late : Bool) (up : (h.links.get f.port).state = .up) :
    TriggerOffered f late h (h.offerTrigger f late) := by
  have links : (h.offered f late).links = h.links := (onlyIn_offered f late h).links (by decide)
  rw [offerTrigger_up late up]
  exact
    { parts := Hub.onlyIn_trans (Hub.onlyIn_mono (by decide) (onlyIn_offered f late h))
        (Hub.onlyIn_mono (by decide) (onlyIn_offerWord f.port (.trigger f.tag f.exposure) (h.offered f late)))
      shot := shot_offered f late h
      store := store_offered f late h
      word := by
        rw [Hub.offerWord, modLink_links, PerPort.get_mod_same, links]
        exact Link.offer_carries _ _ (by simp [DownWord.allowed, up])
      states := fun q => by
        rw [(sameStates_of_kept (kept_offerWord f.port (.trigger f.tag f.exposure) (h.offered f late)) q).1, links]
      others := fun q ne => by rw [Hub.offerWord, modLink_links, PerPort.get_mod_ne _ _ _ _ ne, links] }

/-- R105: the frame of a slot that is late is flagged. -/
theorem TriggerOffered.flagged {f : Flight} {h b : Hub} (trig : TriggerOffered f true h b) {g : Frame} (mem : g ∈ b.store.frames)
    (tag : g.tag = f.tag) : g.lensLate = true := by
  rw [trig.store] at mem
  obtain ⟨x, -, rfl⟩ := List.mem_map.1 mem
  by_cases mine : x.tag = f.tag
  · rw [if_pos ⟨rfl, mine⟩]
  · rw [if_neg fun k => mine k.2] at tag
    exact absurd tag mine

theorem TriggerOffered.tags {f : Flight} {late : Bool} {h b : Hub} (trig : TriggerOffered f late h b) :
    b.store.frames.map (·.tag) = h.store.frames.map (·.tag) := by
  rw [trig.store, List.map_map]
  refine List.map_congr_left fun g _ => ?_
  show (if late = true ∧ g.tag = f.tag then { g with lensLate := true } else g).tag = g.tag
  split <;> rfl

/-! ## O51 -/

/-- R92: the guard timer's expiry, before the end of the step. -/
theorem execGuardExpire_eq {i : SlotIx} {s : State} {f : Flight} {left : Nat} (stage : f.stage = .waiting left)
    (found : s.shot.flights.find? (fun x => x.slot == i && x.stage != .offered) = some f) :
    exec (.guardExpire i) s = s.next ((s.toHub.elapse left).offerTrigger f true).finish := by
  show execGuardExpire i s = _
  unfold execGuardExpire
  rw [guarded_of_find stage found]

/-- R92: in time's passing and the offer each slot keeps what the claims say it keeps. -/
theorem flights_pass_offered (f : Flight) (left : Nat) (l : List Flight) :
    (l.map (Flight.pass left)).map (fun x => if x.tag = f.tag then { x with stage := .offered, late := true } else x) =
      l.map fun x => if x.tag = f.tag then { x with stage := .offered, late := true } else x.pass left := by
  rw [List.map_map]
  refine List.map_congr_left fun x _ => ?_
  have tag : (x.pass left).tag = x.tag := by rw [Flight.pass_eq]
  show (if (x.pass left).tag = f.tag then { x.pass left with stage := .offered, late := true } else x.pass left) = _
  rw [tag, Flight.pass_eq]

/-- R91: the exposure end is the issue point of the port's next slot. -/
theorem execExposureEnd_eq {i : SlotIx} {s : State} {tb : ShotTable} {left : Nat} (running : s.shot.cycle = .running)
    (timer : s.shot.exposureEnds.get i = some left) (active : s.shot.active = some tb) :
    let h := (s.toHub.elapse left).modShot fun x => { x with exposureEnds := x.exposureEnds.set i none }
    exec (.exposureEnd i) s = s.next ((tb.nextOn i).elim h h.issueSlotMove).finish := by
  intro h
  have issued : h.issueNext i h.shot.number = (tb.nextOn i).elim h h.issueSlotMove := issueNext_eq running active
  show execExposureEnd i s = _
  unfold execExposureEnd
  rw [running, timer, ← issued]
  rfl

/-- The frames keep their tags as time passes. -/
theorem tags_elapse (n : Nat) (h : Hub) : (h.elapse n).store.frames.map (·.tag) = h.store.frames.map (·.tag) := by
  simp [Hub.elapse, Store.pass, Function.comp_def]

/-- Settles O51: a slot in GUARD stands at a link that is UP, so its TRIGGER is at the link; the exposure end is an issue point. -/
theorem guardAndExposureTimersExpire : Obligations.GuardAndExposureTimersExpire := by
  intro i s
  refine ⟨fun f left slots stage found => ?_, fun offered => ?_, fun tb left running timer active => ⟨fun last => ?_, fun j next => ?_⟩,
    fun idle => ?_⟩
  · have up : ((s.toHub.elapse left).links.get f.port).state = .up := by
      rw [(sameStates_elapse left s.toHub f.port).1]
      exact slots f (List.mem_of_find?_eq_some found)
    have trig := triggerOffered true up
    generalize run : (s.toHub.elapse left).offerTrigger f true = b at trig
    have flags := flags_settledTo (Hub.finish_spec b).1
    have ended := onlyIn_finish b
    have links : b.finish.links = b.links := ended.links (by decide)
    refine ⟨s.withHub b.finish, run ▸ execGuardExpire_eq stage found, rfl, ?_, ?_, ?_, ?_, ?_, ?_, ?_, ?_, ?_⟩
    · exact (ended.time (by decide)).trans (trig.parts.time (by decide))
    · have shot : b.finish.shot = b.shot := ended.shot (by decide)
      rw [State.withHub_toHub, shot, trig.shot]
      exact flights_pass_offered f left s.shot.flights
    · intro g mem tag
      obtain ⟨x, mem', same⟩ := List.mem_map.1 (flags ▸ List.mem_map_of_mem (f := fun g : Frame => (g.tag, g.lensLate)) mem)
      obtain ⟨tag', late⟩ := Prod.mk.inj same
      exact late ▸ trig.flagged mem' (tag'.trans tag)
    · have tags := congrArg (List.map Prod.fst) flags
      rw [List.map_map, List.map_map] at tags
      exact (tags.trans trig.tags).trans (tags_elapse left s.toHub)
    · rw [State.withHub_toHub, links]
      exact trig.word
    · have shot : b.finish.shot = b.shot := ended.shot (by decide)
      rw [State.withHub_toHub, shot, trig.shot]
      rfl
    · intro q
      rw [State.withHub_toHub, links, trig.states q]
      exact (sameStates_elapse left s.toHub q).1
    · exact (ended.power (by decide)).trans (trig.parts.power (by decide))
    · exact (ended.lenses (by decide)).trans (trig.parts.lenses (by decide))
  · show execGuardExpire i s = _
    unfold execGuardExpire
    rw [guarded_of_none offered]
    rfl
  · refine happens_finish ((execExposureEnd_eq running timer active).trans ?_)
    rw [last, Option.elim_none]
  · refine ⟨_, slotMoveIssued_issueSlotMove active, happens_finish ((execExposureEnd_eq running timer active).trans ?_)⟩
    rw [next, Option.elim_some]
  · show execExposureEnd i s = _
    unfold execExposureEnd
    split
    · rename_i left running timer
      exact absurd idle (by simp [running, timer])
    · rfl

end Sys2Proof.Machine
end

