-- ==== Sys2Proof/Proofs/MoveParts.lean ====
section
/-! PROOF. The parts that a lens move reads and writes: it acts on them whatever the other parts hold. -/

namespace Sys2Proof.Machine

/-! ## What a lens move reads and writes (R51, R52) -/

/-- The hub `v` with the parts that a lens move reads and writes taken from `h`. -/
def Hub.carry (v h : Hub) : Hub :=
  { v with links := h.links, power := h.power, budget := h.budget, lenses := h.lenses, deferred := h.deferred }

section
variable (v h : Hub) (p : Port)

theorem carry_modRecord (f : LensRecord → LensRecord) : (v.carry h).modRecord p f = v.carry (h.modRecord p f) := rfl

theorem carry_surgeFits : (v.carry h).surgeFits p = h.surgeFits p := rfl

theorem carry_deferred : (v.carry h).deferred = h.deferred := rfl

theorem carry_setDeferred (l : List Port) : (v.carry h).setDeferred l = v.carry (h.setDeferred l) := rfl

theorem carry_offerLensMove : (v.carry h).offerLensMove p = v.carry (h.offerLensMove p) := by
  have same : ((v.carry h).lenses.get p).record = (h.lenses.get p).record := rfl
  unfold Hub.offerLensMove
  rw [same]
  cases (h.lenses.get p).record <;> rfl

theorem carry_startMove : (v.carry h).startMove p = v.carry (h.startMove p) :=
  carry_offerLensMove v ((h.holdSurge p).modRecord p (LensRecord.begun (h.lenses.get p).timeoutLength)) p

/-- R52: a lens move acts on the parts it reads, whatever the others are. -/
theorem carry_actMove (req : PerAxis Bool) : (v.carry h).actMove p req = v.carry (h.actMove p req) := by
  have state : ((v.carry h).lenses.get p).moveState = (h.lenses.get p).moveState := rfl
  have len : ((v.carry h).lenses.get p).timeoutLength = (h.lenses.get p).timeoutLength := rfl
  unfold Hub.actMove
  simp only [state, len, carry_modRecord, carry_surgeFits, carry_offerLensMove, carry_startMove, carry_deferred, carry_setDeferred]
  cases (h.lenses.get p).moveState <;> simp only [apply_ite v.carry]

theorem carry_issueMove (t : Targets) : ((v.carry h).issueMove p t).hub = v.carry (h.issueMove p t).hub := by
  have record : ((v.carry h).lenses.get p).record = (h.lenses.get p).record := rfl
  have links : (v.carry h).links = h.links := rfl
  unfold Hub.issueMove
  simp only [record, links, carry_modRecord, carry_actMove]
  cases (h.lenses.get p).record with
  | none => rfl
  | some r =>
    dsimp only
    split <;> rfl

/-- R91: so does the lens move of a slot, where the tables are the same. -/
theorem carry_issueSlotMove (j : SlotIx) {tb : ShotTable} (own : v.shot.active = some tb) (active : h.shot.active = some tb) :
    (v.carry h).issueSlotMove j = v.carry (h.issueSlotMove j) := by
  rw [issueSlotMove_eq active, issueSlotMove_eq (h := v.carry h) own]
  cases (tb.slots.get j).preset with
  | none => rfl
  | some k => exact carry_issueMove v h _ _

end

/-- A hub that differs from another in none of these parts carries them. -/
theorem carry_of_onlyIn {l : List Part} {a b : Hub} (e : a.onlyIn l b)
    (apart : Part.links ∉ l ∧ Part.power ∉ l ∧ Part.budget ∉ l ∧ Part.lenses ∉ l ∧ Part.deferred ∉ l) : b.carry a = b := by
  obtain ⟨links, power, budget, lenses, deferred⟩ := apart
  unfold Hub.carry
  rw [← e.links links, ← e.power power, ← e.budget budget, ← e.lenses lenses, ← e.deferred deferred]

end Sys2Proof.Machine
end

