-- ==== Sys2Proof/Proofs/FrameOpenings.lean ====
section
/-! PROOF. The frame of a slot that opens: its tag, its pages and its STORE_LOW report; the checks before it. -/

namespace Sys2Proof.Machine

/-! ## The tag and the pages of a frame (R100, R103) -/

/-- R103: a tag that is still in use once the advances are spent was reached over tags in use alone. -/
theorem used_of_freeTag {used : List FrameTag} {n : Nat} {t : FrameTag} (taken : freeTag used n t ∈ used) :
    ∀ k < n, t + BitVec.ofNat 16 k ∈ used := by
  induction n generalizing t with
  | zero => exact fun k small => absurd small (Nat.not_lt_zero k)
  | succ n ih =>
    unfold freeTag at taken
    split at taken
    · rename_i first
      rintro (_ | k) small
      · simpa using first
      · have step : t + BitVec.ofNat 16 (k + 1) = t + 1 + BitVec.ofNat 16 k := by
          rw [Nat.add_comm k 1, BitVec.ofNat_add, ← BitVec.add_assoc]
          rfl
        rw [step]
        exact ih taken k (Nat.lt_of_succ_lt_succ small)
    · rename_i free
      exact absurd (by simpa using taken) free

/-- R103: with a descriptor free the tag given is in no use: 24 advances pass over at most 23 tags. -/
theorem freeTag_fresh {used : List FrameTag} {n : Nat} (fewer : used.length < n) (small : n ≤ 65536) (t : FrameTag) :
    freeTag used n t ∉ used := by
  intro taken
  have distinct : ((List.range n).map fun k => t + BitVec.ofNat 16 k).Nodup := by
    refine List.Nodup.map_on (fun k mem l mem' same => ?_) List.nodup_range
    have offsets := congrArg BitVec.toNat (add_left_cancel same)
    have below := List.mem_range.1 mem
    have below' := List.mem_range.1 mem'
    simp only [BitVec.toNat_ofNat] at offsets
    omega
  have within : ((List.range n).map fun k => t + BitVec.ofNat 16 k) ⊆ used := fun x mem => by
    obtain ⟨k, below, rfl⟩ := List.mem_map.1 mem
    exact used_of_freeTag taken k (List.mem_range.1 below)
  have most := (distinct.subperm within).length_le
  rw [List.length_map, List.length_range] at most
  omega

/-- R103: the counter's tag is given where it is free. -/
theorem freeTag_of_free {used : List FrameTag} {n : Nat} {t : FrameTag} (free : t ∉ used) : freeTag used n t = t := by
  cases n with
  | zero => rfl
  | succ n => exact if_neg (by simpa using free)

/-- The numbers from `k` on, as many as `fuel`, that are not used. -/
def unusedFrom (used : List Nat) (k fuel : Nat) : List Nat := (List.range' k fuel).filter (· ∉ used)

/-- R100: pages are taken from the lowest that are free. -/
theorem pickFree_eq (used : List Nat) (fuel k n : Nat) : pickFree used fuel k n = (unusedFrom used k fuel).take n := by
  induction fuel generalizing k n with
  | zero => simp [pickFree, unusedFrom]
  | succ fuel ih =>
    cases n with
    | zero => simp [pickFree]
    | succ n =>
      have rest : unusedFrom used k (fuel + 1) =
          if k ∈ used then unusedFrom used (k + 1) fuel else k :: unusedFrom used (k + 1) fuel := by
        unfold unusedFrom
        rw [List.range'_succ, List.filter_cons]
        by_cases taken : k ∈ used <;> simp [taken]
      unfold pickFree
      rw [rest]
      by_cases taken : k ∈ used
      · simp [taken, ih]
      · simp [taken, ih]

/-- As many numbers are unused as are left when each used one takes one away. -/
theorem length_unusedFrom (used : List Nat) (k fuel : Nat) : fuel - used.length ≤ (unusedFrom used k fuel).length := by
  have parts : (List.range' k fuel).length =
      ((List.range' k fuel).filter (· ∈ used)).length + ((List.range' k fuel).filter (fun x => !decide (x ∈ used))).length :=
    List.length_eq_length_filter_add _
  have taken : ((List.range' k fuel).filter (· ∈ used)).length ≤ used.length := by
    refine (List.Nodup.subperm (List.Nodup.filter _ List.nodup_range') fun x mem => ?_).length_le
    simpa using (List.mem_filter.1 mem).2
  have same : unusedFrom used k fuel = (List.range' k fuel).filter (fun x => !decide (x ∈ used)) := by
    unfold unusedFrom
    simp
  rw [same]
  rw [List.length_range'] at parts
  omega

/-- R100: the pages of an opening: as many as are needed, in range, free and distinct. -/
theorem takePages_spec {st : Store} {n : Nat} (enough : n ≤ st.freePages) :
    (st.takePages n).length = n ∧ (∀ x ∈ st.takePages n, x < 4096 ∧ x ∉ st.usedPages) ∧ (st.takePages n).Nodup := by
  have free := length_unusedFrom st.usedPages 0 Config.pageCount
  have taken : st.takePages n = (unusedFrom st.usedPages 0 Config.pageCount).take n := pickFree_eq _ _ _ _
  rw [taken]
  refine ⟨List.length_take_of_le (enough.trans free), fun x mem => ?_, ?_⟩
  · obtain ⟨range, unused⟩ := List.mem_filter.1 (List.mem_of_mem_take mem)
    exact ⟨(by simpa using range), of_decide_eq_true unused⟩
  · exact ((List.Nodup.filter _ List.nodup_range').sublist (List.take_sublist _ _))

/-! ## The frame of a slot that opens (R104, R118) -/

/-- R104: the frame that a slot's opening takes in. -/
def Hub.newFrame (i : SlotIx) (r : SlotRecord) (h : Hub) : Frame :=
  { tag := h.store.nextTag, port := r.port, slot := i, cycle := h.shot.number, lines := r.lines, lineBytes := r.lineBytes
    pages := h.store.takePages (pagesNeeded r.lines r.lineBytes), windowMs := r.window }

/-- R104: the frame is in the store, before STORE_LOW is reviewed. -/
def Hub.withFrame (i : SlotIx) (r : SlotRecord) (h : Hub) : Hub :=
  h.modStore fun st => { st with frames := st.frames ++ [h.newFrame i r], tagCounter := st.nextTag + 1 }

section
variable (i : SlotIx) (r : SlotRecord) (h : Hub)

theorem openFrame_eq : h.openFrame i r = (h.withFrame i r).reviewLow h.store.low := rfl

theorem store_openFrame : (h.openFrame i r).store =
    { h.store with frames := h.store.frames ++ [h.newFrame i r], tagCounter := (h.newFrame i r).tag + 1 } := by
  rw [openFrame_eq, (onlyIn_reviewLow _ _).store (by decide)]
  rfl

theorem onlyIn_withFrame : h.onlyIn [.store] (h.withFrame i r) := Hub.onlyIn_of_hide (by simp [Hub.withFrame])

/-- R118: STORE_LOW stays as it was: nothing is reported. -/
theorem reports_openFrame_of_still (still : h.store.low = (h.openFrame i r).store.low) :
    (h.openFrame i r).router = h.router ∧ (h.openFrame i r).uplink = h.uplink := by
  rw [openFrame_eq, (onlyIn_reviewLow _ _).store (by decide)] at still
  have quiet : (h.withFrame i r).reviewLow h.store.low = h.withFrame i r := by
    unfold Hub.reviewLow
    rw [← still, Bool.not_and_self]
    rfl
  rw [openFrame_eq, quiet]
  exact ⟨rfl, rfl⟩

/-- R118, R187: STORE_LOW becomes active: the router is told once, and what follows leaves its report. -/
theorem activated_openFrame {b : Hub} (was : h.store.low = false) (now : (h.openFrame i r).store.low = true)
    (after : Undisturbed (.ofHub .storeLow) (h.openFrame i r) b) : activated (.ofHub .storeLow) h b := by
  rw [openFrame_eq, (onlyIn_reviewLow _ _).store (by decide)] at now
  have told : (h.withFrame i r).reviewLow h.store.low = (h.withFrame i r).activate (.ofHub .storeLow) := by
    unfold Hub.reviewLow
    rw [was, now]
    rfl
  rw [openFrame_eq, told] at after
  exact activated_of_activate (m := h.withFrame i r) rfl rfl after

end

/-! ## The checks (R90) -/

/-- R90: the checks in the claims' words. -/
theorem openingFault_eq (r : SlotRecord) (h : Hub) :
    ((h.power.get r.port).state ≠ .on → h.openingFault r = some (if (h.power.get r.port).state = .hunt then .hunt else .power)) ∧
    ((h.power.get r.port).state = .on → (h.links.get r.port).state ≠ .up → h.openingFault r = some .link) ∧
    ((h.power.get r.port).state = .on → (h.links.get r.port).state = .up →
      (∃ f ∈ h.store.frames, f.port = r.port ∧ f.state = .filling) → h.openingFault r = some .portBusy) ∧
    ((h.power.get r.port).state = .on → (h.links.get r.port).state = .up →
      ¬ (∃ f ∈ h.store.frames, f.port = r.port ∧ f.state = .filling) →
      (24 ≤ h.store.frames.length ∨ h.store.freePages < pagesNeeded r.lines r.lineBytes) → h.openingFault r = some .store) ∧
    ((h.power.get r.port).state = .on → (h.links.get r.port).state = .up →
      ¬ (∃ f ∈ h.store.frames, f.port = r.port ∧ f.state = .filling) →
      ¬ (24 ≤ h.store.frames.length ∨ h.store.freePages < pagesNeeded r.lines r.lineBytes) → h.openingFault r = none) := by
  have busy : (h.store.filling? r.port).isSome = true ↔ ∃ f ∈ h.store.frames, f.port = r.port ∧ f.state = .filling := by
    simp [Store.filling?, List.find?_isSome]
  have full : (!h.store.hasRoom r.lines r.lineBytes) = true ↔
      24 ≤ h.store.frames.length ∨ h.store.freePages < pagesNeeded r.lines r.lineBytes := by
    simp only [Store.hasRoom, Bool.not_eq_true', Bool.and_eq_false_iff, decide_eq_false_iff_not]
    simp only [Store.freeDescriptors, Config.descriptorCount]
    omega
  rw [← busy, ← full]
  unfold Hub.openingFault
  refine ⟨fun off => ?_, fun on out => ?_, fun on up some_ => ?_, fun on up none lacks => ?_, fun on up none enough => ?_⟩
  · rw [if_pos (by simpa using off)]
    unfold Hub.skipReason
    cases state : (h.power.get r.port).state with
    | on => exact absurd state off
    | hunt => rfl
    | _ => rfl
  · rw [if_neg (by simp [on]), if_pos (by simpa using out)]
  · rw [if_neg (by simp [on]), if_neg (by simp [up]), if_pos some_]
  · rw [if_neg (by simp [on]), if_neg (by simp [up]), if_neg none, if_pos lacks]
  · rw [if_neg (by simp [on]), if_neg (by simp [up]), if_neg none, if_neg enough]

end Sys2Proof.Machine
end

