-- ==== Sys2Proof/Proofs/SlotOpenings.lean ====
section
/-! PROOF. O50: a slot opens, by its checks. -/

namespace Sys2Proof.Machine

/-! ## A slot that fails a check (R90, R91, R95) -/

theorem onlyIn_stopOpening (i : SlotIx) (h : Hub) : h.onlyIn [.shot] (h.stopOpening i) := Hub.onlyIn_of_hide (by simp [Hub.stopOpening])

/-- R95: the hub once a slot of the running cycle is counted as skipped and SLOT_SKIPPED has fired. -/
def Hub.skippedAt (i : SlotIx) (p : Port) (why : SkipReason) (h : Hub) : Hub :=
  (h.recordOutcome i (.skipped why) h.shot.number).fire (.ofHub .slotSkipped) (skipDetail i p h.shot.number why)

theorem onlyIn_skippedAt (i : SlotIx) (p : Port) (why : SkipReason) (h : Hub) :
    h.onlyIn [.shot, .router, .uplink, .draws] (h.skippedAt i p why) := Hub.onlyIn_of_hide (by simp [Hub.skippedAt])

theorem shot_skippedAt (i : SlotIx) (p : Port) (why : SkipReason) (h : Hub) :
    (h.skippedAt i p why).shot = { h.shot with stats := vmod h.shot.stats i fun x =>
      { x with skipped := min 65535 (x.skipped + 1), last := some (.skipped why, h.shot.number) } } :=
  (onlyIn_fire _ _ _).shot (by decide)

/-- R90: a slot that fails a check is skipped. -/
theorem openSlot_fault {i : SlotIx} {tb : ShotTable} {why : SkipReason} {h : Hub} (active : h.shot.active = some tb)
    (fault : h.openingFault (tb.slots.get i) = some why) :
    h.openSlot i = (h.stopOpening i).skipSlot i (tb.slots.get i).port h.shot.number why := by
  have fault' : (h.stopOpening i).openingFault (tb.slots.get i) = some why := fault
  rw [openSlot_eq active, fault']
  rfl

theorem onlyIn_openSlot_fault {i : SlotIx} {tb : ShotTable} {why : SkipReason} {h : Hub} (active : h.shot.active = some tb)
    (fault : h.openingFault (tb.slots.get i) = some why) :
    h.onlyIn [.links, .power, .lenses, .deferred, .shot, .router, .uplink, .draws] (h.openSlot i) := by
  rw [openSlot_fault active fault]
  exact Hub.onlyIn_of_hide (by simp [Hub.stopOpening])

/-- R91: the lens move that the end of a slot issues. -/
def Hub.movedOn (tb : ShotTable) (i : SlotIx) (h : Hub) : Hub := (tb.nextOn i).elim h h.issueSlotMove

/-- R90, R91: a slot that fails a check is skipped, and the lens move of the port's next slot is issued. -/
theorem openSlot_skipped {i : SlotIx} {tb : ShotTable} {why : SkipReason} {h : Hub} (running : h.shot.cycle = .running)
    (active : h.shot.active = some tb) (fault : h.openingFault (tb.slots.get i) = some why) :
    h.openSlot i = ((h.stopOpening i).skippedAt i (tb.slots.get i).port why).carry (h.movedOn tb i) := by
  let g := (h.stopOpening i).skippedAt i (tb.slots.get i).port why
  have shot : g.shot = _ := shot_skippedAt _ _ _ _
  have running' : g.shot.cycle = .running := (congrArg Shot.cycle shot).trans running
  have active' : g.shot.active = some tb := (congrArg Shot.active shot).trans active
  have parts : h.onlyIn [.shot, .router, .uplink, .draws] g :=
    Hub.onlyIn_trans (Hub.onlyIn_mono (by decide) (onlyIn_stopOpening i h)) (onlyIn_skippedAt _ _ _ _)
  have carried : g.carry h = g := carry_of_onlyIn parts (by decide)
  have number : h.shot.number = g.shot.number := (congrArg Shot.number shot).symm
  rw [openSlot_fault active fault]
  show g.issueNext i h.shot.number = g.carry _
  rw [number, issueNext_eq running' active']
  unfold Hub.movedOn
  cases tb.nextOn i with
  | none => exact carried.symm
  | some j =>
    have issued := carry_issueSlotMove g h j active' active
    rwa [carried] at issued

/-! ## A slot that passes its checks (R92, R104, R105) -/

/-- R92: whether the slot waits for its lens. -/
theorem mustWait_iff (r : SlotRecord) (h : Hub) :
    h.mustWait r = true ↔ r.preset.isSome = true ∧ (h.lenses.get r.port).moveState ∈ [.deferred, .moving] := by
  simp [Hub.mustWait]

/-- R92: a slot that passes its checks waits in GUARD, or its TRIGGER is offered at once. -/
theorem openSlot_passed {i : SlotIx} {tb : ShotTable} {h : Hub} (active : h.shot.active = some tb)
    (pass : h.openingFault (tb.slots.get i) = none) :
    let r := tb.slots.get i
    let flying := (h.stopOpening i).flying i r
    h.openSlot i = if h.mustWait r = true ∧ r.guardTime ≠ 0 then flying
      else flying.offerTrigger ((h.stopOpening i).flightOf i r) (h.mustWait r) := by
  intro r flying
  have pass' : (h.stopOpening i).openingFault r = none := pass
  have waits : flying.mustWait r = h.mustWait r := by
    unfold Hub.mustWait
    rw [(onlyIn_flying i r (h.stopOpening i)).lenses (by decide)]
    rfl
  rw [openSlot_eq active, pass']
  show (if flying.mustWait r then _ else _) = _
  rw [waits]
  cases h.mustWait r with
  | false => rfl
  | true => by_cases none : r.guardTime = 0 <;> simp [none, r, flying]

section
variable (i : SlotIx) (r : SlotRecord) (h : Hub)

theorem shot_flying : (h.flying i r).shot = { h.shot with flights := h.shot.flights ++ [h.flightOf i r] } := by
  have kept : (h.openFrame i r).shot = h.shot :=
    (Hub.onlyIn_of_hide (by simp) : h.onlyIn [.store, .router, .uplink, .draws] (h.openFrame i r)).shot (by decide)
  show ({ (h.openFrame i r).shot with flights := _ } : Shot) = _
  rw [kept]

theorem store_flying : (h.flying i r).store =
    { h.store with frames := h.store.frames ++ [h.newFrame i r], tagCounter := (h.newFrame i r).tag + 1 } := store_openFrame i r h

/-- R103: with a descriptor free the frame's tag is in no use. -/
theorem tag_newFrame (room : h.store.frames.length < 24) : ∀ g ∈ h.store.frames, g.tag ≠ (h.newFrame i r).tag := by
  intro g mem same
  have fresh := freeTag_fresh (used := h.store.frames.map (·.tag)) (n := 24) (by simpa using room) (by decide) h.store.tagCounter
  exact fresh (List.mem_map.2 ⟨g, mem, same⟩)

/-- R118: a frame flagged LENS_LATE holds the same pages. -/
theorem low_flagged (st : Store) (c : Frame → Prop) [DecidablePred c] :
    ({ st with frames := st.frames.map fun g => if c g then { g with lensLate := true } else g } : Store).low = st.low := by
  have pages : (st.frames.map fun g => if c g then { g with lensLate := true } else g).flatMap (·.pages) = st.frames.flatMap (·.pages) := by
    rw [List.flatMap_map]
    refine List.flatMap_congr fun g _ => ?_
    split <;> rfl
  unfold Store.low Store.freePages Store.usedPages
  rw [pages]

end

/-- R105: of frames with other tags and one that is new, the new one is flagged where it is late. -/
theorem flagged_append {l : List Frame} {f : Frame} (fresh : ∀ g ∈ l, g.tag ≠ f.tag) (late : Bool) (timely : f.lensLate = false) :
    (l ++ [f]).map (fun g => if late = true ∧ g.tag = f.tag then { g with lensLate := true } else g) =
      l ++ [{ f with lensLate := late }] := by
  have old : l.map (fun g => if late = true ∧ g.tag = f.tag then { g with lensLate := true } else g) = l :=
    (List.map_congr_left fun g mem => if_neg fun both => fresh g mem both.2).trans (List.map_id l)
  rw [List.map_append, old]
  cases late with
  | false => simp [← timely]
  | true => simp

/-! ## What an opening leaves -/

/-- R90, R95: what a slot that fails a check leaves. -/
structure SlotFailed (tb : ShotTable) (i : SlotIx) (why : SkipReason) (a b : Hub) : Prop where
  parts : a.onlyIn [.links, .power, .lenses, .deferred, .shot, .router, .uplink, .draws] b
  shot : b.shot = { a.shot with
    opening := a.shot.opening.set i none
    stats := vmod a.shot.stats i fun x => { x with skipped := min 65535 (x.skipped + 1), last := some (.skipped why, a.shot.number) } }
  last : tb.nextOn i = none → b.links = a.links ∧ b.power = a.power ∧ b.lenses = a.lenses ∧ b.deferred = a.deferred
  next : ∀ j, tb.nextOn i = some j → ∃ u, slotMoveIssued (tb.slots.get j) a u ∧
    b.links = u.links ∧ b.power = u.power ∧ b.lenses = u.lenses ∧ b.deferred = u.deferred
  fires : fired (.ofHub .slotSkipped) (skipDetail i (tb.slots.get i).port a.shot.number why) a b

theorem slotFailed_openSlot {i : SlotIx} {tb : ShotTable} {why : SkipReason} {a : Hub} (running : a.shot.cycle = .running)
    (active : a.shot.active = some tb) (fault : a.openingFault (tb.slots.get i) = some why) : SlotFailed tb i why a (a.openSlot i) := by
  have ends := openSlot_skipped running active fault
  refine ⟨onlyIn_openSlot_fault active fault, ?_, fun last => ?_, fun j next => ⟨a.issueSlotMove j, slotMoveIssued_issueSlotMove active, ?_⟩, ?_⟩
  · rw [ends]
    exact shot_skippedAt i (tb.slots.get i).port why (a.stopOpening i)
  · rw [ends, Hub.movedOn, last]
    exact ⟨rfl, rfl, rfl, rfl⟩
  · rw [ends, Hub.movedOn, next]
    exact ⟨rfl, rfl, rfl, rfl⟩
  · rw [ends]
    exact fired_of_fire (m := (a.stopOpening i).recordOutcome i (.skipped why) a.shot.number)
      (.of_same rfl rfl rfl (List.Subset.refl _)) (.of_same rfl rfl rfl (List.Subset.refl _))

/-- R118: STORE_LOW fires as the level goes from inactive to active, and nothing is reported where it stays. -/
structure StoreLowFollows (a b : Hub) : Prop where
  rises : a.levelActive (.ofHub .storeLow) = false → b.levelActive (.ofHub .storeLow) = true → activated (.ofHub .storeLow) a b
  stays : a.levelActive (.ofHub .storeLow) = b.levelActive (.ofHub .storeLow) → b.router = a.router ∧ b.uplink = a.uplink

/-- R118: the level follows the frame that opens, whatever comes after it that leaves level and reports. -/
theorem storeLowFollows_flying {i : SlotIx} {r : SlotRecord} {a b : Hub} (low : b.store.low = ((a.stopOpening i).flying i r).store.low)
    (router : b.router = ((a.stopOpening i).flying i r).router) (uplink : b.uplink = ((a.stopOpening i).flying i r).uplink) :
    StoreLowFollows a b := by
  have router' : b.router = ((a.stopOpening i).openFrame i r).router := router
  have uplink' : b.uplink = ((a.stopOpening i).openFrame i r).uplink := uplink
  have low' : b.store.low = ((a.stopOpening i).openFrame i r).store.low := low
  refine ⟨fun was now => ?_, fun still => ?_⟩
  · exact activated_openFrame i r (a.stopOpening i) was (low'.symm.trans now)
      (.of_same (by rw [router']) (by rw [router']) (by rw [uplink']) (by rw [uplink']; exact List.Subset.refl _))
  · obtain ⟨sameRouter, sameUplink⟩ := reports_openFrame_of_still i r (a.stopOpening i) (Eq.trans still low')
    exact ⟨router'.trans sameRouter, uplink'.trans sameUplink⟩

theorem onlyIn_stopped_flying (i : SlotIx) (r : SlotRecord) (h : Hub) :
    h.onlyIn [.shot, .store, .router, .uplink, .draws] ((h.stopOpening i).flying i r) :=
  Hub.onlyIn_trans (Hub.onlyIn_mono (by decide) (onlyIn_stopOpening i h)) (onlyIn_flying i r _)

/-- R92, R104, R105: what a slot that passes its checks leaves; `held` says whether it waits in GUARD, `late` how its frame is flagged
where it does not. -/
structure SlotPassed (r : SlotRecord) (i : SlotIx) (held : Prop) [Decidable held] (late : Bool) (a b : Hub) : Prop where
  parts : a.onlyIn [.links, .shot, .store, .router, .uplink, .draws] b
  shot : b.shot = { a.shot with
    opening := a.shot.opening.set i none
    flights := (a.shot.flights ++ [(a.stopOpening i).flightOf i r]).map fun x =>
      if ¬ held ∧ x.tag = (a.newFrame i r).tag then { x with stage := .offered, late := late } else x }
  store : b.store = { a.store with
    frames := a.store.frames ++ [{ a.newFrame i r with lensLate := !decide held && late }], tagCounter := (a.newFrame i r).tag + 1 }
  low : StoreLowFollows a b
  waits : held → b.links = a.links
  offers : ¬ held → (b.links.get r.port).carries (.trigger (a.newFrame i r).tag r.exposure) ∧ (b.links.get r.port).state = .up
  others : ∀ q, q ≠ r.port → b.links.get q = a.links.get q

/-- R92: a slot that waits in GUARD. -/
theorem slotPassed_waits (r : SlotRecord) (i : SlotIx) {held : Prop} [Decidable held] (late : Bool) (a : Hub) (holds : held) :
    SlotPassed r i held late a ((a.stopOpening i).flying i r) := by
  have parts := onlyIn_stopped_flying i r a
  have links := parts.links (by decide)
  refine ⟨Hub.onlyIn_mono (by decide) parts, (shot_flying i r (a.stopOpening i)).trans ?_, (store_flying i r (a.stopOpening i)).trans ?_,
    storeLowFollows_flying rfl rfl rfl, fun _ => links, fun free => absurd holds free, fun q _ => by rw [links]⟩
  · simp only [holds, not_true_eq_false, false_and, if_false, List.map_id']
    rfl
  · rw [decide_eq_true holds]
    rfl

/-- R92, R105: a slot whose TRIGGER is offered as it opens. -/
theorem slotPassed_offers (r : SlotRecord) (i : SlotIx) {held : Prop} [Decidable held] (late : Bool) {a : Hub} (free : ¬ held)
    (room : a.store.frames.length < 24) (up : (a.links.get r.port).state = .up) :
    SlotPassed r i held late a (((a.stopOpening i).flying i r).offerTrigger ((a.stopOpening i).flightOf i r) late) := by
  have parts := onlyIn_stopped_flying i r a
  have up' : (((a.stopOpening i).flying i r).links.get ((a.stopOpening i).flightOf i r).port).state = .up := by
    rw [parts.links (by decide)]
    exact up
  have trig := triggerOffered late up'
  refine ⟨Hub.onlyIn_trans (Hub.onlyIn_mono (by decide) parts) (Hub.onlyIn_mono (by decide) trig.parts), ?_, ?_,
    storeLowFollows_flying (by rw [trig.store]; exact low_flagged _ _) (trig.parts.router (by decide)) (trig.parts.uplink (by decide)),
    fun holds => absurd holds free, fun _ => ⟨trig.word, ?_⟩, fun q ne => ?_⟩
  · rw [trig.shot, shot_flying]
    simp only [free, not_false_eq_true, true_and]
    rfl
  · rw [trig.store, store_flying, decide_eq_false free]
    exact congrArg (fun l => { a.store with frames := l, tagCounter := (a.newFrame i r).tag + 1 })
      (flagged_append (tag_newFrame i r a room) _ rfl)
  · rw [trig.states]
    exact up'
  · rw [trig.others q ne, parts.links (by decide)]

/-- R90, R92: the openings of `slotOpened`: `slotFailed_openSlot` at each check, `slotPassed_waits` and `slotPassed_offers` after them. -/
theorem slotOpened_openSlot {i : SlotIx} {tb : ShotTable} {a : Hub} (running : a.shot.cycle = .running) (active : a.shot.active = some tb) :
    slotOpened tb i a (a.openSlot i) := by
  unfold slotOpened
  intro r power link busy pages full waits skipped
  obtain ⟨off, out, filling, lacks, pass⟩ := openingFault_eq r a
  have skips {why : SkipReason} (fault : a.openingFault r = some why) : skipped why := by
    obtain ⟨parts, shot, last, next, fires⟩ := slotFailed_openSlot running active fault
    exact ⟨parts, shot, last, next, fires⟩
  refine ⟨fun k => skips (off k), fun on k => skips (out on k), fun on up k => skips (filling on up k), fun on up free k =>
    skips (lacks on up free k), fun on up free room => ?_⟩
  obtain ⟨descriptors, enough⟩ := not_or.1 room
  obtain ⟨length, members, distinct⟩ := takePages_spec (Nat.le_of_not_lt enough)
  have fresh : ∀ g ∈ a.store.frames, g.tag ≠ (a.newFrame i r).tag := tag_newFrame i r a (Nat.lt_of_not_le descriptors)
  have counter (none : ∀ g ∈ a.store.frames, g.tag ≠ a.store.tagCounter) : (a.newFrame i r).tag = a.store.tagCounter :=
    freeTag_of_free fun mem => by
      obtain ⟨g, mem', tag⟩ := List.mem_map.1 mem
      exact none g mem' tag
  have late : a.mustWait r = decide waits := by
    rw [Bool.eq_iff_iff, decide_eq_true_iff]
    exact mustWait_iff r a
  have passed : SlotPassed r i (waits ∧ r.guardTime ≠ 0) (decide waits) a (a.openSlot i) := by
    rw [openSlot_passed active (pass on up free room)]
    by_cases held : waits ∧ r.guardTime ≠ 0
    · rw [if_pos ⟨(mustWait_iff r a).2 held.1, held.2⟩]
      exact slotPassed_waits r i _ a held
    · rw [if_neg (by rw [mustWait_iff]; exact held), late]
      exact slotPassed_offers r i _ held (Nat.lt_of_not_le descriptors) up
  have flag : (!decide (waits ∧ r.guardTime ≠ 0) && decide waits) = decide (waits ∧ r.guardTime = 0) := by
    by_cases w : waits <;> simp [w]
  obtain ⟨parts, shot, store, low, stays, offers, others⟩ := passed
  rw [flag] at store
  exact ⟨{ a.newFrame i r with lensLate := decide (waits ∧ r.guardTime = 0) }, parts, shot, store, fresh, counter, rfl, low.rises, low.stays,
    length, members, distinct, stays, offers, others⟩

/-! ## O50 -/

/-- R89: a slot is NOT_OPEN while it is enabled and its opening timer runs. -/
theorem slotState_notOpen_iff {x : Shot} {tb : ShotTable} (active : x.active = some tb) (running : x.cycle = .running) (j : SlotIx) :
    x.slotState j = some .notOpen ↔ (tb.slots.get j).enabled = true ∧ (x.opening.get j).isSome = true := by
  unfold Shot.slotState
  rw [running, active]
  dsimp only
  by_cases enabled : (tb.slots.get j).enabled = true
  · by_cases opening : (x.opening.get j).isSome = true
    · simp [enabled, opening]
    · rw [if_neg (by simp [enabled]), if_neg opening]
      refine ⟨fun state => ?_, fun both => absurd both.2 opening⟩
      split at state
      · split at state <;> cases state
      · cases state
  · rw [if_pos (by simp [enabled])]
    exact ⟨nofun, fun both => absurd both.1 enabled⟩

/-- R85, R89: a slot's turn has not come while an earlier one with an equal offset is NOT_OPEN. -/
theorem outOfTurn_iff {x : Shot} {tb : ShotTable} (active : x.active = some tb) (running : x.cycle = .running) (i : SlotIx) :
    x.outOfTurn i = true ↔ ∃ j, j < i ∧ (tb.slots.get j).enabled = true ∧ (tb.slots.get j).offset = (tb.slots.get i).offset ∧
      (x.opening.get j).isSome = true := by
  have every (j : SlotIx) : j ∈ allSlots := by
    revert j
    decide
  unfold Shot.outOfTurn
  rw [active]
  simp only [List.any_eq_true, Bool.and_eq_true, decide_eq_true_eq, beq_iff_eq, slotState_notOpen_iff active running]
  constructor
  · rintro ⟨j, -, ⟨before, offset⟩, enabled, opening⟩
    exact ⟨j, before, enabled, offset, opening⟩
  · rintro ⟨j, before, enabled, offset, opening⟩
    exact ⟨j, every j, ⟨before, offset⟩, enabled, opening⟩

/-- Settles O50: the event's guard, and `slotOpened_openSlot`. -/
theorem slotOpensByItsChecks : Obligations.SlotOpensByItsChecks := by
  intro i tb left s active early
  refine ⟨fun idle => ?_, fun running timer turn => ?_⟩
  · show execSlotOpen i s = _
    unfold execSlotOpen
    split
    · rename_i running timer
      have outOfTurn := (outOfTurn_iff active running i).2 ((idle.resolve_left (not_not_intro running)).resolve_left (by simp [timer]))
      rw [if_pos outOfTurn]
      rfl
    · rfl
  · refine ⟨_, slotOpened_openSlot (a := s.toHub.elapse left) running active, happens_finish ?_⟩
    show execSlotOpen i s = _
    unfold execSlotOpen
    rw [running, timer]
    exact if_neg (mt (outOfTurn_iff active running i).1 turn)

end Sys2Proof.Machine
end

