-- ==== Sys2Proof/Proofs/CycleOpenings.lean ====
section
/-! PROOF. The slots that open and the first lens moves as a cycle begins (R85). -/

namespace Sys2Proof.Machine

/-! ## Tables of slots -/

theorem get_set {α : Type} {n : Nat} (v : Vector α n) (i k : Fin n) (x : α) : (v.set i x).get k = if k = i then x else v.get k := by
  rw [Vector.get_eq_getElem, Vector.get_eq_getElem, Vector.getElem_set]
  exact if_congr (by rw [Fin.ext_iff]; exact eq_comm) rfl rfl

theorem get_vtab {α : Type} {n : Nat} (f : Fin n → α) (k : Fin n) : (vtab f).get k = f k := by
  rw [Vector.get_eq_getElem]
  simp [vtab]

/-! ## The slots that open with the cycle (R85) -/

/-- R85: a slot that opens leaves its opening timer stopped, and the others' as they were. -/
theorem opening_openSlot {i : SlotIx} {tb : ShotTable} {h : Hub} (running : h.shot.cycle = .running) (active : h.shot.active = some tb) :
    (h.openSlot i).shot.opening = h.shot.opening.set i none := by
  cases fault : h.openingFault (tb.slots.get i) with
  | some why =>
    rw [openSlot_skipped running active fault]
    exact congrArg Shot.opening (shot_skippedAt i (tb.slots.get i).port why (h.stopOpening i))
  | none =>
    have flying : ((h.stopOpening i).flying i (tb.slots.get i)).shot.opening = h.shot.opening.set i none :=
      congrArg Shot.opening (shot_flying i (tb.slots.get i) (h.stopOpening i))
    rw [openSlot_passed active fault]
    split
    · exact flying
    · have up : (((h.stopOpening i).flying i (tb.slots.get i)).links.get (tb.slots.get i).port).state = .up := by
        rw [(onlyIn_flying i (tb.slots.get i) (h.stopOpening i)).links (by decide)]
        exact link_of_openingFault fault
      exact (congrArg Shot.opening (triggerOffered (f := (h.stopOpening i).flightOf i (tb.slots.get i)) _ up).shot).trans flying

/-- R85: what the openings of a list of slots leave. -/
structure OpenedAll (tb : ShotTable) (l : List SlotIx) (a b : Hub) : Prop where
  opened : slotsOpened tb l a b
  kept : b.kept = a.kept
  opening : ∀ k, b.shot.opening.get k = if k ∈ l then none else a.shot.opening.get k

theorem openedAll_foldl {tb : ShotTable} (l : List SlotIx) {a : Hub} (running : a.shot.cycle = .running) (active : a.shot.active = some tb) :
    OpenedAll tb l a (l.foldl (fun h i => h.openSlot i) a) := by
  induction l generalizing a with
  | nil => exact ⟨rfl, rfl, fun k => by simp⟩
  | cons i l ih =>
    have kept := kept_openSlot i a
    have shot : (a.openSlot i).shot.kept = a.shot.kept := congrArg Hub.shot kept
    obtain ⟨opened, kept', opening⟩ := ih ((congrArg Shot.cycle shot :).trans running) ((congrArg Shot.active shot :).trans active)
    refine ⟨⟨_, slotOpened_openSlot running active, opened⟩, kept'.trans kept, fun k => ?_⟩
    rw [List.foldl_cons, opening k, opening_openSlot running active]
    rw [get_set]
    by_cases later : k ∈ l <;> by_cases here : k = i <;> simp [later, here]

/-! ## The run order of a cycle's start (R85, R91) -/

namespace ShotTable

variable {t : ShotTable}

/-- R85: among equal offsets the run order is that of the indices. -/
theorem filter_runOrder (t : ShotTable) : (t.runOrder.filter fun i => (t.slots.get i).offset == 0) =
    allSlots.filter fun i => (t.slots.get i).enabled && (t.slots.get i).offset == 0 := by
  have rising : (t.runOrder.filter fun i => (t.slots.get i).offset == 0).Pairwise (· < ·) := by
    refine List.Pairwise.imp_of_mem (fun {a b} memA memB before => ?_) ((pairwise_runOrder t).filter _)
    have zeroA : (t.slots.get a).offset = 0 := by simpa using (List.mem_filter.1 memA).2
    have zeroB : (t.slots.get b).offset = 0 := by simpa using (List.mem_filter.1 memB).2
    unfold runsBefore at before
    rw [zeroA, zeroB] at before
    exact (before.resolve_left (Nat.lt_irrefl 0)).2
  have rising' : (allSlots.filter fun i => (t.slots.get i).enabled && (t.slots.get i).offset == 0).Pairwise (· < ·) :=
    List.Pairwise.filter _ (show allSlots.Pairwise (· < ·) by decide)
  refine List.Perm.eq_of_pairwise' rising rising' ((List.perm_ext_iff_of_nodup (rising.imp ne_of_lt) (rising'.imp ne_of_lt)).2 fun k => ?_)
  have every : k ∈ allSlots := by
    revert k
    decide
  simp [mem_runOrder, every]

/-- R91: the first slot of a port in the run order starts the port. -/
theorem firstOn_runOrder {p : Port} {i : SlotIx} (first : t.firstOn p t.runOrder = some i) {j : SlotIx} (port : (t.slots.get j).port = p)
    (starts : t.startsPort j) : j = i := by
  obtain ⟨own, before, after, split, others⟩ := List.find?_eq_some_iff_append.1 first
  have port' : (t.slots.get i).port = p := by simpa using own
  obtain ⟨enabled, least⟩ := starts
  have memI : i ∈ t.runOrder := List.mem_of_find?_eq_some first
  have mem : j ∈ t.runOrder := mem_runOrder.2 enabled
  rw [split] at mem
  rcases List.mem_append.1 mem with earlier | rest
  · exact absurd port (by simpa using others j earlier)
  · rcases List.mem_cons.1 rest with same | later
    · exact same
    · have order := (List.pairwise_append.1 (split ▸ pairwise_runOrder t)).2.1
      have follows : t.runsBefore i j := (List.pairwise_cons.1 order).1 j later
      have leads := least i (mem_runOrder.1 memI) (port'.trans port.symm)
      simp only [runsBefore, Fin.lt_def, Fin.le_def] at follows leads
      omega

theorem firstOn_runOrder_none {p : Port} (none : t.firstOn p t.runOrder = none) {j : SlotIx} (enabled : (t.slots.get j).enabled = true) :
    (t.slots.get j).port ≠ p := by
  simpa using List.find?_eq_none.1 none j (mem_runOrder.2 enabled)

end ShotTable

/-! ## The first lens moves (R85, step 6) -/

/-- R85: the lens moves of the first slots of some ports. -/
def Hub.firstMoves (tb : ShotTable) (l : List Port) (h : Hub) : Hub :=
  (l.filterMap fun p => tb.firstOn p tb.runOrder).foldl (fun h i => h.issueSlotMove i) h

theorem onlyIn_firstMoves (tb : ShotTable) (l : List Port) (h : Hub) : h.onlyIn moveParts (h.firstMoves tb l) :=
  Hub.onlyIn_of_hide (by simp [Hub.firstMoves, hide_foldl_issueSlotMove])

theorem firstMovesIssued_firstMoves {tb : ShotTable} (l : List Port) {h : Hub} (active : h.shot.active = some tb) :
    firstMovesIssued tb l h (h.firstMoves tb l) := by
  induction l generalizing h with
  | nil => rfl
  | cons p l ih =>
    cases first : tb.firstOn p tb.runOrder with
    | none =>
      have rest : h.firstMoves tb (p :: l) = h.firstMoves tb l := by simp [Hub.firstMoves, first]
      refine ⟨h, fun i port starts => ?_, fun _ => rfl, rest ▸ ih active⟩
      exact absurd port (ShotTable.firstOn_runOrder_none first starts.1)
    | some i =>
      have rest : h.firstMoves tb (p :: l) = (h.issueSlotMove i).firstMoves tb l := by simp [Hub.firstMoves, first]
      have active' : (h.issueSlotMove i).shot.active = some tb := by
        rw [(onlyIn_issueSlotMove i h).shot (by decide)]
        exact active
      refine ⟨h.issueSlotMove i, fun j port starts => ?_, fun none => ?_, rest ▸ ih active'⟩
      · rw [ShotTable.firstOn_runOrder first port starts]
        exact slotMoveIssued_issueSlotMove active
      · have mem := ShotTable.mem_runOrder.1 (List.mem_of_find?_eq_some first)
        exact absurd (by simpa using List.find?_some first) (none i mem)

/-- R85: the moves are issued alike before and after the scheduler's own steps. -/
theorem carry_firstMoves {tb : ShotTable} (l : List Port) {v h : Hub} (own : v.shot.active = some tb) (active : h.shot.active = some tb) :
    (v.carry h).firstMoves tb l = v.carry (h.firstMoves tb l) := by
  unfold Hub.firstMoves
  induction l.filterMap fun p => tb.firstOn p tb.runOrder generalizing h with
  | nil => rfl
  | cons i l ih =>
    have active' : (h.issueSlotMove i).shot.active = some tb := by
      rw [(onlyIn_issueSlotMove i h).shot (by decide)]
      exact active
    rw [List.foldl_cons, List.foldl_cons, carry_issueSlotMove v h i own active]
    exact ih active'

/-- A hub that took part in lens moves alone carries them. -/
theorem modShot_carry {a u : Hub} (f : Shot → Shot) (e : a.onlyIn moveParts u) : (a.modShot f).carry u = { u with shot := f a.shot } := by
  have budget := e.budget (by decide)
  have time := e.time (by decide)
  have store := e.store (by decide)
  have delivery := e.delivery (by decide)
  have rotation : u.rotation = a.rotation := e .rotation (by decide)
  have zones := e.zones (by decide)
  have echo := e.echo (by decide)
  have router := e.router (by decide)
  have uplink := e.uplink (by decide)
  have draws : u.draws = a.draws := e .draws (by decide)
  cases u
  simp_all [Hub.carry, Hub.modShot]

end Sys2Proof.Machine
end

