-- ==== Sys2Proof/Proofs/CycleBegins.lean ====
section
/-! PROOF. A cycle begins (R85): what O48 and O49 say of a start in ARMED. -/

namespace Sys2Proof.Machine

/-! ## A cycle begins (R85) -/

/-- R85, steps 1 to 5: the scheduler as a cycle of a table begins. -/
def Shot.begun (now : CellTime) (tb : ShotTable) (x : Shot) : Shot :=
  { x with
    cycle := .running, number := x.number + 1, startTime := now, span := some tb.header.span
    opening := vtab fun i => if (tb.slots.get i).enabled then some (tb.slots.get i).offset else none
    exposureEnds := Vector.replicate 16 none }

/-- R85, step 7: the slots that open as the cycle begins. -/
def ShotTable.openers (tb : ShotTable) : List SlotIx := allSlots.filter fun i => (tb.slots.get i).enabled && (tb.slots.get i).offset == 0

theorem ShotTable.mem_openers {tb : ShotTable} {i : SlotIx} :
    i ∈ tb.openers ↔ (tb.slots.get i).enabled = true ∧ (tb.slots.get i).offset = 0 := by
  have every : i ∈ allSlots := by
    revert i
    decide
  simp [ShotTable.openers, every]

/-- R85: the cycle has begun and the first moves are issued; no slot has opened. -/
def Hub.started (tb : ShotTable) (h : Hub) : Hub := (h.modShot (Shot.begun h.now tb)).firstMoves tb allPorts

theorem beginCycle_eq {tb : ShotTable} {h : Hub} (active : h.shot.active = some tb) :
    h.beginCycle = tb.openers.foldl (fun h i => h.openSlot i) (h.started tb) := by
  unfold ShotTable.openers Hub.beginCycle
  rw [active, ← ShotTable.filter_runOrder]
  rfl

theorem started_eq {tb : ShotTable} {h : Hub} (active : h.shot.active = some tb) :
    h.started tb = { h.firstMoves tb allPorts with shot := h.shot.begun h.now tb } := by
  have own : (h.modShot (Shot.begun h.now tb)).shot.active = some tb := active
  exact (carry_firstMoves allPorts own active).trans (modShot_carry (Shot.begun h.now tb) (onlyIn_firstMoves tb allPorts h))

/-- R85: what the beginning of a cycle leaves, slots and lens moves apart. -/
theorem openedAll_beginCycle {tb : ShotTable} {h : Hub} (active : h.shot.active = some tb) :
    OpenedAll tb tb.openers (h.started tb) h.beginCycle := by
  have shot : (h.started tb).shot = h.shot.begun h.now tb := congrArg Hub.shot (started_eq active)
  rw [beginCycle_eq active]
  exact openedAll_foldl _ (congrArg Shot.cycle shot) ((congrArg Shot.active shot).trans active)

theorem kept_firstMoves (tb : ShotTable) (l : List Port) (h : Hub) : (h.firstMoves tb l).kept = h.kept := by
  unfold Hub.firstMoves
  induction l.filterMap fun p => tb.firstOn p tb.runOrder generalizing h with
  | nil => rfl
  | cons i l ih => exact (ih _).trans (kept_issueSlotMove i h)

theorem kept_beginCycle {tb : ShotTable} {h : Hub} (active : h.shot.active = some tb) :
    h.beginCycle.kept = (h.modShot (Shot.begun h.now tb)).kept :=
  (openedAll_beginCycle active).kept.trans (kept_firstMoves tb allPorts _)

/-- R85: where a start begins a cycle, the claims' words hold of what the end of the step leaves. -/
theorem cycleBegun_of_settled {tb : ShotTable} {h b : Hub} (active : h.shot.active = some tb) (settled : h.beginCycle.settledTo b) :
    cycleBegun tb h b := by
  obtain ⟨opened, -, opening⟩ := openedAll_beginCycle active
  have started := started_eq active
  have kept := kept_beginCycle active
  have parts := settled.1
  have shot : b.shot.kept = (h.shot.begun h.now tb).kept :=
    (congrArg Shot.kept (parts.shot (by decide))).trans (congrArg Hub.shot kept)
  have timers (k : SlotIx) : b.shot.opening.get k =
      if k ∈ tb.openers then none else if (tb.slots.get k).enabled then some (tb.slots.get k).offset else none := by
    rw [parts.shot (by decide), opening k, started]
    exact if_congr Iff.rfl rfl (get_vtab _ k)
  have states := sameStates_of_kept (a := h.modShot (Shot.begun h.now tb)) kept
  obtain ⟨mark, store, -⟩ := store_settledTo settled
  refine ⟨(congrArg Shot.cycle shot :), (congrArg Shot.number shot :), (congrArg Shot.startTime shot :), (congrArg Shot.span shot :),
    (congrArg Shot.active shot :).trans active, (congrArg Shot.staged shot :), (congrArg Shot.missed shot :), fun i enabled later => ?_,
    fun i other => ?_, fun q => ?_, ?_, ?_, h.firstMoves tb allPorts, h.beginCycle, firstMovesIssued_firstMoves allPorts active, ?_, settled⟩
  · rw [timers i, if_neg (by simp [ShotTable.mem_openers, later]), if_pos enabled]
  · rw [timers i]
    by_cases enabled : (tb.slots.get i).enabled = true
    · exact if_pos (ShotTable.mem_openers.2 ⟨enabled, other.resolve_left (by simp [enabled])⟩)
    · rw [if_neg enabled, ite_self]
  · rw [parts.links (by decide), parts.power (by decide)]
    exact states q
  · rw [store]
    exact (congrArg (fun g : Hub => g.store.dram) kept :)
  · rw [parts.zones (by decide)]
    exact (congrArg Hub.zones kept :)
  · rw [started] at opened
    exact opened

end Sys2Proof.Machine
end

