-- ==== Sys2Proof/Proofs/Starts.lean ====
section
/-! PROOF. O49: starts by the encoder and the trigger line. -/

namespace Sys2Proof.Machine

/-! ## A start (R84 to R86) -/

/-- R86: a missed start leaves every part but the count and CYCLE_OVERRUN's entry. -/
theorem onlyIn_overrun (k : StartSource) (h : Hub) : h.onlyIn [.shot, .router, .uplink, .draws] (h.overrun k) := Hub.onlyIn_of_hide (by simp)

theorem shot_overrun (k : StartSource) (h : Hub) : (h.overrun k).shot = { h.shot with missed := min 65535 (h.shot.missed + 1) } :=
  (onlyIn_fire _ _ _).shot (by decide)

/-- R86: a start in RUNNING is missed once, whatever the end of the step brings. -/
theorem startMissed_of_after {k : StartSource} {h b : Hub} (shot : b.shot = (h.overrun k).shot)
    (after : Undisturbed (.ofHub .cycleOverrun) (h.overrun k) b) : startMissed k h b :=
  ⟨shot.trans (shot_overrun k h),
    fired_of_fire (m := h.modShot fun s => { s with missed := satInc Config.max16 s.missed })
      (.of_same rfl rfl rfl (List.Subset.refl _)) after⟩

theorem start_armed {k : StartSource} {h : Hub} (armed : h.shot.cycle = .armed) : h.start k = h.beginCycle := by
  unfold Hub.start
  rw [armed]

theorem start_running {k : StartSource} {h : Hub} (running : h.shot.cycle = .running) : h.start k = h.overrun k := by
  unfold Hub.start
  rw [running]

theorem start_stopped {k : StartSource} {h : Hub} (stopped : h.shot.cycle = .stopped) : h.start k = h := by
  unfold Hub.start
  rw [stopped]

/-- An edge source is live. -/
theorem live_edge {src : Source} (edge : src.isLevel = false) (h : Hub) : h.live src := fun level => by simp [edge] at level

/-- R85, R86: what a start and the end of its step leave. -/
structure StartTaken (k : StartSource) (tb : ShotTable) (h b : Hub) : Prop where
  begun : h.shot.cycle = .armed → cycleBegun tb h b
  missed : h.shot.cycle = .running → startMissed k h b
  time : b.time = h.time
  nextStart : b.shot.nextStart = h.shot.nextStart

theorem startTaken_finish {k : StartSource} {tb : ShotTable} {h : Hub} (active : h.shot.active = some tb) :
    StartTaken k tb h (h.start k).finish := by
  have ended := onlyIn_finish (h.start k)
  have started : h.onlyIn [.links, .power, .lenses, .deferred, .shot, .store, .router, .uplink, .draws] (h.start k) :=
    Hub.onlyIn_of_hide (by simp)
  refine ⟨fun armed => ?_, fun running => ?_, (ended.time (by decide)).trans (started.time (by decide)), ?_⟩
  · rw [start_armed armed]
    exact cycleBegun_of_settled active (Hub.finish_spec _).1
  · rw [start_running running]
    exact startMissed_of_after ((onlyIn_finish _).shot (by decide)) (undisturbed_finish _ (live_edge rfl _))
  · rw [ended.shot (by decide)]
    cases cycle : h.shot.cycle with
    | stopped => rw [start_stopped cycle]
    | armed =>
      rw [start_armed cycle]
      exact (congrArg (fun g : Hub => g.shot.nextStart) (kept_beginCycle active) :)
    | running =>
      rw [start_running cycle]
      exact (congrArg Shot.nextStart (shot_overrun k h) :)

/-! ## The encoder (R82, R83) -/

/-- R82: the steps of the phases that go forward: the levels before and after. -/
def phaseSteps : List (Bool × Bool × Bool × Bool) :=
  [(false, false, true, false), (true, false, true, true), (true, true, false, true), (false, true, false, false)]

/-- R82: which steps of the phases go forward, change both, or go backward. -/
theorem phaseStep_eq (a b pa pb : Bool) :
    (phaseIndex a b + 4 - phaseIndex pa pb) % 4 =
      if (pa, pb, a, b) ∈ phaseSteps then 1
      else if a ≠ pa ∧ b ≠ pb then 2
      else if (a, b, pa, pb) ∈ phaseSteps then 3
      else 0 := by
  revert a b pa pb
  decide

/-- R82: one phase changes on a step forward or backward, so both have not. -/
theorem phaseStep_apart (a b pa pb : Bool) :
    ((pa, pb, a, b) ∈ phaseSteps ∨
      (a, b, pa, pb) ∈ phaseSteps) →
    ¬ (a ≠ pa ∧ b ≠ pb) := by
  revert a b pa pb
  decide

/-- R82: the timebase after a change of the levels. -/
theorem edge_eq (a b : Bool) (t : Timebase) :
    let forward := (t.phaseA, t.phaseB, a, b) ∈ phaseSteps
    let backward := (a, b, t.phaseA, t.phaseB) ∈ phaseSteps
    let both := a ≠ t.phaseA ∧ b ≠ t.phaseB
    t.edge a b = { t with
      phaseA := a, phaseB := b, illegal := if both then min 65535 (t.illegal + 1) else t.illegal
      position := if forward then t.position + 1 else if backward then t.position - 1 else t.position } := by
  intro forward backward both
  have step := phaseStep_eq a b t.phaseA t.phaseB
  have apart := phaseStep_apart a b t.phaseA t.phaseB
  unfold Timebase.edge
  by_cases f : forward
  · have single : ¬ both := apart (.inl f)
    rw [if_pos f] at step
    simp only [step, if_pos f, if_neg single]
  · rw [if_neg f] at step
    by_cases two : both
    · have still : ¬ backward := fun back => apart (.inr back) two
      rw [if_pos two] at step
      simp only [step, if_neg f, if_neg still, if_pos two]
      rfl
    · rw [if_neg two] at step
      by_cases back : backward
      · rw [if_pos back] at step
        simp only [step, if_neg f, if_pos back, if_neg two]
      · rw [if_neg back] at step
        simp only [step, if_neg f, if_neg back, if_neg two]

/-- R83: the signed difference reaches 0. -/
theorem reached_iff (before after : BitVec 32) (x : Shot) :
    x.reached before after = true ↔ (before - x.nextStart).toInt < 0 ∧ 0 ≤ (after - x.nextStart).toInt := by
  simp [Shot.reached, BitVec.slt_eq_decide]

/-- R83: encoder motion starts cycles of the active table's pitch. -/
theorem encoderPitch_eq {x : Shot} {tb : ShotTable} (active : x.active = some tb) (encoder : x.cycle ≠ .stopped)
    (source : tb.header.source = .encoder) : x.encoderPitch = some tb.header.pitch := by
  simp [Shot.encoderPitch, active, encoder, source]

theorem encoderPitch_none {x : Shot} (other : ¬ (x.cycle ≠ .stopped ∧ (x.active.map (·.header.source)) = some .encoder)) :
    x.encoderPitch = none := by
  unfold Shot.encoderPitch
  split
  · rename_i tb active
    refine if_neg fun both => other ?_
    obtain ⟨cycle, source⟩ := (Bool.and_eq_true _ _).mp both
    exact ⟨bne_iff_ne.1 cycle, by simpa [active] using source⟩
  · rfl

/-- R83: a change of the levels that starts no cycle. -/
theorem encoderEdge_still {a b : Bool} {h : Hub} (still : ¬ ((h.shot.cycle ≠ .stopped ∧ (h.shot.active.map (·.header.source)) = some .encoder) ∧
      h.shot.reached h.time.position (h.time.edge a b).position = true)) :
    h.encoderEdge a b = h.modTime (Timebase.edge a b) := by
  unfold Hub.encoderEdge
  by_cases encoder : h.shot.cycle ≠ .stopped ∧ (h.shot.active.map (·.header.source)) = some .encoder
  · dsimp only
    split
    · exact if_neg fun reaches => still ⟨encoder, reaches⟩
    · rfl
  · rw [encoderPitch_none encoder]

/-- R83: a change of the levels that reaches next-start. -/
theorem encoderEdge_starts {a b : Bool} {h : Hub} {tb : ShotTable} (active : h.shot.active = some tb) (encoder : h.shot.cycle ≠ .stopped)
    (source : tb.header.source = .encoder) (reaches : h.shot.reached h.time.position (h.time.edge a b).position = true) :
    h.encoderEdge a b = ((h.modTime (Timebase.edge a b)).modShot fun x =>
      { x with nextStart := x.nextStart + BitVec.ofNat 32 tb.header.pitch }).start .encoder := by
  unfold Hub.encoderEdge
  rw [encoderPitch_eq active encoder source]
  exact if_pos reaches

/-- Settles O49: `edge_eq` for the timebase, and `startTaken_finish` where a start occurs. -/
theorem encoderAndTriggerLineStartCycles : Obligations.EncoderAndTriggerLineStartCycles := by
  intro a b s x old forward backward both time encoder reaches line
  have edge : s.time.edge a b = time := edge_eq a b s.time
  have reached : x.reached s.time.position (s.time.edge a b).position = true ↔ reaches := by
    rw [edge]
    exact reached_iff _ _ _
  have timed : s.toHub.modTime (Timebase.edge a b) = { s.toHub with time := time } := congrArg (fun t => { s.toHub with time := t }) edge
  refine ⟨fun still => happens_finish ?_, fun tb source reach active => ?_, fun idle => happens_finish ?_, fun tb source active runs => ?_⟩
  · show s.next (s.toHub.encoderEdge a b).finish = _
    rw [encoderEdge_still (fun k => still ⟨k.1, reached.1 k.2⟩), timed]
  · intro h
    have source' : tb.header.source = .encoder := by
      have named : some tb.header.source = some StartSource.encoder := by
        rw [← source.2, show x.active = some tb from active]
        rfl
      exact Option.some.inj named
    have starts := encoderEdge_starts active source.1 source' (reached.2 reach)
    rw [timed] at starts
    have taken := startTaken_finish (k := .encoder) (h := h) active
    refine ⟨s.withHub (h.start .encoder).finish, congrArg (fun g : Hub => s.next g.finish) starts, rfl, taken.time, taken.nextStart,
      taken.begun, taken.missed⟩
  · show s.next s.toHub.triggerLine.finish = _
    have still : s.toHub.triggerLine = s.toHub := by
      unfold Hub.triggerLine
      rcases idle with other | stopped
      · exact if_neg fun same => other (beq_iff_eq.1 same)
      · rw [start_stopped (show s.toHub.shot.cycle = .stopped from stopped), ite_self]
    rw [still]
  · have taken := startTaken_finish (k := .line) (h := s.toHub) active
    refine ⟨s.withHub (s.toHub.start .line).finish, ?_, rfl, taken.time, taken.begun, taken.missed⟩
    show s.next s.toHub.triggerLine.finish = _
    unfold Hub.triggerLine
    rw [if_pos (beq_iff_eq.2 source)]
    rfl

end Sys2Proof.Machine
end

