-- ==== Sys2Proof/Proofs/CycleCommands.lean ====
section
/-! PROOF. O48: CYCLE_RUN, CYCLE_FIRE, CYCLE_STOP and the span timer, by cycle state. -/

namespace Sys2Proof.Machine

/-! ## CYCLE_FIRE (R84) -/

theorem cycleFire_stopped {h : Hub} (stopped : h.shot.cycle = .stopped) : cycleFire h = refuse .badState h := by
  unfold cycleFire
  rw [stopped]

theorem cycleFire_armed {h : Hub} (armed : h.shot.cycle = .armed) : cycleFire h = ⟨h.beginCycle, .ok, []⟩ := by
  unfold cycleFire
  rw [armed, ← start_armed (k := .command) armed]

theorem cycleFire_running {h : Hub} (running : h.shot.cycle = .running) : cycleFire h = ⟨h.overrun .command, .busy, []⟩ := by
  unfold cycleFire
  rw [running, ← start_running (k := .command) running]

/-- R84, R173: CYCLE_FIRE of no bytes answers as its block does. -/
theorem exec_cycleFire {c : Cmd} {s : State} {g : Hub} {st : Status} (ready : s.ready) (empty : c.payload = [])
    (answer : cycleFire s.toHub = ⟨g, st, []⟩) : exec (.cycleFire c) s = .next (s.withHub (g.answered 0x45 c st [])) := by
  show s.next (s.toHub.takeCommand 0x45 c (c.payload.length == 0) cycleFire) = _
  rw [empty]
  exact congrArg s.next (takeCommand_eq ready answer)

/-- R84, R86: CYCLE_FIRE in RUNNING is a missed start, answered BUSY. -/
theorem fire_misses {c : Cmd} {s : State} (ready : s.ready) (empty : c.payload = []) (running : s.shot.cycle = .running) :
    ∃ t, exec (.cycleFire c) s = .next t ∧ t.pending = s.pending ∧ s.toHub.onlyIn [.shot, .router, .uplink, .draws] t.toHub ∧
      startMissed .command s.toHub t.toHub ∧ replyOf 0x45 c 7 [] ∈ t.uplink.queue := by
  have replied := (repliedTo_answered 0x45 c .busy [] (s.toHub.overrun .command)).1
  exact ⟨_, exec_cycleFire ready empty (cycleFire_running running), rfl,
    Hub.onlyIn_trans (onlyIn_overrun _ _) (Hub.onlyIn_mono (by decide) replied),
    startMissed_of_after (replied.shot (by decide)) (undisturbed_answered _ _ _ _ _ rfl), reply_mem_answered _ _ _ _ _⟩

/-- R84, R85: CYCLE_FIRE in ARMED begins a cycle. -/
theorem fire_begins {c : Cmd} {s : State} {tb : ShotTable} (ready : s.ready) (empty : c.payload = []) (armed : s.shot.cycle = .armed)
    (active : s.shot.active = some tb) :
    ∃ t, exec (.cycleFire c) s = .next t ∧ t.pending = s.pending ∧ cycleBegun tb s.toHub t.toHub ∧ t.shot.nextStart = s.shot.nextStart ∧
      replyOf 0x45 c 0 [] ∈ t.uplink.queue := by
  have replied := repliedTo_answered 0x45 c .ok [] s.toHub.beginCycle
  have nextStart : s.toHub.beginCycle.shot.nextStart = s.shot.nextStart :=
    (congrArg (fun g : Hub => g.shot.nextStart) (kept_beginCycle active) :)
  exact ⟨_, exec_cycleFire ready empty (cycleFire_armed armed), rfl, cycleBegun_of_settled active (Hub.settledTo_of_repliedTo replied),
    (congrArg Shot.nextStart (replied.1.shot (by decide))).trans nextStart, reply_mem_answered _ _ _ _ _⟩

/-! ## Slots that end while no cycle runs (R88, R94) -/

/-- R91: with no cycle running no next move is issued. -/
theorem issueNext_stopped {h : Hub} (stopped : h.shot.cycle = .stopped) (i : SlotIx) (n : BitVec 32) : h.issueNext i n = h := by
  have none : h.shot.follower i n = none := by simp [Shot.follower, Shot.inCycle, stopped]
  unfold Hub.issueNext
  rw [none]

theorem onlyIn_endFlight_stopped {h : Hub} (stopped : h.shot.cycle = .stopped) (f : Flight) (why : SkipReason) :
    h.onlyIn [.shot, .store, .router, .uplink, .draws] (h.endFlight f why) := by
  have shot : ((h.skipped f why).fire (.ofHub .slotSkipped) (skipDetail f.slot f.port f.cycle why)).shot = h.shot.skip why f := by
    rw [← shot_endFlight, endFlight_eq, (onlyIn_issueNext _ _ _).shot (by decide)]
  rw [endFlight_eq, issueNext_stopped (by rw [shot]; exact stopped)]
  exact Hub.onlyIn_of_hide (by unfold Hub.skipped; simp)

/-- R95: the scheduler once some slots ended SKIPPED, in turn. -/
def Shot.skipAll (why : SkipReason) (l : List Flight) (x : Shot) : Shot :=
  { x with
    flights := x.flights.filter fun g => decide (g.tag ∉ l.map (·.tag))
    stats := l.foldl (fun v f => vmod v f.slot fun y => y.count (.skipped why) f.cycle) x.stats }

theorem Shot.skipAll_nil (why : SkipReason) (x : Shot) : x.skipAll why [] = x := by simp [Shot.skipAll]

theorem Shot.skipAll_cons (why : SkipReason) (f : Flight) (l : List Flight) (x : Shot) :
    x.skipAll why (f :: l) = (x.skip why f).skipAll why l := by
  have flights : x.flights.filter (fun g => decide (g.tag ∉ (f :: l).map (·.tag))) =
      (x.skip why f).flights.filter fun g => decide (g.tag ∉ l.map (·.tag)) := by
    unfold Shot.skip
    rw [List.filter_filter]
    exact List.filter_congr fun g _ => by simp [Bool.and_comm, bne, beq_eq_decide]
  exact congrArg (fun q => ({ (x.skip why f).skipAll why l with flights := q } : Shot)) flights

/-- R88, R94: what the ends of some slots leave while no cycle runs. -/
structure SlotsEnded (why : SkipReason) (l : List Flight) (a b : Hub) : Prop where
  parts : a.onlyIn [.shot, .store, .router, .uplink, .draws] b
  shot : b.shot = a.shot.skipAll why l
  store : b.store = a.store.without (l.map (·.tag))

theorem slotsEnded_foldl (why : SkipReason) (l : List Flight) {h : Hub} (stopped : h.shot.cycle = .stopped) :
    SlotsEnded why l h (l.foldl (fun h f => h.endFlight f why) h) := by
  induction l generalizing h with
  | nil => exact ⟨Hub.onlyIn_refl _ _, (Shot.skipAll_nil _ _).symm, (Store.without_nil _).symm⟩
  | cons f l ih =>
    have shot := shot_endFlight f why h
    obtain ⟨parts, shots, store⟩ := ih (h := h.endFlight f why) (by rw [shot]; exact stopped)
    refine ⟨Hub.onlyIn_trans (onlyIn_endFlight_stopped stopped f why) parts, ?_, ?_⟩
    · rw [List.foldl_cons, shots, shot, Shot.skipAll_cons]
    · rw [List.foldl_cons, store, store_endFlight, Store.without_append]
      rfl

/-! ## CYCLE_STOP (R88) -/

/-- R88: the slots in GUARD. -/
def Shot.waiting (x : Shot) : List Flight := x.flights.filter (·.stage != .offered)

theorem offered_of_not_waiting {x : Shot} {f : Flight} (flying : f ∈ x.flights) (other : f.tag ∉ x.waiting.map (·.tag)) : f.stage = .offered := by
  by_contra guarded
  exact other (List.mem_map_of_mem (List.mem_filter.2 ⟨flying, bne_iff_ne.2 guarded⟩))

/-- R88: the scheduler as CYCLE_STOP NOW leaves it. -/
def Shot.stoppedNow (pos : BitVec 32) (x : Shot) : Shot :=
  { x.applyPending pos with
    cycle := .stopped, stopAfter := false, span := none
    opening := Vector.replicate 16 none, exposureEnds := Vector.replicate 16 none
    flights := (x.skipAll .stopped x.waiting).flights, stats := (x.skipAll .stopped x.waiting).stats }

theorem Shot.applyPending_skipAll_halt (pos : BitVec 32) (x : Shot) :
    (x.halt.skipAll .stopped x.waiting).applyPending pos = x.stoppedNow pos := by
  unfold Shot.stoppedNow Shot.applyPending
  cases pending : x.pending with
  | none => simp [Shot.halt, Shot.skipAll, pending]
  | some tb => simp [Shot.halt, Shot.skipAll, Shot.apply, pending]

theorem stopNow_eq (h : Hub) : h.stopNow = (h.shot.waiting.foldl (fun h f => h.endFlight f .stopped) (h.modShot Shot.halt)).modShot
    fun x => x.applyPending h.time.position := rfl

section StopNow

variable (h : Hub)

theorem slotsEnded_halt : SlotsEnded .stopped h.shot.waiting (h.modShot Shot.halt)
    (h.shot.waiting.foldl (fun h f => h.endFlight f .stopped) (h.modShot Shot.halt)) := slotsEnded_foldl _ _ rfl

theorem onlyIn_stopNow : h.onlyIn [.shot, .store, .router, .uplink, .draws] h.stopNow := by
  have halted : h.onlyIn [.shot, .store, .router, .uplink, .draws] (h.modShot Shot.halt) := Hub.onlyIn_of_hide (by simp)
  have applied (g : Hub) (f : Shot → Shot) : g.onlyIn [.shot, .store, .router, .uplink, .draws] (g.modShot f) := Hub.onlyIn_of_hide (by simp)
  exact Hub.onlyIn_trans (Hub.onlyIn_trans halted (slotsEnded_halt h).parts) (applied _ _)

theorem shot_stopNow : h.stopNow.shot = h.shot.stoppedNow h.time.position := by
  rw [← Shot.applyPending_skipAll_halt]
  exact congrArg (Shot.applyPending h.time.position) (slotsEnded_halt h).shot

theorem store_stopNow : h.stopNow.store = h.store.without (h.shot.waiting.map (·.tag)) := (slotsEnded_halt h).store

end StopNow

/-- R88: CYCLE_STOP NOW with one slot in GUARD fires SLOT_SKIPPED once, with none not at all. -/
theorem skippedOnce_stopNow {f : Flight} {h : Hub} (one : h.shot.waiting = [f]) :
    ∃ m, Undisturbed (.ofHub .slotSkipped) h m ∧
      Undisturbed (.ofHub .slotSkipped) (m.fire (.ofHub .slotSkipped) (skipDetail f.slot f.port f.cycle .stopped)) h.stopNow := by
  obtain ⟨m, before, after⟩ := (skippedOnce_endFlight .stopped f (.refl (h.modShot Shot.halt))).fired
  have halted : Undisturbed (.ofHub .slotSkipped) h (h.modShot Shot.halt) := .of_same rfl rfl rfl (List.Subset.refl _)
  rw [stopNow_eq, one]
  exact ⟨m, halted.trans before, after.trans (.of_same rfl rfl rfl (List.Subset.refl _))⟩

theorem undisturbed_stopNow {h : Hub} (none : h.shot.waiting = []) : Undisturbed (.ofHub .slotSkipped) h h.stopNow := by
  rw [stopNow_eq, none]
  exact .of_same rfl rfl rfl (List.Subset.refl _)

section CycleStop

variable {c : Cmd} {now : Bool} {h : Hub}

theorem byteAt_flag (now : Bool) : byteAt [if now then (1 : Byte) else 0] 0 = if now then 1 else 0 := by
  revert now
  decide

theorem flag_fits (payload : c.payload = [if now then 1 else 0]) : ¬ 1 < byteAt c.payload 0 := by
  rw [payload, byteAt_flag]
  split <;> decide

theorem cycleStop_stopped (payload : c.payload = [if now then 1 else 0]) (stopped : h.shot.cycle = .stopped) :
    cycleStop c h = ⟨h, .ok, []⟩ := by
  unfold cycleStop
  rw [if_neg (flag_fits payload), stopped]

theorem cycleStop_armed (payload : c.payload = [if now then 1 else 0]) (armed : h.shot.cycle = .armed) :
    cycleStop c h = ⟨h.modShot fun x => { x with cycle := .stopped }, .ok, []⟩ := by
  unfold cycleStop
  rw [if_neg (flag_fits payload), armed]

theorem cycleStop_running (payload : c.payload = [if now then 1 else 0]) (running : h.shot.cycle = .running) :
    cycleStop c h = ⟨if now then h.stopNow else h.modShot fun x => { x with stopAfter := true }, .ok, []⟩ := by
  unfold cycleStop
  rw [if_neg (flag_fits payload), running, payload, byteAt_flag]
  cases now <;> rfl

end CycleStop

/-! ## CYCLE_RUN (R81) and the span timer (R87) -/

theorem cycleRun_refused {h : Hub} (stopped : h.shot.cycle = .stopped) (none : h.shot.active = none) : cycleRun h = refuse .badState h := by
  unfold cycleRun
  rw [stopped, none]

theorem cycleRun_arms {h : Hub} {tb : ShotTable} (stopped : h.shot.cycle = .stopped) (active : h.shot.active = some tb) :
    cycleRun h = ⟨h.modShot fun x =>
      { x with
        cycle := .armed
        nextStart := if tb.header.source = .encoder then h.time.position + BitVec.ofNat 32 tb.header.pitch else x.nextStart }, .ok, []⟩ := by
  unfold cycleRun
  rw [stopped, active]
  simp only [beq_iff_eq]

theorem cycleRun_armed {h : Hub} (armed : h.shot.cycle = .armed) : cycleRun h = ⟨h, .ok, []⟩ := by
  unfold cycleRun
  rw [armed]

theorem cycleRun_running {h : Hub} (running : h.shot.cycle = .running) :
    cycleRun h = ⟨h.modShot fun x => { x with stopAfter := false }, .ok, []⟩ := by
  unfold cycleRun
  rw [running]

theorem spanExpire_ends {s : State} {left : Nat} (running : s.shot.cycle = .running) (span : s.shot.span = some left) :
    happens .spanExpire s ((s.toHub.elapse left).modShot fun x => x.endCycle s.time.position) := by
  refine happens_finish ?_
  show execSpanExpire s = _
  unfold execSpanExpire
  rw [running, span]

theorem spanExpire_ignored {s : State} (other : s.shot.cycle ≠ .running) : ignored .spanExpire s := by
  show execSpanExpire s = .next s
  unfold execSpanExpire
  split
  · rename_i running _
    exact absurd running other
  · rfl

/-- R88: CYCLE_STOP NOW in RUNNING. -/
theorem stop_now {c : Cmd} {s : State} (ready : s.ready) (payload : c.payload = [if true then 1 else 0]) (running : s.shot.cycle = .running) :
    exec (.cycleStop c) s = .next (s.withHub (s.toHub.stopNow.answered 0x46 c .ok [])) := by
  show s.next (s.toHub.takeCommand 0x46 c (c.payload.length == 1) (cycleStop c)) = _
  rw [show (c.payload.length == 1) = true by rw [payload]; rfl]
  exact congrArg s.next (takeCommand_eq ready (cycleStop_running payload running))

/-- Settles O48: each command by the cycle state that it meets. -/
theorem cycleCommandsActByState : Obligations.CycleCommandsActByState := by
  intro c s x waiting applied
  have pendingApplied (pos : BitVec 32) (y : Shot) : y.applyPending pos = applied pos y := by
    unfold Shot.applyPending
    dsimp only [applied]
    cases y.pending with
    | none => rfl
    | some tb => exact Shot.apply_eq pos tb y
  refine ⟨fun ready empty => ?_, fun now ready payload => ?_, fun left running span => ?_, spanExpire_ignored⟩
  · have fits : (c.payload.length == 0) = true := by rw [empty]; rfl
    refine ⟨fun stopped none => ?_, fun tb stopped active => ?_, fun armed => ?_, fun running => ?_, fun stopped => ?_,
      fun running => fire_misses ready empty running, fun tb armed active => fire_begins ready empty armed active⟩
    · exact completes_answer rfl ready fits (cycleRun_refused stopped none) rfl rfl
    · exact completes_answer rfl ready fits (cycleRun_arms stopped active) rfl rfl
    · exact completes_answer rfl ready fits (cycleRun_armed armed) rfl rfl
    · exact completes_answer rfl ready fits (cycleRun_running running) rfl rfl
    · exact completes_answer rfl ready fits (cycleFire_stopped stopped) rfl rfl
  · have fits : (c.payload.length == 1) = true := by rw [payload]; rfl
    refine ⟨fun stopped => ?_, fun armed => ?_, fun running after => ?_, fun running atOnce => ?_⟩
    · exact completes_answer rfl ready fits (cycleStop_stopped payload stopped) rfl rfl
    · exact completes_answer rfl ready fits (cycleStop_armed payload armed) rfl rfl
    · subst after
      exact completes_answer rfl ready fits (cycleStop_running payload running) rfl rfl
    · subst atOnce
      have replied := (repliedTo_answered 0x46 c .ok [] s.toHub.stopNow).1
      have undisturbed := undisturbed_answered 0x46 c .ok [] s.toHub.stopNow (src := .ofHub .slotSkipped) rfl
      have shot : (s.toHub.stopNow.answered 0x46 c .ok []).shot = x.stoppedNow s.time.position :=
        (replied.shot (by decide)).trans (shot_stopNow s.toHub)
      refine ⟨_, stop_now ready payload running, rfl, Hub.onlyIn_trans (onlyIn_stopNow _) (Hub.onlyIn_mono (by decide) replied), ?_,
        fun f flying => ?_, (replied.store (by decide)).trans (store_stopNow s.toHub), fun f one => ?_, fun none => ?_,
        reply_mem_answered _ _ _ _ _⟩
      · refine shot.trans ?_
        rw [← pendingApplied]
        rfl
      · obtain ⟨old, other⟩ := List.mem_filter.1 (congrArg Shot.flights shot ▸ flying)
        exact offered_of_not_waiting old (of_decide_eq_true other)
      · obtain ⟨m, before, later⟩ := skippedOnce_stopNow (h := s.toHub) one
        exact fired_of_fire before (later.trans undisturbed)
      · exact ((undisturbed_stopNow (h := s.toHub) none).trans undisturbed).quiet
  · have ended : (fun y : Shot => y.endCycle s.time.position) = fun y => { applied s.time.position y with
        cycle := if y.stopAfter then .stopped else .armed, stopAfter := false, span := none } := funext fun y => by
      rw [← pendingApplied]
      rfl
    have happened := spanExpire_ends running span
    rw [ended] at happened
    exact happened

end Sys2Proof.Machine
end

