-- ==== Sys2Proof/Proofs/Images.lean ====
section
/-! PROOF. The frames in use, the DRAM, the delivery FIFOs and the tags of the slots that await their TRIGGER: what an operation can do to
them, move by move, and the laws that every move keeps. -/

namespace Sys2Proof.Machine

/-! ## What changes the frames -/

/-- What the laws of the frame store speak of: the frames in use, the DRAM, each port's delivery FIFO, and the frame tags of the slots in
GUARD or OFFERED. -/
structure Images where
  frames : List Frame
  dram : Memory
  fifo : Port → List FrameTag
  slots : List FrameTag

/-- The images of a hub. -/
def Hub.images (h : Hub) : Images := ⟨h.store.frames, h.store.dram, fun p => (h.delivery.get p).fifo, h.shot.flights.map (·.tag)⟩

/-- R101, R102: a frame keeps what it was opened with, and does not come to be FILLING. -/
structure Frame.Remains (f g : Frame) : Prop where
  tag : g.tag = f.tag
  port : g.port = f.port
  pages : g.pages = f.pages
  lines : g.lines = f.lines
  filling : g.state = .filling → f.state = .filling

/-- A frame keeps its exposure too, and its window does not start. -/
structure Frame.Adjusts (f g : Frame) : Prop extends Frame.Remains f g where
  exposedAt : g.exposedAt = f.exposedAt
  window : g.window.isSome = true → f.window.isSome = true

/-- R104: a frame as it opens: with a tag and pages of its own, at a port without a FILLING frame. -/
structure Frame.Opens (l : List Frame) (f : Frame) : Prop where
  tag : ∀ g ∈ l, g.tag ≠ f.tag
  room : l.length < Config.descriptorCount
  distinct : f.pages.Nodup
  free : ∀ n ∈ f.pages, n < Config.pageCount ∧ n ∉ l.flatMap (·.pages)
  alone : ∀ g ∈ l, g.port = f.port → g.state ≠ .filling
  exposedAt : f.exposedAt = none
  window : f.window = none
  received : f.received = []

/-- R107: a frame as it is closed. -/
def Frame.closedAs (status : CloseStatus) (now : CellTime) (f : Frame) : Frame :=
  { f with window := none, closeStatus := some status, closeTime := some now, state := .queued }

/-- A change of the frame that holds a tag. -/
def Frame.onTag (t : FrameTag) (g : Frame → Frame) (f : Frame) : Frame := if f.tag == t then g f else f

/-- R100, R101, R103: no page is reserved twice, at most 24 descriptors are in use, and their tags are unique. -/
def pagesLaw (l : List Frame) : Prop :=
  (l.flatMap (·.pages)).Nodup ∧ (∀ n ∈ l.flatMap (·.pages), n < Config.pageCount) ∧ l.length ≤ Config.descriptorCount ∧ (l.map (·.tag)).Nodup

/-- R101: each port has at most one frame FILLING. -/
def fillingLaw (l : List Frame) : Prop := ∀ p : Port, l.countP (fun f => f.port == p && f.state == .filling) ≤ 1

/-- R102, R110: received lines ascend, each below the expected lines. -/
def receivedLaw (l : List Frame) : Prop := ∀ f ∈ l, (f.received.map (·.1)).Pairwise (· < ·) ∧ ∀ q ∈ f.received, q.1 < f.lines

/-- R94, R105, R107: a delivery FIFO lists closed and exposed frames of its port, each once; the frame of a slot in GUARD or OFFERED is
not exposed, and one whose window runs is. -/
structure Images.Delivers (v : Images) : Prop where
  once : ∀ p, (v.fifo p).Nodup
  listed : ∀ p, ∀ t ∈ v.fifo p, ∃ f ∈ v.frames, f.tag = t ∧ f.port = p ∧ f.state ≠ .filling ∧ f.exposedAt.isSome = true
  slots : ∀ t ∈ v.slots, ∀ f ∈ v.frames, f.tag = t → f.exposedAt = none
  window : ∀ f ∈ v.frames, f.window.isSome = true → f.exposedAt.isSome = true

/-- What one operation can do to the images. -/
inductive Images.Move (v : Images) : Images → Prop
  /-- Frames change in what the laws do not speak of. -/
  | adjust (g : Frame → Frame) (same : ∀ f : Frame, f.Adjusts (g f)) (received : ∀ f, (g f).received = f.received) :
      v.Move { v with frames := v.frames.map g }
  /-- Slots end. -/
  | endSlots {l : List FrameTag} (fewer : l ⊆ v.slots) : v.Move { v with slots := l }
  /-- R104: a frame opens for a slot. -/
  | enter {f : Frame} (opens : f.Opens v.frames) : v.Move { v with frames := v.frames ++ [f], slots := v.slots ++ [f.tag] }
  /-- R105: a TRIGGER sent exposes its frame and ends its slot. -/
  | expose (t : FrameTag) (g : Frame → Frame) (same : ∀ f : Frame, f.Remains (g f)) (received : ∀ f, (g f).received = f.received)
      (exposed : ∀ f, (g f).exposedAt.isSome = true) :
      v.Move { v with frames := v.frames.map (Frame.onTag t g), slots := v.slots.filter (· != t) }
  /-- R111, R112: a line not received before is placed. -/
  | place {f : Frame} {n : Nat} (bad : Bool) {m : Memory} (mem : f ∈ v.frames) (inside : n < f.lines) (new : ∀ q ∈ f.received, q.1 ≠ n)
      (canonical : Memory.wf v.dram → Memory.wf m) :
      v.Move { v with frames := v.frames.map (Frame.onTag f.tag fun g => g.recordLine n bad), dram := m }
  /-- R107: a FILLING frame, triggered or with its window running, is closed and joins its port's delivery FIFO. -/
  | close {f : Frame} (status : CloseStatus) (now : CellTime) (mem : f ∈ v.frames) (filling : f.state = .filling)
      (triggered : f.exposedAt.isSome = true ∨ f.window.isSome = true) :
      v.Move { v with
        frames := v.frames.map (Frame.onTag f.tag (Frame.closedAs status now))
        fifo := fun q => if q = f.port then v.fifo q ++ [f.tag] else v.fifo q }
  /-- R108: descriptors become free. No delivery FIFO lists them afterwards. -/
  | release (gone : List FrameTag) {fifo : Port → List FrameTag} (fewer : ∀ p, (fifo p).Sublist (v.fifo p))
      (unlisted : pagesLaw v.frames → v.Delivers → ∀ p, ∀ t ∈ fifo p, t ∉ gone) :
      v.Move { v with frames := v.frames.filter fun g => decide (g.tag ∉ gone), fifo := fifo }

/-! ## Single frames -/

theorem Frame.Remains.refl (f : Frame) : f.Remains f := ⟨rfl, rfl, rfl, rfl, id⟩

theorem Frame.Adjusts.refl (f : Frame) : f.Adjusts f := ⟨.refl f, rfl, id⟩

theorem Frame.onTag_of_ne {t : FrameTag} {f : Frame} (ne : f.tag ≠ t) (g : Frame → Frame) : Frame.onTag t g f = f :=
  if_neg (by simpa using ne)

theorem Frame.onTag_of_eq {t : FrameTag} {f : Frame} (eq : f.tag = t) (g : Frame → Frame) : Frame.onTag t g f = g f :=
  if_pos (by simpa using eq)

/-- What holds between a frame and its change, and between a frame and itself, holds where the change meets one tag. -/
theorem Frame.onTag_rel {R : Frame → Frame → Prop} {g : Frame → Frame} (t : FrameTag) (changed : ∀ f, R f (g f)) (same : ∀ f, R f f)
    (f : Frame) : R f (Frame.onTag t g f) := by
  unfold Frame.onTag
  split
  · exact changed f
  · exact same f

theorem Frame.adjusts_recordLine (n : Nat) (bad : Bool) (f : Frame) : f.Adjusts (f.recordLine n bad) := ⟨⟨rfl, rfl, rfl, rfl, id⟩, rfl, id⟩

theorem Frame.adjusts_closedAs (status : CloseStatus) (now : CellTime) (f : Frame) : f.Adjusts (f.closedAs status now) :=
  ⟨⟨rfl, rfl, rfl, rfl, nofun⟩, rfl, nofun⟩

/-- R103: a tag names one frame. -/
theorem eq_of_tag {l : List Frame} (law : pagesLaw l) {f g : Frame} (mem : f ∈ l) (mem' : g ∈ l) (tag : f.tag = g.tag) : f = g :=
  List.inj_on_of_nodup_map law.2.2.2 mem mem' tag

/-! ## Pages, descriptors and tags (R100, R101, R103) -/

theorem pagesLaw.map {l : List Frame} {g : Frame → Frame} (law : pagesLaw l) (same : ∀ f : Frame, f.Remains (g f)) : pagesLaw (l.map g) := by
  have pages : (l.map g).flatMap (·.pages) = l.flatMap (·.pages) := by
    rw [List.flatMap_map]
    exact List.flatMap_congr fun f _ => (same f).pages
  have tags : (l.map g).map (·.tag) = l.map (·.tag) := by
    rw [List.map_map]
    exact List.map_congr_left fun f _ => (same f).tag
  unfold pagesLaw
  rw [pages, tags, List.length_map]
  exact law

theorem pagesLaw.sublist {l m : List Frame} (law : pagesLaw l) (sub : m.Sublist l) : pagesLaw m := by
  obtain ⟨once, inside, few, tags⟩ := law
  have pages : (m.flatMap (·.pages)).Sublist (l.flatMap (·.pages)) := sub.flatMap _
  exact ⟨once.sublist pages, fun n mem => inside n (pages.subset mem), sub.length_le.trans few, tags.sublist (sub.map _)⟩

theorem pagesLaw.enter {l : List Frame} {f : Frame} (law : pagesLaw l) (opens : f.Opens l) : pagesLaw (l ++ [f]) := by
  obtain ⟨once, inside, few, tags⟩ := law
  have pages : (l ++ [f]).flatMap (·.pages) = l.flatMap (·.pages) ++ f.pages := by simp
  unfold pagesLaw
  rw [pages]
  refine ⟨List.Nodup.append once opens.distinct fun n mem new => (opens.free n new).2 mem, fun n mem => ?_, ?_, ?_⟩
  · exact (List.mem_append.1 mem).elim (inside n) fun new => (opens.free n new).1
  · simpa using opens.room
  · rw [List.map_append]
    refine List.Nodup.append tags (List.nodup_singleton _) fun t mem new => ?_
    obtain ⟨g, mem', rfl⟩ := List.mem_map.1 mem
    exact opens.tag g mem' (List.mem_singleton.1 new)

/-- Every move keeps pages, descriptors and tags as they should be. -/
theorem Images.Move.pagesLaw {v w : Images} (m : v.Move w) (law : pagesLaw v.frames) : pagesLaw w.frames := by
  cases m with
  | adjust g same => exact law.map fun f => (same f).toRemains
  | endSlots => exact law
  | enter opens => exact law.enter opens
  | expose t g same => exact law.map (Frame.onTag_rel t same .refl)
  | place bad => exact law.map (Frame.onTag_rel _ (fun f => (f.adjusts_recordLine _ bad).toRemains) .refl)
  | close status now => exact law.map (Frame.onTag_rel _ (fun f => (f.adjusts_closedAs status now).toRemains) .refl)
  | release => exact law.sublist List.filter_sublist

/-! ## FILLING frames (R101) -/

theorem fillingLaw.map {l : List Frame} {g : Frame → Frame} (law : fillingLaw l) (same : ∀ f : Frame, f.Remains (g f)) : fillingLaw (l.map g) := by
  intro p
  rw [List.countP_map]
  refine (List.countP_mono_left fun f _ hit => ?_).trans (law p)
  simp only [Function.comp, Bool.and_eq_true, beq_iff_eq] at hit ⊢
  exact ⟨(same f).port ▸ hit.1, (same f).filling hit.2⟩

theorem fillingLaw.enter {l : List Frame} {f : Frame} (law : fillingLaw l) (opens : f.Opens l) : fillingLaw (l ++ [f]) := by
  intro p
  rw [List.countP_append]
  by_cases here : f.port = p
  · have none : l.countP (fun g => g.port == p && g.state == .filling) = 0 := by
      refine List.countP_eq_zero.2 fun g mem hit => ?_
      simp only [Bool.and_eq_true, beq_iff_eq] at hit
      exact opens.alone g mem (hit.1.trans here.symm) hit.2
    rw [none, Nat.zero_add]
    exact List.countP_le_length
  · simpa [here] using law p

/-- Every move keeps at most one frame of a port FILLING. -/
theorem Images.Move.fillingLaw {v w : Images} (m : v.Move w) (law : fillingLaw v.frames) : fillingLaw w.frames := by
  cases m with
  | adjust g same => exact law.map fun f => (same f).toRemains
  | endSlots => exact law
  | enter opens => exact law.enter opens
  | expose t g same => exact law.map (Frame.onTag_rel t same .refl)
  | place bad => exact law.map (Frame.onTag_rel _ (fun f => (f.adjusts_recordLine _ bad).toRemains) .refl)
  | close status now => exact law.map (Frame.onTag_rel _ (fun f => (f.adjusts_closedAs status now).toRemains) .refl)
  | release => exact fun p => (List.filter_sublist.countP_le).trans (law p)

/-! ## Received lines (R102, R110) -/

theorem receivedLaw.map {l : List Frame} {g : Frame → Frame} (law : receivedLaw l) (same : ∀ f, (g f).lines = f.lines)
    (received : ∀ f, (g f).received = f.received) : receivedLaw (l.map g) := by
  refine List.forall_mem_map.2 fun f mem => ?_
  rw [same, received]
  exact law f mem

/-- R110, R125: the line placed is a new one, below the expected lines. -/
theorem receivedLaw.place {l : List Frame} {f : Frame} {n : Nat} (law : receivedLaw l) (pages : pagesLaw l) (bad : Bool) (mem : f ∈ l)
    (inside : n < f.lines) (new : ∀ q ∈ f.received, q.1 ≠ n) : receivedLaw (l.map (Frame.onTag f.tag fun g => g.recordLine n bad)) := by
  refine List.forall_mem_map.2 fun g mem' => ?_
  by_cases tag : g.tag = f.tag
  · obtain rfl : g = f := eq_of_tag pages mem' mem tag
    obtain ⟨ascending, below⟩ := law g mem'
    rw [Frame.onTag_of_eq rfl]
    refine ⟨insertLine_ascending n bad g.received new ascending, fun q received => ?_⟩
    rcases (mem_insertLine n bad g.received).1 received with rfl | old
    · exact inside
    · exact below q old
  · rw [Frame.onTag_of_ne tag]
    exact law g mem'

/-- Every move keeps the received lines ascending. -/
theorem Images.Move.receivedLaw {v w : Images} (m : v.Move w) (pages : Machine.pagesLaw v.frames) (law : receivedLaw v.frames) :
    receivedLaw w.frames := by
  cases m with
  | adjust g same received => exact law.map (fun f => (same f).lines) received
  | endSlots => exact law
  | enter opens =>
    refine List.forall_mem_append.2 ⟨law, List.forall_mem_singleton.2 ?_⟩
    rw [opens.received]
    exact ⟨.nil, nofun⟩
  | expose t g same received =>
    exact law.map (Frame.onTag_rel (R := fun f g => g.lines = f.lines) t (fun f => (same f).lines) fun _ => rfl)
      (Frame.onTag_rel (R := fun f g => g.received = f.received) t received fun _ => rfl)
  | place bad mem inside new => exact law.place pages bad mem inside new
  | close status now =>
    exact law.map (Frame.onTag_rel (R := fun f g => g.lines = f.lines) _ (fun _ => rfl) fun _ => rfl)
      (Frame.onTag_rel (R := fun f g => g.received = f.received) _ (fun _ => rfl) fun _ => rfl)
  | release => exact fun f mem => law f (List.mem_of_mem_filter mem)

/-! ## Delivery (R94, R105, R107) -/

namespace Images.Delivers

variable {v w : Images}

/-- Frames are adjusted, and slots may end. -/
theorem adjust (d : v.Delivers) {g : Frame → Frame} (same : ∀ f : Frame, f.Adjusts (g f)) (frames : w.frames = v.frames.map g)
    (fifo : w.fifo = v.fifo) (slots : w.slots ⊆ v.slots) : w.Delivers where
  once p := fifo ▸ d.once p
  listed p t mem := by
    rw [fifo] at mem
    obtain ⟨f, inUse, tag, port, closed, exposed⟩ := d.listed p t mem
    have s := same f
    exact ⟨g f, frames ▸ List.mem_map_of_mem inUse, s.tag.trans tag, s.port.trans port, fun k => closed (s.filling k), s.exposedAt ▸ exposed⟩
  slots t mem := by
    rw [frames]
    refine List.forall_mem_map.2 fun f inUse tag => ?_
    rw [(same f).exposedAt]
    exact d.slots t (slots mem) f inUse ((same f).tag ▸ tag)
  window := by
    rw [frames]
    refine List.forall_mem_map.2 fun f inUse runs => ?_
    rw [(same f).exposedAt]
    exact d.window f inUse ((same f).window runs)

theorem enter (d : v.Delivers) {f : Frame} (opens : f.Opens v.frames) :
    ({ v with frames := v.frames ++ [f], slots := v.slots ++ [f.tag] } : Images).Delivers where
  once := d.once
  listed p t mem := by
    obtain ⟨g, inUse, kept⟩ := d.listed p t mem
    exact ⟨g, List.mem_append_left _ inUse, kept⟩
  slots t mem := by
    refine List.forall_mem_append.2 ⟨fun g inUse tag => ?_, List.forall_mem_singleton.2 fun _ => opens.exposedAt⟩
    rcases List.mem_append.1 mem with old | new
    · exact d.slots t old g inUse tag
    · exact absurd (tag.trans (List.mem_singleton.1 new)) (opens.tag g inUse)
  window := by
    refine List.forall_mem_append.2 ⟨d.window, List.forall_mem_singleton.2 fun runs => ?_⟩
    rw [opens.window] at runs
    cases runs

theorem expose (d : v.Delivers) (t : FrameTag) {g : Frame → Frame} (same : ∀ f : Frame, f.Remains (g f))
    (exposed : ∀ f, (g f).exposedAt.isSome = true) :
    ({ v with frames := v.frames.map (Frame.onTag t g), slots := v.slots.filter (· != t) } : Images).Delivers where
  once := d.once
  listed p x mem := by
    obtain ⟨f, inUse, tag, port, closed, was⟩ := d.listed p x mem
    have s := Frame.onTag_rel t same .refl f
    refine ⟨_, List.mem_map_of_mem inUse, s.tag.trans tag, s.port.trans port, fun k => closed (s.filling k), ?_⟩
    by_cases here : f.tag = t
    · rw [Frame.onTag_of_eq here]
      exact exposed f
    · rw [Frame.onTag_of_ne here]
      exact was
  slots x mem := by
    obtain ⟨old, other⟩ := List.mem_filter.1 mem
    refine List.forall_mem_map.2 fun f inUse tag => ?_
    rw [(Frame.onTag_rel t same .refl f).tag] at tag
    have ne : f.tag ≠ t := tag ▸ bne_iff_ne.1 other
    rw [Frame.onTag_of_ne ne]
    exact d.slots x old f inUse tag
  window := by
    refine List.forall_mem_map.2 fun f inUse runs => ?_
    by_cases here : f.tag = t
    · rw [Frame.onTag_of_eq here]
      exact exposed f
    · rw [Frame.onTag_of_ne here] at runs ⊢
      exact d.window f inUse runs

/-- R107: the frame closed was FILLING, so no FIFO listed it. -/
theorem close (d : v.Delivers) (pages : pagesLaw v.frames) {f : Frame} (status : CloseStatus) (now : CellTime) (mem : f ∈ v.frames)
    (filling : f.state = .filling) (triggered : f.exposedAt.isSome = true ∨ f.window.isSome = true) :
    ({ v with
        frames := v.frames.map (Frame.onTag f.tag (Frame.closedAs status now))
        fifo := fun q => if q = f.port then v.fifo q ++ [f.tag] else v.fifo q } : Images).Delivers := by
  have new : f.tag ∉ v.fifo f.port := fun old => by
    obtain ⟨g, inUse, tag, -, closed, -⟩ := d.listed _ _ old
    exact closed (eq_of_tag pages inUse mem tag ▸ filling)
  have mid : ({ v with frames := v.frames.map (Frame.onTag f.tag (Frame.closedAs status now)) } : Images).Delivers :=
    d.adjust (Frame.onTag_rel _ (fun f => f.adjusts_closedAs status now) .refl) rfl rfl (List.Subset.refl _)
  refine ⟨fun q => ?_, fun q t listed => ?_, mid.slots, mid.window⟩
  · dsimp only
    split
    · rename_i here
      exact List.Nodup.append (d.once q) (List.nodup_singleton _) fun t old k => new (List.mem_singleton.1 k ▸ here ▸ old)
    · exact d.once q
  · have known : t ∈ v.fifo q ∨ q = f.port ∧ t = f.tag := by
      dsimp only at listed
      split at listed
      · rename_i here
        exact (List.mem_append.1 listed).imp_right fun k => ⟨here, List.mem_singleton.1 k⟩
      · exact .inl listed
    rcases known with old | ⟨rfl, rfl⟩
    · exact mid.listed q t old
    · refine ⟨_, List.mem_map_of_mem mem, ?_⟩
      rw [Frame.onTag_of_eq rfl]
      exact ⟨rfl, rfl, nofun, triggered.elim id (d.window f mem)⟩

theorem release (d : v.Delivers) {gone : List FrameTag} {fifo : Port → List FrameTag} (fewer : ∀ p, (fifo p).Sublist (v.fifo p))
    (unlisted : ∀ p, ∀ t ∈ fifo p, t ∉ gone) :
    ({ v with frames := v.frames.filter fun g => decide (g.tag ∉ gone), fifo := fifo } : Images).Delivers where
  once p := (d.once p).sublist (fewer p)
  listed p t mem := by
    obtain ⟨f, inUse, tag, kept⟩ := d.listed p t ((fewer p).subset mem)
    exact ⟨f, List.mem_filter.2 ⟨inUse, decide_eq_true (tag ▸ unlisted p t mem)⟩, tag, kept⟩
  slots t mem f inUse := d.slots t mem f (List.mem_of_mem_filter inUse)
  window f inUse := d.window f (List.mem_of_mem_filter inUse)

end Images.Delivers

/-- Every move keeps the delivery FIFOs as they should be. -/
theorem Images.Move.delivers {v w : Images} (m : v.Move w) (pages : Machine.pagesLaw v.frames) (d : v.Delivers) : w.Delivers := by
  cases m with
  | adjust g same => exact d.adjust same rfl rfl (List.Subset.refl _)
  | endSlots fewer => exact d.adjust .refl (List.map_id _).symm rfl fewer
  | enter opens => exact d.enter opens
  | expose t g same received exposed => exact d.expose t same exposed
  | place bad => exact d.adjust (Frame.onTag_rel _ (fun f => f.adjusts_recordLine _ bad) .refl) rfl rfl (List.Subset.refl _)
  | close status now mem filling triggered => exact d.close pages status now mem filling triggered
  | release gone fewer unlisted => exact d.release fewer (unlisted pages d)

/-- Every move keeps the DRAM in canonical form (log 14). -/
theorem Images.Move.wf {v w : Images} (m : v.Move w) (canonical : Memory.wf v.dram) : Memory.wf w.dram := by
  cases m with
  | place bad mem inside new keeps => exact keeps canonical
  | _ => exact canonical

/-! ## Runs of moves -/

/-- The hub's images come from those given by moves. -/
def Hub.ImagesFrom (v : Images) (h : Hub) : Prop := Relation.ReflTransGen Images.Move v h.images

namespace Hub.ImagesFrom

variable {v : Images} {h : Hub}

/-- A property of images that every move keeps holds of the hub's. -/
theorem induct {P : Images → Prop} (keeps : ∀ v w, Images.Move v w → P v → P w) (r : ImagesFrom v h) (start : P v) : P h.images := by
  unfold ImagesFrom at r
  generalize h.images = w at r
  induction r with
  | refl => exact start
  | tail _ m ih => exact keeps _ _ m ih

theorem wf (r : ImagesFrom v h) : Memory.wf v.dram → Memory.wf h.images.dram := r.induct (P := fun v => Memory.wf v.dram) fun _ _ m => m.wf

theorem pages (r : ImagesFrom v h) : pagesLaw v.frames → pagesLaw h.images.frames :=
  r.induct (P := fun v => pagesLaw v.frames) fun _ _ m => m.pagesLaw

theorem filling (r : ImagesFrom v h) : fillingLaw v.frames → fillingLaw h.images.frames :=
  r.induct (P := fun v => fillingLaw v.frames) fun _ _ m => m.fillingLaw

theorem delivers (r : ImagesFrom v h) (pages : pagesLaw v.frames) (d : v.Delivers) : h.images.Delivers :=
  (r.induct (P := fun v => pagesLaw v.frames ∧ v.Delivers) (fun _ _ m k => ⟨m.pagesLaw k.1, m.delivers k.1 k.2⟩) ⟨pages, d⟩).2

theorem received (r : ImagesFrom v h) (pages : pagesLaw v.frames) (law : receivedLaw v.frames) : receivedLaw h.images.frames :=
  (r.induct (P := fun v => pagesLaw v.frames ∧ receivedLaw v.frames) (fun _ _ m k => ⟨m.pagesLaw k.1, m.receivedLaw k.1 k.2⟩) ⟨pages, law⟩).2

end Hub.ImagesFrom

/-! ## The laws of the statements -/

theorem memoryKept_iff (s : State) : s.memoryKept ↔ Memory.wf s.toHub.images.dram := Iff.rfl

theorem pagesKept_iff (s : State) : s.pagesKept ↔ pagesLaw s.toHub.images.frames := Iff.rfl

theorem fillingKept_iff (s : State) : s.fillingKept ↔ fillingLaw s.toHub.images.frames := Iff.rfl

theorem receivedKept_iff (s : State) : s.receivedKept ↔ receivedLaw s.toHub.images.frames := Iff.rfl

theorem deliveryKept_iff (s : State) : s.deliveryKept ↔ s.toHub.images.Delivers where
  mp k := by
    obtain ⟨fifo, slots, window⟩ := k
    exact ⟨fun p => (fifo p).1, fun p => (fifo p).2, List.forall_mem_map.2 slots, window⟩
  mpr d := ⟨fun p => ⟨d.once p, d.listed p⟩, List.forall_mem_map.1 d.slots, d.window⟩

end Sys2Proof.Machine
end

