-- ==== Sys2Proof/Proofs/ImagesMoved.lean ====
section
/-! PROOF. The images under the hub's operations: each shared operation is a run of moves. -/

namespace Sys2Proof.Machine

/-- Every part that holds no frame, no delivery FIFO and no slot. -/
abbrev stillParts : List Part := [.time, .links, .power, .budget, .lenses, .deferred, .rotation, .zones, .echo, .router, .uplink, .draws]

theorem images_congr {a b : Hub} (store : b.store = a.store) (delivery : b.delivery = a.delivery) (shot : b.shot = a.shot) :
    b.images = a.images := by
  unfold Hub.images
  rw [store, delivery, shot]

/-- R101: the FILLING frame found is a frame in use. -/
theorem filling?_spec {p : Port} {st : Store} {f : Frame} (found : st.filling? p = some f) :
    f ∈ st.frames ∧ f.port = p ∧ f.state = .filling := by
  have both := List.find?_some found
  simp only [Bool.and_eq_true, beq_iff_eq] at both
  exact ⟨List.mem_of_find?_eq_some found, both⟩

theorem frame?_spec {t : FrameTag} {st : Store} {f : Frame} (found : st.frame? t = some f) : f ∈ st.frames ∧ f.tag = t :=
  ⟨List.mem_of_find?_eq_some found, by simpa using List.find?_some found⟩

/-- R101, R103: a tag stands in the FIFO of one port: that of its frame. -/
theorem Images.Delivers.port_of_listed {v : Images} (d : v.Delivers) (pages : pagesLaw v.frames) {f : Frame} (mem : f ∈ v.frames) {p : Port}
    (listed : f.tag ∈ v.fifo p) : f.port = p ∧ f.state ≠ .filling := by
  obtain ⟨g, inUse, tag, port, closed, -⟩ := d.listed p f.tag listed
  obtain rfl := eq_of_tag pages inUse mem tag
  exact ⟨port, closed⟩

theorem Images.Delivers.port_unique {v : Images} (d : v.Delivers) (pages : pagesLaw v.frames) {t : FrameTag} {p q : Port}
    (here : t ∈ v.fifo p) (there : t ∈ v.fifo q) : p = q := by
  obtain ⟨f, inUse, rfl, port, -⟩ := d.listed p t here
  exact port.symm.trans (d.port_of_listed pages inUse there).1

namespace Hub.ImagesFrom

variable {v : Images} {h : Hub}

/-! ## Rules -/

theorem refl (h : Hub) : ImagesFrom h.images h := Relation.ReflTransGen.refl

theorem same {b : Hub} (r : ImagesFrom v h) (e : b.images = h.images) : ImagesFrom v b := by
  unfold ImagesFrom at r ⊢
  rwa [e]

theorem move {w : Images} {b : Hub} (r : ImagesFrom v h) (m : h.images.Move w) (e : b.images = w) : ImagesFrom v b := by
  subst e
  exact r.tail m

theorem other {l : List Part} {b : Hub} (r : ImagesFrom v h) (e : h.onlyIn l b)
    (apart : Part.store ∉ l ∧ Part.delivery ∉ l ∧ Part.shot ∉ l := by decide) : ImagesFrom v b :=
  r.same (images_congr (e.store apart.1) (e.delivery apart.2.1) (e.shot apart.2.2))

/-- A change of parts without images. -/
theorem still {b : Hub} (r : ImagesFrom v h) (e : b.hide stillParts = h.hide stillParts) : ImagesFrom v b := r.other (Hub.onlyIn_of_hide e)

theorem foldl {α : Type} (op : Hub → α → Hub) (keeps : ∀ h x, ImagesFrom v h → ImagesFrom v (op h x)) (l : List α)
    (r : ImagesFrom v h) : ImagesFrom v (l.foldl op h) := by
  induction l generalizing h with
  | nil => exact r
  | cons x l ih => exact ih (keeps h x r)

theorem modShot (f : Shot → Shot) (r : ImagesFrom v h) (slots : (f h.shot).flights = h.shot.flights) : ImagesFrom v (h.modShot f) :=
  r.same (by rw [Hub.images, modShot_shot, slots]; rfl)

theorem modFrame (t : FrameTag) {g : Frame → Frame} (same : ∀ f : Frame, f.Adjusts (g f)) (received : ∀ f, (g f).received = f.received)
    (r : ImagesFrom v h) : ImagesFrom v (h.modFrame t g) :=
  r.move (.adjust (Frame.onTag t g) (Frame.onTag_rel t same .refl)
    (Frame.onTag_rel (R := fun f g => g.received = f.received) t received fun _ => rfl)) rfl

theorem elapse (n : Nat) (r : ImagesFrom v h) : ImagesFrom v (h.elapse n) := by
  have slots : (h.shot.flights.map (Flight.pass n)).map (·.tag) = h.shot.flights.map (·.tag) := by
    rw [List.map_map]
    exact List.map_congr_left fun x _ => (flight_pass n x).2.2.1
  refine r.move (.adjust (fun f => { f with window := Timer.pass n f.window })
    (fun f => ⟨⟨rfl, rfl, rfl, rfl, id⟩, rfl, fun k => ?_⟩) fun _ => rfl) ?_
  · simpa [Timer.pass] using k
  · simp only [Hub.images, Hub.elapse, Shot.pass, Store.pass, slots]

/-! ## Reports and the end of a step -/

theorem fire (src : Source) (d : List Byte) (r : ImagesFrom v h) : ImagesFrom v (h.fire src d) := r.other (onlyIn_fire src d h)

theorem activate (src : Source) (r : ImagesFrom v h) : ImagesFrom v (h.activate src) := r.still (by simp)

/-- R124, R125: at most one frame is marked SENDING. -/
theorem settled {b : Hub} (r : ImagesFrom v h) (e : h.settledTo b) : ImagesFrom v b := by
  obtain ⟨mark, store, marks⟩ := store_settledTo e
  refine r.move (.adjust mark (fun f => ?_) fun f => ?_) ?_
  · rcases marks f with e | e <;> rw [e]
    · exact .refl f
    · exact ⟨⟨rfl, rfl, rfl, rfl, nofun⟩, rfl, id⟩
  · rcases marks f with e | e <;> rw [e]
  · simp only [Hub.images, store, fifo_settledTo e, e.1.shot (by decide)]

theorem finish (r : ImagesFrom v h) : ImagesFrom v h.finish := r.settled (Hub.finish_spec h).1

/-! ## Lens moves -/

theorem offerWord (p : Port) (w : DownWord) (r : ImagesFrom v h) : ImagesFrom v (h.offerWord p w) := r.other (onlyIn_offerWord p w h)

theorem issueMove (p : Port) (t : Targets) (r : ImagesFrom v h) : ImagesFrom v (h.issueMove p t).hub := r.other (onlyIn_issueMove p t h)

theorem issueSlotMove (i : SlotIx) (r : ImagesFrom v h) : ImagesFrom v (h.issueSlotMove i) := r.other (onlyIn_issueSlotMove i h)

theorem issueNext (i : SlotIx) (n : BitVec 32) (r : ImagesFrom v h) : ImagesFrom v (h.issueNext i n) := r.other (onlyIn_issueNext i n h)

theorem serveIfBelow (n : Nat) (r : ImagesFrom v h) : ImagesFrom v (h.serveIfBelow n) := r.other (onlyIn_serveIfBelow n h)

theorem releaseSurge (p : Port) (r : ImagesFrom v h) : ImagesFrom v (h.releaseSurge p) := r.other (onlyIn_releaseSurge p h)

/-! ## Descriptors (R107, R108) -/

theorem releaseFrame (t : FrameTag) (r : ImagesFrom v h)
    (unlisted : pagesLaw h.images.frames → h.images.Delivers → ∀ p, t ∉ (h.delivery.get p).fifo) : ImagesFrom v (h.releaseFrame t) := by
  refine r.move (.release [t] (fun p => .refl _) fun pages d p x listed k => unlisted pages d p (List.mem_singleton.1 k ▸ listed)) ?_
  have parts := onlyIn_releaseFrame t h
  simp only [Hub.images, store_releaseFrame, parts.delivery (by decide), parts.shot (by decide), Store.without]

/-- R101: no FIFO lists a FILLING frame. -/
theorem releaseFilling {p : Port} {f : Frame} (found : h.store.filling? p = some f) (r : ImagesFrom v h) : ImagesFrom v (h.releaseFrame f.tag) := by
  obtain ⟨mem, -, filling⟩ := filling?_spec found
  exact r.releaseFrame f.tag fun pages d q listed => (d.port_of_listed pages mem listed).2 filling

/-- R107: a FILLING frame of the port is closed. -/
theorem closeFrame {t : FrameTag} {p : Port} (status : CloseStatus) (r : ImagesFrom v h)
    (due : ∃ f ∈ h.store.frames, f.tag = t ∧ f.port = p ∧ f.state = .filling ∧ (f.exposedAt.isSome = true ∨ f.window.isSome = true)) :
    ImagesFrom v (h.closeFrame t p status) := by
  obtain ⟨f, mem, rfl, rfl, filling, triggered⟩ := due
  refine r.move (.close status h.now mem filling triggered) ?_
  have fifo (q : Port) : ((h.closeFrame f.tag f.port status).delivery.get q).fifo =
      if q = f.port then (h.delivery.get q).fifo ++ [f.tag] else (h.delivery.get q).fifo := by
    have delivery : (h.closeFrame f.tag f.port status).delivery = h.delivery.mod f.port fun d => { d with fifo := d.fifo ++ [f.tag] } := rfl
    rw [delivery, PerPort.get_mod]
    split
    · subst_vars
      rfl
    · rfl
  unfold Hub.images
  rw [funext fifo]
  rfl

/-- R109, R116, R117: a triggered frame goes to delivery, an untriggered one is released. -/
theorem closeFilling (p : Port) (status : CloseStatus) (r : ImagesFrom v h) : ImagesFrom v (h.closeFilling p status) := by
  unfold Hub.closeFilling
  split
  · rename_i f found
    obtain ⟨mem, port, filling⟩ := filling?_spec found
    split
    · rename_i triggered
      exact r.closeFrame status ⟨f, mem, rfl, port, filling, .inl triggered⟩
    · exact r.releaseFilling found
  · exact r

/-! ## Slots that end (R94) -/

/-- R94: the frame of a slot in GUARD or OFFERED is not exposed, so no FIFO lists it. -/
theorem lost {b : Hub} (r : ImagesFrom v h) (lost : LostSlots (h.shot.flights.map (·.tag)) h b) : ImagesFrom v b := by
  obtain ⟨⟨gone, sub, flights, store⟩, delivery, -⟩ := lost
  have release : h.images.Move { h.images with frames := h.images.frames.filter fun g => decide (g.tag ∉ gone) } := by
    refine .release gone (fun p => .refl _) fun _ d p t listed k => ?_
    obtain ⟨f, inUse, tag, -, -, exposed⟩ := d.listed p t listed
    rw [d.slots t (sub k) f inUse tag] at exposed
    cases exposed
  have fewer : b.shot.flights.map (·.tag) ⊆ h.images.slots := by
    rw [flights]
    exact List.map_subset _ (List.filter_subset_self _)
  unfold ImagesFrom at r ⊢
  refine (r.tail release).tail ?_
  have images : b.images = { h.images with
      frames := h.images.frames.filter fun g => decide (g.tag ∉ gone), slots := b.shot.flights.map (·.tag) } := by
    simp only [Hub.images, store, delivery, Store.without]
  rw [images]
  exact .endSlots fewer

theorem endFlights (p : Port) (why : SkipReason) (r : ImagesFrom v h) : ImagesFrom v (h.endFlights p why) :=
  r.lost ((LostSlots.refl _ h).endFlights p why)

theorem triggerNotSent (t : FrameTag) (r : ImagesFrom v h) : ImagesFrom v (h.triggerNotSent t) :=
  r.lost ((LostSlots.refl _ h).triggerNotSent t)

theorem reportUnsent (tags : List FrameTag) (r : ImagesFrom v h) : ImagesFrom v (h.reportUnsent tags) :=
  r.lost ((LostSlots.refl _ h).reportUnsent tags)

theorem dropFilling (p : Port) (status : CloseStatus) (why : SkipReason) (r : ImagesFrom v h) : ImagesFrom v (h.dropFilling p status why) := by
  rw [dropFilling_eq]
  exact (r.closeFilling p status).endFlights p why

/-- R95: a slot that does not open is skipped. -/
theorem skipSlot (i : SlotIx) (p : Port) (n : BitVec 32) (why : SkipReason) (r : ImagesFrom v h) : ImagesFrom v (h.skipSlot i p n why) :=
  ((r.modShot _ rfl : ImagesFrom v (h.recordOutcome i (.skipped why) n)).fire _ _).issueNext i n

/-! ## TRIGGERs (R92, R93, R105) -/

theorem offered (f : Flight) (late : Bool) (r : ImagesFrom v h) : ImagesFrom v (h.offered f late) := by
  refine r.move (.adjust (fun g => if late = true ∧ g.tag = f.tag then { g with lensLate := true } else g) (fun g => ?_) fun g => ?_) ?_
  · split
    · exact ⟨⟨rfl, rfl, rfl, rfl, id⟩, rfl, id⟩
    · exact .refl g
  · split <;> rfl
  · have slots : (h.offered f late).shot.flights.map (·.tag) = h.shot.flights.map (·.tag) := by
      rw [shot_offered, List.map_map]
      refine List.map_congr_left fun x _ => ?_
      dsimp only [Function.comp]
      split <;> rfl
    unfold Hub.images
    rw [slots, store_offered, (onlyIn_offered f late h).delivery (by decide)]

theorem offerTrigger (f : Flight) (late : Bool) (r : ImagesFrom v h) : ImagesFrom v (h.offerTrigger f late) := by
  have offered := (r.offered f late).offerWord f.port (.trigger f.tag f.exposure)
  have run : h.offerTrigger f late =
      match (((h.offered f late).links.get f.port).offer (.trigger f.tag f.exposure)).2 with
      | some t => ((h.offered f late).offerWord f.port (.trigger f.tag f.exposure)).triggerNotSent t
      | none => (h.offered f late).offerWord f.port (.trigger f.tag f.exposure) := rfl
  rw [run]
  split
  · exact offered.triggerNotSent _
  · exact offered

theorem triggerSent (t : FrameTag) (r : ImagesFrom v h) : ImagesFrom v (h.triggerSent t) := by
  cases found : h.shot.flights.find? (fun x => x.tag == t && x.stage == .offered) with
  | none =>
    unfold Hub.triggerSent
    rw [found]
    exact r
  | some f =>
    rw [triggerSent_eq found]
    refine r.move (.expose t (Frame.expose h f.port) (fun _ => ⟨rfl, rfl, rfl, rfl, id⟩) (fun _ => rfl) fun _ => rfl) ?_
    simp only [Hub.images, List.filter_map]
    rfl

theorem lensReady (p : Port) (r : ImagesFrom v h) : ImagesFrom v (h.lensReady p) := r.foldl _ (fun _ x k => k.offerTrigger x false) _

theorem lensAbandoned (p : Port) (r : ImagesFrom v h) : ImagesFrom v (h.lensAbandoned p) :=
  iteInduction (fun _ => r.lensReady p) fun _ => r.endFlights p _

theorem abandon (p : Port) (r : ImagesFrom v h) : ImagesFrom v (h.abandon p) :=
  (releaseSurge (h := (h.setDeferred (h.deferred.filter (· != p))).modRecord p LensRecord.abandoned) p r).lensAbandoned p

theorem endMove (p : Port) (st : MoveState) (c : DoneCause) (r : ImagesFrom v h) : ImagesFrom v (h.endMove p st c) := by
  have told (f : LensRecord → LensRecord) : ImagesFrom v (((h.modRecord p f).releaseSurge p).lensReady p) :=
    (releaseSurge (h := h.modRecord p f) p r).lensReady p
  unfold Hub.endMove
  dsimp only
  split
  · exact (told _).fire _ _
  · exact told _

theorem takeLensStatus (p : Port) (w : LensStatusWord) (r : ImagesFrom v h) : ImagesFrom v (h.takeLensStatus p w) := by
  have taken (c : Bool) (g : Hub) (k : ImagesFrom v g) : ImagesFrom v (if c = true then g.offerLensMove p else g) :=
    iteInduction (fun _ => k.still (by simp)) fun _ => k
  have recorded (f : LensRecord → LensRecord) (g : Hub) (k : ImagesFrom v g) : ImagesFrom v (g.modRecord p f) := k
  unfold Hub.takeLensStatus
  dsimp only
  split
  · exact r
  · split
    · exact r
    · split
      · split
        · exact (recorded _ _ (taken _ _ (recorded _ _ r))).endMove p _ _
        · exact recorded _ _ (taken _ _ (recorded _ _ r))
      · exact recorded _ _ (taken _ _ (recorded _ _ r))

/-! ## Slots that open (R90 to R92, R104) -/

/-- R90: a slot that passes its checks has a descriptor and pages for its frame, at a port without a FILLING frame. -/
theorem opens_of_pass {i : SlotIx} {x : SlotRecord} (pass : h.openingFault x = none) : (h.newFrame i x).Opens h.store.frames := by
  obtain ⟨off, out, busy, full, -⟩ := openingFault_eq x h
  have on : (h.power.get x.port).state = .on := by_contra fun k => by simp [off k] at pass
  have up : (h.links.get x.port).state = .up := by_contra fun k => by simp [out on k] at pass
  have free : ¬ ∃ f ∈ h.store.frames, f.port = x.port ∧ f.state = .filling := fun k => by simp [busy on up k] at pass
  obtain ⟨few, enough⟩ : ¬ 24 ≤ h.store.frames.length ∧ ¬ h.store.freePages < pagesNeeded x.lines x.lineBytes :=
    not_or.1 fun k => by simp [full on up free k] at pass
  obtain ⟨-, pages, distinct⟩ := takePages_spec (Nat.le_of_not_lt enough)
  have room := Nat.lt_of_not_le few
  exact
    { tag := tag_newFrame i x h room, room, distinct, free := pages, exposedAt := rfl, window := rfl, received := rfl
      alone := fun g mem port filling => free ⟨g, mem, port, filling⟩ }

theorem openSlot (i : SlotIx) (r : ImagesFrom v h) : ImagesFrom v (h.openSlot i) := by
  have stopped : ImagesFrom v (h.stopOpening i) := r
  cases active : h.shot.active with
  | none =>
    unfold Hub.openSlot
    rw [active]
    exact r
  | some tb =>
    rw [openSlot_eq active]
    generalize h.stopOpening i = g at stopped ⊢
    split
    · exact stopped.skipSlot i _ _ _
    · rename_i pass
      have flying : ImagesFrom v (g.flying i (tb.slots.get i)) := by
        refine stopped.move (.enter (opens_of_pass (i := i) pass)) ?_
        unfold Hub.images
        rw [shot_flying, store_flying, (onlyIn_flying _ _ _).delivery (by decide), List.map_append]
        rfl
      split_ifs
      · exact flying.offerTrigger _ _
      · exact flying
      · exact flying.offerTrigger _ _

theorem beginCycle (r : ImagesFrom v h) : ImagesFrom v h.beginCycle := by
  unfold Hub.beginCycle
  split
  · exact r
  · exact foldl _ (fun _ i k => k.openSlot i) _ (foldl (h := Hub.modShot _ _) _ (fun _ i k => k.issueSlotMove i) _ r)

theorem start (k : StartSource) (r : ImagesFrom v h) : ImagesFrom v (h.start k) := by
  unfold Hub.start
  split
  · exact r.beginCycle
  · exact fire (h := Hub.modShot _ _) _ _ r
  · exact r

theorem encoderEdge (x y : Bool) (r : ImagesFrom v h) : ImagesFrom v (h.encoderEdge x y) := by
  unfold Hub.encoderEdge
  dsimp only
  split
  · split
    · exact start (h := Hub.modShot _ _) _ r
    · exact r
  · exact r

theorem triggerLine (r : ImagesFrom v h) : ImagesFrom v h.triggerLine := iteInduction (fun _ => r.start _) fun _ => r

/-- R88: the slots in GUARD end. -/
theorem stopNow (r : ImagesFrom v h) : ImagesFrom v h.stopNow := by
  have halted : ImagesFrom v (h.modShot Shot.halt) := r
  have ended := (LostSlots.refl (h.shot.flights.map (·.tag)) (h.modShot Shot.halt)).foldl_endFlight .stopped h.shot.waiting fun x mem =>
    List.mem_map_of_mem (List.mem_filter.1 mem).1
  rw [stopNow_eq]
  exact (halted.lost ended).modShot _ (flights_applyPending _ _)

end Hub.ImagesFrom

end Sys2Proof.Machine
end

