-- ==== Sys2Proof/Proofs/ImagesLinksAndResets.lean ====
section
/-! PROOF. The images under LINE and EOF words, links, power, deliveries and resets. -/

namespace Sys2Proof.Machine

/-! ## Lines (R111, R112) -/

/-- R111, R112: a line's bytes are in the DRAM and its number in the received lines, before it is counted in its zone. -/
def Hub.withLine (f : Frame) (w : LineWord) (h : Hub) : Hub :=
  (h.modStore fun st =>
    { st with dram := Memory.writeRun f.pages st.dram (w.line.toNat * f.lineBytes) (placedBytes f.lineBytes w.payload) }).modFrame f.tag
    fun g => g.recordLine w.line.toNat (lineIsBad w f.lineBytes)

theorem placeLine_eq (p : Port) (f : Frame) (w : LineWord) (h : Hub) : h.placeLine p f w =
    if f.receivedCount + 1 = f.lines then ((h.withLine f w).countLine p (lineIsBad w f.lineBytes)).closeFrame f.tag p .complete
    else (h.withLine f w).countLine p (lineIsBad w f.lineBytes) := rfl

theorem onlyIn_countLine (p : Port) (bad : Bool) (h : Hub) : h.onlyIn [.zones, .router, .uplink, .draws] (h.countLine p bad) :=
  Hub.onlyIn_of_hide (by simp)

theorem frames_withLine (f : Frame) (w : LineWord) (h : Hub) : (h.withLine f w).store.frames =
    h.store.frames.map (Frame.onTag f.tag fun g => g.recordLine w.line.toNat (lineIsBad w f.lineBytes)) := rfl

/-! ## Descriptors of a FIFO (R128, R131, R132) -/

/-- R108: descriptors released one after the other. -/
theorem store_foldl_releaseFrame (l : List FrameTag) (h : Hub) :
    (l.foldl (fun h t => h.releaseFrame t) h).store = h.store.without l ∧
      h.onlyIn [.store, .router, .uplink, .draws] (l.foldl (fun h t => h.releaseFrame t) h) := by
  induction l generalizing h with
  | nil => exact ⟨(Store.without_nil _).symm, Hub.onlyIn_refl _ h⟩
  | cons t l ih =>
    obtain ⟨store, parts⟩ := ih (h.releaseFrame t)
    refine ⟨?_, Hub.onlyIn_trans (onlyIn_releaseFrame t h) parts⟩
    rw [List.foldl_cons, store, store_releaseFrame, Store.without_append]
    rfl

/-- A delivery FIFO replaced. -/
theorem fifo_modDelivery (p q : Port) (f : Delivery → Delivery) (h : Hub) :
    ((h.modDelivery p f).delivery.get q).fifo = if q = p then (f (h.delivery.get p)).fifo else (h.delivery.get q).fifo := by
  rw [modDelivery_delivery, PerPort.get_mod]
  split <;> rfl

namespace Hub.ImagesFrom

variable {v : Images} {h : Hub}

/-! ## Words -/

/-- R111 to R113: a line in the frame's range that is not among the received ones. -/
theorem placeLine {p : Port} {f : Frame} {w : LineWord} (found : h.store.filling? p = some f) (triggered : f.triggered = true)
    (inside : w.line.toNat < f.lines) (new : ∀ q ∈ f.received, q.1 ≠ w.line.toNat) (r : ImagesFrom v h) :
    ImagesFrom v (h.placeLine p f w) := by
  obtain ⟨mem, port, filling⟩ := filling?_spec found
  have placed : ImagesFrom v (h.withLine f w) := r.move (.place _ mem inside new (Memory.wf_writeRun _ _ _ _)) rfl
  have counted := onlyIn_countLine p (lineIsBad w f.lineBytes) (h.withLine f w)
  rw [placeLine_eq]
  split
  · refine (placed.other counted).closeFrame .complete ⟨f.recordLine w.line.toNat (lineIsBad w f.lineBytes), ?_, rfl, port, filling, .inl triggered⟩
    rw [counted.store, frames_withLine, ← Frame.onTag_of_eq (t := f.tag) rfl fun g => g.recordLine w.line.toNat (lineIsBad w f.lineBytes)]
    exact List.mem_map_of_mem mem
  · exact placed.other counted

theorem takeLine (p : Port) (w : LineWord) (r : ImagesFrom v h) : ImagesFrom v (h.takeLine p w) := by
  unfold Hub.takeLine
  dsimp only
  split
  · exact r
  · rename_i f found
    split_ifs with stray long twice
    · exact r
    · exact r.modFrame _ (fun _ => ⟨⟨rfl, rfl, rfl, rfl, id⟩, rfl, id⟩) fun _ => rfl
    · exact r
    · refine r.placeLine found ?_ (Nat.lt_of_not_le long) fun q mem same => twice (List.any_eq_true.2 ⟨q, mem, by simpa using same⟩)
      exact (by simpa using stray : f.triggered = true ∧ f.tag = w.tag).1

theorem takeEof (p : Port) (w : EofWord) (r : ImagesFrom v h) : ImagesFrom v (h.takeEof p w) := by
  unfold Hub.takeEof
  split
  · exact r
  · rename_i f found
    obtain ⟨mem, port, filling⟩ := filling?_spec found
    split
    · rename_i both
      have counted : ImagesFrom v (h.modFrame f.tag fun g => { g with eofCount := some w.lines.toNat }) :=
        r.modFrame _ (fun _ => ⟨⟨rfl, rfl, rfl, rfl, id⟩, rfl, id⟩) fun _ => rfl
      refine counted.closeFrame .eofShort ⟨{ f with eofCount := some w.lines.toNat }, ?_, rfl, port, filling, .inl ?_⟩
      · exact List.mem_map.2 ⟨f, mem, if_pos (beq_self_eq_true f.tag)⟩
      · exact (Bool.and_eq_true_iff.1 both).1
    · exact r

/-! ## Links (R8 to R18) -/

theorem linkChange (p : Port) (c : LinkCause) (r : ImagesFrom v h) : ImagesFrom v (h.linkChange p c) := r.other (onlyIn_linkChange p c h)

theorem enterAcquire (p : Port) (rate : Rate) (c : LinkCause) (r : ImagesFrom v h) : ImagesFrom v (h.enterAcquire p rate c) :=
  (((offerWord (h := h.modLink p (Link.toAcquire rate h.now)) p _ r).reportUnsent _).linkChange p c).abandon p

theorem linkStart (p : Port) (r : ImagesFrom v h) : ImagesFrom v (h.linkStart p) := r.still (by simp)

theorem linkStop (p : Port) (r : ImagesFrom v h) : ImagesFrom v (h.linkStop p) := by
  have down : ImagesFrom v (if (h.links.get p).state == .down then h
      else ((h.modLink p (Link.toDown h.now)).linkChange p .powerOff).reportUnsent (h.links.get p).unsent) :=
    iteInduction (fun _ => r) fun _ => (linkChange (h := h.modLink p (Link.toDown h.now)) p _ r).reportUnsent _
  exact (down.dropFilling p _ _).abandon p

theorem leaveOn (p : Port) (was : Bool) (r : ImagesFrom v h) : ImagesFrom v (h.leaveOn p was) :=
  iteInduction (fun _ => r.linkStop p) fun _ => r

theorem lockLostUp (p : Port) (r : ImagesFrom v h) : ImagesFrom v (h.lockLostUp p) := by
  have dropped : ImagesFrom v (h.dropOnLockLoss p) := (other (h := h.modLink p Link.loseLock) r (onlyIn_countDrop p _)).dropFilling p _ _
  rw [lockLostUp_eq]
  split
  · exact dropped.enterAcquire p _ _
  · exact reportUnsent (h := Hub.modLink p _ _) _ dropped

theorem takeHello (p : Port) (x : HelloWord) (r : ImagesFrom v h) : ImagesFrom v (h.takeHello p x) := by
  unfold Hub.takeHello
  split
  · exact r
  · dsimp only
    split
    · exact linkChange (h := Hub.buildLens p _ _) p _ (abandon (h := h.modLink p fun l => { l with camera := some (CameraRecord.ofHello x h.now) }) p r)
    · exact r.still (by simp)

theorem wordEnd (p : Port) (c : OnCable) (r : ImagesFrom v h) : ImagesFrom v (h.wordEnd p c) := by
  have gone : ImagesFrom v (h.wordGone p c) := by
    unfold Hub.wordGone
    split
    · split
      · exact r
      · exact triggerSent (h := h.modLink p Link.free) _ r
    · exact r
  unfold Hub.wordEnd
  dsimp only
  split
  · exact triggerNotSent (h := (h.wordGone p c).modLink p fun l => l.pump.1) _ gone
  · exact gone

/-! ## Power (R22 to R43) -/

theorem requestAuto (p : Port) (r : ImagesFrom v h) : ImagesFrom v (h.requestAuto p) := r.still (by simp)

theorem trip (p : Port) (c : TripCause) (r : ImagesFrom v h) : ImagesFrom v (h.trip p c) := by
  have left : ImagesFrom v ((h.modPower p (Power.trip c)).leaveOn p ((h.power.get p).state == .on)) :=
    leaveOn (h := h.modPower p (Power.trip c)) p _ r
  have served := (left.activate (.ofPort p .powerFault)).serveIfBelow h.reservedSum
  unfold Hub.trip
  dsimp only
  split
  · exact served.requestAuto p
  · exact served

theorem sample (p : Port) (n : Nat) (r : ImagesFrom v h) : ImagesFrom v (h.sample p n) := by
  unfold Hub.sample
  dsimp only
  split
  · exact trip (h := h.modPower p (Power.sampled n)) p _ r
  · exact r

theorem inrushEnd (p : Port) (r : ImagesFrom v h) : ImagesFrom v (h.inrushEnd p) :=
  iteInduction (fun _ => linkStart (h := h.modPower p Power.toOn) p r) fun _ => r.trip p _

theorem turnOff (p : Port) (r : ImagesFrom v h) : ImagesFrom v (h.turnOff p) :=
  (leaveOn (h := h.modPower p Power.toOff) p _ r).serveIfBelow _

theorem enterHunt (p : Port) (restore : Bool) (r : ImagesFrom v h) : ImagesFrom v (h.enterHunt p restore) :=
  (leaveOn (h := h.modPower p (Power.toHunt restore)) p _ r).serveIfBelow _

/-! ## Frames that leave their FIFO (R128, R131, R132) -/

/-- A FIFO loses tags, and their descriptors are released: no other FIFO listed them. -/
theorem unlist {b : Hub} {p : Port} {left gone : List FrameTag} (r : ImagesFrom v h) (fewer : left.Sublist (h.delivery.get p).fifo)
    (apart : (h.delivery.get p).fifo.Nodup → ∀ t ∈ left, t ∉ gone)
    (own : pagesLaw h.images.frames → h.images.Delivers → ∀ t ∈ gone, ∀ q, t ∈ (h.delivery.get q).fifo → q = p)
    (store : b.store = h.store.without gone) (shot : b.shot = h.shot)
    (fifo : ∀ q, (b.delivery.get q).fifo = if q = p then left else (h.delivery.get q).fifo) : ImagesFrom v b := by
  refine r.move (.release gone (fifo := fun q => (b.delivery.get q).fifo) (fun q => ?_) fun pages d q t listed k => ?_) ?_
  · rw [fifo]
    split
    · subst_vars
      exact fewer
    · exact .refl _
  · rw [fifo] at listed
    split at listed
    · exact apart (d.once p) t listed k
    · rename_i other
      exact other (own pages d t k q listed)
  · unfold Hub.images
    rw [store, shot]
    rfl

theorem loseSending (p : Port) (r : ImagesFrom v h) : ImagesFrom v (h.loseSending p) := by
  unfold Hub.loseSending
  split
  · rename_i t rest _ listed
    have parts := onlyIn_releaseFrame t (h.modDelivery p fun d =>
      { d with fifo := rest, progress := none, lost := satInc Config.max16 d.lost })
    refine r.unlist (p := p) (left := rest) (gone := [t]) ?_ ?_ ?_ (store_releaseFrame _ _) parts.shot fun q => ?_
    · rw [listed]
      exact List.sublist_cons_self t rest
    · rw [listed]
      exact fun once x mem k => (List.nodup_cons.1 once).1 (List.mem_singleton.1 k ▸ mem)
    · intro pages d x k q other
      obtain rfl := List.mem_singleton.1 k
      exact d.port_unique pages other (listed ▸ List.mem_cons_self : x ∈ (h.delivery.get p).fifo)
    · rw [parts.delivery, fifo_modDelivery]
  · exact r

/-- R128: a frame delivered or aborted. -/
theorem frameDelivered {f : Frame} (status : DeliveryStatus) (mem : f ∈ h.store.frames) (r : ImagesFrom v h) :
    ImagesFrom v (h.frameDelivered f status) := by
  unfold Hub.frameDelivered
  generalize change : (fun d : Delivery => ({ d with
      fifo := d.fifo.filter (· != f.tag)
      progress := none
      delivered := if status = .delivered then satInc Config.max16 d.delivered else d.delivered
      aborted := if status = .aborted then satInc Config.max16 d.aborted else d.aborted } : Delivery)) = left
  have parts := onlyIn_releaseFrame f.tag (h.modDelivery f.port left)
  refine r.unlist (p := f.port) (left := (h.delivery.get f.port).fifo.filter (· != f.tag)) (gone := [f.tag]) List.filter_sublist
    (fun _ t listed k => ?_) (fun pages d t k q listed => ?_) (store_releaseFrame _ _) parts.shot fun q => ?_
  · exact bne_iff_ne.1 (List.mem_filter.1 listed).2 (List.mem_singleton.1 k)
  · rw [List.mem_singleton.1 k] at listed
    exact (d.port_of_listed pages mem listed).1.symm
  · rw [parts.delivery, fifo_modDelivery, ← change]

theorem imageSent (frame : Option FrameTag) (closing : Option DeliveryStatus) (r : ImagesFrom v h) :
    ImagesFrom v (h.imageSent frame closing) := by
  unfold Hub.imageSent
  dsimp only
  refine finish ?_
  split
  · exact r
  · rename_i f found
    obtain ⟨t, -, found⟩ := Option.bind_eq_some_iff.1 found
    have off : ImagesFrom v ((h.modUplink fun u => { u with tx := none }).modDelivery f.port Delivery.offWire) := by
      refine r.same ?_
      have fifo (q : Port) := fifo_modDelivery f.port q Delivery.offWire (h.modUplink fun u => { u with tx := none })
      have kept (q : Port) : (if q = f.port then (Delivery.offWire (h.delivery.get f.port)).fifo else (h.delivery.get q).fifo) =
          (h.delivery.get q).fifo := by
        split
        · subst_vars
          rfl
        · rfl
      unfold Hub.images
      rw [funext fun q => (fifo q).trans (kept q)]
      rfl
    split
    · exact off.frameDelivered _ (frame?_spec found).1
    · exact off

/-! ## Resets -/

theorem portResetStore (p : Port) (r : ImagesFrom v h) : ImagesFrom v (h.portResetStore p) := by
  have released : ImagesFrom v (match h.store.filling? p with
      | some f => h.releaseFrame f.tag
      | none => h) := by
    split
    · rename_i f found
      exact r.releaseFilling found
    · exact r
  exact released

/-- R132: QUEUED frames leave the FIFO. -/
theorem portResetDelivery (p : Port) (r : ImagesFrom v h) : ImagesFrom v (h.portResetDelivery p) := by
  unfold Hub.portResetDelivery
  dsimp only
  have head : (if (h.delivery.get p).progress.isSome = true then (h.delivery.get p).fifo.take 1 else []) <+: (h.delivery.get p).fifo :=
    iteInduction (motive := (· <+: _)) (fun _ => List.take_prefix 1 _) fun _ => List.nil_prefix
  generalize (if (h.delivery.get p).progress.isSome = true then (h.delivery.get p).fifo.take 1 else []) = kept at head ⊢
  obtain ⟨store, parts⟩ := store_foldl_releaseFrame ((h.delivery.get p).fifo.drop kept.length) (h.modDelivery p fun d =>
    { d with
      fifo := kept, progress := d.progress.map fun g => { g with abort := true }
      hold := false, delivered := 0, aborted := 0, lost := 0 })
  refine r.unlist (p := p) (left := kept) head.sublist (fun once t here there => ?_) (fun pages d t mem q other => ?_) store parts.shot
    fun q => ?_
  · rw [← List.prefix_iff_eq_append.1 head] at once
    exact (List.nodup_append.1 once).2.2 t here t there rfl
  · exact d.port_unique pages other (List.mem_of_mem_drop mem)
  · rw [parts.delivery, fifo_modDelivery]

theorem portReset (p : Port) (r : ImagesFrom v h) : ImagesFrom v (h.portReset p) := by
  have lens : ImagesFrom v (((h.portResetStore p).endFlights p .power).portResetLens p) := ((r.portResetStore p).endFlights p .power).abandon p
  have power : ImagesFrom v ((((h.portResetStore p).endFlights p .power).portResetLens p).portResetDelivery p |>.portResetPower p) :=
    serveIfBelow (h := Hub.modPower p Power.portReset _) _ (lens.portResetDelivery p)
  refine power.still (b := h.portReset p) ?_
  unfold Hub.portReset Hub.portResetEcho Hub.portResetLink
  dsimp only
  split <;> (try simp) <;> split <;> simp

theorem autoResult (p : Port) (located : Bool) (r : ImagesFrom v h) : ImagesFrom v (h.autoResult p located) := r.still (by simp)

theorem hubResetEchoPort (p : Port) (r : ImagesFrom v h) : ImagesFrom v (h.hubResetEchoPort p) := by
  unfold Hub.hubResetEchoPort
  split
  · exact r
  · dsimp only
    split
    · exact autoResult p false r
    · exact r

/-- A reset leaves no frame and no FIFO entry. -/
theorem clear {b : Hub} (r : ImagesFrom v h) (frames : b.store.frames = []) (dram : b.store.dram = h.store.dram)
    (fifo : ∀ p, (b.delivery.get p).fifo = []) (slots : b.images.slots ⊆ h.images.slots) : ImagesFrom v b := by
  have release : h.images.Move { h.images with
      frames := h.images.frames.filter fun f => decide (f.tag ∉ h.images.frames.map (·.tag)), fifo := fun _ => [] } :=
    .release _ (fun _ => List.nil_sublist _) nofun
  have none : h.images.frames.filter (fun f => decide (f.tag ∉ h.images.frames.map (·.tag))) = [] :=
    List.filter_eq_nil_iff.2 fun f mem k => of_decide_eq_true k (List.mem_map_of_mem mem)
  have images : b.images = ⟨[], h.images.dram, fun _ => [], b.images.slots⟩ := by
    unfold Hub.images
    rw [frames, dram, funext fifo]
  rw [none] at release
  unfold ImagesFrom at r ⊢
  rw [images]
  exact (r.tail release).tail (.endSlots slots)

/-- R98, R121, R133: no slot, no frame and no FIFO entry stays. -/
theorem hubReset (r : ImagesFrom v h) : ImagesFrom v h.hubReset := by
  have shot : ImagesFrom v ((h.modRouter fun _ => {}).hubResetShot) := r.move (.endSlots (List.nil_subset _)) rfl
  have lens : ImagesFrom v ((h.modRouter fun _ => {}).hubResetShot).hubResetLens :=
    foldl (h := Hub.setDeferred [] _) _ (fun _ p k => k.abandon p) allPorts shot
  have cleared (g : Hub) (k : ImagesFrom v g) : ImagesFrom v g.hubResetStore.hubResetDelivery :=
    k.clear rfl rfl (fun p => by rw [Hub.hubResetDelivery, PerPort.get_map]) (List.Subset.refl _)
  have echo (g : Hub) (k : ImagesFrom v g) : ImagesFrom v g.hubResetEcho := k.foldl _ (fun _ p k => k.hubResetEchoPort p) allPorts
  have rest (g : Hub) (k : ImagesFrom v g) : ImagesFrom v (g.hubResetPower.hubResetLink.modUplink Uplink.hubReset) := k
  exact rest _ (echo _ (cleared _ lens))

theorem pinReset (r : ImagesFrom v h) : ImagesFrom v h.pinReset :=
  r.clear rfl (pinReset_dram h) (fun p => congrArg Delivery.fifo (PerPort.get_all _ p)) (List.nil_subset _)

end Hub.ImagesFrom

end Sys2Proof.Machine
end

