-- ==== Sys2Proof/Proofs/StoreKept.lean ====
section
/-! PROOF. O4 and O10: every command and event is a run of moves, so each law of the frame store that every move keeps is kept by every step. -/

namespace Sys2Proof.Machine

/-! ## Commands that change no part with images -/

theorem still_powerOn (p : Port) (h : Hub) : (powerOn p h).hub.hide stillParts = h.hide stillParts := by
  unfold powerOn
  dsimp only
  (repeat' split) <;> simp [refuse]

theorem still_powerSetup (c : Cmd) (p : Port) (h : Hub) : (powerSetup c p h).hub.hide stillParts = h.hide stillParts := by
  unfold powerSetup
  dsimp only
  (repeat' split) <;> simp [refuse]

theorem still_budgetSet (c : Cmd) (h : Hub) : (budgetSet c h).hub.hide stillParts = h.hide stillParts := by
  unfold budgetSet
  dsimp only
  (repeat' split) <;> simp [refuse]

theorem still_presetGo (p : Port) (k : Fin 16) (h : Hub) : (presetGo p k h).hub.hide stillParts = h.hide stillParts := by
  unfold presetGo
  split <;> simp [refuse, moveAnswer]

theorem still_lensPush (p : Port) (h : Hub) : (lensPush p h).hub.hide stillParts = h.hide stillParts := by
  unfold lensPush
  dsimp only
  (repeat' split) <;> simp [refuse]

theorem still_lensPop (p : Port) (h : Hub) : (lensPop p h).hub.hide stillParts = h.hide stillParts := by
  unfold lensPop
  (repeat' split) <;> simp [refuse, moveAnswer]

theorem still_lensMove (c : Cmd) (p : Port) (h : Hub) : (lensMove c p h).hub.hide stillParts = h.hide stillParts := by
  unfold lensMove
  (repeat' split) <;> simp [refuse, moveAnswer]

theorem still_lensStatus (p : Port) (h : Hub) : (lensStatus p h).hub.hide stillParts = h.hide stillParts := by
  unfold lensStatus
  dsimp only
  split <;> simp

theorem still_zoneClear (c : Cmd) (p : Port) (h : Hub) : (zoneClear c p h).hub.hide stillParts = h.hide stillParts := by
  unfold zoneClear
  dsimp only
  (repeat' split) <;> simp [refuse]

theorem still_echoSetup (c : Cmd) (p : Port) (h : Hub) : (echoSetup c p h).hub.hide stillParts = h.hide stillParts := by
  unfold echoSetup
  dsimp only
  (repeat' split) <;> simp [refuse]

theorem still_cableMapWrite (c : Cmd) (p : Port) (h : Hub) : (cableMapWrite c p h).hub.hide stillParts = h.hide stillParts := by
  unfold cableMapWrite
  dsimp only
  (repeat' split) <;> simp [refuse]

theorem still_baselineLearn (p : Port) (h : Hub) : (baselineLearn p h).hub.hide stillParts = h.hide stillParts := by
  unfold baselineLearn
  (repeat' split) <;> simp [refuse]

theorem still_baselineWrite (c : Cmd) (p : Port) (h : Hub) : (baselineWrite c p h).hub.hide stillParts = h.hide stillParts := by
  unfold baselineWrite
  dsimp only
  (repeat' split) <;> simp [refuse]

theorem still_baselineRead (p : Port) (h : Hub) : (baselineRead p h).hub.hide stillParts = h.hide stillParts := by
  unfold baselineRead
  (repeat' split) <;> simp [refuse]

theorem still_uplinkStatus (c : Cmd) (h : Hub) : (uplinkStatus c h).hub.hide stillParts = h.hide stillParts := by
  unfold uplinkStatus
  dsimp only
  split <;> simp

theorem still_routeSet (c : Cmd) (src : Source) (h : Hub) : (routeSet c src h).hub.hide stillParts = h.hide stillParts := by
  unfold routeSet Hub.setTag Hub.setMask
  dsimp only
  (repeat' split) <;> simp [refuse]

namespace Hub.ImagesFrom

variable {v : Images} {h : Hub}

/-! ## How a command is taken -/

theorem discard (c : DiscardCause) (r : ImagesFrom v h) : ImagesFrom v (h.discard c) := r.still (by simp)

theorem takeCommand {kind : Nat} {c : Cmd} {ok : Bool} {body : Hub → Answer} (r : ImagesFrom v h) (k : ImagesFrom v (body h).hub) :
    ImagesFrom v (h.takeCommand kind c ok body) := by
  have answered : ImagesFrom v (if ok then body h else refuse .badLength h).hub := by
    split
    · exact k
    · exact r
  unfold Hub.takeCommand
  dsimp only
  split
  · exact r
  · split
    · exact (r.discard _).finish
    · exact finish (h := Hub.sendReply _ _ _ _ _) answered

theorem withPort {c : Cmd} {body : Port → Hub → Answer} (r : ImagesFrom v h) (k : ∀ p, ImagesFrom v (body p h).hub) :
    ImagesFrom v (withPort c body h).hub := by
  unfold Machine.withPort
  split
  · exact k _
  · exact r

theorem withFlags {ok : Bool} {body : Hub → Answer} (r : ImagesFrom v h) (k : ImagesFrom v (body h).hub) :
    ImagesFrom v (withFlags ok body h).hub := by
  unfold Machine.withFlags
  split
  · exact k
  · exact r

theorem withPreset {n : Nat} {body : Fin 16 → Hub → Answer} (r : ImagesFrom v h) (k : ∀ i, ImagesFrom v (body i h).hub) :
    ImagesFrom v (withPreset n body h).hub := by
  unfold Machine.withPreset
  split
  · exact k _
  · exact r

theorem withSource {c : Cmd} {n : Nat} {body : Source → Hub → Answer} (r : ImagesFrom v h) (k : ∀ src, ImagesFrom v (body src h).hub) :
    ImagesFrom v (withSource c n body h).hub := by
  unfold Machine.withSource
  split
  · exact r.withPort fun p => k _
  · split
    · exact k _
    · exact r
  · exact r

/-! ## Commands that end slots or reach the shot table, the frame store and delivery -/

theorem linkRetrain (p : Port) (r : ImagesFrom v h) : ImagesFrom v (linkRetrain p h).hub := by
  unfold Machine.linkRetrain
  dsimp only
  split
  · exact r
  · exact (enterAcquire (h := h.modLink p fun x => { x with locked := false }) p _ _ r).dropFilling p _ _
  · exact r.enterAcquire p _ _

theorem powerOff (p : Port) (r : ImagesFrom v h) : ImagesFrom v (powerOff p h).hub := by
  unfold Machine.powerOff
  split
  · exact r
  · exact serveIfBelow (h := Hub.modPower p _ h) _ r
  · exact r.turnOff p

theorem queueJob (p : Port) (k : EchoKind) (r : ImagesFrom v h) : ImagesFrom v (h.queueJob p k) := r.still (by simp)

theorem hunt (c : Cmd) (p : Port) (r : ImagesFrom v h) : ImagesFrom v (hunt c p h).hub := by
  unfold Machine.hunt
  dsimp only
  split_ifs
  · exact r
  · exact r
  · exact r
  · exact (r.enterHunt p _).queueJob p _

theorem slotWrite (c : Cmd) (r : ImagesFrom v h) : ImagesFrom v (slotWrite c h).hub := by
  unfold Machine.slotWrite writeSlot
  dsimp only
  split_ifs <;> exact r

theorem tableHeader (c : Cmd) (r : ImagesFrom v h) : ImagesFrom v (tableHeader c h).hub := by
  unfold Machine.tableHeader
  split <;> exact r

theorem tableCommit (r : ImagesFrom v h) : ImagesFrom v (tableCommit h).hub := by
  unfold Machine.tableCommit
  split
  · exact r
  · exact r.modShot _ (flights_commit _ _)

theorem tableRead (c : Cmd) (r : ImagesFrom v h) : ImagesFrom v (tableRead c h).hub := by
  unfold Machine.tableRead
  split <;> exact r

theorem cycleRun (r : ImagesFrom v h) : ImagesFrom v (cycleRun h).hub := by
  unfold Machine.cycleRun
  split <;> exact r

theorem cycleFire (r : ImagesFrom v h) : ImagesFrom v (cycleFire h).hub := by
  unfold Machine.cycleFire
  split
  · exact r.start _
  · exact r.start _
  · exact r

theorem cycleStop (c : Cmd) (r : ImagesFrom v h) : ImagesFrom v (cycleStop c h).hub := by
  unfold Machine.cycleStop
  split
  · exact r
  · split
    · exact r
    · exact r
    · split
      · exact r
      · exact r.stopNow

theorem cycleStatus (c : Cmd) (r : ImagesFrom v h) : ImagesFrom v (Machine.cycleStatus c h).hub := by
  have drawn : ImagesFrom v h.cycleStatus.1 := by
    unfold Hub.cycleStatus
    dsimp only
    split <;> split <;> exact r
  unfold Machine.cycleStatus
  dsimp only
  split <;> exact drawn

theorem storeSetup (c : Cmd) (r : ImagesFrom v h) : ImagesFrom v (storeSetup c h).hub := by
  have marked : ImagesFrom v (h.modStore fun st => { st with lowMark := min Config.pageCount (u16At c.payload 0) }) := r
  exact marked.still (by simp [Machine.storeSetup])

theorem storeStatus (c : Cmd) (r : ImagesFrom v h) : ImagesFrom v (storeStatus c h).hub := by
  unfold Machine.storeStatus
  dsimp only
  split <;> exact r

/-- R129: the hold flag leaves the FIFOs. -/
theorem setHold (b : Bool) (p : Port) (r : ImagesFrom v h) : ImagesFrom v (Machine.setHold b p h).hub := by
  refine r.same ?_
  have fifo (q : Port) : ((Machine.setHold b p h).hub.delivery.get q).fifo = (h.delivery.get q).fifo :=
    PerPort.get_mod_attr Delivery.fifo (fun d => { d with hold := b }) h.delivery p q rfl
  unfold Hub.images
  rw [funext fifo]
  rfl

theorem deliveryStatus (c : Cmd) (r : ImagesFrom v h) : ImagesFrom v (Machine.deliveryStatus c h).hub := by
  unfold Machine.deliveryStatus
  dsimp only
  split
  · refine r.same ?_
    unfold Hub.images
    simp only [PerPort.get_map]
  · exact r

theorem pose (c : Cmd) (r : ImagesFrom v h) : ImagesFrom v (pose c h).hub := by
  unfold Machine.pose
  dsimp only
  split
  · exact r
  · split
    · exact r
    · dsimp only [Hub.applyPose]
      exact r.foldl (fun g (q : Port × Zone) => g.modZone q.1 _) (fun _ _ k => k) _

theorem eventAck (c : Cmd) (r : ImagesFrom v h) : ImagesFrom v (eventAck c h).hub := by
  have acked (src : Source) (g : Hub) (k : ImagesFrom v g) : ImagesFrom v (g.ackEntry src) :=
    iteInduction (fun _ => other (h := g.modEntry src fun e => { e with awaiting := false }) k (Hub.repliedTo_offerReport src true _).1)
      fun _ => k
  unfold Machine.eventAck
  dsimp only
  split
  · exact r
  · exact r.foldl _ (fun g src k => acked src g k) _

end Hub.ImagesFrom

/-! ## The commands, by host kind -/

/-- The images of an outcome's state come from those of the state before by moves. -/
structure movesImages (s : State) (r : Result) : Prop where
  run : ∀ t, r = .next t → Hub.ImagesFrom s.toHub.images t.toHub

section Instructions

variable {s : State}

open Hub (ImagesFrom)

theorem movesImages_next {h : Hub} (k : ImagesFrom s.toHub.images h) : movesImages s (s.next h) where
  run t e := by
    rw [(State.next_eq.1 e).1]
    exact k

theorem movesImages_same : movesImages s (s.next s.toHub) := movesImages_next (.refl _)

theorem movesImages_command {kind : Nat} {c : Cmd} {ok : Bool} {body : Hub → Answer} (k : ImagesFrom s.toHub.images (body s.toHub).hub) :
    movesImages s (s.next (s.toHub.takeCommand kind c ok body)) := movesImages_next ((ImagesFrom.refl _).takeCommand k)

/-- A command whose block changes parts without images. -/
theorem movesImages_still {kind : Nat} {c : Cmd} {ok : Bool} {body : Hub → Answer}
    (k : (body s.toHub).hub.hide stillParts = s.toHub.hide stillParts) : movesImages s (s.next (s.toHub.takeCommand kind c ok body)) :=
  movesImages_command ((ImagesFrom.refl _).still k)

theorem movesImages_port {kind : Nat} {c : Cmd} {ok : Bool} {body : Port → Hub → Answer}
    (k : ∀ p, ImagesFrom s.toHub.images (body p s.toHub).hub) : movesImages s (s.next (s.toHub.takeCommand kind c ok (withPort c body))) :=
  movesImages_command ((ImagesFrom.refl _).withPort k)

/-- A command of a port whose block changes parts without images. -/
theorem movesImages_portStill {kind : Nat} {c : Cmd} {ok : Bool} {body : Port → Hub → Answer}
    (k : ∀ p, (body p s.toHub).hub.hide stillParts = s.toHub.hide stillParts) :
    movesImages s (s.next (s.toHub.takeCommand kind c ok (withPort c body))) := movesImages_port fun p => (ImagesFrom.refl _).still (k p)

/-- Every command is a run of moves. -/
theorem movesImages_hostCommand {i : Instr} (host : (hostCommand i).isSome = true) : movesImages s (exec i s) := by
  have r := ImagesFrom.refl s.toHub
  cases i with
  | linkRetrain c => exact movesImages_port fun p => r.linkRetrain p
  | linkSetup c => exact movesImages_port fun _ => r
  | portInfo c => exact movesImages_port fun _ => r
  | portReset c => exact movesImages_port fun p => r.portReset p
  | powerOn c => exact movesImages_portStill fun p => still_powerOn p _
  | powerOff c => exact movesImages_port fun p => r.powerOff p
  | powerSetup c => exact movesImages_port fun p => r.withFlags (r.still (still_powerSetup c p _))
  | budgetSet c => exact movesImages_still (still_budgetSet c _)
  | powerStatus c => exact movesImages_port fun _ => r
  | presetWrite c => exact movesImages_port fun _ => r.withFlags (r.withPreset fun _ => r)
  | presetRead c => exact movesImages_port fun _ => r.withPreset fun _ => r
  | presetGo c => exact movesImages_port fun p => r.withPreset fun k => r.still (still_presetGo p k _)
  | lensPush c => exact movesImages_portStill fun p => still_lensPush p _
  | lensPop c => exact movesImages_portStill fun p => still_lensPop p _
  | lensMove c => exact movesImages_port fun p => r.withFlags (r.still (still_lensMove c p _))
  | lensSetup c => exact movesImages_port fun _ => r
  | lensStatus c => exact movesImages_portStill fun p => still_lensStatus p _
  | slotWrite c => exact movesImages_command (r.withFlags (r.slotWrite c))
  | tableHeader c => exact movesImages_command (r.tableHeader c)
  | tableCommit c => exact movesImages_command r.tableCommit
  | tableRead c => exact movesImages_command (r.tableRead c)
  | cycleRun c => exact movesImages_command r.cycleRun
  | cycleFire c => exact movesImages_command r.cycleFire
  | cycleStop c => exact movesImages_command (r.cycleStop c)
  | cycleStatus c => exact movesImages_command (r.withFlags (r.cycleStatus c))
  | timeSet c => exact movesImages_command r
  | timeRead c => exact movesImages_command r
  | storeSetup c => exact movesImages_command (r.storeSetup c)
  | storeStatus c => exact movesImages_command (r.withFlags (r.storeStatus c))
  | imageHold c => exact movesImages_port fun p => r.setHold true p
  | imageResume c => exact movesImages_port fun p => r.setHold false p
  | deliveryStatus c => exact movesImages_command (r.withFlags (r.deliveryStatus c))
  | pose c => exact movesImages_command (r.pose c)
  | zoneSetup c => exact movesImages_port fun _ => r
  | zoneRead c => exact movesImages_port fun _ => r
  | zoneClear c => exact movesImages_portStill fun p => still_zoneClear c p _
  | echoSetup c => exact movesImages_portStill fun p => still_echoSetup c p _
  | cableMapWrite c => exact movesImages_portStill fun p => still_cableMapWrite c p _
  | cableMapRead c => exact movesImages_port fun _ => r
  | baselineLearn c => exact movesImages_portStill fun p => still_baselineLearn p _
  | baselineWrite c => exact movesImages_portStill fun p => still_baselineWrite c p _
  | baselineRead c => exact movesImages_portStill fun p => still_baselineRead p _
  | echoResult c => exact movesImages_port fun _ => r.withFlags r
  | hunt c => exact movesImages_port fun p => r.withFlags (r.hunt c p)
  | hubReset c => exact movesImages_command r.hubReset
  | identify c => exact movesImages_command r
  | uplinkStatus c => exact movesImages_command (r.withFlags (r.still (still_uplinkStatus c _)))
  | routeSet c => exact movesImages_command (r.withFlags (r.withSource fun src => r.still (still_routeSet c src _)))
  | routeRead c => exact movesImages_command (r.withSource fun _ => r)
  | eventAck c => exact movesImages_command (r.eventAck c)
  | _ => cases host

theorem movesImages_takeByKind (kind : Byte) (c : Cmd) : movesImages s (takeByKind kind c s) := by
  rcases takeByKind_eq kind c s with refused | ⟨i, host, taken⟩
  · rw [refused]
    exact movesImages_command (.refl _)
  · rw [taken]
    exact movesImages_hostCommand host

theorem movesImages_recordDiscard (raw : List Byte) : movesImages s (execRecordDiscard raw s) := by
  have r := ImagesFrom.refl s.toHub
  unfold execRecordDiscard
  split_ifs
  · exact movesImages_same
  · exact movesImages_next (r.discard _).finish
  · split
    · exact movesImages_next (r.discard _).finish
    · exact movesImages_takeByKind _ _

end Instructions

/-! ## The events -/

namespace Hub.ImagesFrom

variable {v : Images} {h : Hub}

theorem linkUp (r : ImagesFrom v h) : ImagesFrom v h.linkUp :=
  finish (foldl (h := h.modUplink _) _ (fun _ _ k => k.still (by simp)) _ r)

theorem linkDown (r : ImagesFrom v h) : ImagesFrom v h.linkDown := by
  have recordLost (g : Hub) (x : CtrlRec) (k : ImagesFrom v g) : ImagesFrom v (g.recordLost x) := by
    cases x with
    | reply _ => exact k
    | report src n _ => exact k.still (b := g.reportLost src n) (by simp)
  exact foldl _ (fun _ p k => k.loseSending p) _ (foldl (h := h.modUplink _) _ recordLost _ r)

theorem acquireFailed (p : Port) (r : ImagesFrom v h) : ImagesFrom v (h.acquireFailed p) :=
  (linkChange (h := h.modLink p (Link.toFailed h.now)) p _ r).abandon p

theorem lockGained (p : Port) (r : ImagesFrom v h) : ImagesFrom v (h.lockGained p) := by
  unfold Hub.lockGained
  split
  · exact r
  · exact finish (h := Hub.modLink p _ h) r
  · exact r

theorem lockLost (p : Port) (r : ImagesFrom v h) : ImagesFrom v (h.lockLost p) := by
  unfold Hub.lockLost
  split
  · exact r
  · exact (r.lockLostUp p).finish
  · exact r

theorem hello (p : Port) (x : HelloWord) (r : ImagesFrom v h) : ImagesFrom v (h.hello p x) :=
  iteInduction (fun _ => (r.takeHello p x).finish) fun _ => r

theorem line (p : Port) (x : LineWord) (r : ImagesFrom v h) : ImagesFrom v (h.line p x) :=
  iteInduction (fun _ => (r.takeLine p x).finish) fun _ => r

theorem eof (p : Port) (x : EofWord) (r : ImagesFrom v h) : ImagesFrom v (h.eof p x) :=
  iteInduction (fun _ => (r.takeEof p x).finish) fun _ => r

theorem lensWord (p : Port) (x : LensStatusWord) (r : ImagesFrom v h) : ImagesFrom v (h.lensWord p x) :=
  iteInduction (fun _ => (r.takeLensStatus p x).finish) fun _ => r

theorem rawWord (p : Port) (raw : List Byte) (r : ImagesFrom v h) : ImagesFrom v (h.rawWord p raw) := by
  unfold Hub.rawWord
  split
  · split <;> exact r
  · exact r.hello p _
  · exact r.line p _
  · exact r.eof p _
  · exact r.lensWord p _

theorem lookForJob (r : ImagesFrom v h) : ImagesFrom v h.lookForJob := r.still (by simp)

theorem completeJob (j : EchoJob) (r : ImagesFrom v h) : ImagesFrom v (h.completeJob j) := r.still (by simp)

end Hub.ImagesFrom

section Events

open Hub (ImagesFrom)

variable {s : State}

theorem movesImages_acquireTimeout (p : Port) : movesImages s (execAcquireTimeout p s) := by
  unfold execAcquireTimeout
  split
  · exact movesImages_next (((ImagesFrom.refl _).elapse _).acquireFailed p).finish
  · exact movesImages_same

theorem movesImages_relockExpire (p : Port) : movesImages s (execRelockExpire p s) := by
  unfold execRelockExpire
  split
  · exact movesImages_next (((ImagesFrom.refl _).elapse _).enterAcquire p _ _).finish
  · exact movesImages_same

theorem movesImages_uplinkUp : movesImages s (execUplinkUp s) := by
  unfold execUplinkUp
  split
  · exact movesImages_same
  · exact movesImages_next (ImagesFrom.refl _).linkUp

theorem movesImages_uplinkDown : movesImages s (execUplinkDown s) := by
  unfold execUplinkDown
  split
  · exact movesImages_next (ImagesFrom.refl _).linkDown
  · exact movesImages_same

theorem movesImages_controlRecordSent : movesImages s (execControlRecordSent s) := by
  unfold execControlRecordSent
  split
  · exact movesImages_next (ImagesFrom.finish (h := s.toHub.modUplink _) (.refl s.toHub))
  · exact movesImages_same

theorem movesImages_imageRecordSent : movesImages s (execImageRecordSent s) := by
  unfold execImageRecordSent
  split
  · exact movesImages_next ((ImagesFrom.refl _).imageSent _ _)
  · exact movesImages_same

theorem movesImages_downstreamWordEnd (p : Port) : movesImages s (execDownstreamWordEnd p s) := by
  unfold execDownstreamWordEnd
  split
  · exact movesImages_next (((ImagesFrom.refl _).elapse _).wordEnd p _).finish
  · exact movesImages_same

theorem movesImages_inrushExpire (p : Port) : movesImages s (execInrushExpire p s) := by
  unfold execInrushExpire
  split
  · exact movesImages_next (((ImagesFrom.refl _).elapse _).inrushEnd p).finish
  · exact movesImages_same

theorem movesImages_cooldownExpire (p : Port) : movesImages s (execCooldownExpire p s) := by
  unfold execCooldownExpire
  split
  · rename_i left _ _
    have passed := (ImagesFrom.refl s.toHub).elapse left
    exact movesImages_next (ImagesFrom.finish (iteInduction (fun _ => passed) fun _ => passed))
  · exact movesImages_same

theorem movesImages_onTimerExpire (p : Port) : movesImages s (execOnTimerExpire p s) := by
  unfold execOnTimerExpire
  split
  · exact movesImages_next ((ImagesFrom.refl s.toHub).elapse _)
  · exact movesImages_same

theorem movesImages_dischargeExpire (p : Port) : movesImages s (execDischargeExpire p s) := by
  unfold execDischargeExpire
  split
  · exact movesImages_next (ImagesFrom.lookForJob (h := Hub.modPower p _ _) ((ImagesFrom.refl s.toHub).elapse _))
  · exact movesImages_same

theorem movesImages_moveTimeout (p : Port) : movesImages s (execMoveTimeout p s) := by
  unfold execMoveTimeout
  split
  · split
    · exact movesImages_next (((ImagesFrom.refl _).elapse _).endMove p _ _).finish
    · exact movesImages_same
  · exact movesImages_same

theorem movesImages_spanExpire : movesImages s (execSpanExpire s) := by
  unfold execSpanExpire
  split
  · rename_i left _ _
    have ended := ((ImagesFrom.refl s.toHub).elapse left).modShot (Shot.endCycle s.time.position) (flights_applyPending s.time.position _)
    exact movesImages_next ended.finish
  · exact movesImages_same

theorem movesImages_slotOpen (k : SlotIx) : movesImages s (execSlotOpen k s) := by
  unfold execSlotOpen
  split
  · split
    · exact movesImages_same
    · exact movesImages_next (((ImagesFrom.refl _).elapse _).openSlot k).finish
  · exact movesImages_same

theorem movesImages_guardExpire (k : SlotIx) : movesImages s (execGuardExpire k s) := by
  unfold execGuardExpire
  split
  · exact movesImages_next (((ImagesFrom.refl _).elapse _).offerTrigger _ true).finish
  · exact movesImages_same

theorem movesImages_exposureEnd (k : SlotIx) : movesImages s (execExposureEnd k s) := by
  unfold execExposureEnd
  split
  · rename_i left _ _
    exact movesImages_next (ImagesFrom.issueNext (h := Hub.modShot _ _) k _ ((ImagesFrom.refl s.toHub).elapse left)).finish
  · exact movesImages_same

/-- R115: the frame whose window expires is FILLING, and its window runs. -/
theorem movesImages_frameWindowExpire (p : Port) : movesImages s (execFrameWindowExpire p s) := by
  unfold execFrameWindowExpire
  split
  · rename_i f found
    split
    · rename_i left runs
      obtain ⟨mem, port, filling⟩ := filling?_spec found
      refine movesImages_next (((ImagesFrom.refl s.toHub).elapse left).closeFrame .timeout ?_).finish
      exact ⟨_, List.mem_map_of_mem mem, rfl, port, filling, .inr (by simp [runs, Timer.pass])⟩
    · exact movesImages_same
  · exact movesImages_same

theorem movesImages_echoShot (samples : Vector (BitVec 12) 256) : movesImages s (execEchoShot samples s) := by
  unfold execEchoShot
  split
  · split
    · exact movesImages_next ((ImagesFrom.refl s.toHub).elapse _)
    · exact movesImages_same
  · exact movesImages_same

theorem movesImages_echoJobComplete : movesImages s (execEchoJobComplete s) := by
  unfold execEchoJobComplete
  split
  · split
    · exact movesImages_next (((ImagesFrom.refl _).elapse _).completeJob _).finish
    · exact movesImages_same
  · exact movesImages_same

/-! ## Every instruction -/

/-- Every instruction is a run of moves. -/
theorem movesImages_exec (i : Instr) (s : State) : movesImages s (exec i s) := by
  have r := ImagesFrom.refl s.toHub
  cases i with
  | uplinkUp => exact movesImages_uplinkUp
  | uplinkDown => exact movesImages_uplinkDown
  | controlRecordSent => exact movesImages_controlRecordSent
  | imageRecordSent => exact movesImages_imageRecordSent
  | encoderEdge x y => exact movesImages_next (r.encoderEdge x y).finish
  | triggerLineEdge => exact movesImages_next r.triggerLine.finish
  | currentSample p code => exact movesImages_next (r.sample p _).finish
  | inrushExpire p => exact movesImages_inrushExpire p
  | cooldownExpire p => exact movesImages_cooldownExpire p
  | onTimerExpire p => exact movesImages_onTimerExpire p
  | dischargeExpire p => exact movesImages_dischargeExpire p
  | lockGained p => exact movesImages_next (r.lockGained p)
  | lockLost p => exact movesImages_next (r.lockLost p)
  | acquireTimeout p => exact movesImages_acquireTimeout p
  | relockExpire p => exact movesImages_relockExpire p
  | helloWord p x => exact movesImages_next (r.hello p x)
  | lineWord p x => exact movesImages_next (r.line p x)
  | eofWord p x => exact movesImages_next (r.eof p x)
  | lensStatusWord p x => exact movesImages_next (r.lensWord p x)
  | undecodableWord p raw => exact movesImages_next (r.rawWord p raw)
  | downstreamWordEnd p => exact movesImages_downstreamWordEnd p
  | moveTimeout p => exact movesImages_moveTimeout p
  | spanExpire => exact movesImages_spanExpire
  | slotOpen k => exact movesImages_slotOpen k
  | guardExpire k => exact movesImages_guardExpire k
  | exposureEnd k => exact movesImages_exposureEnd k
  | frameWindowExpire p => exact movesImages_frameWindowExpire p
  | echoShot samples => exact movesImages_echoShot samples
  | echoJobComplete => exact movesImages_echoJobComplete
  | pinReset => exact movesImages_next r.pinReset
  | badKindRecord kind c => exact movesImages_takeByKind kind c
  | recordDiscard raw => exact movesImages_recordDiscard raw
  | _ => exact movesImages_hostCommand rfl

end Events

/-- Every step, idle or not, is a run of moves. -/
theorem imagesFrom_step {s t : State} (run : step s = .next t) : Hub.ImagesFrom s.toHub.images t.toHub := by
  unfold step at run
  split at run
  · rw [(State.next_eq.1 run).1]
    exact (Hub.ImagesFrom.refl s.toHub).elapse 1
  · rename_i i rest _
    exact (movesImages_exec i { s with pending := rest }).run t run

/-- Settles O4: of the moves only the placing of a line writes the DRAM, and a write keeps the canonical form. -/
theorem stepKeepsMemoryCanonical : Obligations.StepKeepsMemoryCanonical := fun _ _ kept run => (imagesFrom_step run).wf kept

/-- Settles O10: every step is a run of moves, and every move keeps each of the laws. -/
theorem stepKeepsStorePages : Obligations.StepKeepsStorePages := by
  intro s t run
  have r := imagesFrom_step run
  simp only [pagesKept_iff, fillingKept_iff, deliveryKept_iff, receivedKept_iff]
  exact ⟨r.pages, r.filling, r.delivers, r.received⟩

end Sys2Proof.Machine
end

