-- ==== Sys2Proof/Proofs/FramesClosed.lean ====
section
/-! PROOF. O53: EOF words and the frame window. -/

namespace Sys2Proof.Machine

/-! ## The frame of a tag, changed -/

theorem Frame.onTag_eq (t : FrameTag) (g : Frame → Frame) : Frame.onTag t g = fun f => if f.tag = t then g f else f := funext fun f => by
  by_cases here : f.tag = t
  · rw [Frame.onTag_of_eq here, if_pos here]
  · rw [Frame.onTag_of_ne here, if_neg here]

/-- A change that keeps the tag, and another after it. -/
theorem Frame.map_onTag_onTag (t : FrameTag) (g k : Frame → Frame) (l : List Frame) (tag : ∀ f, (g f).tag = f.tag) :
    (l.map (Frame.onTag t g)).map (Frame.onTag t k) = l.map (Frame.onTag t fun f => k (g f)) := by
  rw [List.map_map]
  refine List.map_congr_left fun f _ => ?_
  by_cases here : f.tag = t
  · rw [Function.comp, Frame.onTag_of_eq here, Frame.onTag_of_eq ((tag f).trans here), Frame.onTag_of_eq here]
  · rw [Function.comp, Frame.onTag_of_ne here, Frame.onTag_of_ne here, Frame.onTag_of_ne here]

/-- R107: a frame closed QUEUED joins the tail of its port's FIFO. -/
theorem closeFrame_eq (t : FrameTag) (p : Port) (status : CloseStatus) (h : Hub) : h.closeFrame t p status =
    { h with
      delivery := h.delivery.mod p fun d => { d with fifo := d.fifo ++ [t] }
      store := { h.store with frames := h.store.frames.map (Frame.onTag t (Frame.closedAs status h.now)) } } := rfl

/-! ## O53 -/

/-- R107, R114: a frame closed, with the line count that an EOF gave it. -/
def Hub.closesWith (p : Port) (f : Frame) (status : CloseStatus) (eof : Option Nat) (h : Hub) : Hub :=
  { h with
    delivery := h.delivery.mod p fun d => { d with fifo := d.fifo ++ [f.tag] }
    store := { h.store with
      frames := h.store.frames.map fun g =>
        if g.tag = f.tag then
          { g with
            state := .queued, window := none, closeStatus := some status, closeTime := some h.time.cellTime
            eofCount := eof.or g.eofCount }
        else g } }

theorem closesWith_none (p : Port) (f : Frame) (status : CloseStatus) (h : Hub) :
    h.closesWith p f status none = h.closeFrame f.tag p status := by
  rw [closeFrame_eq, Frame.onTag_eq]
  rfl

/-- R114: the line count is written before the frame is closed. -/
theorem closesWith_some (p : Port) (f : Frame) (status : CloseStatus) (n : Nat) (h : Hub) :
    h.closesWith p f status (some n) = (h.modFrame f.tag fun g => { g with eofCount := some n }).closeFrame f.tag p status := by
  have combined := Frame.onTag_eq f.tag fun g => Frame.closedAs status h.now { g with eofCount := some n }
  have frames := (Frame.map_onTag_onTag f.tag (fun g => { g with eofCount := some n }) (Frame.closedAs status h.now) h.store.frames
    fun _ => rfl).trans (congrArg (List.map · h.store.frames) combined)
  exact congrArg (fun l => { h with
    delivery := h.delivery.mod p fun d => { d with fifo := d.fifo ++ [f.tag] }, store := { h.store with frames := l } }) frames.symm

/-- R6, R114: an EOF word taken in UP. -/
theorem happens_eofWord {p : Port} {w : EofWord} {s : State} {h : Hub} (up : (s.links.get p).state = .up) (taken : s.toHub.takeEof p w = h) :
    happens (.eofWord p w) s h := by
  have run : s.toHub.eof p w = h.finish := by
    unfold Hub.eof
    rw [if_pos (by simp [up]), taken]
  exact happens_finish (congrArg s.next run)

/-- R114: an EOF word that matches no triggered FILLING frame is dropped. -/
theorem takeEof_unmatched {p : Port} {w : EofWord} {h : Hub}
    (other : ∀ f, h.store.filling? p = some f → f.exposedAt = none ∨ f.tag ≠ w.tag) : h.takeEof p w = h := by
  unfold Hub.takeEof
  split
  · rfl
  · rename_i f found
    refine if_neg fun both => ?_
    obtain ⟨triggered, tag⟩ := Bool.and_eq_true_iff.1 both
    rcases other f found with never | ne
    · simp [Frame.triggered, never] at triggered
    · exact ne (beq_iff_eq.1 tag)

theorem takeEof_matched {p : Port} {w : EofWord} {f : Frame} {h : Hub} (found : h.store.filling? p = some f)
    (triggered : f.exposedAt.isSome = true) (tag : f.tag = w.tag) :
    h.takeEof p w = h.closesWith p f .eofShort (some w.lines.toNat) := by
  have both : (f.triggered && f.tag == w.tag) = true := Bool.and_eq_true_iff.2 ⟨triggered, beq_iff_eq.2 tag⟩
  unfold Hub.takeEof
  rw [found]
  dsimp only
  rw [if_pos both, closesWith_some]

/-- Settles O53: an EOF word is matched against the FILLING frame, and the window's expiry closes it; `Hub.closesWith` is what both leave. -/
theorem eofAndWindowCloseFrames : Obligations.EofAndWindowCloseFrames := by
  intro p w s closed
  refine ⟨fun out => ?_, fun f up found triggered tag => ?_, fun up other => ?_, fun f left found runs => ?_, fun idle => ?_⟩
  · have run : s.toHub.eof p w = s.toHub := if_neg (by simpa using out)
    exact congrArg s.next run
  · exact happens_eofWord up (takeEof_matched found triggered tag)
  · exact happens_eofWord up (takeEof_unmatched other)
  · have run : execFrameWindowExpire p s = s.next ((s.toHub.elapse left).closeFrame f.tag p .timeout).finish := by
      unfold execFrameWindowExpire
      rw [found]
      dsimp only
      rw [runs]
    rw [← closesWith_none] at run
    exact happens_finish run
  · show execFrameWindowExpire p s = s.next s.toHub
    unfold execFrameWindowExpire
    split
    · rename_i f found
      rw [idle f found]
    · rfl

end Sys2Proof.Machine
end

