-- ==== Sys2Proof/Proofs/LinePlaced.lean ====
section
/-! PROOF. O52: LINE words. What a line written leaves in the store, what its count leaves in the zone, and the words that are dropped. -/

namespace Sys2Proof.Machine

/-! ## The bytes of a line (R111) -/

theorem length_placedBytes (b : Nat) (payload : List Byte) : (placedBytes b payload).length = b := by
  unfold placedBytes
  rw [List.length_append, List.length_take, List.length_replicate]
  omega

theorem getD_placedBytes {b k : Nat} (payload : List Byte) (inside : k < b) : (placedBytes b payload).getD k 0 = payload.getD k 0 := by
  unfold placedBytes
  simp only [List.getD_eq_getElem?_getD]
  by_cases sent : k < payload.length
  · rw [List.getElem?_append_left (by rw [List.length_take]; omega), List.getElem?_take_of_lt inside]
  · rw [List.getElem?_append_right (by rw [List.length_take]; omega), List.getElem?_eq_none (Nat.le_of_not_lt sent), List.getElem?_replicate]
    split <;> rfl

theorem pagesLaw.pages_nodup {l : List Frame} (law : pagesLaw l) {f : Frame} (mem : f ∈ l) : f.pages.Nodup :=
  (List.nodup_flatMap.1 law.1).1 f mem

theorem lineIsBad_eq (w : LineWord) (b : Nat) : lineIsBad w b = decide (w.payload.length ≠ b ∨ crc16 w.payload ≠ w.crc) := by
  unfold lineIsBad
  simp [bne, Bool.beq_eq_decide_eq]

/-! ## The line counted (R137, R140, R142) -/

/-- R137: what the counts of a bin are divided by before it counts one more line. -/
def Bin.half (b : Bin) : Nat := if b.lines = Config.max32 then 2 else 1

theorem Bin.countLine_eq (b : Bin) (bad : Bool) :
    b.countLine bad = { b with lines := b.lines / b.half + 1, bad := b.bad / b.half + (if bad then 1 else 0) } := by
  unfold Bin.countLine Bin.halved Bin.half
  by_cases full : b.lines = Config.max32 <;> cases bad <;> simp [full]

/-- The bin of the port's current zone with one line more. -/
def Hub.countedBin (p : Port) (bad : Bool) (h : Hub) : Bin := ((h.zones.get p).bins.get (h.zones.get p).current).countLine bad

/-- R140: the bin becomes suspect by its rate. -/
def Hub.rateSuspects (p : Port) (bad : Bool) (h : Hub) : Prop :=
  bad = true ∧ ((h.zones.get p).bins.get (h.zones.get p).current).suspect = none ∧
    (h.zones.get p).setup.minLines ≤ (h.countedBin p bad).lines ∧ (h.zones.get p).setup.rateThreshold ≤ (h.countedBin p bad).rate

/-- The bin that is written, suspect. -/
def Hub.suspectBin (p : Port) (bad : Bool) (h : Hub) : Bin := { h.countedBin p bad with suspect := some (.rate, h.now) }

theorem rateSuspect_iff (p : Port) (bad : Bool) (h : Hub) :
    (bad && (h.countedBin p bad).rateSuspect (h.zones.get p).setup) = true ↔ h.rateSuspects p bad := by
  have kept : (h.countedBin p bad).suspect = ((h.zones.get p).bins.get (h.zones.get p).current).suspect :=
    (congrArg Bin.suspect (Bin.countLine_eq _ _) :)
  unfold Bin.rateSuspect Hub.rateSuspects
  rw [Bool.and_eq_true, Bool.and_eq_true, Bool.and_eq_true, Option.isNone_iff_eq_none, decide_eq_true_iff, decide_eq_true_iff, kept, and_assoc]

section Count

variable {p : Port} {bad : Bool} {h : Hub}

theorem countLine_suspect (k : h.rateSuspects p bad) :
    h.countLine p bad = (h.writeBin p (h.suspectBin p bad)).fire (.ofPort p .zoneSuspect)
      ((h.countedBin p bad).suspectDetail (h.zones.get p).current .rate h.now) := if_pos ((rateSuspect_iff p bad h).2 k)

theorem countLine_quiet (k : ¬ h.rateSuspects p bad) : h.countLine p bad = h.writeBin p (h.countedBin p bad) :=
  if_neg fun suspect => k ((rateSuspect_iff p bad h).1 suspect)

theorem zones_countLine_suspect (k : h.rateSuspects p bad) : (h.countLine p bad).zones = (h.writeBin p (h.suspectBin p bad)).zones := by
  rw [countLine_suspect k]
  exact (onlyIn_fire _ _ _).zones

/-- R187: a bin that does not become suspect, or whose source is masked, reports nothing. -/
theorem reports_countLine_silent (silent : ¬ h.rateSuspects p bad ∨ (h.router.entry (.ofPort p .zoneSuspect)).masked = true) :
    (h.countLine p bad).router = h.router ∧ (h.countLine p bad).uplink = h.uplink := by
  by_cases k : h.rateSuspects p bad
  · have masked : ((h.writeBin p (h.suspectBin p bad)).router.entry (.ofPort p .zoneSuspect)).masked = true := silent.resolve_left (· k)
    rw [countLine_suspect k, Hub.fire_masked _ _ _ masked]
    exact ⟨rfl, rfl⟩
  · rw [countLine_quiet k]
    exact ⟨rfl, rfl⟩

end Count

/-! ## The line placed (R111 to R113) -/

/-- R112, R113: the frame once a line is placed. -/
def Frame.placedWith (n : Nat) (bad last : Bool) (now : CellTime) (f : Frame) : Frame :=
  if last then (f.recordLine n bad).closedAs .complete now else f.recordLine n bad

section Place

variable {p : Port} {f : Frame} {w : LineWord} {h : Hub}

theorem placeLine_last (last : f.received.length + 1 = f.lines) :
    h.placeLine p f w = ((h.withLine f w).countLine p (lineIsBad w f.lineBytes)).closeFrame f.tag p .complete :=
  (placeLine_eq p f w h).trans (if_pos last)

theorem placeLine_more (more : ¬ f.received.length + 1 = f.lines) :
    h.placeLine p f w = (h.withLine f w).countLine p (lineIsBad w f.lineBytes) := (placeLine_eq p f w h).trans (if_neg more)

/-- R113: the close leaves what the count left elsewhere. -/
theorem onlyIn_placeLine_counted :
    ((h.withLine f w).countLine p (lineIsBad w f.lineBytes)).onlyIn [.store, .delivery] (h.placeLine p f w) := by
  by_cases last : f.received.length + 1 = f.lines
  · rw [placeLine_last last]
    exact Hub.onlyIn_of_hide (by simp)
  · rw [placeLine_more last]
    exact Hub.onlyIn_refl _ _

theorem store_placeLine : (h.placeLine p f w).store = { h.store with
    dram := Memory.writeRun f.pages h.store.dram (w.line.toNat * f.lineBytes) (placedBytes f.lineBytes w.payload)
    frames := h.store.frames.map (Frame.onTag f.tag
      (Frame.placedWith w.line.toNat (lineIsBad w f.lineBytes) (f.received.length + 1 = f.lines) h.now)) } := by
  have counted := onlyIn_countLine p (lineIsBad w f.lineBytes) (h.withLine f w)
  by_cases last : f.received.length + 1 = f.lines
  · have now : ((h.withLine f w).countLine p (lineIsBad w f.lineBytes)).now = h.now := congrArg Timebase.cellTime counted.time
    rw [placeLine_last last, closeFrame_eq, now, counted.store, frames_withLine, decide_eq_true last]
    have closed := Frame.map_onTag_onTag f.tag (fun g => g.recordLine w.line.toNat (lineIsBad w f.lineBytes)) (Frame.closedAs .complete h.now)
      h.store.frames fun _ => rfl
    exact congrArg (fun l => { h.store with
      dram := Memory.writeRun f.pages h.store.dram (w.line.toNat * f.lineBytes) (placedBytes f.lineBytes w.payload), frames := l }) closed
  · rw [placeLine_more last, counted.store, decide_eq_false last]
    rfl

theorem delivery_placeLine : (h.placeLine p f w).delivery =
    h.delivery.mod p fun d => { d with fifo := if f.received.length + 1 = f.lines then d.fifo ++ [f.tag] else d.fifo } := by
  have counted := onlyIn_countLine p (lineIsBad w f.lineBytes) (h.withLine f w)
  by_cases last : f.received.length + 1 = f.lines
  · rw [placeLine_last last, closeFrame_eq, counted.delivery]
    simp only [last, if_true]
    rfl
  · rw [placeLine_more last, counted.delivery]
    refine PerPort.ext_get fun q => ?_
    simp only [last, if_false]
    by_cases own : q = p
    · rw [own, PerPort.get_mod_same]
      rfl
    · rw [PerPort.get_mod_ne _ _ _ _ own]
      rfl

theorem zones_placeLine_suspect (k : h.rateSuspects p (lineIsBad w f.lineBytes)) :
    (h.placeLine p f w).zones = (h.writeBin p (h.suspectBin p (lineIsBad w f.lineBytes))).zones :=
  onlyIn_placeLine_counted.zones.trans (zones_countLine_suspect (h := h.withLine f w) k)

theorem zones_placeLine_quiet (k : ¬ h.rateSuspects p (lineIsBad w f.lineBytes)) :
    (h.placeLine p f w).zones = (h.writeBin p (h.countedBin p (lineIsBad w f.lineBytes))).zones :=
  onlyIn_placeLine_counted.zones.trans (congrArg Hub.zones (countLine_quiet (h := h.withLine f w) k) :)

/-- R142: a bin that becomes suspect fires ZONE_SUSPECT. -/
theorem fired_placeLine (k : h.rateSuspects p (lineIsBad w f.lineBytes)) :
    fired (.ofPort p .zoneSuspect) ((h.countedBin p (lineIsBad w f.lineBytes)).suspectDetail (h.zones.get p).current .rate h.now) h
      (h.placeLine p f w) := by
  have written : Hub.Reports (· ≠ .ofPort p .zoneSuspect) h ((h.withLine f w).writeBin p (h.suspectBin p (lineIsBad w f.lineBytes))) := .rest rfl rfl
  have closed : Hub.Reports (· ≠ .ofPort p .zoneSuspect) ((h.withLine f w).countLine p (lineIsBad w f.lineBytes)) (h.placeLine p f w) :=
    (Hub.Reports.refl _).other onlyIn_placeLine_counted
  rw [countLine_suspect (h := h.withLine f w) k] at closed
  exact fired_of_fire written.undisturbed closed.undisturbed

theorem reports_placeLine_silent
    (silent : ¬ h.rateSuspects p (lineIsBad w f.lineBytes) ∨ (h.router.entry (.ofPort p .zoneSuspect)).masked = true) :
    (h.placeLine p f w).router = h.router ∧ (h.placeLine p f w).uplink = h.uplink := by
  obtain ⟨router, uplink⟩ := reports_countLine_silent (h := h.withLine f w) silent
  exact ⟨onlyIn_placeLine_counted.router.trans router, onlyIn_placeLine_counted.uplink.trans uplink⟩

end Place

/-! ## The words that are dropped (R110) -/

section Take

variable {p : Port} {w : LineWord} {s : State} {h : Hub}

/-- R6, R110: a LINE word taken in UP. -/
theorem happens_lineWord (up : (s.links.get p).state = .up) (taken : s.toHub.takeLine p w = h) : happens (.lineWord p w) s h := by
  have run : s.toHub.line p w = h.finish := by
    unfold Hub.line
    rw [if_pos (by simp [up]), taken]
  exact happens_finish (congrArg s.next run)

/-- R110: a line of no frame of the port is counted. -/
theorem takeLine_stray (other : ∀ f, h.store.filling? p = some f → f.exposedAt = none ∨ f.tag ≠ w.tag) :
    h.takeLine p w = h.modStore fun st => { st with strays := st.strays.mod p fun k => min 65535 (k + 1) } := by
  unfold Hub.takeLine
  split
  · rfl
  · rename_i f found
    refine if_pos ?_
    rcases other f found with never | ne
    · simp [Frame.triggered, never]
    · simp [ne]

variable {f : Frame} (found : h.store.filling? p = some f) (triggered : f.exposedAt.isSome = true) (tag : f.tag = w.tag)
include found triggered tag

/-- R110: a line of the FILLING frame meets the two checks of its number. -/
theorem takeLine_matched : h.takeLine p w =
    if f.lines ≤ w.line.toNat then h.modFrame f.tag fun g => { g with overlong := true }
    else if f.received.any (·.1 == w.line.toNat) then
      h.modStore fun st => { st with duplicates := st.duplicates.mod p fun k => min 65535 (k + 1) }
    else h.placeLine p f w := by
  unfold Hub.takeLine
  rw [found]
  exact if_neg (by simp [Frame.triggered, triggered, tag])

theorem takeLine_overlong (long : f.lines ≤ w.line.toNat) : h.takeLine p w = h.modFrame f.tag fun g => { g with overlong := true } :=
  (takeLine_matched found triggered tag).trans (if_pos long)

theorem takeLine_duplicate (inside : w.line.toNat < f.lines) {b : Bool} (twice : (w.line.toNat, b) ∈ f.received) :
    h.takeLine p w = h.modStore fun st => { st with duplicates := st.duplicates.mod p fun k => min 65535 (k + 1) } := by
  rw [takeLine_matched found triggered tag, if_neg (Nat.not_le.2 inside)]
  exact if_pos (List.any_eq_true.2 ⟨_, twice, beq_self_eq_true w.line.toNat⟩)

theorem takeLine_placed (inside : w.line.toNat < f.lines) (new : ∀ q ∈ f.received, q.1 ≠ w.line.toNat) :
    h.takeLine p w = h.placeLine p f w := by
  rw [takeLine_matched found triggered tag, if_neg (Nat.not_le.2 inside)]
  refine if_neg fun twice => ?_
  obtain ⟨q, mem, same⟩ := List.any_eq_true.1 twice
  exact new q mem (beq_iff_eq.1 same)

end Take

/-! ## O52 -/

/-- R112, R113: the descriptors once the line is placed, with the fields of the FILLING frame as it was. -/
theorem frames_placed {l : List Frame} (law : pagesLaw l) {f : Frame} (mem : f ∈ l) (filling : f.state = .filling) (n : Nat) (bad : Bool)
    (now : CellTime) : l.map (Frame.onTag f.tag (Frame.placedWith n bad (f.received.length + 1 = f.lines) now)) = l.map fun g =>
      if g.tag = f.tag then
        { g with
          received := insertLine n bad f.received, badLines := f.badLines || bad
          badList := if bad = true ∧ f.badList.length < 64 then f.badList ++ [n] else f.badList
          window := if f.received.length + 1 = f.lines then none else f.window
          closeStatus := if f.received.length + 1 = f.lines then some .complete else f.closeStatus
          closeTime := if f.received.length + 1 = f.lines then some now else f.closeTime
          state := if f.received.length + 1 = f.lines then .queued else .filling }
      else g := by
  refine List.map_congr_left fun g other => ?_
  by_cases same : g.tag = f.tag
  · obtain rfl := eq_of_tag law other mem same
    rw [Frame.onTag_of_eq rfl, if_pos rfl]
    unfold Frame.placedWith Frame.recordLine
    by_cases last : g.received.length + 1 = g.lines <;> simp [last, Frame.closedAs, filling]
  · rw [Frame.onTag_of_ne same, if_neg same]

/-- Settles O52: the cases of `Hub.takeLine`; a line that passes the checks of R110 leaves `Hub.placeLine`. -/
theorem lineWordPlacedOrDropped : Obligations.LineWordPlacedOrDropped := by
  intro p w s n
  refine ⟨fun out => ?_, fun up => ⟨fun none => ?_, fun f found other => ?_, fun f found triggered tag long => ?_,
    fun f b found triggered tag inside twice => ?_, fun f found triggered tag inside new canonical pages => ?_⟩⟩
  · have run : s.toHub.line p w = s.toHub := if_neg (by simpa using out)
    exact congrArg s.next run
  · exact happens_lineWord up (takeLine_stray fun f found => by rw [none] at found; cases found)
  · refine happens_lineWord up (takeLine_stray fun g found' => ?_)
    obtain rfl := Option.some.inj (found.symm.trans found')
    exact other
  · exact happens_lineWord up (takeLine_overlong found triggered tag long)
  · exact happens_lineWord up (takeLine_duplicate found triggered tag inside twice)
  · obtain ⟨mem, port, filling⟩ := filling?_spec found
    have law : pagesLaw s.store.frames := (pagesKept_iff s).1 pages
    have wf : Memory.wf s.store.dram := (memoryKept_iff s).1 canonical
    have fresh : ∀ q ∈ f.received, q.1 ≠ n := fun q mem same => new q.2 (same ▸ mem)
    have counted := Bin.countLine_eq ((s.zones.get p).bins.get (s.zones.get p).current) (lineIsBad w f.lineBytes)
    have stored := store_placeLine (p := p) (f := f) (w := w) (h := s.toHub)
    rw [← lineIsBad_eq]
    intro bad last z setup old half bin rate suspect entry
    have suspect_iff : suspect ↔ s.toHub.rateSuspects p bad := by
      unfold Hub.rateSuspects Hub.countedBin Bin.rate
      rw [counted]
      rfl
    refine ⟨s.toHub.placeLine p f w, insertLine n bad f.received, happens_lineWord up (takeLine_placed found triggered tag inside fresh),
      Hub.onlyIn_of_hide (by simp), fun k a inside place => ?_, fun a outside => ?_, fun q => mem_insertLine n bad f.received,
      length_insertLine n bad f.received, insertLine_ascending n bad f.received fresh, ?_, delivery_placeLine, fun k => ?_, fun k => ?_,
      fun k => ?_, fun silent => ?_⟩
    · rw [stored, ← getD_placedBytes w.payload inside]
      exact Memory.read_writeRun f.pages (law.pages_nodup mem) _ _ _ _ _ wf (by rwa [length_placedBytes]) place
    · rw [stored]
      exact Memory.read_writeRun_other f.pages _ a _ _ wf fun k below => outside k (by rwa [length_placedBytes] at below)
    · rw [stored, frames_placed law mem filling]
      rfl
    · rw [zones_placeLine_suspect (suspect_iff.1 k)]
      unfold Hub.suspectBin Hub.countedBin
      rw [counted]
      rfl
    · rw [zones_placeLine_quiet (mt suspect_iff.2 k)]
      unfold Hub.countedBin
      rw [counted]
      rfl
    · have fires := fired_placeLine (f := f) (w := w) (suspect_iff.1 k)
      unfold Hub.countedBin at fires
      rw [counted] at fires
      exact fires
    · exact reports_placeLine_silent (silent.imp_left (mt suspect_iff.2))

end Sys2Proof.Machine
end
